-- ==== Sys2Proof/Word.lean ====
section
/-! DEFINITION. The bit types of the GY-2416: line bytes, class masks, the 16 loop states of a concentrator, the CRC.
Everything else the manual counts in whole numbers and is a Nat. -/

namespace Sys2Proof

/-- One byte on a Yard Link line (R24). -/
abbrev Byte := BitVec 8

/-- A class mask: class c in bit c (R165). -/
abbrev ClassMask := BitVec 8

/-- The 16 loop states of one concentrator, loop index i in bit i (R163). -/
abbrev LoopBits := BitVec 16

/-- The 16-bit CRC of a frame (R25). -/
abbrev Crc := BitVec 16

end Sys2Proof
end

