-- ==== Sys2Proof/Config.lean ====
section
/-! DEFINITION. What the part fixes (capacities) and the free values: bytes of replies, table reads and notices whose
value the manual does not state. -/

namespace Sys2Proof

/-- The places in replies, table entries and notices for which the manual states no value (log 17). -/
inductive OpenByte where
  /-- place number of QUERY VEHICLE for a place without a number (R164) -/
  | placeNumber
  /-- position of QUERY VEHICLE for a place without a position (R164) -/
  | placePosition
  /-- byte i of the call time of a duty without one, QUERY DUTY (R164) -/
  | callTime (i : Nat)
  /-- stage index of a wash lane without one, QUERY WASH (R164) -/
  | stageIndex
  /-- control mode byte of QUERY WASH: the manual gives the modes no code; n is 0 for AUTO, 1 for MANUAL, 2 where no
  station holds the role (R164) -/
  | controlMode (n : Nat)
  /-- age in minutes of a lane entry whose entry time is later than the present time, QUERY LANE (R164); i is the
  entry's position -/
  | entryAge (i : Nat)
  /-- byte i after the header of an empty entry, TABLE_READ; n counts the entries of the reply (R165) -/
  | emptyEntry (n i : Nat)
  /-- header of an empty settings place, whose lowest bit alone is used, TABLE_READ (R151, R165) -/
  | emptySetting (n : Nat)
  /-- place number of a notice without a place; i is its position in the batch (R165) -/
  | noticePlace (i : Nat)
deriving DecidableEq, Repr

/-- FREE VALUE (log 17): the byte sent at the open place `p`, at the `n`-th reply or batch that uses one. No body: no
proof can know it. -/
opaque Config.openByte (n : Nat) (p : OpenByte) : Byte

/-- FREE VALUE (log 40): the percent that a "vehicle present" report stands for when its value field lies above 255, where
the manual states none (R5, R163). No body: no proof can know it. -/
opaque Config.openPercent (value : Nat) : Byte

namespace Config

/-- Good frames one ingress queue holds (R26). -/
def ingressCap : Nat := 8
/-- Frames the field egress queue holds (R27). -/
def fieldEgressCap : Nat := 16
/-- Free slots a forwarded office frame asks for (R27). -/
def forwardReserve : Nat := 4
/-- Slots of the office egress queue (R29). -/
def officeEgressCap : Nat := 16
/-- The arbiter's run count stops here (R30). -/
def runLimit : Nat := 4
/-- Notices the Notice Queue holds (R157). -/
def noticeCap : Nat := 32
/-- Notices of one batch (R158). -/
def batchCap : Nat := 5
/-- Entries of one lane list, and entries plus pending vehicles (R44). -/
def laneCap : Nat := 16
/-- Vehicles of one pending list (R44). -/
def pendingCap : Nat := 4
/-- Vehicles of the apron list (R45). -/
def apronCap : Nat := 16
/-- Entries of the departing list (R57). -/
def departingCap : Nat := 8
/-- Vehicles of the fuel queue and of the wash queue (R85, R103). -/
def queueCap : Nat := 16
/-- Concentrators the loop map may name (R46). -/
def concentratorCap : Nat := 8
/-- Stations of role BOARD (R31). -/
def boardCap : Nat := 4
/-- Lines of a board image (R130). -/
def boardLines : Nat := 12
/-- The office computer's address (00_scope 4.4). -/
def officeAddress : Nat := 240
/-- Ticks of 10 ms in a second and in a minute (R136, R144). -/
def second : Nat := 100
def minute : Nat := 6000
/-- Ticks after which a commit times out: 4 s (R152). -/
def commitTicks : Nat := 400
/-- The departure of a vehicle with none (00_scope 4.3, R69). -/
def noDeparture : Nat := 1440
/-- DESIGN CHOICE (log 11): evaluations and rounds one step runs before it leaves the rest to the next. -/
def roundBound : Nat := 4096

end Config

end Sys2Proof
end

