-- ==== Sys2Proof/Syntax.lean ====
section
/-! DEFINITION. The commands of the GY-2416: one constructor for each row of spec/opcode_table.json, in its order.
A row that takes a frame has no operand of its own: it takes the frame at the head of its port's ingress queue (R26,
log 2). The operands left are those of the pins, the lines and the timers. -/

namespace Sys2Proof

/-- The two Yard Link ports (00_scope 2.1). -/
inductive Port where
  | field
  | office
deriving DecidableEq, Repr

inductive Instr where
  /-- POWER_ON_RESET (R153) -/
  | powerOnReset (rate1 rate0 : Bool)
  /-- RX_BYTE (R24) -/
  | rxByte (port : Port) (byte : Byte)
  /-- RECEIVE_GAP_TIMEOUT (R24) -/
  | receiveGapTimeout (port : Port)
  /-- TAG_READ (R60) -/
  | tagRead
  /-- LOOP_STATE (R47) -/
  | loopState
  /-- DEBOUNCE_EXPIRY (R47) -/
  | debounceExpiry (mouth : Nat)
  /-- STUCK_TIMER_EXPIRY (R48) -/
  | stuckTimerExpiry (mouth : Nat)
  /-- SILENCE_TIMER_EXPIRY (R49) -/
  | silenceTimerExpiry (station : Nat)
  /-- PENDING_TIMEOUT (R56) -/
  | pendingTimeout (lane : Nat)
  /-- TRANSIT_TIMEOUT (R58) -/
  | transitTimeout
  /-- VEHICLE_PRESENT (R89) -/
  | vehiclePresent
  /-- NOZZLE_LIFTED (R91) -/
  | nozzleLifted
  /-- METER_COUNT (R92) -/
  | meterCount
  /-- NOZZLE_HUNG (R94) -/
  | nozzleHung
  /-- ISLAND_CLEAR (R95) -/
  | islandClear
  /-- ISLAND_REPORT_FAULT (R96) -/
  | islandReportFault
  /-- ARRIVAL_TIMER_EXPIRY (R88) -/
  | arrivalTimerExpiry (island : Nat)
  /-- AUTHORISATION_TIMER_EXPIRY (R91) -/
  | authorisationTimerExpiry (island : Nat)
  /-- FLOW_STALL_TIMER_EXPIRY (R93) -/
  | flowStallTimerExpiry (island : Nat)
  /-- VEHICLE_IN_POSITION (R106) -/
  | vehicleInPosition
  /-- STAGE_DONE (R109) -/
  | stageDone
  /-- LANE_CLEAR (R110) -/
  | laneClear
  /-- WASH_REPORT_FAULT (R112) -/
  | washReportFault
  /-- CALL_TIMER_EXPIRY (R105) -/
  | callTimerExpiry (washLane : Nat)
  /-- STAGE_TIMER_EXPIRY (R111) -/
  | stageTimerExpiry (washLane : Nat)
  /-- UNPROCESSED_FIELD_FRAME (R32) -/
  | unprocessedFieldFrame
  /-- OFFICE_FRAME_TO_FIELD (R36) -/
  | officeFrameToField
  /-- BAD_KIND_COMMAND (R40) -/
  | badKindCommand
  /-- TABLE_OPEN (R146) -/
  | tableOpen
  /-- TABLE_DATA (R147) -/
  | tableData
  /-- TABLE_READ (R151) -/
  | tableRead
  /-- COMMIT (R152) -/
  | commit
  /-- COMMIT_COMPLETE (R152) -/
  | commitComplete
  /-- COMMIT_TIMEOUT (R152) -/
  | commitTimeout
  /-- BANK_ACTIVATE_AT_ROLLOVER (R134) -/
  | bankActivateAtRollover
  /-- BANK_ACTIVATE_NOW (R134) -/
  | bankActivateNow
  /-- BANK_ACTIVATE_CANCEL (R134) -/
  | bankActivateCancel
  /-- TIME (R137) -/
  | time
  /-- CENSUS (R64) -/
  | census
  /-- LANE_SET_OPEN (R65) -/
  | laneSetOpen
  /-- LANE_SET_CLOSE (R65) -/
  | laneSetClose
  /-- LANE_SET_DECLARE_EMPTY (R65) -/
  | laneSetDeclareEmpty
  /-- VEHICLE_SET_OUT_OF_SERVICE (R20) -/
  | vehicleSetOutOfService
  /-- VEHICLE_SET_CLEAR_OUT_OF_SERVICE (R21) -/
  | vehicleSetClearOutOfService
  /-- VEHICLE_SET_MARK_UNLOCATED (R22) -/
  | vehicleSetMarkUnlocated
  /-- VEHICLE_SET_SEND_TO_FUEL (R23) -/
  | vehicleSetSendToFuel
  /-- VEHICLE_SET_SEND_TO_WASH (R23) -/
  | vehicleSetSendToWash
  /-- DUTY_CANCEL (R131) -/
  | dutyCancel
  /-- DUTY_CALL (R132) -/
  | dutyCall
  /-- STATION_RESUME (R39) -/
  | stationResume
  /-- QUERY_VEHICLE (R159) -/
  | queryVehicle
  /-- QUERY_LANE (R159) -/
  | queryLane
  /-- QUERY_DUTY (R159) -/
  | queryDuty
  /-- QUERY_ISLAND (R159) -/
  | queryIsland
  /-- QUERY_WASH (R159) -/
  | queryWash
  /-- QUERY_QUEUES (R159) -/
  | queryQueues
  /-- QUERY_CALLS (R159) -/
  | queryCalls
  /-- QUERY_STATUS (R160) -/
  | queryStatus
  /-- YARD_CLEAR (R161) -/
  | yardClear
  /-- FIELD_EGRESS_SEND (R27) -/
  | fieldEgressSend
  /-- OFFICE_EGRESS_SEND (R30) -/
  | officeEgressSend
  /-- NOTICE_HOLD_EXPIRY (R158) -/
  | noticeHoldExpiry
  /-- YARD_SECOND_ADVANCE (R136) -/
  | yardSecondAdvance
  /-- HOLDOVER_TIMER_EXPIRY (R141) -/
  | holdoverTimerExpiry
deriving DecidableEq, Repr

end Sys2Proof
end

