-- ==== Sys2Proof/Decode.lean ====
section
/-! DEFINITION. The command table gives no row any bits (spec/opcode_table.json: every row's fields are empty), so no
word spells a command. The Yard Link's own encodings are in Machine/Operands.lean and Machine/Link.lean. -/

namespace Sys2Proof

/-- The command a word spells by the table's bits: none, because no row gives bits. -/
def decodeTableWord (_nbits _w : Nat) : Option Instr := none

end Sys2Proof
end

