-- ==== Sys2Proof/Machine/State.lean ====
section
/-! DEFINITION. The state of the GY-2416 as plain data, the two reason types, and the state after a power-on reset of a
part whose store was never committed. -/

namespace Sys2Proof.Machine

/-! ## Reasons to stop -/

/-- The manual gives the part no stop: every step it lists ends in a next state, and what it cannot accept it discards
or answers with a REFUSED reply (R24, R25, R40, R41). So no command raises a fault. Safe. -/
inductive Fault where
deriving DecidableEq, Repr

/-- Why a command has no meaning. -/
inductive Refusal where
  /-- A command whose meaning is not written: raised by Dispatch's refused arms alone (there is none now). Safe. -/
  | notModelled (mnemonic : String)
deriving DecidableEq, Repr

/-! ## Tables and times -/

/-- A table: its full places in rising index (R145). A place not listed is empty. -/
abbrev Table (α : Type) := List (Nat × α)

/-- A yard time (00_scope 4.3). -/
structure YTime where
  day : Nat
  second : Nat
deriving DecidableEq, Repr

/-! ## Vehicle Table (chapter 1) -/

/-- The twelve vehicle states, in the order of R8's table. -/
inductive VehState where
  | absent | unlocated | fuelWait | fuelling | washWait | washing | stowPending | stowWait | apron | parked | called
  | departing
deriving DecidableEq, Repr

/-- The table fields of a vehicle record (R1). -/
structure RosterEntry where
  fleet : Nat
  cls : Nat
  length : Nat
  outOfService : Bool
deriving DecidableEq, Repr

/-- A vehicle record (R1). Its place is not a field: R8 says it always names the vehicle's present position, so it is
computed from the holders (`placeOf`, log 8). -/
structure Vehicle where
  entry : RosterEntry
  state : VehState
  /-- fuel level in litres, none when unknown -/
  level : Option Nat
  daysSinceWash : Nat
  /-- paired duty of the active bank -/
  duty : Option Nat
  fuelSkipped : Bool
  fuelDone : Bool
  washIncomplete : Bool
  washDone : Bool
  missedCalls : Nat
  since : YTime
deriving DecidableEq, Repr

/-- A class entry (R4). -/
structure ClassEntry where
  tank : Nat
  reserve : Nat
  spareFuel : Nat
  washInterval : Nat
  washProgram : Nat
deriving DecidableEq, Repr

/-! ## Frames and ports (chapter 2) -/

/-- A good frame: its length byte is the length of the payload, and its CRC is the one computed over it (R25). -/
structure Frame where
  dest : Byte
  src : Byte
  kind : Byte
  payload : List Byte
deriving DecidableEq, Repr

/-- The header fields collected before the payload (R24). -/
structure Header where
  dest : Byte
  src : Byte
  kind : Byte
  length : Byte
deriving DecidableEq, Repr

/-- The receive assembly of a port and the bytes it has collected (R24). -/
inductive Assembly where
  | hunt
  /-- the header bytes taken so far, fewer than four -/
  | header (got : List Byte)
  /-- the payload bytes taken so far, fewer than the length -/
  | body (h : Header) (got : List Byte)
  /-- the payload is complete; the first CRC byte when it has come -/
  | check (h : Header) (payload : List Byte) (high : Option Byte)
deriving DecidableEq, Repr

/-- The receiving side of one port (R24, R26). -/
structure RxPort where
  assembly : Assembly
  /-- good frames in order of completion, at most 8 -/
  ingress : List Frame
deriving DecidableEq, Repr

/-- The four link rates, as the pins RATE1 and RATE0 select them (11.5). -/
structure Rate where
  rate1 : Bool
  rate0 : Bool
deriving DecidableEq, Repr

/-- The receiving side of both ports. -/
structure Rx where
  field : RxPort
  office : RxPort
  rate : Rate
deriving DecidableEq, Repr

/-- The blocks that issue own frames (R27). -/
inductive Block where
  | vehicleTable | fuelTurn | washSequencer | departure
deriving DecidableEq, Repr

/-- The stand a call was made from (R129). -/
inductive Stand where
  | lane (n : Nat)
  | apron
  | exit
deriving DecidableEq, Repr

/-- A board line of the call list (R129): its fields are fixed when the duty joins the list. -/
structure BoardLine where
  duty : Nat
  fleet : Nat
  departure : Nat
  stand : Stand
  verify : Bool
deriving DecidableEq, Repr

/-- One line of a board image (R130): as last placed, or marked unsent by STATION_RESUME (R39). -/
inductive ImageLine where
  | unsent
  | empty
  | line (l : BoardLine)
deriving DecidableEq, Repr

/-- A frame waiting in field egress; own says it was issued by the part (R27). -/
structure FieldItem where
  frame : Frame
  own : Bool
deriving DecidableEq, Repr

/-- A held own frame (R28); image is the line number and line of a BOARD_LINE, which the image takes at placing (R130). -/
structure Held where
  block : Block
  frame : Frame
  image : Option (Nat × ImageLine)
deriving DecidableEq, Repr

/-- The three classes of office egress (R29). -/
inductive OfficeClass where
  | reply | batch | forwarded
deriving DecidableEq, Repr

structure OfficeItem where
  cls : OfficeClass
  frame : Frame
deriving DecidableEq, Repr

/-! ## Notices (chapter 10) -/

/-- The 35 notice kinds, in the order of their codes 1..35 (R165). -/
inductive NoticeKind where
  | unknownVehicle | relocated | fuelSkipped | fuelTurnMissed | flowStall | wrongVehicle | islandFault | washSkipped
  | washFault | stowMissed | unexpectedEntry | laneUnderrun | laneOverflow | mouthFault | loopStuck | stationSilent
  | custodyMismatch | transitTimeout | yardFull | swap | dutyBlocked | dutyLate | callOverdue | callWithdrawn
  | unplannedDeparture | controlConflict | stationYielded | linkError | linkOverrun | egressFull | clockHoldover
  | clockLocked | dayRollover | commitFailed | tablesLost
deriving DecidableEq, Repr

/-- Why a Link Port discards a frame (R24, R25). -/
inductive LinkReason where
  | crc | length | gap
deriving DecidableEq, Repr

/-- The place of a notice (R155). -/
inductive NoticePlace where
  | lane (n : Nat)
  | island (n : Nat)
  | washLane (n : Nat)
  | station (a : Nat)
  | mouth (m : Nat)
  | port (p : Port) (reason : Option LinkReason)
deriving DecidableEq, Repr

/-- A queued notice (R155). Its severity is fixed by its kind (R156); its age is measured from `joined`. -/
structure Notice where
  kind : NoticeKind
  fleet : Option Nat
  place : Option NoticePlace
  duty : Option Nat
  second : Nat
  count : Nat
  /-- the tick at which it joined the queue -/
  joined : Nat
deriving DecidableEq, Repr

/-- The sending side of both ports, the Notice Queue and the board images. -/
structure Out where
  /-- field egress queue, in order of joining, at most 16 (R27) -/
  fieldQ : List FieldItem
  /-- held own frames, longest held first (R28) -/
  held : List Held
  /-- office egress queue, in order of joining (R29) -/
  officeQ : List OfficeItem
  /-- slots reserved for replies not yet made (R29) -/
  reserved : Nat
  /-- the arbiter's run count (R30) -/
  runCount : Nat
  notices : List Notice
  overflow : Bool
  /-- board images by station address, twelve lines each (R130) -/
  images : Table (List ImageLine)
  /-- the bytes of the frame last begun on FTXD (R27) -/
  fieldTx : List Byte
  /-- the bytes of the frame last begun on OTXD (R29) -/
  officeTx : List Byte
  /-- MODEL's own field (log 17): the number of replies and batches that have used a free value -/
  openCount : Nat
deriving DecidableEq, Repr

/-! ## Frame Dispatcher (chapter 2) -/

/-- Station roles (R31). -/
inductive Role where
  | gateIn | gateOut | yard | loops | sign | board
  | island (n : Nat)
  | wash (n : Nat)
deriving DecidableEq, Repr

inductive Policy where
  | yields | guards
deriving DecidableEq, Repr

structure StationEntry where
  address : Nat
  role : Role
  sign : Option Nat
  policy : Policy
deriving DecidableEq, Repr

/-- A station record: its table fields and its control mode, MANUAL or AUTO (R31). -/
structure Station where
  entry : StationEntry
  manual : Bool
deriving DecidableEq, Repr

/-- Forwarding actions (R33). -/
inductive Action where
  | pass | absorb | annotate
deriving DecidableEq, Repr

/-! ## Custody Unit (chapter 3) -/

structure LaneEntry where
  capacity : Nat
  mask : ClassMask
  unknownLength : Nat
  entryMouth : Nat
  exitMouth : Nat
  frontSign : Option Nat
deriving DecidableEq, Repr

inductive LaneStatus where
  | opened | closed | unverified
deriving DecidableEq, Repr

/-- An entry of a lane list (R44); no vehicle marks an unidentified entry. -/
structure LaneItem where
  vehicle : Option Nat
  length : Nat
  entered : YTime
deriving DecidableEq, Repr

/-- A pending vehicle and the tick at which its pending timer started (R56). -/
structure PendingItem where
  fleet : Nat
  joined : Nat
deriving DecidableEq, Repr

structure Lane where
  entry : LaneEntry
  status : LaneStatus
  doubt : Bool
  /-- lane list, position 1 first -/
  items : List LaneItem
  /-- pending list, in order of direction -/
  pendings : List PendingItem
deriving DecidableEq, Repr

/-- An entry of the departing list (R57); `started` is the tick at which its transit timer started. -/
structure DepartingItem where
  vehicle : Option Nat
  lane : Option Nat
  popTime : YTime
  started : Nat
deriving DecidableEq, Repr

/-- Debounce times D of a mouth (R46). -/
inductive Debounce where
  | none | ms200 | ms500 | ms1000
deriving DecidableEq, Repr

structure LoopEntry where
  stationA : Nat
  indexA : Nat
  stationB : Nat
  indexB : Nat
  debounce : Debounce
deriving DecidableEq, Repr

/-- The joint state of a mouth's two loops (R47). -/
inductive PairState where
  | clear | a | ab | b
deriving DecidableEq, Repr

/-- The passage tracker's states (R50). -/
inductive Tracker where
  | idle | f1 | f2 | f3 | r1 | r2 | r3 | uncertain
deriving DecidableEq, Repr

/-- A mouth of the loop map with its debouncer, stuck timer and tracker (R46 to R50). -/
structure Mouth where
  entry : LoopEntry
  accepted : PairState
  /-- candidate and the tick at which its timer started -/
  candidate : Option (PairState × Nat)
  /-- the tick at which the stuck timer last started, when it runs: R48 reads it against the limit in force -/
  stuck : Option Nat
  tracker : Tracker
deriving DecidableEq, Repr

/-- What the Custody Unit keeps of a concentrator (R46, R47, R49). -/
structure Concentrator where
  loops : LoopBits
  /-- the tick at which the silence timer expires, when it runs -/
  timer : Option Nat
  silent : Bool
deriving DecidableEq, Repr

/-- The tag-repeat record of one reader (R59). -/
structure TagRecord where
  fleet : Nat
  at_ : Nat
deriving DecidableEq, Repr

/-! ## Fuel Turn Controller (chapter 5) -/

structure IslandEntry where
  mask : ClassMask
  meter : Nat
  sign : Option Nat
  heldClosed : Bool
deriving DecidableEq, Repr

inductive IslandState where
  | closed | idle | called | authorized | dispensing | ending | manual
deriving DecidableEq, Repr

/-- The island timer and the tick at which it expires (R84). Its state says which of the three it is. -/
structure Island where
  entry : IslandEntry
  state : IslandState
  vehicle : Option Nat
  turnFactor : Nat
  limit : Nat
  lastCount : Nat
  stopSent : Bool
  timer : Option Nat
  /-- held closed was set during the present turn: the island goes CLOSED at its end (R99, log 28) -/
  closeAtEnd : Bool
deriving DecidableEq, Repr

/-! ## Wash Sequencer (chapter 6) -/

inductive StageKind where
  | preRinse | chemical | brush | rinse | dry | underbody
deriving DecidableEq, Repr

structure Stage where
  kind : StageKind
  base : Nat
  scales : Bool
deriving DecidableEq, Repr

structure WashLaneEntry where
  mask : ClassMask
  maxLength : Nat
  lref : Nat
  sign : Option Nat
  heldClosed : Bool
deriving DecidableEq, Repr

inductive WashState where
  | closed | idle | called | running | draining | fault | manual
deriving DecidableEq, Repr

structure PlanStage where
  kind : StageKind
  time : Nat
deriving DecidableEq, Repr

structure WashLane where
  entry : WashLaneEntry
  state : WashState
  /-- 1..6 in RUNNING -/
  stageIndex : Option Nat
  vehicle : Option Nat
  plan : List PlanStage
  /-- the tick at which the lane timer expires, when it runs -/
  timer : Option Nat
deriving DecidableEq, Repr

/-! ## Departure Sequencer (chapter 7) -/

inductive Bank where
  | a | b
deriving DecidableEq, Repr

structure DutyEntry where
  number : Nat
  mask : ClassMask
  departure : Nat
  fuel : Nat
  wash : Bool
  lead : Option Nat
deriving DecidableEq, Repr

inductive DutyState where
  | opened | held | blocked | called | departed | cancelled
deriving DecidableEq, Repr

inductive BlockedReason where
  | buried | notReady | noVehicle
deriving DecidableEq, Repr

structure Marks where
  late : Bool
  early : Bool
  unconfirmed : Bool
  swapped : Bool
deriving DecidableEq, Repr

structure Duty where
  entry : DutyEntry
  state : DutyState
  reason : Option BlockedReason
  vehicle : Option Nat
  marks : Marks
  callTime : Option YTime
deriving DecidableEq, Repr

/-! ## Yard Clock (chapter 8) -/

inductive ClockState where
  | free | locked | holdover
deriving DecidableEq, Repr

structure Clock where
  day : Nat
  second : Nat
  phase : Nat
  state : ClockState
  processed : Option Nat
  /-- the tick at which the holdover timer started, when it runs -/
  holdover : Option Nat
deriving DecidableEq, Repr

/-! ## Table Store (chapter 9) -/

/-- The table fields of the ten retained tables: an image, or the contents of the store (R152, R153). -/
structure Tables where
  roster : Table RosterEntry
  classes : Table ClassEntry
  lanes : Table LaneEntry
  loopMap : Table LoopEntry
  stations : Table StationEntry
  forwarding : Table Action
  islands : Table IslandEntry
  washLanes : Table WashLaneEntry
  programs : Table (List Stage)
  settings : Table Nat
deriving DecidableEq, Repr

/-- A commit in flight: when it began, the addresses its reply takes, and its image (R152). -/
structure Commit where
  started : Nat
  from_ : Byte
  own : Byte
  image : Tables
deriving DecidableEq, Repr

/-! ## The groups of the state -/

/-- The Yard Clock, the Table Store, the Dispatcher's tables and the Custody Unit's loops and tag-repeat memory. No
vehicle movement writes these: a step writes them first and then works on the yard. -/
structure Site where
  /-- ticks of the timebase since the power-on reset (R144, log 3) -/
  now : Nat
  clock : Clock
  classes : Table ClassEntry
  mouths : Table Mouth
  concentrators : Table Concentrator
  stations : Table Station
  forwarding : Table Action
  programs : Table (List Stage)
  settings : Table Nat
  tagMemory : Table TagRecord
  /-- open load cursors by table code; a code not listed is closed (R146) -/
  cursors : Table Nat
  commit : Option Commit
  /-- the retained store: none is a bad checksum, store state INVALID (R152, R153) -/
  store : Option Tables
deriving DecidableEq, Repr

/-- Work a step still has to run before it ends (R78, R118, R124, R127, log 10). -/
structure Todo where
  /-- HELD and BLOCKED duties that lost or exchanged their vehicle (R118) -/
  lost : List Nat
  /-- duties a withdrawn call has returned to OPEN (R127) -/
  returned : List Nat
  /-- duty retry rounds owed (R124) -/
  dutyRounds : Nat
  /-- retry rounds owed to room events (R78) -/
  roomRounds : Nat
  /-- urgent moves collected from the due events of one minute, in order of evaluation; true is the fuel queue (R122) -/
  urgent : List (Bool × Nat)
deriving DecidableEq, Repr

/-- What a step on the yard gives to the ports and the Notice Queue, in order. -/
inductive Emission where
  | notice (kind : NoticeKind) (fleet : Option Nat) (place : Option NoticePlace) (duty : Option Nat)
  | own (block : Block) (frame : Frame)
  /-- the call list has changed to these lines (R130) -/
  | boards (lines : List BoardLine)
deriving DecidableEq, Repr

/-- The vehicles, the collections that hold them and the duties. -/
structure Yard where
  roster : Table Vehicle
  lanes : Table Lane
  apron : List Nat
  departing : List DepartingItem
  fuelQ : List Nat
  islands : Table Island
  washQ : List Nat
  washLanes : Table WashLane
  bankA : Table Duty
  bankB : Table Duty
  active : Bank
  activation : Bool
  callList : List BoardLine
  /-- MODEL's own field (log 10): empty between steps -/
  todo : Todo
  /-- MODEL's own field (log 10): empty between steps -/
  emits : List Emission
deriving DecidableEq, Repr

/-- The whole part, and the queue of commands that wait for it. -/
structure State where
  pending : List Instr
  rx : Rx
  out : Out
  site : Site
  yard : Yard
deriving DecidableEq, Repr

/-! ## Reset -/

def Todo.none : Todo := { lost := [], returned := [], dutyRounds := 0, roomRounds := 0, urgent := [] }

/-- A port after a power-on reset (R24, R26). -/
def RxPort.reset : RxPort := { assembly := .hunt, ingress := [] }

/-- The NOTICE_BATCH with TABLES_LOST that a power-on reset with a bad store makes (R153, R157, R158, R165): one entry,
kind 35, severity ALARM, no place, no fleet, no duty, yard second 0, count 1; the bits no field names are 0 (log 18). -/
def tablesLostBatch : Frame :=
  { dest := 240, src := 250, kind := 0x61,
    payload := [1, 35, 0x80, Config.openByte 0 (.noticePlace 0), 0, 0, 0, 0, 0, 0, 1] }

/-- The Yard Clock after a power-on reset and after YARD_CLEAR (R136). -/
def Clock.reset : Clock :=
  { day := 0, second := 0, phase := 0, state := .free, processed := none, holdover := none }

/-- The ports and the Notice Queue after a power-on reset, before any notice (R42, R157). -/
def Out.reset : Out :=
  { fieldQ := [], held := [], officeQ := [], reserved := 0, runCount := 0, notices := [], overflow := false,
    images := [], fieldTx := [], officeTx := [], openCount := 0 }

/-- The site of a part with empty tables (R153). -/
def Site.reset : Site :=
  { now := 0, clock := .reset, classes := [], mouths := [], concentrators := [], stations := [], forwarding := [],
    programs := [], settings := [], tagMemory := [], cursors := [], commit := none, store := none }

/-- The yard of a part with empty tables (R116, R153). -/
def Yard.reset : Yard :=
  { roster := [], lanes := [], apron := [], departing := [], fuelQ := [], islands := [], washQ := [], washLanes := [],
    bankA := [], bankB := [], active := .a, activation := false, callList := [], todo := .none, emits := [] }

/-- The part right after a power-on reset with a store never committed (R153) and both rate pins low (log 7). -/
def State.reset : State :=
  { pending := []
    rx := { field := .reset, office := .reset, rate := { rate1 := false, rate0 := false } }
    out := { Out.reset with officeQ := [{ cls := .batch, frame := tablesLostBatch }], openCount := 1 }
    site := .reset
    yard := .reset }

end Sys2Proof.Machine
end

