-- ==== Sys2Proof/Machine/Table.lean ====
section
/-! DEFINITION. The operations on tables (a list of full places in rising index, R145) and on ordered lists that the
blocks share. -/

namespace Sys2Proof.Machine

/-- The canonical form of a table: indexes strictly rising. -/
abbrev tableWf {α : Type} (t : Table α) : Prop := (t.map Prod.fst).Pairwise (· < ·)

/-- The entry at an index, none for an empty place. -/
def tget {α : Type} : Table α → Nat → Option α
  | [], _ => none
  | (j, w) :: t, k => if j = k then some w else tget t k

/-- Write an entry at an index: creates the place or rewrites it. -/
def tset {α : Type} : Table α → Nat → α → Table α
  | [], k, v => [(k, v)]
  | (j, w) :: t, k, v =>
    if k < j then (k, v) :: (j, w) :: t
    else if k = j then (k, v) :: t
    else (j, w) :: tset t k v

/-- Empty a place. -/
def terase {α : Type} (t : Table α) (k : Nat) : Table α := t.filter fun p => p.1 != k

/-- Change the entry at an index, if the place is full. -/
def tmod {α : Type} (t : Table α) (k : Nat) (f : α → α) : Table α :=
  t.map fun p => if p.1 = k then (p.1, f p.2) else p

/-- Change every entry, with its index. -/
def tmap {α β : Type} (t : Table α) (f : α → β) : Table β := t.map fun p => (p.1, f p.2)

/-- The first full place, in index order, that a test accepts. -/
def tfind {α : Type} (t : Table α) (p : α → Bool) : Option (Nat × α) := t.find? fun e => p e.2

/-- Some entry passes a test. -/
def tany {α : Type} (t : Table α) (p : α → Bool) : Bool := t.any fun e => p e.2

/-- Insert before the first element that is strictly greater. -/
def insertBy {α : Type} (lt : α → α → Bool) (a : α) : List α → List α
  | [] => [a]
  | b :: l => if lt a b then a :: b :: l else b :: insertBy lt a l

/-- Stable ascending order. -/
def sortBy {α : Type} (lt : α → α → Bool) (l : List α) : List α := l.foldl (fun acc a => insertBy lt a acc) []

/-- Lexicographic order of pairs and triples of numbers. -/
def lt2 (a b : Nat × Nat) : Bool := a.1 < b.1 || (a.1 == b.1 && a.2 < b.2)

/-- Remove a number from an ordered list; the others keep their order. -/
def without (l : List Nat) (f : Nat) : List Nat := l.filter fun g => g != f

/-- Clamp to a range (00_scope 4.2). -/
def clampTo (lo hi n : Nat) : Nat := if n < lo then lo else if hi < n then hi else n

/-- Add one, stopping at a limit (00_scope 4.2). -/
def satSucc (limit n : Nat) : Nat := if n < limit then n + 1 else limit

end Sys2Proof.Machine
end

