-- ==== Sys2Proof/Machine/Operands.lean ====
section
/-! DEFINITION. The fields of frames, replies, table entries and notices: byte order, codes and parsing (chapter 11). -/

namespace Sys2Proof.Machine

/-! ## Bytes and byte order (00_scope 4.7: high byte first) -/

/-- A number as one byte. -/
def byte (n : Nat) : Byte := BitVec.ofNat 8 n

/-- A number as two bytes, high byte first. -/
def bytes2 (n : Nat) : List Byte := [byte (n / 256), byte n]

/-- A number as three bytes, high byte first. -/
def bytes3 (n : Nat) : List Byte := [byte (n / 65536), byte (n / 256), byte n]

/-- The byte at a place of a payload, as a number. -/
def u8 (p : List Byte) (i : Nat) : Nat := (p.getD i 0).toNat

/-- The two bytes from a place, high byte first. -/
def u16 (p : List Byte) (i : Nat) : Nat := u8 p i * 256 + u8 p (i + 1)

/-- The three bytes from a place, high byte first. -/
def u24 (p : List Byte) (i : Nat) : Nat := u8 p i * 65536 + u16 p (i + 1)

/-- An optional number: absent is 0 (R162). -/
def orZero (o : Option Nat) : Nat := o.getD 0

/-- A number read from the line of which 0 means absent (R162). -/
def optional (n : Nat) : Option Nat := if n = 0 then none else some n

/-- A flag as bit i. -/
def bit (b : Bool) (i : Nat) : Nat := if b then 2 ^ i else 0

/-- A time of day: day number (2), yard second (3) (R162). -/
def timeBytes (t : YTime) : List Byte := bytes2 t.day ++ bytes3 t.second

/-- A class is in a class mask (R165). -/
def inMask (m : ClassMask) (c : Nat) : Bool := m.getLsbD c

/-! ## Kind codes (R162) -/

def kindTagRead : Byte := 0x01
def kindLoopState : Byte := 0x02
def kindIslandReport : Byte := 0x03
def kindWashReport : Byte := 0x04
def kindSignShow : Byte := 0x40
def kindIslandCmd : Byte := 0x41
def kindWashCmd : Byte := 0x42
def kindBoardLine : Byte := 0x43
def kindReply : Byte := 0x60
def kindNoticeBatch : Byte := 0x61
def kindTableOpen : Byte := 0x80
def kindTableData : Byte := 0x81
def kindTableRead : Byte := 0x82
def kindCommit : Byte := 0x83
def kindBankActivate : Byte := 0x84
def kindTime : Byte := 0x85
def kindCensus : Byte := 0x86
def kindLaneSet : Byte := 0x87
def kindVehicleSet : Byte := 0x88
def kindDutyCancel : Byte := 0x89
def kindDutyCall : Byte := 0x8A
def kindStationResume : Byte := 0x8B
def kindQuery : Byte := 0x8C
def kindYardClear : Byte := 0x8D

/-- The kind is one of the fourteen command kinds (R40, R162). -/
def isCommandKind (k : Byte) : Bool := 0x80 ≤ k.toNat && k.toNat ≤ 0x8D

/-! ## Results (R41, R164) -/

inductive Result where
  | ok | okClamped | busy | range | notFound | inUse | state | tableEnd | noCursor | badLength | badKind
deriving DecidableEq, Repr

def resultCode : Result → Byte
  | .ok => 0x00
  | .okClamped => 0x01
  | .busy => 0x02
  | .range => 0x10
  | .notFound => 0x11
  | .inUse => 0x12
  | .state => 0x13
  | .tableEnd => 0x14
  | .noCursor => 0x15
  | .badLength => 0x16
  | .badKind => 0x17

/-! ## Directions (R18, R163) -/

inductive Direction where
  | fuelRoad | washRoad
  | island (n : Nat)
  | wash (n : Nat)
  | lane (n : Nat)
  | apron | hold | exit
deriving DecidableEq, Repr

def directionCode : Direction → Byte
  | .fuelRoad => 1
  | .washRoad => 2
  | .island _ => 3
  | .wash _ => 4
  | .lane _ => 5
  | .apron => 6
  | .hold => 7
  | .exit => 8

/-- The code of direction CALL, which the Departure Sequencer alone shows (R125, R163). -/
def callCode : Byte := 9

/-- The target number of a direction (R18). -/
def directionTarget : Direction → Nat
  | .island n => n
  | .wash n => n
  | .lane n => n
  | _ => 0

/-- The payload of a SIGN_SHOW (R163). -/
def signPayload (fleet : Nat) (code : Byte) (target duty : Nat) (verify holdover : Bool) : List Byte :=
  bytes2 fleet ++ [code, byte target] ++ bytes2 duty ++ [byte (bit verify 0 + bit holdover 1)]

/-- The payload of an ISLAND_CMD (R163): 1 AUTHORIZE, 2 STOP. -/
def islandCmdPayload (command fleet limit : Nat) : List Byte := [byte command] ++ bytes2 fleet ++ bytes2 limit

/-- The payload of a WASH_CMD (R163): 1 STAGE, 2 ABORT. -/
def washCmdPayload (command stage kind time : Nat) : List Byte := [byte command, byte stage, byte kind] ++ bytes2 time

/-! ## Codes of states and kinds (R163, R164, R165) -/

def vehStateCode : VehState → Nat
  | .absent => 1
  | .unlocated => 2
  | .fuelWait => 3
  | .fuelling => 4
  | .washWait => 5
  | .washing => 6
  | .stowPending => 7
  | .stowWait => 8
  | .apron => 9
  | .parked => 10
  | .called => 11
  | .departing => 12

def stageKindCode : StageKind → Nat
  | .preRinse => 1
  | .chemical => 2
  | .brush => 3
  | .rinse => 4
  | .dry => 5
  | .underbody => 6

def stageKindOf : Nat → Option StageKind
  | 1 => some .preRinse
  | 2 => some .chemical
  | 3 => some .brush
  | 4 => some .rinse
  | 5 => some .dry
  | 6 => some .underbody
  | _ => none

def islandStateCode : IslandState → Nat
  | .closed => 0
  | .idle => 1
  | .called => 2
  | .authorized => 3
  | .dispensing => 4
  | .ending => 5
  | .manual => 6

def washStateCode : WashState → Nat
  | .closed => 0
  | .idle => 1
  | .called => 2
  | .running => 3
  | .draining => 4
  | .fault => 5
  | .manual => 6

def dutyStateCode : DutyState → Nat
  | .opened => 0
  | .held => 1
  | .blocked => 2
  | .called => 3
  | .departed => 4
  | .cancelled => 5

def blockedCode : Option BlockedReason → Nat
  | none => 0
  | some .buried => 1
  | some .notReady => 2
  | some .noVehicle => 3

def laneStatusCode : LaneStatus → Nat
  | .opened => 1
  | .closed => 2
  | .unverified => 3

def roleCode : Role → Nat
  | .gateIn => 1
  | .gateOut => 2
  | .yard => 3
  | .loops => 4
  | .sign => 5
  | .board => 6
  | .island n => 0x10 + n
  | .wash n => 0x20 + n

def roleOf : Nat → Option Role
  | 1 => some .gateIn
  | 2 => some .gateOut
  | 3 => some .yard
  | 4 => some .loops
  | 5 => some .sign
  | 6 => some .board
  | 0x11 => some (.island 1)
  | 0x12 => some (.island 2)
  | 0x13 => some (.island 3)
  | 0x14 => some (.island 4)
  | 0x21 => some (.wash 1)
  | 0x22 => some (.wash 2)
  | _ => none

def policyCode : Policy → Nat
  | .yields => 1
  | .guards => 2

def policyOf : Nat → Option Policy
  | 1 => some .yields
  | 2 => some .guards
  | _ => none

def actionCode : Action → Nat
  | .pass => 1
  | .absorb => 2
  | .annotate => 3

def actionOf : Nat → Option Action
  | 1 => some .pass
  | 2 => some .absorb
  | 3 => some .annotate
  | _ => none

def debounceCode : Debounce → Nat
  | .none => 0
  | .ms200 => 1
  | .ms500 => 2
  | .ms1000 => 3

def debounceOf : Nat → Option Debounce
  | 0 => some .none
  | 1 => some .ms200
  | 2 => some .ms500
  | 3 => some .ms1000
  | _ => none

/-- A yes/no byte of an entry; other values are refused (log 20). -/
def flagOf : Nat → Option Bool
  | 0 => some false
  | 1 => some true
  | _ => none

def noticeCode : NoticeKind → Nat
  | .unknownVehicle => 1
  | .relocated => 2
  | .fuelSkipped => 3
  | .fuelTurnMissed => 4
  | .flowStall => 5
  | .wrongVehicle => 6
  | .islandFault => 7
  | .washSkipped => 8
  | .washFault => 9
  | .stowMissed => 10
  | .unexpectedEntry => 11
  | .laneUnderrun => 12
  | .laneOverflow => 13
  | .mouthFault => 14
  | .loopStuck => 15
  | .stationSilent => 16
  | .custodyMismatch => 17
  | .transitTimeout => 18
  | .yardFull => 19
  | .swap => 20
  | .dutyBlocked => 21
  | .dutyLate => 22
  | .callOverdue => 23
  | .callWithdrawn => 24
  | .unplannedDeparture => 25
  | .controlConflict => 26
  | .stationYielded => 27
  | .linkError => 28
  | .linkOverrun => 29
  | .egressFull => 30
  | .clockHoldover => 31
  | .clockLocked => 32
  | .dayRollover => 33
  | .commitFailed => 34
  | .tablesLost => 35

/-- Severity codes: INFO 0, WARN 1, ALARM 2 (R156, R165). -/
def severity : NoticeKind → Nat
  | .wrongVehicle | .washSkipped | .swap | .callWithdrawn | .stationYielded | .clockLocked | .dayRollover => 0
  | .unknownVehicle | .relocated | .fuelSkipped | .fuelTurnMissed | .flowStall | .stowMissed | .unexpectedEntry
  | .laneUnderrun | .mouthFault | .transitTimeout | .dutyLate | .callOverdue | .unplannedDeparture | .controlConflict
  | .linkError | .egressFull => 1
  | .islandFault | .washFault | .laneOverflow | .loopStuck | .stationSilent | .custodyMismatch | .yardFull
  | .dutyBlocked | .linkOverrun | .clockHoldover | .commitFailed | .tablesLost => 2

def placeKindCode : Option NoticePlace → Nat
  | none => 0
  | some (.lane _) => 1
  | some (.island _) => 2
  | some (.washLane _) => 3
  | some (.station _) => 4
  | some (.mouth _) => 5
  | some (.port _ _) => 6

def reasonCode : Option LinkReason → Nat
  | none => 0
  | some .crc => 1
  | some .length => 2
  | some .gap => 3

/-- The place number of a notice entry (R165); a notice without a place has a free value there (log 17), and bits 3 to 7 of a
port's, which no field names, are 0: the model's choice (log 18). -/
def placeNumber (openCount i : Nat) : Option NoticePlace → Byte
  | none => Config.openByte openCount (.noticePlace i)
  | some (.lane n) => byte n
  | some (.island n) => byte n
  | some (.washLane n) => byte n
  | some (.station a) => byte a
  | some (.mouth m) => byte m
  | some (.port .field r) => byte (reasonCode r)
  | some (.port .office r) => byte (4 + reasonCode r)

/-- The ten bytes of a notice entry (R165). Bit 1 of its second byte, which no field names, is 0: the model's choice (log 18). -/
def noticeBytes (openCount i : Nat) (n : Notice) : List Byte :=
  [byte (noticeCode n.kind),
   byte (severity n.kind * 64 + placeKindCode n.place * 8 + bit n.fleet.isSome 2 + n.second / 65536 % 2),
   placeNumber openCount i n.place] ++ bytes2 (orZero n.fleet) ++ bytes2 (orZero n.duty) ++ bytes2 n.second ++
  [byte n.count]

/-- The entries of a batch, oldest first, from position i. -/
def batchBytes (openCount : Nat) : Nat → List Notice → List Byte
  | _, [] => []
  | i, n :: l => noticeBytes openCount i n ++ batchBytes openCount (i + 1) l

/-- The stand byte of a board line (R163). -/
def standCode : Stand → Nat
  | .lane _ => 1
  | .apron => 2
  | .exit => 3

def standNumber : Stand → Nat
  | .lane n => n
  | .apron => 0
  | .exit => 0

/-- The eight bytes of a board line (R163). -/
def boardLineBytes (l : BoardLine) : List Byte :=
  bytes2 l.duty ++ bytes2 l.fleet ++ bytes2 l.departure ++
  [byte (standCode l.stand + bit l.verify 7), byte (standNumber l.stand)]

/-- An empty line carries 0 in every field (R163). -/
def emptyLineBytes : List Byte := List.replicate 8 0

/-- The bytes of an image line; unsent is never sent. -/
def imageLineBytes : ImageLine → List Byte
  | .line l => boardLineBytes l
  | .empty => emptyLineBytes
  | .unsent => emptyLineBytes

/-! ## Table codes and entry sizes (R164, R165) -/

inductive TableId where
  | roster | classes | lanes | loopMap | stations | forwarding | islands | washLanes | programs | settings | bankA
  | bankB
deriving DecidableEq, Repr

def tableOf : Nat → Option TableId
  | 1 => some .roster
  | 2 => some .classes
  | 3 => some .lanes
  | 4 => some .loopMap
  | 5 => some .stations
  | 6 => some .forwarding
  | 7 => some .islands
  | 8 => some .washLanes
  | 9 => some .programs
  | 10 => some .settings
  | 11 => some .bankA
  | 12 => some .bankB
  | _ => none

/-- Bytes of one entry, header included (R165). -/
def entrySize : TableId → Nat
  | .roster => 6
  | .classes => 8
  | .lanes => 8
  | .loopMap => 6
  | .stations => 5
  | .forwarding => 2
  | .islands => 5
  | .washLanes => 6
  | .programs => 26
  | .settings => 3
  | .bankA => 10
  | .bankB => 10

/-- The first index of a table (R145). -/
def firstIndex : TableId → Nat
  | .roster => 0
  | .classes => 0
  | .lanes => 1
  | .loopMap => 1
  | .stations => 0
  | .forwarding => 0
  | .islands => 1
  | .washLanes => 1
  | .programs => 1
  | .settings => 0
  | .bankA => 0
  | .bankB => 0

/-- The end of a table: one past its last index (R145). -/
def endIndex : TableId → Nat
  | .roster => 256
  | .classes => 8
  | .lanes => 25
  | .loopMap => 49
  | .stations => 64
  | .forwarding => 32
  | .islands => 5
  | .washLanes => 3
  | .programs => 9
  | .settings => 23
  | .bankA => 192
  | .bankB => 192

/-- Entries that fit in one TABLE_READ reply (R165). -/
def readCap (t : TableId) : Nat := 53 / entrySize t

end Sys2Proof.Machine
end

