-- ==== Sys2Proof/Machine/Flags.lean ====
section
/-! DEFINITION. The computations the rules give: settings, readiness and need, levels and credits, stage times, the
placement score, due and late minutes. -/

namespace Sys2Proof.Machine

/-! ## Settings (R154) -/

def settingDefault : Nat → Nat
  | 0 => 250 | 1 => 15 | 2 => 600 | 3 => 16 | 4 => 8 | 5 => 0 | 6 => 0 | 7 => 600 | 8 => 5 | 9 => 10 | 10 => 10
  | 11 => 30 | 12 => 5 | 13 => 3 | 14 => 60 | 15 => 5 | 16 => 30 | 17 => 10 | 18 => 5 | 19 => 12 | 20 => 120
  | 21 => 1 | 22 => 2 | _ => 0

/-- The range of a setting. Setting 6, the apron sign station, is an address 1..239 or absent, held as 0. -/
def settingRange : Nat → Nat × Nat
  | 0 => (241, 254) | 1 => (0, 50) | 2 => (0, 4095) | 3 => (0, 255) | 4 => (0, 255) | 5 => (0, 255) | 6 => (0, 239)
  | 7 => (60, 3600) | 8 => (1, 30) | 9 => (2, 30) | 10 => (1, 30) | 11 => (5, 120) | 12 => (1, 15) | 13 => (1, 10)
  | 14 => (10, 255) | 15 => (1, 15) | 16 => (10, 120) | 17 => (1, 60) | 18 => (0, 30) | 19 => (1, 12)
  | 20 => (30, 600) | 21 => (1, 5) | 22 => (1, 10) | _ => (0, 0)

/-- A setting in force: an empty place holds the default (R145, R154). -/
def setting (k : Site) (n : Nat) : Nat := (tget k.settings n).getD (settingDefault n)

/-- The part's own address (R36). What a later entry of the TABLE_DATA that changes it causes to be made is sent from the new
address, the model's choice between R36 and R154 (log 59). -/
def ownAddress (k : Site) : Nat := setting k 0
def gap (k : Site) : Nat := setting k 1
def apronSign (k : Site) : Option Nat := optional (setting k 6)

/-! ## The clock (chapter 8) -/

def presentTime (k : Site) : YTime := { day := k.clock.day, second := k.clock.second }

/-- The present yard minute (00_scope 4.3). -/
def presentMinute (k : Site) : Nat := k.clock.second / 60

/-- The Yard Clock is FREE (R136). -/
def clockFree (k : Site) : Bool := k.clock.state == .free

/-- A timer of a length in ticks, started at a tick, has expired (R144). -/
def elapsed (k : Site) (started length : Nat) : Bool := started + length ≤ k.now

/-- Order of yard times, the day first (R3). -/
def timeSeconds (t : YTime) : Nat := t.day * 86400 + t.second

/-! ## Stations (R31) -/

/-- The station record of an address. -/
def stationAt (k : Site) (a : Nat) : Option Station := (tfind k.stations fun s => s.entry.address == a).map (·.2)

/-- The station record of a role that one record at most holds. -/
def stationOfRole (k : Site) (r : Role) : Option Station := (tfind k.stations fun s => s.entry.role == r).map (·.2)

/-- The controllable roles (R31). -/
def controllable : Role → Bool
  | .island _ => true
  | .wash _ => true
  | .sign => true
  | .board => true
  | _ => false

/-- The station at an address is of controllable role and in MANUAL (R27, R31). -/
def inManual (k : Site) (a : Nat) : Bool :=
  match stationAt k a with
  | some s => controllable s.entry.role && s.manual
  | none => false

/-- A station record holds the role and is in AUTO (R87, R105). -/
def roleInAuto (k : Site) (r : Role) : Bool :=
  match stationOfRole k r with
  | some s => !s.manual
  | none => false

/-- The forwarding action of a field kind: an empty place acts as PASS (R33, R145). -/
def actionFor (k : Site) (kind : Nat) : Action := (tget k.forwarding kind).getD .pass

/-! ## Duties (R117) -/

/-- The due minute: max(0, departure minute − lead). -/
def dueMinute (k : Site) (e : DutyEntry) : Nat := e.departure - e.lead.getD (setting k 17)

/-- The late minute: min(1439, departure minute + late grace). -/
def lateMinute (k : Site) (e : DutyEntry) : Nat := min 1439 (e.departure + setting k 18)

/-- A duty that evaluation may take: OPEN, HELD or BLOCKED (R121). -/
def evaluable (s : DutyState) : Bool := s == .opened || s == .held || s == .blocked

/-- A due duty that is waiting: HELD or BLOCKED. -/
def waiting (s : DutyState) : Bool := s == .held || s == .blocked

/-! ## Fuel and wash (R5, R14, R89, R94, R107, R120) -/

/-- The class entry a vehicle names; every present record names a loaded class (R1). -/
def classOf (k : Site) (v : Vehicle) : ClassEntry :=
  (tget k.classes v.entry.cls).getD { tank := 0, reserve := 0, spareFuel := 0, washInterval := 0, washProgram := 0 }

/-- The level after a read of a fuel percent (R5). -/
def levelFromPercent (tank percent : Nat) (level : Option Nat) : Option Nat :=
  if percent ≤ 100 then some (tank * percent / 100)
  else if percent ≤ 254 then some tank
  else level

/-- A written level is limited to the tank capacity (R4). -/
def limitLevel (tank : Nat) (level : Option Nat) : Option Nat := level.map (min tank)

/-- Whether a vehicle, paired with the given duty or none, needs fuel (R14). -/
def needsFuel (k : Site) (v : Vehicle) (d : Option Duty) : Bool :=
  if v.entry.outOfService then false
  else
    let c := classOf k v
    let threshold := match d with
      | some d => d.entry.fuel + c.reserve
      | none => c.spareFuel + c.reserve
    match v.level with
    | none => true
    | some l => l < threshold

/-- Whether a vehicle, paired with the given duty or none, needs a wash (R14). -/
def needsWash (k : Site) (v : Vehicle) (d : Option Duty) : Bool :=
  if v.entry.outOfService then false
  else (match d with
    | some d => d.entry.wash
    | none => false) || (classOf k v).washInterval ≤ v.daysSinceWash

/-- A vehicle is ready for a duty (R120). -/
def ready (v : Vehicle) (d : Duty) : Bool :=
  !v.entry.outOfService && inMask d.entry.mask v.entry.cls &&
  (match v.level with
   | some l => d.entry.fuel ≤ l
   | none => false) &&
  (!d.entry.wash || v.daysSinceWash == 0)

/-- The limit in litres of an authorisation (R89). -/
def limitLitres (tank : Nat) (level : Option Nat) (meter : Nat) : Nat := min (tank - level.getD 0) (65535 / meter)

/-- The dispensed litres, halves rounded up (R94). -/
def dispensed (count factor : Nat) : Nat := (count + factor / 2) / factor

/-- The length factor of a wash (R107). -/
def lengthFactor (length lref : Nat) : Nat := 1024 * length / lref

/-- The stage time of a plan entry (R107): the quotient is rounded up. -/
def stageTime (length lref : Nat) (s : Stage) : Nat :=
  clampTo 5 900 (if s.scales then (s.base * lengthFactor length lref + 1023) / 1024 else s.base)

/-! ## The placement score (R70 to R72) -/

/-- The minutes by which a vehicle departing at `departure` overtakes a lane's tail; 0 when the lane is not blocking
(R70). -/
def overtaken (departure : Nat) : Option Nat → Nat
  | none => 0
  | some t => t - departure

/-- The time term (R71); none is an empty lane. -/
def timeTerm (k : Site) (departure : Nat) : Option Nat → Nat
  | none => setting k 2
  | some t => if t ≤ departure then (departure - t) * setting k 3 / 16 else 40960 + (t - departure) * 16

/-- The room term of the spare room R' (R72). -/
def roomTerm (k : Site) (spare : Nat) : Nat := spare * setting k 4 / 64

/-- The score: each term truncated on its own, the sum saturating at 65535 (R72). -/
def score (k : Site) (departure : Nat) (tail : Option Nat) (spare : Nat) : Nat :=
  min 65535 (timeTerm k departure tail + roomTerm k spare)

end Sys2Proof.Machine
end

