-- ==== Sys2Proof/Machine/Link.lean ====
section
/-! DEFINITION. The link envelope: the CRC, the bytes of a frame on the line, and the receive assembly (R24, R25). -/

namespace Sys2Proof.Machine

/-- One bit of the CRC with generator x^16+x^12+x^5+1 (R25). -/
def crcBit (c : Crc) : Crc := if c.msb then (c <<< 1) ^^^ 0x1021#16 else c <<< 1

/-- One byte, most significant bit first. -/
def crcByte (c : Crc) (b : Byte) : Crc :=
  crcBit (crcBit (crcBit (crcBit (crcBit (crcBit (crcBit (crcBit (c ^^^ (b.setWidth 16 <<< 8)))))))))

/-- The CRC of bytes in line order: initial value 0xFFFF, no final inversion (R25). -/
def crcOf (l : List Byte) : Crc := l.foldl crcByte 0xFFFF#16

/-- The two CRC bytes, high byte first. -/
def crcBytes (c : Crc) : List Byte := [(c >>> 8).setWidth 8, c.setWidth 8]

/-- The bytes a frame's CRC covers: destination to last payload byte (R25). -/
def content (f : Frame) : List Byte := [f.dest, f.src, f.kind, byte f.payload.length] ++ f.payload

/-- A frame on the line (2.1, R162). -/
def wire (f : Frame) : List Byte := [0xA5] ++ content f ++ crcBytes (crcOf (content f))

/-- What a byte, or a gap, makes of a receive assembly. -/
inductive RxEvent where
  | nothing
  | good (f : Frame)
  | discard (r : LinkReason)
deriving DecidableEq, Repr

/-- The assembly after a header is complete (R24). -/
def afterHeader (h : Header) : Assembly × RxEvent :=
  if 56 < h.length.toNat then (.hunt, .discard .length)
  else if h.length.toNat = 0 then (.check h [] none, .nothing)
  else (.body h [], .nothing)

/-- The frame a header and a payload make. -/
def frameOf (h : Header) (p : List Byte) : Frame := { dest := h.dest, src := h.src, kind := h.kind, payload := p }

/-- The test of a completed frame (R25). -/
def checkFrame (h : Header) (p : List Byte) (high low : Byte) : RxEvent :=
  if crcBytes (crcOf ([h.dest, h.src, h.kind, h.length] ++ p)) = [high, low] then .good (frameOf h p)
  else .discard .crc

/-- One byte into a receive assembly (R24). -/
def assemble (a : Assembly) (b : Byte) : Assembly × RxEvent :=
  match a with
  | .hunt => if b = 0xA5 then (.header [], .nothing) else (.hunt, .nothing)
  | .header [d, s, k] => afterHeader { dest := d, src := s, kind := k, length := b }
  | .header got => (.header (got ++ [b]), .nothing)
  | .body h got =>
    if h.length.toNat ≤ (got ++ [b]).length then (.check h (got ++ [b]) none, .nothing)
    else (.body h (got ++ [b]), .nothing)
  | .check h p none => (.check h p (some b), .nothing)
  | .check h p (some high) => (.hunt, checkFrame h p high b)

/-- A gap of more than 2 ms (R24): a frame under way is discarded. -/
def gapOut (a : Assembly) : Assembly × RxEvent :=
  match a with
  | .hunt => (.hunt, .nothing)
  | _ => (.hunt, .discard .gap)

end Sys2Proof.Machine
end

