-- ==== Sys2Proof/Machine/Ports.lean ====
section
/-! DEFINITION. The sending side: the field egress queue with its held frames and board images, the office egress queue
with its arbiter, and the Notice Queue (R26 to R30, R130, R157, R158). -/

namespace Sys2Proof.Machine

/-! ## Office egress and the Notice Queue -/

/-- The office egress slots neither occupied nor reserved (R29). -/
def officeFree (o : Out) : Nat := Config.officeEgressCap - (o.officeQ.length + o.reserved)

/-- A batch already waits in office egress (R29). -/
def batchWaits (o : Out) : Bool := o.officeQ.any fun i => i.cls == .batch

/-- A batch is due (R158). -/
def batchDue (k : Site) (o : Out) : Bool :=
  match o.notices with
  | [] => false
  | n :: _ => setting k 21 ≤ o.notices.length || elapsed k n.joined (setting k 22 * Config.second)

/-- The NOTICE_BATCH of the given notices (R158, R165). -/
def batchFrame (k : Site) (openCount : Nat) (l : List Notice) : Frame :=
  { dest := byte Config.officeAddress, src := byte (ownAddress k), kind := kindNoticeBatch,
    payload := byte l.length :: batchBytes openCount 0 l }

/-- The test of R158: a due batch of up to 5 of the oldest notices is formed when a slot is free and no batch waits. -/
def tryBatch (k : Site) (o : Out) : Out :=
  if batchDue k o && decide (0 < officeFree o) && !batchWaits o then
    { o with
      notices := o.notices.drop Config.batchCap
      officeQ := o.officeQ ++ [{ cls := .batch, frame := batchFrame k o.openCount (o.notices.take Config.batchCap) }]
      openCount := o.openCount + 1 }
  else o

/-- The notices are equal in kind and in all optional fields (R157). -/
def sameNotice (a b : Notice) : Bool :=
  a.kind == b.kind && a.fleet == b.fleet && a.place == b.place && a.duty == b.duty

/-- Raise the count of the first notice equal to `n` (R157, case 1). -/
def coalesce (n : Notice) : List Notice → List Notice
  | [] => []
  | m :: l => if sameNotice m n then { m with count := satSucc 255 m.count } :: l else m :: coalesce n l

/-- Offer a notice to the Notice Queue (R157); a notice that joins is followed by the test of R158. -/
def offerNotice (k : Site) (kind : NoticeKind) (fleet : Option Nat) (place : Option NoticePlace) (duty : Option Nat)
    (o : Out) : Out :=
  let n : Notice :=
    { kind := kind, fleet := fleet, place := place, duty := duty, second := k.clock.second, count := 1, joined := k.now }
  if o.notices.any fun m => sameNotice m n then { o with notices := coalesce n o.notices }
  else if o.notices.length < Config.noticeCap then tryBatch k { o with notices := o.notices ++ [n] }
  else { o with overflow := true }

/-- Offer a forwarded field frame to office egress (R29). -/
def offerForwarded (k : Site) (f : Frame) (o : Out) : Out :=
  if 0 < officeFree o then { o with officeQ := o.officeQ ++ [{ cls := .forwarded, frame := f }] }
  else offerNotice k .egressFull none (some (.port .office none)) none o

/-- Reserve the slot of a command's reply (R29). -/
def reserveSlot (o : Out) : Out := { o with reserved := o.reserved + 1 }

/-- The REPLY to the command that came from `asker` (R40, R164). -/
def replyFrame (asker own kind : Byte) (r : Result) (data : List Byte) : Frame :=
  { dest := asker, src := own, kind := kindReply, payload := [kind, resultCode r] ++ data }

/-- A reply fills its reserved slot (R29). -/
def putReply (f : Frame) (o : Out) : Out :=
  { o with reserved := o.reserved - 1, officeQ := o.officeQ ++ [{ cls := .reply, frame := f }] }

/-- A frame of a class waits in office egress. -/
def officeHas (o : Out) (c : OfficeClass) : Bool := o.officeQ.any fun i => i.cls == c

/-- The class the arbiter sends next (R30). -/
def arbitrate (o : Out) : Option OfficeClass :=
  if o.runCount == Config.runLimit && officeHas o .forwarded then some .forwarded
  else if officeHas o .reply then some .reply
  else if officeHas o .batch then some .batch
  else if officeHas o .forwarded then some .forwarded
  else none

/-- The first frame of a class, and the queue without it. -/
def takeFirst (c : OfficeClass) : List OfficeItem → Option (Frame × List OfficeItem)
  | [] => none
  | i :: l =>
    if i.cls = c then some (i.frame, l)
    else (takeFirst c l).map fun p => (p.1, i :: p.2)

/-- The run count after a frame of a class is sent (R30). -/
def nextRun (c : OfficeClass) (n : Nat) : Nat :=
  match c with
  | .forwarded => 0
  | _ => satSucc Config.runLimit n

/-- The office port begins the frame the arbiter chooses; its slot frees, and the test of R158 is made (R29, R30). -/
def officeSend (k : Site) (o : Out) : Out :=
  match arbitrate o with
  | none => o
  | some c =>
    match takeFirst c o.officeQ with
    | none => o
    | some (f, q) => tryBatch k { o with officeQ := q, runCount := nextRun c o.runCount, officeTx := wire f }

/-! ## Field egress, held frames and boards -/

/-- Add a held frame: it replaces the one its block holds for the same station, or joins the end (R28). -/
def holdFrame (h : Held) : List Held → List Held
  | [] => [h]
  | g :: l => if g.block = h.block ∧ g.frame.dest = h.frame.dest then h :: l else g :: holdFrame h l

/-- When a BOARD_LINE is placed, its board's image takes the line (R130). -/
def takeImage (h : Held) (images : Table (List ImageLine)) : Table (List ImageLine) :=
  match h.image with
  | none => images
  | some (i, l) => tmod images h.frame.dest.toNat fun lines => lines.set i l

/-- Put an own frame at the end of the field egress queue. -/
def placeFrame (h : Held) (o : Out) : Out :=
  { o with fieldQ := o.fieldQ ++ [{ frame := h.frame, own := true }], images := takeImage h o.images }

/-- An own frame is placed in a free slot, or is held when there is none or another frame is held (R27, R28). -/
def issue (h : Held) (o : Out) : Out :=
  if o.held = [] ∧ o.fieldQ.length < Config.fieldEgressCap then placeFrame h o
  else { o with held := holdFrame h o.held }

/-- What line i (from 0) of every board should show (R130). -/
def boardTarget (k : Site) (lines : List BoardLine) (i : Nat) : ImageLine :=
  if i < setting k 19 then
    match lines[i]? with
    | some l => .line l
    | none => .empty
  else .empty

/-- The lowest-numbered line of an image, counted from i, that differs from what the board should show. -/
def firstDiff (k : Site) (lines : List BoardLine) : Nat → List ImageLine → Option Nat
  | _, [] => none
  | i, l :: rest => if l = boardTarget k lines i then firstDiff k lines (i + 1) rest else some i

/-- The BOARD_LINE for line i (from 0) of the board at address a (R130, R163). -/
def boardFrame (k : Site) (lines : List BoardLine) (a i : Nat) : Held :=
  { block := .departure
    frame := { dest := byte a, src := byte (ownAddress k), kind := kindBoardLine,
               payload := byte (i + 1) :: imageLineBytes (boardTarget k lines i) }
    image := some (i, boardTarget k lines i) }

/-- The Departure Sequencer holds a frame for the station (R28, R130). -/
def heldForBoard (o : Out) (a : Nat) : Bool :=
  o.held.any fun h => h.block == .departure && h.frame.dest.toNat == a

/-- Compare a board with its image and make the frames R130 gives, until the image matches or a frame is held. -/
def boardRun (k : Site) (lines : List BoardLine) (a : Nat) : Nat → Out → Out
  | 0, o => o
  | n + 1, o =>
    if inManual k a || heldForBoard o a then o
    else
      match firstDiff k lines 0 ((tget o.images a).getD []) with
      | none => o
      | some i => boardRun k lines a n (issue (boardFrame k lines a i) o)

/-- The comparison of one board, at most one frame a line. -/
def compareBoard (k : Site) (lines : List BoardLine) (o : Out) (a : Nat) : Out :=
  boardRun k lines a (Config.boardLines + 1) o

/-- The addresses of the departure boards, in slot order (R130, log 26). -/
def boardAddresses (k : Site) : List Nat :=
  (k.stations.filter fun s => s.2.entry.role == .board).map fun s => s.2.entry.address

/-- An image for every BOARD record, empty for a new one, and none for a removed one (R130). -/
def syncImages (k : Site) (o : Out) : Out :=
  { o with
    images := (boardAddresses k).foldl
      (fun t a => tset t a ((tget o.images a).getD (List.replicate Config.boardLines .empty))) [] }

/-- The call list, N or a board's record has changed (R130). -/
def updateBoards (k : Site) (lines : List BoardLine) (o : Out) : Out :=
  (boardAddresses k).foldl (compareBoard k lines) (syncImages k o)

/-- Hand freed slots to the frames held longest; a placed board line resumes its board's comparison (R28, R130). -/
def releaseHeld (k : Site) (lines : List BoardLine) : Nat → Out → Out
  | 0, o => o
  | n + 1, o =>
    match o.held with
    | [] => o
    | h :: rest =>
      if o.fieldQ.length < Config.fieldEgressCap then
        let o := placeFrame h { o with held := rest }
        releaseHeld k lines n
          (if (boardAddresses k).contains h.frame.dest.toNat then compareBoard k lines o h.frame.dest.toNat else o)
      else o

/-- The field port begins the oldest frame of its queue, and its slot frees (R27, R28). -/
def fieldSend (k : Site) (lines : List BoardLine) (o : Out) : Out :=
  match o.fieldQ with
  | [] => o
  | i :: q => releaseHeld k lines Config.fieldEgressCap { o with fieldQ := q, fieldTx := wire i.frame }

/-- Offer an office frame to field egress (R27, R28). -/
def offerToField (k : Site) (f : Frame) (o : Out) : Out :=
  if o.held = [] ∧ o.fieldQ.length + Config.forwardReserve ≤ Config.fieldEgressCap then
    { o with fieldQ := o.fieldQ ++ [{ frame := f, own := false }] }
  else offerNotice k .egressFull none (some (.port .field none)) none o

/-- Remove every own frame, waiting or held, to a yielded station (R38, step 2). -/
def dropOwn (k : Site) (lines : List BoardLine) (a : Nat) (o : Out) : Out :=
  releaseHeld k lines Config.fieldEgressCap
    { o with
      fieldQ := o.fieldQ.filter fun i => !(i.own && i.frame.dest.toNat == a)
      held := o.held.filter fun h => h.frame.dest.toNat != a }

/-- Mark lines 1..N of a board's image unsent (R39, R130). -/
def markUnsent (k : Site) (a : Nat) (o : Out) : Out :=
  { o with
    images := tmod o.images a fun lines =>
      List.replicate (min (setting k 19) lines.length) .unsent ++ lines.drop (setting k 19) }

/-! ## What a step hands over -/

/-- One thing a step on the yard has made, handed to the ports and the Notice Queue; an own frame to a station in MANUAL is
discarded (R27). -/
def handOver (k : Site) (o : Out) : Emission → Out
  | .notice kind fleet place duty => offerNotice k kind fleet place duty o
  | .own block frame =>
    if inManual k frame.dest.toNat then o else issue { block := block, frame := frame, image := none } o
  | .boards lines => updateBoards k lines o

/-- Everything a step on the yard has made, in order. -/
def handOverAll (k : Site) (l : List Emission) (o : Out) : Out := l.foldl (handOver k) o

end Sys2Proof.Machine
end

