-- ==== Sys2Proof/Machine/Ops.lean ====
section
/-! DEFINITION. The shared operations on vehicle records, duties, holders and calls. Each works on the yard against a
fixed site: `k` is read, never written. -/

namespace Sys2Proof.Machine

/-! ## Notices, own frames, reports -/

/-- Raise a notice (R155). -/
def raise (kind : NoticeKind) (fleet : Option Nat) (place : Option NoticePlace) (duty : Option Nat) (y : Yard) : Yard :=
  { y with emits := y.emits ++ [.notice kind fleet place duty] }

/-- Make an own frame for a station, unless the station is in MANUAL (R27). -/
def sendOwn (k : Site) (block : Block) (dest : Nat) (kind : Byte) (payload : List Byte) (y : Yard) : Yard :=
  if inManual k dest then y
  else
    { y with
      emits := y.emits ++
        [.own block { dest := byte dest, src := byte (ownAddress k), kind := kind, payload := payload }] }

/-- SIGN_SHOW of a direction to a sign, if there is one (R18). -/
def showSign (k : Site) (sign : Option Nat) (fleet : Nat) (dir : Direction) (y : Yard) : Yard :=
  match sign with
  | none => y
  | some a =>
    sendOwn k .vehicleTable a kindSignShow (signPayload fleet (directionCode dir) (directionTarget dir) 0 false false) y

/-- The call list has changed: the boards are brought up to date (R130). -/
def boardsChanged (y : Yard) : Yard := { y with emits := y.emits ++ [.boards y.callList] }

/-- A change is reported to the Departure Sequencer: one duty retry round is owed (R124). -/
def report (y : Yard) : Yard := { y with todo.dutyRounds := y.todo.dutyRounds + 1 }

/-- A room event: one retry round is owed (R78). -/
def roomEvent (y : Yard) : Yard := { y with todo.roomRounds := y.todo.roomRounds + 1 }

/-! ## Vehicle records -/

/-- The record of a fleet number (R1). -/
def vehOf (y : Yard) (f : Nat) : Option Vehicle := (tfind y.roster fun v => v.entry.fleet == f).map (·.2)

/-- Change the record of a fleet number. -/
def updVeh (f : Nat) (g : Vehicle → Vehicle) (y : Yard) : Yard :=
  { y with roster := tmap y.roster fun v => if v.entry.fleet = f then g v else v }

/-- A vehicle's new state; a change of state writes since (R3). -/
def withState (k : Site) (st : VehState) (v : Vehicle) : Vehicle :=
  if v.state = st then v else { v with state := st, since := presentTime k }

def setState (k : Site) (f : Nat) (st : VehState) (y : Yard) : Yard := updVeh f (withState k st) y

def stateOf (y : Yard) (f : Nat) : Option VehState := (vehOf y f).map (·.state)

/-- The two vehicles' fuel states are equal (R6). -/
def sameFuel (a b : Vehicle) : Bool :=
  a.level == b.level && a.fuelSkipped == b.fuelSkipped && a.fuelDone == b.fuelDone

/-- The two vehicles' wash states are equal (R6). -/
def sameWash (a b : Vehicle) : Bool :=
  a.daysSinceWash == b.daysSinceWash && a.washIncomplete == b.washIncomplete && a.washDone == b.washDone

/-- Change a vehicle's service fields; each state that actually changes is reported (R6). -/
def updService (f : Nat) (g : Vehicle → Vehicle) (y : Yard) : Yard :=
  match vehOf y f with
  | none => y
  | some v =>
    let y := updVeh f g y
    let y := if sameFuel v (g v) then y else report y
    if sameWash v (g v) then y else report y

/-- Write a fuel level, limited to the tank (R4, R6). -/
def writeLevel (k : Site) (f : Nat) (level : Option Nat) (y : Yard) : Yard :=
  updService f (fun v => { v with level := limitLevel (classOf k v).tank level }) y

def markFuelSkipped (f : Nat) (y : Yard) : Yard := updService f (fun v => { v with fuelSkipped := true }) y
def markFuelDone (f : Nat) (y : Yard) : Yard := updService f (fun v => { v with fuelDone := true }) y
def markWashIncomplete (f : Nat) (y : Yard) : Yard := updService f (fun v => { v with washIncomplete := true }) y

/-! ## Duties -/

/-- A duty bank. -/
def bankOf (y : Yard) : Bank → Table Duty
  | .a => y.bankA
  | .b => y.bankB

/-- The active bank's duties (R116). -/
def duties (y : Yard) : Table Duty := bankOf y y.active

/-- Rewrite a duty bank. -/
def setBank (bk : Bank) (t : Table Duty) (y : Yard) : Yard :=
  match bk with
  | .a => { y with bankA := t }
  | .b => { y with bankB := t }

/-- The duty of a number in the active bank. -/
def dutyOf (y : Yard) (d : Nat) : Option Duty := (tfind (duties y) fun r => r.entry.number == d).map (·.2)

/-- Change the duty of a number in the active bank. -/
def updDuty (d : Nat) (g : Duty → Duty) (y : Yard) : Yard :=
  setBank y.active (tmap (duties y) fun r => if r.entry.number = d then g r else r) y

/-- Duty numbers in ascending departure minute and then duty number (R121). -/
def dutyOrder (y : Yard) : List Nat :=
  (sortBy lt2 ((duties y).map fun p => (p.2.entry.departure, p.2.entry.number))).map (·.2)

/-- The duty a vehicle is paired with. -/
def pairedDuty (y : Yard) (f : Nat) : Option Duty := ((vehOf y f).bind (·.duty)).bind (dutyOf y)

/-- The number of the duty a vehicle is paired with. -/
def pairedNumber (y : Yard) (f : Nat) : Option Nat := (vehOf y f).bind (·.duty)

/-- A duty is to be evaluated at once when its event is complete (R118). -/
def oweEvaluation (d : Nat) (y : Yard) : Yard := { y with todo.lost := y.todo.lost ++ [d] }

/-- The duty waits for a vehicle (HELD or BLOCKED), so losing or changing it makes it evaluated at once (R118). -/
def oweIfWaiting (d : Nat) (y : Yard) : Yard :=
  match dutyOf y d with
  | some r => if waiting r.state then oweEvaluation d y else y
  | none => y

/-! ## Pairing (R118): both records are written together -/

/-- Pair a vehicle with a duty, neither of which is paired. -/
def pair (f d : Nat) (y : Yard) : Yard :=
  updDuty d (fun r => { r with vehicle := some f }) (updVeh f (fun v => { v with duty := some d }) y)

/-- Clear the pairing of a vehicle; its duty keeps its state (R118). -/
def unpairRecords (f : Nat) (y : Yard) : Yard :=
  match pairedNumber y f with
  | none => y
  | some d => updDuty d (fun r => { r with vehicle := none }) (updVeh f (fun v => { v with duty := none }) y)

/-- Unpair a vehicle; a HELD or BLOCKED duty left without it is evaluated at once (R118). -/
def unpair (f : Nat) (y : Yard) : Yard :=
  match pairedNumber y f with
  | none => y
  | some d => oweIfWaiting d (unpairRecords f y)

/-- Vehicle C takes duty D from its former vehicle W, and W takes C's former duty E if `keep` allows it; otherwise E is
left unpaired (R123, R132, R62). -/
def exchange (c d : Nat) (keep : Bool) (y : Yard) : Yard :=
  let w := (dutyOf y d).bind (·.vehicle)
  let e := pairedNumber y c
  let y := unpairRecords c y
  let y := match w with
    | some w => unpairRecords w y
    | none => y
  let y := pair c d y
  match w, e with
  | some w, some e => if keep then pair w e y else y
  | _, _ => y

/-! ## Holders -/

/-- The number of the lane whose list holds a vehicle. -/
def laneHolding (y : Yard) (f : Nat) : Option Nat :=
  (tfind y.lanes fun l => l.items.any fun i => i.vehicle == some f).map (·.1)

/-- The number of the lane whose pending list holds a vehicle. -/
def pendingHolding (y : Yard) (f : Nat) : Option Nat :=
  (tfind y.lanes fun l => l.pendings.any fun p => p.fleet == f).map (·.1)

/-- The island that holds a vehicle. -/
def islandHolding (y : Yard) (f : Nat) : Option Nat := (tfind y.islands fun i => i.vehicle == some f).map (·.1)

/-- The wash lane that holds a vehicle. -/
def washHolding (y : Yard) (f : Nat) : Option Nat := (tfind y.washLanes fun l => l.vehicle == some f).map (·.1)

def updLane (n : Nat) (g : Lane → Lane) (y : Yard) : Yard := { y with lanes := tmod y.lanes n g }
def updIsland (n : Nat) (g : Island → Island) (y : Yard) : Yard := { y with islands := tmod y.islands n g }
def updWash (n : Nat) (g : WashLane → WashLane) (y : Yard) : Yard := { y with washLanes := tmod y.washLanes n g }

/-- A lane receives the doubt mark (R43). -/
def markDoubt (n : Nat) (y : Yard) : Yard := updLane n (fun l => { l with doubt := true }) y

/-- The vehicle at position 1 of a lane list, if it is identified. -/
def frontVehicle (l : Lane) : Option Nat := l.items.head?.bind (·.vehicle)

/-- The verified lane at whose position 1 a vehicle stands (R120). -/
def frontLane (y : Yard) (f : Nat) : Option Nat :=
  (tfind y.lanes fun l => l.status != .unverified && frontVehicle l == some f).map (·.1)

/-- A vehicle is at a front (R120): PARKED at position 1 of an OPEN or CLOSED lane, or in APRON in the apron list. -/
def atFront (y : Yard) (v : Vehicle) : Option Stand :=
  match v.state with
  | .parked => (frontLane y v.entry.fleet).map .lane
  | .apron => if y.apron.contains v.entry.fleet then some .apron else none
  | _ => none

/-- The apron vehicle list loses a vehicle. -/
def leaveApron (f : Nat) (y : Yard) : Yard := { y with apron := without y.apron f }

/-- The fleet numbers at a list's positions, counted from 1. -/
def positionOf (l : List Nat) (f : Nat) : Option Nat :=
  match l with
  | [] => none
  | g :: rest => if g = f then some 1 else (positionOf rest f).map (· + 1)

/-- The position of a vehicle in a lane list, counted from 1. -/
def itemPosition (l : List LaneItem) (f : Nat) : Option Nat :=
  match l with
  | [] => none
  | i :: rest => if i.vehicle = some f then some 1 else (itemPosition rest f).map (· + 1)

/-- The place a vehicle's record names (R8). -/
inductive Place where
  | lane (n p : Nat)
  | pendingLane (n : Nat)
  | island (n : Nat)
  | washLane (n : Nat)
  | apron (p : Nat)
  | departing
  | fuelQueue
  | washQueue
deriving DecidableEq, Repr

/-- The place field of a vehicle record, computed from its holder (R8, log 8); none when it has no holder. -/
def placeOf (y : Yard) (f : Nat) : Option Place :=
  if let some (n, l) := tfind y.lanes fun l => l.items.any fun i => i.vehicle == some f then
    some (.lane n ((itemPosition l.items f).getD 0))
  else if let some n := pendingHolding y f then some (.pendingLane n)
  else if let some n := islandHolding y f then some (.island n)
  else if let some n := washHolding y f then some (.washLane n)
  else if let some p := positionOf y.apron f then some (.apron p)
  else if y.departing.any fun e => e.vehicle == some f then some .departing
  else if y.fuelQ.contains f then some .fuelQueue
  else if y.washQ.contains f then some .washQueue
  else none

/-! ## Calls and settlements (R125 to R127, R58) -/

/-- The duty leaves the call list, if it was in it, and the boards are brought up to date (R127, R129). -/
def leaveCallList (d : Nat) (y : Yard) : Yard :=
  if y.callList.any fun l => l.duty == d then
    boardsChanged { y with callList := y.callList.filter fun l => l.duty != d }
  else y

/-- Withdraw a call on a vehicle, if there is one: the duty leaves the call list, CALL_WITHDRAWN is raised, the duty
returns to OPEN without its call time and is evaluated when the event is complete (R11, R127). The pairing is kept. -/
def withdrawCall (f : Nat) (y : Yard) : Yard :=
  match pairedDuty y f with
  | none => y
  | some r =>
    if r.state = .called then
      let d := r.entry.number
      let y := raise .callWithdrawn (some f) none (some d) y
      let y := updDuty d (fun r => { r with state := .opened, callTime := none }) y
      let y := leaveCallList d y
      { y with todo.returned := y.todo.returned ++ [d] }
    else y

/-- A vehicle in CALLED still standing at its front returns to PARKED or APRON at its place (R20, R127, R131). Its
return is reported under R9. -/
def standDown (k : Site) (f : Nat) (y : Yard) : Yard :=
  if stateOf y f = some .called then
    report (setState k f (if y.apron.contains f then .apron else .parked) y)
  else y

/-- A vehicle's duty has left the yard (R127): CALLED goes DEPARTED, OPEN, HELD and BLOCKED go DEPARTED with the early
mark, DEPARTED keeps its settlement. -/
def settleDuty (d : Nat) (y : Yard) : Yard :=
  match dutyOf y d with
  | none => y
  | some r =>
    if r.state = .called then
      leaveCallList d (updDuty d (fun r => { r with state := .departed }) y)
    else if evaluable r.state then
      updDuty d (fun r => { r with state := .departed, reason := none, marks := { r.marks with early := true } }) y
    else y

/-- The oldest departing entry is taken as a transit timeout (R58). -/
def expireDeparting (k : Site) (y : Yard) : Yard :=
  match y.departing with
  | [] => y
  | e :: rest =>
    let y := { y with departing := rest }
    let y := match e.vehicle with
      | none => y
      | some f =>
        let y := setState k f .unlocated y
        match pairedDuty y f with
        | none => y
        | some r =>
          if r.state = .called then
            leaveCallList r.entry.number
              (updDuty r.entry.number
                (fun r => { r with state := .departed, marks := { r.marks with unconfirmed := true } }) y)
          else y
    raise .transitTimeout e.vehicle (e.lane.map .lane) none y

/-- A departing entry joins the end of the list; a full list first loses its oldest entry (R57). -/
def joinDeparting (k : Site) (vehicle lane : Option Nat) (y : Yard) : Yard :=
  let y := if Config.departingCap ≤ y.departing.length then expireDeparting k y else y
  { y with
    departing := y.departing ++ [{ vehicle := vehicle, lane := lane, popTime := presentTime k, started := k.now }] }

/-- A duty goes CALLED and joins the end of the call list with the board line fixed now (R125, R126, R129). -/
def enterCallList (k : Site) (d f : Nat) (stand : Stand) (verify : Bool) (y : Yard) : Yard :=
  let departure := ((dutyOf y d).map (·.entry.departure)).getD 0
  let y := updDuty d (fun r => { r with state := .called, reason := none, callTime := some (presentTime k) }) y
  { y with
    callList := y.callList ++
      [{ duty := d, fleet := f, departure := departure, stand := stand, verify := verify }] }

/-- The lane carries the doubt mark. -/
def laneDoubt (y : Yard) : Stand → Bool
  | .lane n => ((tget y.lanes n).map (·.doubt)).getD false
  | .apron => false
  | .exit => false

/-- The sign at which a call from a stand is shown (R125). -/
def callSign (k : Site) (y : Yard) : Stand → Option Nat
  | .lane n => (tget y.lanes n).bind (·.entry.frontSign)
  | .apron => apronSign k
  | .exit => none

/-- A call of a vehicle at a front for a duty (R125). -/
def callVehicle (k : Site) (d f : Nat) (stand : Stand) (y : Yard) : Yard :=
  let verify := laneDoubt y stand
  let y := enterCallList k d f stand verify y
  let y := setState k f .called y
  let y := match callSign k y stand with
    | none => y
    | some a =>
      sendOwn k .departure a kindSignShow
        (signPayload f callCode (standNumber stand) d verify (k.clock.state == .holdover)) y
  boardsChanged y

/-- A duty called in place: its vehicle is already DEPARTING (R121, R126). R129 takes the verify flag "of the call", which R125
gives to a sign frame that R126 does not make: it is clear, the model's choice, also for a vehicle popped from a lane in
doubt (log 50). -/
def callInPlace (k : Site) (d f : Nat) (y : Yard) : Yard := boardsChanged (enterCallList k d f .exit false y)

/-- A direct release (R126), with a clear verify flag: the model's choice (log 50). -/
def directRelease (k : Site) (d f : Nat) (y : Yard) : Yard :=
  let y := enterCallList k d f .exit false y
  let y := joinDeparting k (some f) none y
  boardsChanged (setState k f .departing y)

end Sys2Proof.Machine
end

