-- ==== Sys2Proof/Machine/Service.lean ====
section
/-! DEFINITION. The two service queues, the calling rules and the withdrawals of islands and wash lanes (R85 to R87, R97,
R103 to R105, R113). Every start and every ending of a service is reported (R9, R87, R105, log 13). -/

namespace Sys2Proof.Machine

/-! ## Fuel islands -/

/-- The island's mask holds the vehicle's class. -/
def islandAccepts (y : Yard) (i : Island) (f : Nat) : Bool :=
  match vehOf y f with
  | some v => inMask i.entry.mask v.entry.cls
  | none => false

/-- The join test of the fuel queue (R16, R85). -/
def fuelJoinable (y : Yard) (f : Nat) : Bool :=
  decide (y.fuelQ.length < Config.queueCap) && tany y.islands fun i => islandAccepts y i f

/-- Send an ISLAND_CMD to the island's station (R83, R163). -/
def islandCmd (k : Site) (n command fleet limit : Nat) (y : Yard) : Yard :=
  match stationOfRole k (.island n) with
  | none => y
  | some s => sendOwn k .fuelTurn s.entry.address kindIslandCmd (islandCmdPayload command fleet limit) y

/-- Send STOP and set stop sent, unless it is set (R92). -/
def stopOnce (k : Site) (n : Nat) (y : Yard) : Yard :=
  match tget y.islands n with
  | none => y
  | some i =>
    if i.stopSent then y
    else islandCmd k n 2 (orZero i.vehicle) 0 (updIsland n (fun i => { i with stopSent := true }) y)

/-- The island has an authorisation in force. -/
def authorised (i : Island) : Bool := i.state == .authorized || i.state == .dispensing

/-- An island without a vehicle, in a state (R95 to R98). -/
def freeIsland (st : IslandState) (i : Island) : Island :=
  { i with
    state := st, vehicle := none, limit := 0, lastCount := 0, stopSent := false, timer := none, closeAtEnd := false }

/-- The island at the end of a turn: IDLE, or CLOSED where held closed was set during it (R99). -/
def endTurn (i : Island) : Island := freeIsland (if i.closeAtEnd then .closed else .idle) i

/-- The island when its authorisation expires: as at the end of a turn, with stop sent left as it is (R91). R84 says that a
CLOSED island has no stop outstanding, and R91 names limit and last count alone: where the turn ends in CLOSED, stop sent
stays set by the model's choice (log 47). -/
def expireTurn (i : Island) : Island := { endTurn i with stopSent := i.stopSent }

/-- One island tries to call; the start of the service is reported (R9, R87). -/
def callIsland (k : Site) (y : Yard) (n : Nat) : Yard :=
  match tget y.islands n with
  | none => y
  | some i =>
    if i.state == .idle && roleInAuto k (.island n) then
      match y.fuelQ.find? (islandAccepts y i) with
      | none => y
      | some f =>
        let y := report (setState k f .fuelling { y with fuelQ := without y.fuelQ f })
        let y := updIsland n
          (fun i => { i with
            state := .called, vehicle := some f, limit := 0, lastCount := 0, stopSent := false,
            timer := some (k.now + setting k 12 * Config.minute) }) y
        showSign k i.entry.sign f (.island n) y
    else y

/-- The calling rule of the fuel queue: the islands in ascending number (R87). -/
def fuelCalls (k : Site) (y : Yard) : Yard := [1, 2, 3, 4].foldl (callIsland k) y

/-- A withdrawal from an island; the ending of the service is reported (R9, R97). -/
def withdrawIsland (k : Site) (n : Nat) (y : Yard) : Yard :=
  match tget y.islands n with
  | none => y
  | some i => fuelCalls k (report (updIsland n endTurn (if authorised i then stopOnce k n y else y)))

/-- The vehicle goes back to the head of the fuel queue in FUEL_WAIT; the ending of its service is reported (R9, R88,
R90). The caller makes the join test of R85. -/
def returnToFuel (k : Site) (f : Nat) (y : Yard) : Yard :=
  report (setState k f .fuelWait { y with fuelQ := f :: without y.fuelQ f })

/-- An urgent move in the fuel queue; ignored when the vehicle is not there (R86). -/
def fuelUrgent (f : Nat) (y : Yard) : Yard :=
  if y.fuelQ.contains f then { y with fuelQ := f :: without y.fuelQ f } else y

/-- The vehicle joins the end of the fuel queue; its missed calls return to 0 (R7, R85). -/
def joinFuel (k : Site) (f : Nat) (y : Yard) : Yard :=
  setState k f .fuelWait (updVeh f (fun v => { v with missedCalls := 0 }) { y with fuelQ := y.fuelQ ++ [f] })

/-! ## Wash lanes -/

/-- The wash lane accepts the vehicle (R101). -/
def washAccepts (y : Yard) (l : WashLane) (f : Nat) : Bool :=
  match vehOf y f with
  | some v => inMask l.entry.mask v.entry.cls && decide (v.entry.length ≤ l.entry.maxLength)
  | none => false

/-- The join test of the wash queue (R16, R103). -/
def washJoinable (y : Yard) (f : Nat) : Bool :=
  decide (y.washQ.length < Config.queueCap) && tany y.washLanes fun l => washAccepts y l f

/-- Send a WASH_CMD to the wash lane's station (R101, R163). -/
def washCmd (k : Site) (n command stage kind time : Nat) (y : Yard) : Yard :=
  match stationOfRole k (.wash n) with
  | none => y
  | some s => sendOwn k .washSequencer s.entry.address kindWashCmd (washCmdPayload command stage kind time) y

/-- Send ABORT (R163). -/
def abortWash (k : Site) (n : Nat) (y : Yard) : Yard := washCmd k n 2 0 0 0 y

/-- A wash lane without a vehicle, in a state (R105, R111 to R115). -/
def freeWash (st : WashState) (l : WashLane) : WashLane :=
  { l with state := st, stageIndex := none, vehicle := none, plan := [], timer := none }

/-- The rest state of a wash lane: IDLE, or CLOSED where its record is held closed (R101, R114). -/
def washRest (l : WashLane) : WashState := if l.entry.heldClosed then .closed else .idle

/-- The wash lane at the end of a wash that leaves it working (R114). -/
def endWash (l : WashLane) : WashLane := freeWash (washRest l) l

/-- One wash lane tries to call; the start of the service is reported (R9, R105). -/
def callWash (k : Site) (y : Yard) (n : Nat) : Yard :=
  match tget y.washLanes n with
  | none => y
  | some l =>
    if l.state == .idle && roleInAuto k (.wash n) then
      match y.washQ.find? (washAccepts y l) with
      | none => y
      | some f =>
        let y := report (setState k f .washing { y with washQ := without y.washQ f })
        let y := updWash n
          (fun l => { l with
            state := .called, vehicle := some f, stageIndex := none, plan := [],
            timer := some (k.now + setting k 15 * Config.minute) }) y
        showSign k l.entry.sign f (.wash n) y
    else y

/-- The calling rule of the wash queue: lane 1, then lane 2 (R105). -/
def washCalls (k : Site) (y : Yard) : Yard := [1, 2].foldl (callWash k) y

/-- A withdrawal from a wash lane; the ending of the service is reported (R9, R113). -/
def withdrawWash (k : Site) (n : Nat) (y : Yard) : Yard :=
  match tget y.washLanes n with
  | none => y
  | some l => washCalls k (report (updWash n endWash (if l.state = .running then abortWash k n y else y)))

/-- The vehicle goes back to the head of the wash queue in WASH_WAIT; the ending of its service is reported (R9, R105,
R108). -/
def returnToWash (k : Site) (f : Nat) (y : Yard) : Yard :=
  report (setState k f .washWait { y with washQ := f :: without y.washQ f })

/-- An urgent move in the wash queue; ignored when the vehicle is not there (R104). -/
def washUrgent (f : Nat) (y : Yard) : Yard :=
  if y.washQ.contains f then { y with washQ := f :: without y.washQ f } else y

/-- The vehicle joins the end of the wash queue; its missed calls return to 0 (R7, R103). -/
def joinWash (k : Site) (f : Nat) (y : Yard) : Yard :=
  setState k f .washWait (updVeh f (fun v => { v with missedCalls := 0 }) { y with washQ := y.washQ ++ [f] })

end Sys2Proof.Machine
end

