-- ==== Sys2Proof/Machine/Stow.lean ====
section
/-! DEFINITION. Placement of one vehicle: eligibility, lane tail, choice, apron, forced placement and waiting (R67 to
R77). The score itself is in Flags.lean. -/

namespace Sys2Proof.Machine

/-- The departure of a vehicle for placement (R69). -/
def departureOf (y : Yard) (f : Nat) : Nat :=
  match vehOf y f with
  | none => Config.noDeparture
  | some v =>
    if v.entry.outOfService then Config.noDeparture
    else
      match v.duty.bind (dutyOf y) with
      | none => Config.noDeparture
      | some d => if evaluable d.state || d.state == .called then d.entry.departure else Config.noDeparture

/-- The roster length of a vehicle. -/
def lengthOf (y : Yard) (f : Nat) : Nat := ((vehOf y f).map (·.entry.length)).getD 0

/-- The occupied length of a lane (R44). -/
def occupied (k : Site) (y : Yard) (l : Lane) : Nat :=
  (l.items.map fun i => i.length + gap k).sum + (l.pendings.map fun p => lengthOf y p.fleet + gap k).sum

/-- The tail departure of a lane, none when it is empty (R69). -/
def laneTail (y : Yard) (l : Lane) : Option Nat :=
  match l.pendings.getLast? with
  | some p => some (departureOf y p.fleet)
  | none =>
    match l.items.getLast? with
    | none => none
    | some i =>
      match i.vehicle with
      | none => some Config.noDeparture
      | some f => some (departureOf y f)

/-- The lane is eligible for the vehicle, its pending list counted in (R68). -/
def eligible (k : Site) (y : Yard) (v : Vehicle) (l : Lane) : Bool :=
  l.status == .opened && inMask l.entry.mask v.entry.cls &&
  decide (l.items.length + l.pendings.length < Config.laneCap) && decide (l.pendings.length < Config.pendingCap) &&
  decide (occupied k y l + v.entry.length + gap k ≤ l.entry.capacity)

/-- The score of an eligible lane (R71, R72). -/
def laneScore (k : Site) (y : Yard) (v : Vehicle) (l : Lane) : Nat :=
  score k (departureOf y v.entry.fleet) (laneTail y l) (l.entry.capacity - (occupied k y l + v.entry.length + gap k))

/-- The lane takes part in the choice: eligible, and within tolerance unless the placement is forced (R70, R76). -/
def takesPart (k : Site) (y : Yard) (v : Vehicle) (forced : Bool) (l : Lane) : Bool :=
  eligible k y v l && (forced || decide (overtaken (departureOf y v.entry.fleet) (laneTail y l) ≤ setting k 5))

/-- The lower score, the earlier lane on a tie. -/
def betterLane (best : Option (Nat × Nat)) (s n : Nat) : Option (Nat × Nat) :=
  match best with
  | none => some (s, n)
  | some (t, m) => if s < t then some (s, n) else some (t, m)

/-- The choice of R73 and R76: the lowest score, ties to the lowest lane number. -/
def chooseLane (k : Site) (y : Yard) (v : Vehicle) (forced : Bool) : Option Nat :=
  (y.lanes.foldl
    (fun best p => if takesPart k y v forced p.2 then betterLane best (laneScore k y v p.2) p.1 else best) none).map
    (·.2)

/-- The join request of R74, naming the tail the score used; none is a refusal. -/
def requestLane (k : Site) (f n : Nat) (tail : Option Nat) (y : Yard) : Option Yard :=
  match vehOf y f, tget y.lanes n with
  | some v, some l =>
    if eligible k y v l && laneTail y l == tail then
      some (setState k f .stowPending
        (updLane n (fun l => { l with pendings := l.pendings ++ [{ fleet := f, joined := k.now }] }) y))
    else none
  | _, _ => none

/-- Choose and request a lane: nothing happens between the two, so a request is taken against the state it was scored
in (R74). -/
def toLane (k : Site) (f : Nat) (forced : Bool) (y : Yard) : Option (Yard × Nat) :=
  match vehOf y f with
  | none => none
  | some v =>
    match chooseLane k y v forced with
    | none => none
    | some n => (requestLane k f n ((tget y.lanes n).bind (laneTail y)) y).map fun y => (y, n)

/-- The vehicle joins the apron list (R75). -/
def joinApron (k : Site) (f : Nat) (y : Yard) : Yard :=
  report (setState k f .apron { y with apron := y.apron ++ [f] })

/-- The vehicle goes STOW_WAIT (R77). -/
def wait (k : Site) (f : Nat) (y : Yard) : Yard :=
  raise .yardFull (some f) none (pairedNumber y f) (setState k f .stowWait y)

/-- A placement that has a causing event, through its four stages (R67). -/
def placement (k : Site) (f : Nat) (y : Yard) : Yard × Direction :=
  match toLane k f false y with
  | some (y, n) => (y, .lane n)
  | none =>
    if y.apron.length < Config.apronCap then (joinApron k f y, .apron)
    else
      match toLane k f true y with
      | some (y, n) => (y, .lane n)
      | none => (wait k f y, .hold)

/-- The placement of the waiting pass: a vehicle that stays in STOW_WAIT has no direction (R77, R79). A move is
reported. -/
def waitingPlacement (k : Site) (f : Nat) (y : Yard) : Option (Yard × Direction) :=
  match toLane k f false y with
  | some (y, n) => some (report y, .lane n)
  | none =>
    if y.apron.length < Config.apronCap then some (joinApron k f y, .apron)
    else (toLane k f true y).map fun p => (report p.1, .lane p.2)

end Sys2Proof.Machine
end

