-- ==== Sys2Proof/Machine/Route.lean ====
section
/-! DEFINITION. Taking a vehicle out of its holder, the route decision, deferrals and the requests a join causes (R10,
R15 to R18, R104, R122). -/

namespace Sys2Proof.Machine

/-! ## Out of a holder (R10) -/

/-- The vehicle's entry leaves a lane list: the lane receives the doubt mark, and room has appeared. -/
def outOfLane (n f : Nat) (y : Yard) : Yard :=
  let front := (tget y.lanes n).bind frontVehicle == some f
  let y := updLane n (fun l => { l with items := l.items.filter fun i => i.vehicle != some f, doubt := true }) y
  let y := roomEvent y
  if front then report y else y

/-- The vehicle leaves a pending list: room has appeared. -/
def outOfPending (n f : Nat) (y : Yard) : Yard :=
  roomEvent (updLane n (fun l => { l with pendings := l.pendings.filter fun p => p.fleet != f }) y)

/-- A vehicle is taken out of its holder by another block's request (R10). -/
def takeOut (k : Site) (f : Nat) (y : Yard) : Yard :=
  match laneHolding y f with
  | some n => outOfLane n f y
  | none =>
    match pendingHolding y f with
    | some n => outOfPending n f y
    | none =>
      match islandHolding y f with
      | some n => withdrawIsland k n y
      | none =>
        match washHolding y f with
        | some n => withdrawWash k n y
        | none =>
          if y.apron.contains f then roomEvent (leaveApron f y)
          else
            { y with
              departing := y.departing.filter fun e => e.vehicle != some f
              fuelQ := without y.fuelQ f
              washQ := without y.washQ f }

/-! ## The route decision (R15, R16) -/

/-- The paired duty is HELD (R122). -/
def dutyHeld (y : Yard) (f : Nat) : Bool :=
  match pairedDuty y f with
  | some d => d.state == .held
  | none => false

/-- The vehicle has joined the fuel queue at its end: an urgent move where its duty is HELD, issued now or, within the
due events of a minute, collected; then the calling rule (R87, R122). -/
def fuelJoined (k : Site) (collect : Bool) (f : Nat) (y : Yard) : Yard :=
  fuelCalls k
    (if dutyHeld y f then
      if collect then { y with todo.urgent := y.todo.urgent ++ [(true, f)] } else fuelUrgent f y
     else y)

/-- Case 1 applies: the paired duty is HELD or BLOCKED and the vehicle is ready for it. -/
def releasable (y : Yard) (v : Vehicle) : Option Nat :=
  match v.duty.bind (dutyOf y) with
  | some d => if waiting d.state && ready v d then some d.entry.number else none
  | none => none

/-- Case 2 applies: fuel is needed and neither flag is set. -/
def wantsFuel (k : Site) (y : Yard) (v : Vehicle) : Bool :=
  needsFuel k v (v.duty.bind (dutyOf y)) && !v.fuelDone && !v.fuelSkipped

/-- Case 3 applies: a wash is needed and neither flag is set. -/
def wantsWash (k : Site) (y : Yard) (v : Vehicle) : Bool :=
  needsWash k v (v.duty.bind (dutyOf y)) && !v.washDone && !v.washIncomplete

/-- The fuel queue refuses the vehicle (R16). -/
def skipFuel (f : Nat) (y : Yard) : Yard := raise .fuelSkipped (some f) none (pairedNumber y f) (markFuelSkipped f y)

/-- The wash queue refuses the vehicle (R16). -/
def skipWash (f : Nat) (y : Yard) : Yard := raise .washSkipped (some f) none (pairedNumber y f) (markWashIncomplete f y)

/-- Case 3, or case 4 when it does not apply or is refused. -/
def washOrPlace (k : Site) (f : Nat) (y : Yard) : Yard × Direction :=
  match vehOf y f with
  | none => (y, .hold)
  | some v =>
    if wantsWash k y v then
      if washJoinable y f then (joinWash k f y, .washRoad) else placement k f (skipWash f y)
    else placement k f y

/-- The cases of R15 in order; `onward` is what follows case 2. -/
def routeCases (k : Site) (onward : Nat → Yard → Yard × Direction) (f : Nat) (y : Yard) : Yard × Direction :=
  match vehOf y f with
  | none => (y, .hold)
  | some v =>
    if v.entry.outOfService then placement k f y
    else
      match releasable y v with
      | some d => (directRelease k d f y, .exit)
      | none =>
        if wantsFuel k y v then
          if fuelJoinable y f then (joinFuel k f y, .fuelRoad) else onward f (skipFuel f y)
        else onward f y

/-- Defer the wash of a queued vehicle: it leaves the queue wash-incomplete, and the decision runs without case 3 and
without a causing station; ignored when the vehicle is not in the queue (R104, R17). -/
def defer (k : Site) (collect : Bool) (f : Nat) (y : Yard) : Yard :=
  if y.washQ.contains f then
    match routeCases k (placement k) f (markWashIncomplete f { y with washQ := without y.washQ f }) with
    | (y, .fuelRoad) => fuelJoined k collect f y
    | (y, _) => y
  else y

/-- The vehicle has joined the wash queue at its end: where its duty is HELD, an urgent move or a deferral; then the
calling rule (R105, R122). -/
def washJoined (k : Site) (f : Nat) (y : Yard) : Yard :=
  match pairedDuty y f with
  | some d =>
    washCalls k
      (if d.state = .held then
        if d.entry.wash then washUrgent f y else defer k false f y
       else y)
  | none => washCalls k y

/-- The route decision: its outcome, the direction to the causing station's sign, and what a join causes (R15 to R18,
R122, log 14). -/
def route (k : Site) (sign : Option Nat) (f : Nat) (y : Yard) : Yard × Direction :=
  match routeCases k (washOrPlace k) f y with
  | (y, dir) =>
    let y := showSign k sign f dir y
    match dir with
    | .fuelRoad => (fuelJoined k false f y, dir)
    | .washRoad => (washJoined k f y, dir)
    | _ => (y, dir)

end Sys2Proof.Machine
end

