-- ==== Sys2Proof/Machine/Departure.lean ====
section
/-! DEFINITION. The Departure Sequencer's work and the retry rounds: pairing, substitution, evaluation, duty retry rounds,
retry rounds of the Stow Planner, minute events, catch-up and the bank step (R78, R79, R119 to R124, R128, R134, R135,
R138, R143). -/

namespace Sys2Proof.Machine

/-! ## Pairing at arrival (R119) -/

/-- The duty of least departure and then number that a test accepts. -/
def earliestDuty (y : Yard) (p : Duty → Bool) : Option Nat :=
  (dutyOrder y).find? fun d =>
    match dutyOf y d with
    | some r => p r
    | none => false

/-- Case 1: an unpaired BLOCKED duty for which the vehicle is ready. -/
def takesBlocked (v : Vehicle) (r : Duty) : Bool :=
  r.state == .blocked && r.reason == some .noVehicle && r.vehicle.isNone && ready v r

/-- Case 2: an unpaired OPEN duty whose mask holds the vehicle's class. -/
def takesOpen (v : Vehicle) (r : Duty) : Bool :=
  r.state == .opened && r.vehicle.isNone && inMask r.entry.mask v.entry.cls

/-- Pairing at arrival (R119): nothing for a vehicle out of service. -/
def pairArrival (f : Nat) (y : Yard) : Yard :=
  match vehOf y f with
  | none => y
  | some v =>
    if v.entry.outOfService then y
    else
      match earliestDuty y (takesBlocked v) with
      | some d => pair f d y
      | none =>
        match earliestDuty y (takesOpen v) with
        | some d => pair f d y
        | none => y

/-! ## Substitution (R123) -/

/-- The vehicles whose place may be a front, in the order that breaks ties: the apron, then the lanes. -/
def frontOrder (y : Yard) : List Nat := y.apron ++ y.lanes.filterMap fun p => frontVehicle p.2

/-- The own departure of a candidate for a duty, none when the vehicle is no candidate. -/
def candidacy (y : Yard) (r : Duty) (f : Nat) : Option Nat :=
  match vehOf y f with
  | none => none
  | some v =>
    if (atFront y v).isSome && ready v r then
      match v.duty with
      | none => some Config.noDeparture
      | some e =>
        match dutyOf y e with
        | some e => if e.state == .opened && decide (r.entry.departure < e.entry.departure) then some e.entry.departure else none
        | none => none
    else none

/-- The later own departure; the earlier in order on a tie. -/
def betterCandidate (best : Option (Nat × Nat)) (t f : Nat) : Option (Nat × Nat) :=
  match best with
  | none => some (t, f)
  | some (u, g) => if u < t then some (t, f) else some (u, g)

/-- The candidate preferred for a duty. -/
def bestCandidate (y : Yard) (r : Duty) : Option Nat :=
  ((frontOrder y).foldl
    (fun best f => match candidacy y r f with
      | some t => betterCandidate best t f
      | none => best) none).map (·.2)

/-- A vehicle's call from the front it stands at. -/
def callFromFront (k : Site) (d f : Nat) (y : Yard) : Yard :=
  match (vehOf y f).bind (atFront y) with
  | some stand => callVehicle k d f stand y
  | none => y

/-- D goes BLOCKED; the notice is raised when it enters BLOCKED or its reason changes. -/
def block (d : Nat) (r : Duty) (reason : BlockedReason) (y : Yard) : Yard :=
  if r.state = .blocked ∧ r.reason = some reason then y
  else
    raise .dutyBlocked r.vehicle none (some d)
      (updDuty d (fun r => { r with state := .blocked, reason := some reason }) y)

/-- W takes C's former duty unless it is ABSENT. -/
def mayTakeDuty (y : Yard) (w : Option Nat) : Bool :=
  match w with
  | some w => stateOf y w != some .absent
  | none => false

/-- A substitution for duty D. -/
def substitute (k : Site) (r : Duty) (reason : BlockedReason) (y : Yard) : Yard :=
  let d := r.entry.number
  match bestCandidate y r with
  | none => block d r reason y
  | some c =>
    let y := exchange c d (mayTakeDuty y r.vehicle) y
    let y := updDuty d (fun r => { r with marks := { r.marks with swapped := true } }) y
    let y := raise .swap (some c) none (some d) y
    callFromFront k d c y

/-! ## Evaluation (R121, R122) -/

/-- D goes HELD; entering HELD asks the service controller to hurry or to give up the service (R122). -/
def hold (k : Site) (r : Duty) (v : Vehicle) (collect : Bool) (y : Yard) : Yard :=
  if r.state = .held then y
  else
    let f := v.entry.fleet
    let y := updDuty r.entry.number (fun r => { r with state := .held, reason := none }) y
    let urgent (fuel : Bool) (y : Yard) : Yard := { y with todo.urgent := y.todo.urgent ++ [(fuel, f)] }
    match v.state with
    | .fuelWait => if collect then urgent true y else fuelCalls k (fuelUrgent f y)
    | .washWait =>
      if r.entry.wash then
        if collect then urgent false y else washCalls k (washUrgent f y)
      else washCalls k (defer k collect f y)
    | _ => y

/-- The first row of R121's table that applies. The table has no row for a vehicle whose record shows APRON, or CALLED, while it
stands at no front, as inside the relocation of an arrival: it is taken as no vehicle, the model's choice (log 58). -/
def evaluateFor (k : Site) (r : Duty) (v : Vehicle) (collect : Bool) (y : Yard) : Yard :=
  match atFront y v with
  | some stand =>
    if ready v r then callVehicle k r.entry.number v.entry.fleet stand y else substitute k r .notReady y
  | none =>
    match v.state with
    | .departing => callInPlace k r.entry.number v.entry.fleet y
    | .fuelWait | .fuelling | .washWait | .washing | .stowPending => hold k r v collect y
    | .parked => substitute k r .buried y
    | _ => substitute k r .noVehicle y

/-- The evaluation of a duty (R121): none in FREE, and none of a CALLED, DEPARTED or CANCELLED duty. `collect` says that
it belongs to the due events of a minute. -/
def evaluate (k : Site) (collect : Bool) (d : Nat) (y : Yard) : Yard :=
  if clockFree k then y
  else
    match dutyOf y d with
    | none => y
    | some r =>
      if evaluable r.state then
        match r.vehicle.bind (vehOf y) with
        | some v => evaluateFor k r v collect y
        | none => substitute k r .noVehicle y
      else y

/-- The state of a duty. -/
def dutyStateOf (y : Yard) (d : Nat) : Option DutyState := (dutyOf y d).map (·.state)

/-! ## Rounds (R78, R79, R124) -/

/-- A duty retry round (R124). -/
def dutyRound (k : Site) (y : Yard) : Yard :=
  (dutyOrder y).foldl
    (fun y d => match dutyStateOf y d with
      | some s => if waiting s then evaluate k false d y else y
      | none => y) y

/-- The evaluations owed "at once", first come first, then the duty retry rounds owed, until none is (R118, R124, log 10,
log 11, log 44). -/
def drainDuty (k : Site) : Nat → Yard → Yard
  | 0, y => y
  | n + 1, y =>
    match y.todo.lost with
    | d :: rest => drainDuty k n (evaluate k false d { y with todo.lost := rest })
    | [] =>
      match y.todo.dutyRounds with
      | 0 => y
      | m + 1 => drainDuty k n (dutyRound k { y with todo.dutyRounds := m })

/-- What follows each move of a retry round: the direction to the apron sign, and the duty retry rounds (R79, R80). -/
def afterMove (k : Site) (f : Nat) (dir : Direction) (y : Yard) : Yard :=
  drainDuty k Config.roundBound (showSign k (apronSign k) f dir y)

/-- One vehicle of the apron pass (R79): passed over when its duty is BLOCKED. -/
def apronTurn (k : Site) (f : Nat) (y : Yard) : Yard :=
  if ((pairedDuty y f).map (·.state)) = some .blocked then y
  else
    match toLane k f false y with
    | some (y, n) => afterMove k f (.lane n) (report (leaveApron f y))
    | none => y

/-- The apron pass: the first vehicle in APRON, in apron order, that it has not served. -/
def apronPass (k : Site) : Nat → List Nat → Yard → Yard
  | 0, _, y => y
  | n + 1, served, y =>
    match y.apron.find? fun f => stateOf y f == some .apron && !served.contains f with
    | none => y
    | some f => apronPass k n (f :: served) (apronTurn k f y)

/-- STOW_WAIT vehicles not yet served, in ascending since and then fleet number (R3, R79). -/
def waitOrder (y : Yard) (served : List Nat) : List Nat :=
  (sortBy lt2
    (y.roster.filterMap fun p =>
      if p.2.state == .stowWait && !served.contains p.2.entry.fleet then
        some (timeSeconds p.2.since, p.2.entry.fleet)
      else none)).map (·.2)

/-- One vehicle of the waiting pass (R79). -/
def waitTurn (k : Site) (f : Nat) (y : Yard) : Yard :=
  match waitingPlacement k f y with
  | some (y, dir) => afterMove k f dir y
  | none => y

/-- The waiting pass: each turn takes the first of the order as it then stands. A vehicle that enters STOW_WAIT during the pass
is so taken in it even where its since and fleet number lie below those of one already served, which R79 leaves open: the
model's choice (log 52). -/
def waitingPass (k : Site) : Nat → List Nat → Yard → Yard
  | 0, _, y => y
  | n + 1, served, y =>
    match waitOrder y served with
    | [] => y
    | f :: _ => waitingPass k n (f :: served) (waitTurn k f y)

/-- A retry round of the Stow Planner (R79). -/
def retryRound (k : Site) (y : Yard) : Yard :=
  waitingPass k Config.roundBound [] (apronPass k Config.roundBound [] y)

/-- Duties a withdrawn call returned to OPEN are evaluated if their due minute is not later than the present one
(R127). They come after the evaluations that lost or exchanged vehicles owe in the same event (R118), and several are taken in
the order their calls were withdrawn: the model's choice (log 44). -/
def takeReturned (k : Site) (y : Yard) : Yard :=
  let due := y.todo.returned.filter fun d =>
    match dutyOf y d with
    | some r => decide (dueMinute k r.entry ≤ presentMinute k)
    | none => false
  { y with todo.returned := [], todo.lost := y.todo.lost ++ due }

/-- Everything an event owes, run when its changes are complete: evaluations, duty retry rounds, then the retry rounds
of its room events (R78, R118, R124, log 10). -/
def drainFor (k : Site) : Nat → Yard → Yard
  | 0, y => y
  | n + 1, y =>
    let y := drainDuty k Config.roundBound (takeReturned k y)
    match y.todo.roomRounds with
    | 0 => y
    | m + 1 => drainFor k n (retryRound k { y with todo.roomRounds := m })

def drain (k : Site) (y : Yard) : Yard := drainFor k Config.roundBound y

/-! ## Minute events (R121, R128, R142) -/

/-- Issue the urgent moves collected in a minute, the last evaluated first (R122). -/
def issueUrgent (k : Site) (y : Yard) : Yard :=
  y.todo.urgent.reverse.foldl
    (fun y u => if u.1 then fuelCalls k (fuelUrgent u.2 y) else washCalls k (washUrgent u.2 y))
    { y with todo.urgent := [] }

/-- Set a duty's late mark (R117). -/
def setLate (d : Nat) (y : Yard) : Yard := updDuty d (fun r => { r with marks := { r.marks with late := true } }) y

/-- Set the late mark and raise DUTY_LATE with the duty and its vehicle (R128). -/
def markLate (d : Nat) (r : Duty) (y : Yard) : Yard := raise .dutyLate r.vehicle none (some d) (setLate d y)

/-- The late handling of a duty (R128). -/
def lateEvent (d : Nat) (y : Yard) : Yard :=
  match dutyOf y d with
  | none => y
  | some r =>
    if evaluable r.state then markLate d r y
    else if r.state = .called ∧ (r.vehicle.bind (stateOf y)) = some .called then
      raise .callOverdue r.vehicle none (some d) y
    else y

/-- Evaluate a duty that is OPEN when it is reached, and run what that causes (log 16). -/
def dueEvent (k : Site) (collect : Bool) (y : Yard) (d : Nat) : Yard :=
  if dutyStateOf y d = some .opened then drain k (evaluate k collect d y) else y

/-- The duties of the active bank, in order, that a test accepts. -/
def dutiesWhere (y : Yard) (p : Duty → Bool) : List Nat :=
  (dutyOrder y).filter fun d =>
    match dutyOf y d with
    | some r => p r
    | none => false

/-- The minute event of minute m: due events, the urgent moves they collect, then late events (R121, R128, R142). -/
def minuteEvent (k : Site) (y : Yard) (m : Nat) : Yard :=
  let y := (dutiesWhere y fun r => dueMinute k r.entry == m).foldl (dueEvent k true) y
  let y := drain k (issueUrgent k y)
  (dutiesWhere y fun r => lateMinute k r.entry == m).foldl (fun y d => lateEvent d y) y

/-- The minutes from `first` to `last` in ascending order, each whole before the next (R139). -/
def deliver (k : Site) (first last : Nat) (y : Yard) : Yard :=
  (List.range' first (last + 1 - first)).foldl (minuteEvent k) y

/-- The catch-up of due and late duties (R138, R134). -/
def catchUp (k : Site) (y : Yard) : Yard :=
  let y := (dutiesWhere y fun r => decide (dueMinute k r.entry ≤ presentMinute k)).foldl (dueEvent k false) y
  (dutiesWhere y fun r => decide (lateMinute k r.entry ≤ presentMinute k)).foldl
    (fun y d => if ((dutyOf y d).map (·.marks.late)) = some true then y else lateEvent d y) y

/-! ## Bank step and rollover (R135, R143) -/

/-- The running fields of a duty at the start of its day (R135). -/
def freshDuty (e : DutyEntry) : Duty :=
  { entry := e, state := .opened, reason := none, vehicle := none,
    marks := { late := false, early := false, unconfirmed := false, swapped := false }, callTime := none }

/-- Every record of both banks returns to OPEN (R135, step 2). -/
def resetBanks (y : Yard) : Yard :=
  { y with
    bankA := tmap y.bankA fun r => freshDuty r.entry
    bankB := tmap y.bankB fun r => freshDuty r.entry }

/-- The other bank. -/
def otherBank : Bank → Bank
  | .a => .b
  | .b => .a

/-- The vehicles that bank-step pairing reaches, in order (R135, step 4). -/
def pairingOrder (y : Yard) : List Nat :=
  y.apron ++ (y.lanes.flatMap fun p => p.2.items.filterMap (·.vehicle)) ++
  (y.lanes.flatMap fun p => p.2.pendings.map (·.fleet)) ++ y.fuelQ ++ (y.islands.filterMap fun p => p.2.vehicle) ++
  y.washQ ++ y.washLanes.filterMap fun p => p.2.vehicle

/-- The call of a noted duty ends with the day (R135, step 3). -/
def endCall (k : Site) (y : Yard) (l : BoardLine) : Yard :=
  standDown k l.fleet (raise .callWithdrawn (some l.fleet) none (some l.duty) y)

/-- The bank step (R135): the call list holds exactly the CALLED duties with their vehicles, in order of their calls
(R129, log 27). -/
def bankStep (k : Site) (swap : Bool) (y : Yard) : Yard :=
  let noted := y.callList
  let y := if swap || y.activation then { y with active := otherBank y.active, activation := false } else y
  let y := resetBanks y
  let y := { y with roster := tmap y.roster fun v => { v with duty := none } }
  let y := noted.foldl (endCall k) y
  let y := boardsChanged { y with callList := [] }
  (pairingOrder y).foldl (fun y f => pairArrival f y) y

/-- Every vehicle's days since wash rises by one; each rise is reported (R6, R143). -/
def ageWashes (y : Yard) : Yard :=
  { y with
    roster := tmap y.roster fun v => { v with daysSinceWash := satSucc 255 v.daysSinceWash }
    todo.dutyRounds := y.todo.dutyRounds + (y.roster.filter fun p => decide (p.2.daysSinceWash < 255)).length }

/-- Steps 2 to 4 of a rollover (R143). -/
def rollover (k : Site) (y : Yard) : Yard :=
  raise .dayRollover none none none (bankStep k false (ageWashes y))

/-- Run minute events of a rollover with the rounds its own steps owe kept until the whole of it is complete (R143). -/
def deliverAfterRollover (k : Site) (first last : Nat) (y : Yard) : Yard :=
  let z := deliver k first last { y with todo := .none }
  drain k
    { z with
      todo.lost := y.todo.lost ++ z.todo.lost
      todo.returned := y.todo.returned ++ z.todo.returned
      todo.dutyRounds := y.todo.dutyRounds + z.todo.dutyRounds
      todo.roomRounds := y.todo.roomRounds + z.todo.roomRounds }

/-! ## The vehicle leaves the yard (R61, R63, R127) -/

/-- A vehicle has left the yard by the outbound gate: it goes ABSENT, and its departure is settled as case 1 of R61
gives. -/
def settleDeparture (k : Site) (f : Nat) (y : Yard) : Yard :=
  let y := setState k f .absent y
  match pairedDuty y f with
  | none => raise .unplannedDeparture (some f) none (pairedNumber y f) y
  | some r =>
    let d := r.entry.number
    if r.state = .called then settleDuty d y
    else raise .unplannedDeparture (some f) none (some d) (settleDuty d y)

end Sys2Proof.Machine
end

