-- ==== Sys2Proof/Machine/Custody.lean ====
section
/-! DEFINITION. Passages and the lane lists, the outbound gate, arrivals and YARD reads, the census and the lane orders
(R13, R45, R51 to R65). -/

namespace Sys2Proof.Machine

/-! ## Passages (R51 to R55) -/

/-- A pop from an empty lane list (R51). -/
def underrun (n : Nat) (y : Yard) : Yard := markDoubt n (raise .laneUnderrun none (some (.lane n)) none y)

/-- No room for an entry: R52 names the lane as the notice's place, and R53 names none (R155). -/
def overflow (n : Nat) (place : Option NoticePlace) (y : Yard) : Yard :=
  markDoubt n (raise .laneOverflow none place none y)

/-- An unidentified entry made now (R44). -/
def unidentified (k : Site) (l : Lane) : LaneItem :=
  { vehicle := none, length := l.entry.unknownLength, entered := presentTime k }

/-- A vehicle goes PARKED: reported (R9). -/
def park (k : Site) (f : Nat) (y : Yard) : Yard := report (setState k f .parked y)

/-- A forward passage at the entry mouth of lane n (R52). -/
def pushBack (k : Site) (n : Nat) (y : Yard) : Yard :=
  match tget y.lanes n with
  | none => y
  | some l =>
    let front (y : Yard) : Yard := if l.items = [] then report y else y
    match l.pendings with
    | p :: rest =>
      let item : LaneItem :=
        { vehicle := some p.fleet, length := lengthOf y p.fleet, entered := presentTime k }
      front (park k p.fleet (updLane n (fun l => { l with items := l.items ++ [item], pendings := rest }) y))
    | [] =>
      if l.items.length < Config.laneCap then
        front (raise .unexpectedEntry none (some (.lane n)) none
          (markDoubt n (updLane n (fun l => { l with items := l.items ++ [unidentified k l] }) y)))
      else overflow n (some (.lane n)) y

/-- A CALLED vehicle moved back from position 1: its call is withdrawn, and it goes PARKED (R53, R62). -/
def moveBack (k : Site) (former : Option Nat) (y : Yard) : Yard :=
  match former with
  | none => y
  | some f => if stateOf y f = some .called then park k f (withdrawCall f y) else y

/-- The most recently directed pending vehicle is displaced when entries plus pending exceed 16 (R53). -/
def displace (k : Site) (n : Nat) (y : Yard) : Yard :=
  match tget y.lanes n with
  | none => y
  | some l =>
    if Config.laneCap < l.items.length + l.pendings.length then
      match l.pendings.getLast? with
      | none => y
      | some p =>
        let y := updLane n (fun l => { l with pendings := l.pendings.dropLast }) y
        roomEvent (raise .laneOverflow (some p.fleet) (some (.lane n)) none (setState k p.fleet .unlocated y))
    else y

/-- A reverse passage at the exit mouth of lane n (R53). -/
def pushFront (k : Site) (n : Nat) (y : Yard) : Yard :=
  match tget y.lanes n with
  | none => y
  | some l =>
    if l.items.length < Config.laneCap then
      let y := markDoubt n (updLane n (fun l => { l with items := unidentified k l :: l.items }) y)
      let y := raise .unexpectedEntry none (some (.lane n)) none y
      report (moveBack k (frontVehicle l) (displace k n y))
    else overflow n none y

/-- A reverse passage at the entry mouth of lane n (R54). -/
def popBack (k : Site) (n : Nat) (y : Yard) : Yard :=
  match tget y.lanes n with
  | none => y
  | some l =>
    match l.items.getLast? with
    | none => underrun n y
    | some i =>
      let y := roomEvent (updLane n (fun l => { l with items := l.items.dropLast }) y)
      let y := match i.vehicle with
        | none => y
        | some f => setState k f .unlocated (if stateOf y f = some .called then withdrawCall f y else y)
      if l.items.length = 1 then report y else y

/-- A forward passage at the exit mouth of lane n (R55). -/
def popFront (k : Site) (n : Nat) (y : Yard) : Yard :=
  match tget y.lanes n with
  | none => y
  | some l =>
    match l.items with
    | [] => underrun n y
    | i :: rest =>
      let y := roomEvent (updLane n (fun l => { l with items := rest }) y)
      let y := joinDeparting k i.vehicle (some n) y
      let y := match i.vehicle with
        | none => y
        | some f => setState k f .departing y
      report y

/-- The lane that names a mouth. -/
def laneOfMouth (y : Yard) (m : Nat) : Option (Nat × Lane) :=
  tfind y.lanes fun l => l.entry.entryMouth == m || l.entry.exitMouth == m

/-- What a passage tracker hands to its lane (R50). -/
inductive Passage where
  | forward | reverse
deriving DecidableEq, Repr

/-- A passage at a mouth, by the mouth's end and the direction (R51). -/
def passage (k : Site) (m : Nat) (p : Passage) (y : Yard) : Yard :=
  match laneOfMouth y m with
  | none => y
  | some (n, l) =>
    match l.entry.entryMouth == m, p with
    | true, .forward => pushBack k n y
    | true, .reverse => popBack k n y
    | false, .forward => popFront k n y
    | false, .reverse => pushFront k n y

/-- MOUTH_FAULT, with the doubt mark on the lane whose mouth it is (R50). -/
def mouthFault (m : Nat) (y : Yard) : Yard :=
  let y := raise .mouthFault none (some (.mouth m)) none y
  match laneOfMouth y m with
  | some (n, _) => markDoubt n y
  | none => y

/-! ## The passage tracker and the debouncer (R47, R50) -/

inductive TrackEvent where
  | nothing | fault
  | passed (p : Passage)
deriving DecidableEq, Repr

/-- The tracker's move on an accepted pair state (R50). -/
def track : Tracker → PairState → Tracker × TrackEvent
  | .idle, .clear => (.idle, .nothing)
  | .idle, .a => (.f1, .nothing)
  | .idle, .ab => (.uncertain, .nothing)
  | .idle, .b => (.r1, .nothing)
  | .f1, .clear => (.idle, .nothing)
  | .f1, .a => (.f1, .nothing)
  | .f1, .ab => (.f2, .nothing)
  | .f1, .b => (.uncertain, .nothing)
  | .f2, .clear => (.idle, .fault)
  | .f2, .a => (.f1, .nothing)
  | .f2, .ab => (.f2, .nothing)
  | .f2, .b => (.f3, .nothing)
  | .f3, .clear => (.idle, .passed .forward)
  | .f3, .a => (.uncertain, .nothing)
  | .f3, .ab => (.f2, .nothing)
  | .f3, .b => (.f3, .nothing)
  | .r1, .clear => (.idle, .nothing)
  | .r1, .a => (.uncertain, .nothing)
  | .r1, .ab => (.r2, .nothing)
  | .r1, .b => (.r1, .nothing)
  | .r2, .clear => (.idle, .fault)
  | .r2, .a => (.r3, .nothing)
  | .r2, .ab => (.r2, .nothing)
  | .r2, .b => (.r1, .nothing)
  | .r3, .clear => (.idle, .passed .reverse)
  | .r3, .a => (.r3, .nothing)
  | .r3, .ab => (.r2, .nothing)
  | .r3, .b => (.uncertain, .nothing)
  | .uncertain, .clear => (.idle, .fault)
  | .uncertain, .a => (.uncertain, .nothing)
  | .uncertain, .ab => (.uncertain, .nothing)
  | .uncertain, .b => (.uncertain, .nothing)

/-- The reset condition of a mouth (R46). -/
def resetMouth (e : LoopEntry) : Mouth :=
  { entry := e, accepted := .clear, candidate := none, stuck := none, tracker := .idle }

/-- The mouth after an accepted pair state (R47, R48, R50). -/
def acceptMouth (k : Site) (st : PairState) (m : Mouth) : Mouth :=
  { m with
    accepted := st, candidate := none, stuck := if st = .clear then none else some k.now,
    tracker := (track m.tracker st).1 }

/-- An accepted pair state is handed to the tracker; a passage's retries run when its own changes are complete (R50,
R51). -/
def accept (n : Nat) (st : PairState) (k : Site) (y : Yard) : Site × Yard :=
  match tget k.mouths n with
  | none => (k, y)
  | some m =>
    let k' := { k with mouths := tset k.mouths n (acceptMouth k st m) }
    match (track m.tracker st).2 with
    | .nothing => (k', y)
    | .fault => (k', mouthFault n y)
    | .passed p => (k', drain k' (passage k' n p y))

/-- The raw pair state of two loops (R47). -/
def pairState : Bool → Bool → PairState
  | false, false => .clear
  | true, false => .a
  | true, true => .ab
  | false, true => .b

/-- The last-reported states of a concentrator (R46). -/
def loopsOf (k : Site) (a : Nat) : LoopBits := ((tget k.concentrators a).map (·.loops)).getD 0

def silentAt (k : Site) (a : Nat) : Bool := ((tget k.concentrators a).map (·.silent)).getD false

def rawState (k : Site) (e : LoopEntry) : PairState :=
  pairState ((loopsOf k e.stationA).getLsbD e.indexA) ((loopsOf k e.stationB).getLsbD e.indexB)

/-- A concentrator carries a loop of the mouth. -/
def mouthOn (a : Nat) (e : LoopEntry) : Bool := e.stationA == a || e.stationB == a

/-- The loop map names the concentrator (R46). -/
def namedIn (mouths : Table Mouth) (a : Nat) : Bool := tany mouths fun m => mouthOn a m.entry

def debounceTicks : Debounce → Nat
  | .none => 0
  | .ms200 => 20
  | .ms500 => 50
  | .ms1000 => 100

/-- The expiry tick of a silence timer started now (R49). -/
def silenceDeadline (k : Site) : Nat := k.now + setting k 8 * Config.second

/-- One mouth takes a raw pair state (R47); `back` says that the report is the first after silence. -/
def debounce (back : Bool) (n : Nat) (k : Site) (y : Yard) : Site × Yard :=
  match tget k.mouths n with
  | none => (k, y)
  | some m =>
    let raw := rawState k m.entry
    let write (m : Mouth) : Site := { k with mouths := tset k.mouths n m }
    if raw = m.accepted then
      if back ∧ raw = .clear ∧ m.tracker = .uncertain then accept n .clear k y
      else (write { m with candidate := none }, y)
    else if m.candidate.map (·.1) = some raw then (k, y)
    else if m.entry.debounce = .none then accept n raw k y
    else (write { m with candidate := some (raw, k.now) }, y)

/-- A mouth takes a report of a concentrator: not while a concentrator of its loops is in silence (R49). -/
def mouthReport (a : Nat) (back : Bool) (p : Site × Yard) (n : Nat) : Site × Yard :=
  match tget p.1.mouths n with
  | none => p
  | some m =>
    if mouthOn a m.entry && !silentAt p.1 m.entry.stationA && !silentAt p.1 m.entry.stationB then
      debounce back n p.1 p.2
    else p

/-- A processed LOOP_STATE (R47, log 29). The order of the mouths is the model's choice: ascending number, with the rounds
of one mouth's passage before the next mouth (log 43). -/
def loopReport (a : Nat) (loops : LoopBits) (k : Site) (y : Yard) : Site × Yard :=
  let c : Concentrator :=
    { loops := loops, timer := if namedIn k.mouths a then some (silenceDeadline k) else none, silent := false }
  let back := silentAt k a
  (k.mouths.map (·.1)).foldl (mouthReport a back) ({ k with concentrators := tset k.concentrators a c }, y)

/-- A concentrator enters silence (R49). -/
def enterSilence (a : Nat) (k : Site) : Site :=
  { k with
    concentrators := tmod k.concentrators a fun c => { c with timer := none, silent := true }
    mouths := tmap k.mouths fun m =>
      if mouthOn a m.entry then { m with candidate := none, tracker := .uncertain } else m }

/-! ## The outbound gate (R45, R61 to R63) -/

/-- A vehicle on the apron list leaves it into a departing entry with no lane (R45). -/
def apronStep (k : Site) (f : Nat) (y : Yard) : Yard :=
  if y.apron.contains f then
    setState k f .departing (joinDeparting k (some f) none (roomEvent (leaveApron f y)))
  else y

/-- Remove the first departing entry with a vehicle field. -/
def dropDeparting (v : Option Nat) : List DepartingItem → List DepartingItem
  | [] => []
  | e :: l => if e.vehicle = v then l else e :: dropDeparting v l

/-- Y takes X's lane list entry in place (R62, step 2, log 25). -/
def replaceEntry (k : Site) (n x v : Nat) (y : Yard) : Yard :=
  let front := (tget y.lanes n).bind frontVehicle == some x
  let len := lengthOf y v
  let y := updLane n
    (fun l => { l with
      items := l.items.map fun i => if i.vehicle = some x then { i with vehicle := some v, length := len } else i }) y
  let y := park k v (markDoubt n y)
  if front then report y else y

/-- Y is pushed at position 1 of the lane its entry names, if the lane has room (R62, step 2). R62 does not say what becomes of Y
when that lane's record has been removed meanwhile (R150): none, so Y goes UNLOCATED and the notice has no place, the model's
choice (log 54). -/
def pushAtFront (k : Site) (n v : Nat) (y : Yard) : Option Yard :=
  match tget y.lanes n with
  | none => none
  | some l =>
    if l.items.length < Config.laneCap && decide (l.items.length + l.pendings.length < Config.laneCap) then
      let item : LaneItem := { vehicle := some v, length := lengthOf y v, entered := presentTime k }
      let y := markDoubt n (updLane n (fun l => { l with items := item :: l.items }) y)
      some (report (moveBack k (frontVehicle l) (park k v y)))
    else none

/-- X takes Y's duty, and Y takes X's former duty or none (R62, step 3, log 24). A former duty of X that was CALLED has
its call withdrawn; a HELD or BLOCKED one with another vehicle, or none, is evaluated at once (R118). X takes Y's duty even
out of service, and Y out of service takes none: the model's choice (log 24). -/
def swapDuties (x v : Nat) (y : Yard) : Yard :=
  let y := withdrawCall x y
  let dx := pairedNumber y x
  let dv := pairedNumber y v
  let y := unpairRecords v (unpairRecords x y)
  let y := match dv with
    | some d => updDuty d (fun r => { r with marks := { r.marks with swapped := true } }) (pair x d y)
    | none => y
  match dx with
  | none => y
  | some d =>
    let free := ((vehOf y v).map (·.entry.outOfService)).getD true
    oweIfWaiting d (if free then y else pair v d y)

/-- A custody mismatch: X left in the place of Y, the oldest departing vehicle (R62). -/
def mismatch (k : Site) (x v : Nat) (lane : Option Nat) (y : Yard) : Yard :=
  let y := { y with departing := y.departing.drop 1 }
  let placed : Yard × Option Nat :=
    match laneHolding y x with
    | some n => (replaceEntry k n x v y, some n)
    | none =>
      let y := takeOut k x y
      match lane.bind fun n => (pushAtFront k n v y).map fun y => (y, n) with
      | some (y, n) => (y, some n)
      | none => (setState k v .unlocated y, none)
  let y := settleDeparture k x (swapDuties x v placed.1)
  raise .custodyMismatch (some x) (placed.2.map .lane) none y

/-- Case 4: the departing list is empty (R63). -/
def unexpectedExit (k : Site) (x : Nat) (y : Yard) : Yard :=
  let d := pairedNumber y x
  if stateOf y x = some .absent then raise .unplannedDeparture (some x) none d y
  else
    let y := setState k x .absent (takeOut k x y)
    let y := raise .unplannedDeparture (some x) none d y
    match d with
    | some d => settleDuty d y
    | none => y

/-- A GATE_OUT read of rostered vehicle X: the apron step, then the four cases (R45, R61 to R63). -/
def exitRead (k : Site) (x : Nat) (y : Yard) : Yard :=
  let y := apronStep k x y
  if y.departing.any fun e => e.vehicle == some x then
    settleDeparture k x { y with departing := dropDeparting (some x) y.departing }
  else if y.departing.any fun e => e.vehicle.isNone then
    settleDeparture k x (takeOut k x { y with departing := dropDeparting none y.departing })
  else
    match y.departing with
    | [] => unexpectedExit k x y
    | e :: _ =>
      match e.vehicle with
      | some v => mismatch k x v e.lane y
      | none => y

/-! ## Arrivals and YARD reads (R13, R60) -/

/-- Run what is owed, but keep the duties a withdrawn call returned for the end of the event (R127). -/
def settleKeeping (k : Site) (y : Yard) : Yard :=
  let z := drain k { y with todo.returned := [] }
  { z with todo.returned := y.todo.returned ++ z.todo.returned }

/-- The place of RELOCATED (R13, step 1). -/
def relocatedPlace (y : Yard) (station f : Nat) : NoticePlace :=
  match placeOf y f with
  | some (.lane n _) => .lane n
  | some (.pendingLane n) => .lane n
  | some (.island n) => .island n
  | some (.washLane n) => .washLane n
  | _ => .station station

/-- Step 1: relocation (R13, log 12). -/
def relocate (k : Site) (station f : Nat) (y : Yard) : Yard :=
  if stateOf y f = some .absent ∨ stateOf y f = some .unlocated then y
  else
    let place := relocatedPlace y station f
    raise .relocated (some f) (some place) none (settleKeeping k (takeOut k f (withdrawCall f y)))

/-- Step 3: a new night, in a transitional state of no holder held as UNLOCATED (R13, log 9). -/
def newNight (k : Site) (f : Nat) (y : Yard) : Yard :=
  let y := updService f
    (fun v => { v with fuelSkipped := false, fuelDone := false, washIncomplete := false, washDone := false }) y
  updVeh f (fun v => { v with missedCalls := 0, state := .unlocated, since := presentTime k }) y

/-- The level from a percent read (R5). -/
def readPercent (k : Site) (f percent : Nat) (y : Yard) : Yard :=
  updService f (fun v => { v with level := levelFromPercent (classOf k v).tank percent v.level }) y

/-- An arrival (R13). -/
def arrive (k : Site) (station f percent : Nat) (sign : Option Nat) (y : Yard) : Yard × Direction :=
  let y := relocate k station f y
  let y := settleKeeping k (unpair f y)
  let y := newNight k f y
  let y := readPercent k f percent y
  route k sign f (pairArrival f y)

/-- A YARD reader's read: it places an UNLOCATED vehicle (R60). -/
def yardRead (k : Site) (f : Nat) (sign : Option Nat) (y : Yard) : Yard × Option Direction :=
  if stateOf y f = some .unlocated then
    match placement k f (setState k f .stowWait y) with
    | (y, dir) => (showSign k sign f dir y, some dir)
  else (y, none)

/-! ## Pending timeout, census, lane orders (R56, R64, R65) -/

/-- The oldest pending vehicle of a lane has not entered in time (R56). -/
def stowMissed (k : Site) (n : Nat) (y : Yard) : Yard :=
  match tget y.lanes n with
  | none => y
  | some l =>
    match l.pendings with
    | [] => y
    | p :: rest =>
      let y := setState k p.fleet .unlocated (updLane n (fun l => { l with pendings := rest }) y)
      roomEvent (raise .stowMissed (some p.fleet) (some (.lane n)) none y)

/-- A vehicle's entry is removed by an order on its lane: UNLOCATED, with a call withdrawn (R64, R65). -/
def loseEntry (k : Site) (y : Yard) (i : LaneItem) : Yard :=
  match i.vehicle with
  | none => y
  | some f => setState k f .unlocated (withdrawCall f y)

/-- A vehicle named by a census leaves its holder and goes PARKED (R64, steps 2 and 3). -/
def nameEntry (k : Site) (y : Yard) (f : Nat) : Yard := park k f (takeOut k f (withdrawCall f y))

/-- The entries a census carries: fleet, or none, and length. -/
abbrev CensusEntry := Option Nat × Nat

/-- An accepted census (R64). The order in which old vehicles are dropped, and then named ones taken, is the model's choice:
from the front (log 44). It is one room event, and so one retry round, whatever it removes and also where it opens the lane: the
model's choice (log 55). -/
def takeCensus (k : Site) (n : Nat) (status : LaneStatus) (entries : List CensusEntry) (y : Yard) : Yard :=
  match tget y.lanes n with
  | none => y
  | some l =>
    let named := entries.filterMap (·.1)
    let dropped := l.items.filter fun i => match i.vehicle with
      | some f => !named.contains f
      | none => false
    let y := dropped.foldl (loseEntry k) (updLane n (fun l => { l with items := [] }) y)
    let y := named.foldl (nameEntry k) y
    let items := entries.map fun e =>
      { vehicle := e.1, length := clampTo 80 200 e.2, entered := presentTime k : LaneItem }
    report (roomEvent (updLane n (fun l => { l with items := items, doubt := false, status := status }) y))

/-- LANE_SET declare empty on an UNVERIFIED lane (R65), its vehicles from the front (log 44). It is one room event, and so one
retry round, though it opens the lane and removes its entries: the model's choice (log 55). -/
def declareEmpty (k : Site) (n : Nat) (y : Yard) : Yard :=
  match tget y.lanes n with
  | none => y
  | some l =>
    let y := l.items.foldl (loseEntry k) y
    let y := roomEvent (updLane n (fun l => { l with items := [], doubt := false, status := .opened }) y)
    if l.items = [] then y else report y

end Sys2Proof.Machine
end

