-- ==== Sys2Proof/Machine/Dispatcher.lean ====
section
/-! DEFINITION. The Frame Dispatcher: what a command of the table may change, the field frame and the office frame from
the ingress queue to their end (R26, R32 to R36, R40, R41). -/

namespace Sys2Proof.Machine

/-! ## What a command changes beside the receiving side and the queue -/

/-- The sending side, the site and the yard. -/
structure Desk where
  out : Out
  site : Site
  yard : Yard
deriving DecidableEq, Repr

def State.desk (s : State) : Desk := { out := s.out, site := s.site, yard := s.yard }

def State.withDesk (s : State) (d : Desk) : State := { s with out := d.out, site := d.site, yard := d.yard }

/-- What a step on the yard has made is handed to the ports and the Notice Queue. -/
def flush (d : Desk) : Desk :=
  { d with out := handOverAll d.site d.yard.emits d.out, yard := { d.yard with emits := [] } }

/-- The end of an event: everything it owes runs, and what it made is handed over (log 10). -/
def settle (d : Desk) : Desk := flush { d with yard := drain d.site d.yard }

/-- An event that works on the yard against the site as it stands. -/
def onYard (g : Site → Yard → Yard) (d : Desk) : Desk := settle { d with yard := g d.site d.yard }

/-- The next state of an event on the desk. -/
def next (s : State) (d : Desk) : Host.Outcome State Fault Refusal := .next (s.withDesk d)

/-- Raise a notice of a block that is not at work on the yard. -/
def notify (kind : NoticeKind) (place : Option NoticePlace) (d : Desk) : Desk :=
  { d with out := offerNotice d.site kind none place none d.out }

/-! ## Field frames (R32) -/

/-- What a field frame is to the Dispatcher (R32). -/
inductive FieldRow where
  | tagRead (role : Role) (sign : Option Nat)
  | loopState
  /-- a report, with its code, from the station in AUTO of a loaded island -/
  | island (n code : Nat)
  /-- a report, with its code, from the station in AUTO of a loaded wash lane -/
  | wash (n code : Nat)
  /-- a frame that is not processed -/
  | other
deriving DecidableEq, Repr

/-- Classification by source, kind, length, control mode and record (R32, R83, R101, R163). -/
def classify (k : Site) (y : Yard) (f : Frame) : FieldRow :=
  match stationAt k f.src.toNat with
  | none => .other
  | some s =>
    let reader := if f.kind = kindTagRead ∧ f.payload.length = 3 then FieldRow.tagRead s.entry.role s.entry.sign else .other
    match s.entry.role with
    | .gateIn => reader
    | .gateOut => reader
    | .yard => reader
    | .loops => if f.kind = kindLoopState ∧ f.payload.length = 2 then .loopState else .other
    | .island n =>
      if f.kind = kindIslandReport ∧ f.payload.length = 5 ∧ s.manual = false ∧ (tget y.islands n).isSome then
        .island n (u8 f.payload 0)
      else .other
    | .wash n =>
      if f.kind = kindWashReport ∧ f.payload.length = 4 ∧ s.manual = false ∧ (tget y.washLanes n).isSome then
        .wash n (u8 f.payload 0)
      else .other
    | .sign => .other
    | .board => .other

/-- What the part did with a frame (R35, R163). -/
inductive Disposition where
  | processed | repeated | unprocessed
deriving DecidableEq, Repr

def dispositionCode : Disposition → Nat
  | .processed => 0
  | .repeated => 1
  | .unprocessed => 2

/-- What the annotation says of a frame; the vehicle's state and duty are read when it is made (R35). -/
structure Note where
  fleet : Option Nat
  direction : Option Direction
  disposition : Disposition
deriving DecidableEq, Repr

/-- The note of a frame that concerns no vehicle. -/
def Note.bare (d : Disposition) : Note := { fleet := none, direction := none, disposition := d }

/-- The eight bytes of the yard annotation (R35, R163). -/
def annotation (y : Yard) (n : Note) : List Byte :=
  let v := n.fleet.bind (vehOf y)
  bytes2 (orZero n.fleet) ++
  [byte ((v.map fun v => vehStateCode v.state).getD 0), (n.direction.map directionCode).getD 0,
   byte ((n.direction.map directionTarget).getD 0)] ++
  bytes2 (orZero (v.bind (·.duty))) ++ [byte (dispositionCode n.disposition)]

/-- The greatest payload that takes an annotation (R35). -/
def annotateCap : Nat := 48

/-- Forward a field frame by the action of its kind (R32, R33, R35). -/
def forward (f : Frame) (n : Note) (d : Desk) : Desk :=
  let pass (f : Frame) : Desk := { d with out := offerForwarded d.site f d.out }
  if (stationAt d.site f.src.toNat).isNone || decide (32 ≤ f.kind.toNat) then pass f
  else
    match actionFor d.site f.kind.toNat with
    | .pass => pass f
    | .absorb => d
    | .annotate =>
      if f.payload.length ≤ annotateCap then pass { f with payload := f.payload ++ annotation d.yard n } else pass f

/-- What an owner makes of a field frame. -/
abbrev FieldAct := FieldRow → Frame → Site → Yard → Site × Yard × Note

/-- The owner acts, what it owes runs, what it made is handed over, and the frame is forwarded (R26, R33). The annotation's
state and paired duty are those after the retry rounds the frame caused, though its direction is the owner's: the model's
choice between R33's "as the owner left them" and R35's "after processing" (log 53). -/
def takeFieldFrame (act : FieldAct) (r : FieldRow) (f : Frame) (d : Desk) : Desk :=
  match act r f d.site d.yard with
  | (k, y, n) => forward f n (settle { d with site := k, yard := y })

/-- The field row whose premise is that the frame at the head of field ingress is one it wants; otherwise nothing
happens (log 2). -/
def fieldStep (wants : FieldRow → Bool) (take : FieldRow → Frame → Desk → Desk) (s : State) :
    Host.Outcome State Fault Refusal :=
  match s.rx.field.ingress with
  | [] => .next s
  | f :: rest =>
    let r := classify s.site s.yard f
    if wants r then next { s with rx.field.ingress := rest } (take r f s.desk) else .next s

/-! ## Commands (R36, R40, R41) -/

/-- The frame is addressed to the part (R36). -/
def toPart (k : Site) (f : Frame) : Bool := f.dest.toNat == ownAddress k

/-- What an owner answers: a result and data, or none when the reply is made later. -/
abbrev Answer := Option (Result × List Byte)

/-- A command's handler in its owning block. -/
abbrev Handler := List Byte → Frame → Desk → Desk × Answer

/-- A refusal, and any other reply without data. -/
def plain (r : Result) : Answer := some (r, [])

/-- The reply fills the slot its command reserved; its source is the address the command was sent to (R29, R36, R40). -/
def reply (f : Frame) (a : Answer) (d : Desk) : Desk :=
  match a with
  | none => d
  | some (r, data) => { d with out := putReply (replyFrame f.src f.dest f.kind r data) d.out }

/-- The slot is reserved, the length tested, the handler acts to its end, and the reply is made (R26, R40, R137). -/
def takeCommand (lengthOk : Nat → Bool) (h : Handler) (f : Frame) (d : Desk) : Desk :=
  let d := { d with out := reserveSlot d.out }
  if lengthOk f.payload.length then
    match h f.payload f d with
    | (d, a) => reply f a d
  else reply f (plain .badLength) d

/-- The office row whose premise is that the frame at the head of office ingress is a command it wants; it is taken
only when a slot is free for its reply (R29), otherwise nothing happens (log 2). -/
def officeStep (wants : Frame → Bool) (lengthOk : Nat → Bool) (h : Handler) (s : State) :
    Host.Outcome State Fault Refusal :=
  match s.rx.office.ingress with
  | [] => .next s
  | f :: rest =>
    if toPart s.site f && wants f && decide (0 < officeFree s.out) then
      next { s with rx.office.ingress := rest } (takeCommand lengthOk h f s.desk)
    else .next s

/-- The row takes every command of one kind. -/
def ofKind (kind : Byte) (f : Frame) : Bool := f.kind == kind

/-- The row takes the commands of one kind whose code byte, at place i, is its own, and those of the kind that no row's
code fits: a length the kind does not have, or a code outside the kind's (log 33). -/
def ofCode (kind : Byte) (i len code last : Nat) (f : Frame) : Bool :=
  f.kind == kind &&
  (f.payload.length != len || u8 f.payload i == code || decide (u8 f.payload i < 1) || decide (last < u8 f.payload i))

/-- A handler that works on the yard alone: an order carried out runs what it owes; a refusal changes nothing (R41). -/
def yardHandler (h : List Byte → Site → Yard → Yard × Result) : Handler := fun p _ d =>
  match h p d.site d.yard with
  | (y, .ok) => (settle { d with yard := y }, plain .ok)
  | (y, .okClamped) => (settle { d with yard := y }, plain .okClamped)
  | (_, r) => (d, plain r)

end Sys2Proof.Machine
end

