-- ==== Sys2Proof/Machine/PowerOn.lean ====
section
/-! DEFINITION. Starting values of the records, the power-on reset and YARD_CLEAR (R2, R31, R43, R46, R49, R83, R101,
R116, R136, R153, R161). -/

namespace Sys2Proof.Machine

/-- The running fields of a vehicle record at power-on, YARD_CLEAR and creation (R2). -/
def freshVehicle (t : YTime) (e : RosterEntry) : Vehicle :=
  { entry := e, state := .unlocated, level := none, daysSinceWash := 255, duty := none, fuelSkipped := false,
    fuelDone := false, washIncomplete := false, washDone := false, missedCalls := 0, since := t }

/-- A lane after power-on, YARD_CLEAR and creation (R43). -/
def freshLane (e : LaneEntry) : Lane := { entry := e, status := .unverified, doubt := false, items := [], pendings := [] }

/-- An island after power-on, YARD_CLEAR and creation (R83). -/
def freshIsland (e : IslandEntry) : Island :=
  { entry := e, state := if e.heldClosed then .closed else .idle, vehicle := none, turnFactor := e.meter, limit := 0,
    lastCount := 0, stopSent := false, timer := none, closeAtEnd := false }

/-- A wash lane in its rest condition (R101). -/
def freshWash (e : WashLaneEntry) : WashLane :=
  { entry := e, state := if e.heldClosed then .closed else .idle, stageIndex := none, vehicle := none, plan := [],
    timer := none }

/-- A station record in AUTO (R31). -/
def freshStation (e : StationEntry) : Station := { entry := e, manual := false }

/-- The concentrators the loop map names. -/
def namedConcentrators (mouths : Table Mouth) : List Nat :=
  mouths.flatMap fun p => [p.2.entry.stationA, p.2.entry.stationB]

/-- Every named concentrator out of silence, its loops clear, its timer started (R46, R49). -/
def freshConcentrators (k : Site) : Table Concentrator :=
  (namedConcentrators k.mouths).foldl
    (fun t a => tset t a { loops := 0, timer := some (silenceDeadline k), silent := false }) []

/-- No entry in any table (R153). -/
def Tables.none : Tables :=
  { roster := [], classes := [], lanes := [], loopMap := [], stations := [], forwarding := [], islands := [],
    washLanes := [], programs := [], settings := [] }

/-- The site of a part started from restored tables (R153). -/
def restoreSite (store : Option Tables) : Site :=
  let t := store.getD .none
  let k : Site :=
    { Site.reset with
      classes := t.classes, mouths := tmap t.loopMap resetMouth, stations := tmap t.stations freshStation,
      forwarding := t.forwarding, programs := t.programs, settings := t.settings, store := store }
  { k with concentrators := freshConcentrators k }

/-- The yard of a part started from restored tables (R153). -/
def restoreYard (store : Option Tables) : Yard :=
  let t := store.getD .none
  { Yard.reset with
    roster := tmap t.roster (freshVehicle { day := 0, second := 0 })
    lanes := tmap t.lanes freshLane, islands := tmap t.islands freshIsland, washLanes := tmap t.washLanes freshWash }

/-- The desk after a power-on reset: with a bad checksum TABLES_LOST is raised (R153). -/
def powerOnDesk (store : Option Tables) (openCount : Nat) : Desk :=
  let k := restoreSite store
  let d : Desk := { out := syncImages k { Out.reset with openCount := openCount }, site := k, yard := restoreYard store }
  match store with
  | some _ => d
  | none => notify .tablesLost none d

/-- A power-on reset (R42, R153, R162 on the pins): the receiving side, the queues and every block start again, and the
rate pins are read. -/
def powerOn (rate : Rate) (s : State) : State :=
  let d := powerOnDesk s.site.store s.out.openCount
  { pending := s.pending, rx := { field := .reset, office := .reset, rate := rate }, out := d.out, site := d.site,
    yard := d.yard }

/-! ## YARD_CLEAR (R161) -/

/-- STOP for every authorised island whose stop sent is clear (R97): ascending island number is the model's choice (log
42). -/
def stopAll (k : Site) (y : Yard) : Yard :=
  [1, 2, 3, 4].foldl
    (fun y n => match tget y.islands n with
      | some i => if authorised i then stopOnce k n y else y
      | none => y) y

/-- ABORT for every running wash lane (R113): ascending lane number is the model's choice (log 42). -/
def abortAll (k : Site) (y : Yard) : Yard :=
  [1, 2].foldl
    (fun y n => match tget y.washLanes n with
      | some l => if l.state = .running then abortWash k n y else y
      | none => y) y

/-- The yard after its blocks are reset; bank tables, active bank and pending activation are kept (R2, R43, R45, R57,
R83, R101, R116). An island's turn factor is its meter factor again. -/
def clearYard (y : Yard) : Yard :=
  { resetBanks y with
    roster := tmap y.roster fun v => freshVehicle { day := 0, second := 0 } v.entry
    lanes := tmap y.lanes fun l => freshLane l.entry
    apron := [], departing := [], fuelQ := [], washQ := []
    islands := tmap y.islands fun i => freshIsland i.entry
    washLanes := tmap y.washLanes fun l => freshWash l.entry
    callList := [], todo := .none }

/-- The site after its blocks are reset: clock, control modes, mouths, silence timers, tag-repeat memory and cursors
(R42, R46, R49, R59, R136, R146). A commit goes on (R161). -/
def clearSite (k : Site) : Site :=
  let k := { k with
    clock := .reset, mouths := tmap k.mouths fun m => resetMouth m.entry,
    stations := tmap k.stations fun s => { s with manual := false }, tagMemory := [], cursors := [] }
  { k with concentrators := freshConcentrators k }

/-- The four steps of YARD_CLEAR but the reply (R161). The control modes are AUTO before the boards are compared, so a board
that was in MANUAL is sent empty lines too, as R130 says of each board: the model's choice against the order in which R161
lists the blocks (log 51). -/
def clearDesk (d : Desk) : Desk :=
  let d := { d with out := { d.out with held := [] } }
  let d := flush { d with yard := abortAll d.site (stopAll d.site d.yard) }
  let d := flush { d with site := clearSite d.site, yard := boardsChanged (clearYard d.yard) }
  { d with out := { d.out with notices := [], overflow := false } }

end Sys2Proof.Machine
end

