-- ==== Sys2Proof/Machine/ClockCmds.lean ====
section
/-! DEFINITION. The Yard Clock: TIME, YARD_SECOND_ADVANCE, HOLDOVER_TIMER_EXPIRY and the tick of the timebase (R136 to
R144). -/

namespace Sys2Proof.Machine

/-- The holdover timer has reached the limit in force (R141). -/
def holdoverDue (k : Site) : Bool :=
  match k.clock.holdover with
  | some t => elapsed k t (setting k 20 * Config.second)
  | none => false

/-- The clock goes HOLDOVER, and CLOCK_HOLDOVER is raised (R141). -/
def enterHoldover (d : Desk) : Desk :=
  notify .clockHoldover none { d with site := { d.site with clock := { d.site.clock with state := .holdover } } }

/-- HOLDOVER_TIMER_EXPIRY (R141): in HOLDOVER nothing more happens. -/
def execHoldoverTimerExpiry (s : State) : Host.Outcome State Fault Refusal :=
  if s.site.clock.state = .locked ∧ holdoverDue s.site = true then next s (enterHoldover s.desk) else .next s

/-! ## The running clock (R136, R142, R143) -/

/-- Minute events are due from the one after the processed minute (R139, R142). -/
def firstMinute (k : Site) : Nat :=
  match k.clock.processed with
  | none => 0
  | some p => p + 1

/-- A minute event for the present minute by the running of the timebase, if it is beyond the processed minute (R142). -/
def enterMinute (d : Desk) : Desk :=
  let m := presentMinute d.site
  if firstMinute d.site ≤ m then
    let d := onYard (fun k y => minuteEvent k y m) d
    { d with site := { d.site with clock := { d.site.clock with processed := some m } } }
  else d

/-- The second a running clock reaches (R136). -/
def nextSecond (k : Site) : Site := { k with clock := { k.clock with second := k.clock.second + 1, phase := 0 } }

/-- Midnight of the timebase: the day number rises and stays at 65535 (R136, R143). -/
def nextDay (k : Site) : Site :=
  { k with clock := { k.clock with day := satSucc 65535 k.clock.day, second := 0, phase := 0 } }

/-- A rollover by the running of the timebase (R143). -/
def rolloverDesk (d : Desk) : Desk :=
  let k := nextDay d.site
  let y := rollover k d.yard
  let d := settle { d with site := k, yard := deliverAfterRollover k 0 0 y }
  { d with site := { d.site with clock := { d.site.clock with processed := some 0 } } }

/-- The yard second advances (R136, R142, R143). -/
def advanceSecond (d : Desk) : Desk :=
  if 86399 ≤ d.site.clock.second then
    if clockFree d.site then { d with site := nextDay d.site } else rolloverDesk d
  else
    let d := { d with site := nextSecond d.site }
    if clockFree d.site then d else enterMinute d

/-- The timebase reaches the next whole second of the clock. -/
def toNextSecond (k : Site) : Site := { k with now := k.now + (Config.second - k.clock.phase) }

/-- YARD_SECOND_ADVANCE (R136): the hundredth tick of the present second (log 3). -/
def execYardSecondAdvance (s : State) : Host.Outcome State Fault Refusal :=
  next s (advanceSecond { s.desk with site := toNextSecond s.site })

/-- One 10 ms tick of the timebase (R136, R144): what a step with no command does (log 3). -/
def tick (s : State) : State :=
  if s.site.clock.phase + 1 < Config.second then
    { s with
      site := { s.site with now := s.site.now + 1, clock := { s.site.clock with phase := s.site.clock.phase + 1 } } }
  else s.withDesk (advanceSecond { s.desk with site := { s.site with now := s.site.now + 1 } })

/-! ## TIME (R137 to R140) -/

/-- The clock an accepted TIME writes (R137). -/
def setClock (day second : Nat) (k : Site) : Site :=
  { k with clock := { k.clock with day := day, second := second, phase := 0, state := .locked, holdover := some k.now } }

def setProcessed (m : Nat) (d : Desk) : Desk :=
  { d with site := { d.site with clock := { d.site.clock with processed := some m } } }

/-- Catch-up after a TIME taken in FREE (R138). -/
def lockClock (d : Desk) : Desk :=
  setProcessed (presentMinute d.site) (onYard catchUp d)

/-- A step within the day (R139). -/
def stepWithin (d : Desk) : Desk :=
  let m := presentMinute d.site
  let first := firstMinute d.site
  if first ≤ m then setProcessed m (onYard (fun k y => deliver k first m y) d) else d

/-- A step that crosses a day (R140). -/
def stepAcross (d : Desk) : Desk :=
  let m := presentMinute d.site
  setProcessed m (onYard (fun k y => deliverAfterRollover k 0 m (rollover k y)) d)

/-- CLOCK_LOCKED is raised by a TIME taken in FREE or HOLDOVER, before all it causes (R137, R138). -/
def announceLock (was : ClockState) (d : Desk) : Desk :=
  match was with
  | .locked => d
  | _ => notify .clockLocked none d

/-- An accepted TIME (R137, log 15). -/
def takeTime (day second : Nat) (d : Desk) : Desk :=
  let was := d.site.clock
  let d := announceLock was.state { d with site := setClock day second d.site }
  if was.state = .free then lockClock d
  else if was.day < day then stepAcross d
  else stepWithin d

/-- The tests of R137, then the step. -/
def timeHandler : Handler := fun p _ d =>
  let day := u16 p 0
  let second := u24 p 2
  if 86399 < second then (d, plain .range)
  else if clockFree d.site = false ∧ day < d.site.clock.day then (d, plain .range)
  else (takeTime day second d, plain .ok)

/-- TIME (R137). -/
def execTime (s : State) : Host.Outcome State Fault Refusal := officeStep (ofKind kindTime) (· == 5) timeHandler s

end Sys2Proof.Machine
end

