-- ==== Sys2Proof/Machine/CustodyCmds.lean ====
section
/-! DEFINITION. The commands of the Custody Unit: TAG_READ, LOOP_STATE, DEBOUNCE_EXPIRY, STUCK_TIMER_EXPIRY,
SILENCE_TIMER_EXPIRY, PENDING_TIMEOUT, TRANSIT_TIMEOUT, CENSUS, LANE_SET_OPEN, LANE_SET_CLOSE, LANE_SET_DECLARE_EMPTY
(R46 to R65). -/

namespace Sys2Proof.Machine

/-! ## TAG_READ (R12, R59, R60) -/

/-- The read repeats the reader's record within the repeat window (R59). -/
def isRepeat (k : Site) (reader fleet : Nat) : Bool :=
  match tget k.tagMemory reader with
  | some r => r.fleet == fleet && !elapsed k r.at_ (setting k 11 * Config.second)
  | none => false

/-- A read that is not a repeat, by its reader's role (R60). -/
def readTag (k : Site) (role : Role) (sign : Option Nat) (reader fleet percent : Nat) (y : Yard) :
    Yard × Option Direction :=
  match vehOf y fleet with
  | none => (raise .unknownVehicle (some fleet) (some (.station reader)) none y, none)
  | some _ =>
    match role with
    | .gateIn => match arrive k reader fleet percent sign y with
      | (y, dir) => (y, some dir)
    | .gateOut => (exitRead k fleet y, none)
    | _ => yardRead k fleet sign y

/-- The Custody Unit takes a TAG_READ (R59, R60). -/
def tagAct : FieldAct := fun r f k y =>
  match r with
  | .tagRead role sign =>
    let reader := f.src.toNat
    let fleet := u16 f.payload 0
    if isRepeat k reader fleet then (k, y, { fleet := some fleet, direction := none, disposition := .repeated })
    else
      let k := { k with tagMemory := tset k.tagMemory reader { fleet := fleet, at_ := k.now } }
      match readTag k role sign reader fleet (u8 f.payload 2) y with
      | (y, dir) => (k, y, { fleet := some fleet, direction := dir, disposition := .processed })
  | _ => (k, y, .bare .unprocessed)

def isTagRow : FieldRow → Bool
  | .tagRead _ _ => true
  | _ => false

/-- TAG_READ (R60). -/
def execTagRead (s : State) : Host.Outcome State Fault Refusal := fieldStep isTagRow (takeFieldFrame tagAct) s

/-! ## Loops (R47 to R49) -/

/-- The Custody Unit takes a LOOP_STATE (R47). -/
def loopAct : FieldAct := fun _ f k y =>
  match loopReport f.src.toNat (BitVec.ofNat 16 (u16 f.payload 0)) k y with
  | (k, y) => (k, y, .bare .processed)

/-- LOOP_STATE (R47). -/
def execLoopState (s : State) : Host.Outcome State Fault Refusal := 
  fieldStep (· == .loopState) (takeFieldFrame loopAct) s

/-- DEBOUNCE_EXPIRY (R47): the candidate becomes the accepted state. -/
def execDebounceExpiry (mouth : Nat) (s : State) : Host.Outcome State Fault Refusal :=
  match tget s.site.mouths mouth with
  | none => .next s
  | some m =>
    match m.candidate with
    | none => .next s
    | some (st, t) =>
      if elapsed s.site t (debounceTicks m.entry.debounce) then
        match accept mouth st s.site s.yard with
        | (k, y) => next s (settle { out := s.out, site := k, yard := y })
      else .next s

/-- STUCK_TIMER_EXPIRY (R48). -/
def execStuckTimerExpiry (mouth : Nat) (s : State) : Host.Outcome State Fault Refusal :=
  match tget s.site.mouths mouth with
  | none => .next s
  | some m =>
    match m.stuck with
    | none => .next s
    | some t =>
      if elapsed s.site t (setting s.site 7 * Config.second) then
        let k := { s.site with mouths := tset s.site.mouths mouth { m with stuck := none, tracker := .uncertain } }
        next s (settle { out := s.out, site := k, yard := raise .loopStuck none (some (.mouth mouth)) none s.yard })
      else .next s

/-- SILENCE_TIMER_EXPIRY (R49). -/
def execSilenceTimerExpiry (station : Nat) (s : State) : Host.Outcome State Fault Refusal :=
  match tget s.site.concentrators station with
  | none => .next s
  | some c =>
    match c.timer with
    | none => .next s
    | some t =>
      if elapsed s.site t 0 then
        next s (settle
          { out := s.out, site := enterSilence station s.site,
            yard := raise .stationSilent none (some (.station station)) none s.yard })
      else .next s

/-! ## Pending and departing timers (R56, R58) -/

/-- The oldest pending vehicle's timer has run out. -/
def pendingDue (k : Site) (l : Lane) : Bool :=
  match l.pendings with
  | [] => false
  | p :: _ => elapsed k p.joined (setting k 9 * Config.minute)

/-- PENDING_TIMEOUT (R56). -/
def execPendingTimeout (lane : Nat) (s : State) : Host.Outcome State Fault Refusal :=
  match tget s.yard.lanes lane with
  | none => .next s
  | some l =>
    if pendingDue s.site l then next s (onYard (fun k y => stowMissed k lane y) s.desk) else .next s

/-- TRANSIT_TIMEOUT (R58): the timer of the oldest departing entry. -/
def execTransitTimeout (s : State) : Host.Outcome State Fault Refusal :=
  match s.yard.departing with
  | [] => .next s
  | e :: _ =>
    if elapsed s.site e.started (setting s.site 10 * Config.minute) then next s (onYard expireDeparting s.desk)
    else .next s

/-! ## CENSUS (R64) -/

/-- The entries of a census payload. -/
def censusEntries : List Byte → List CensusEntry
  | a :: b :: c :: rest => (optional (a.toNat * 256 + b.toNat), c.toNat) :: censusEntries rest
  | _ => []

/-- CENSUS carries 2 + 3 × n bytes, n = 0..16 (R164). -/
def censusLength (n : Nat) : Bool := decide (2 ≤ n) && decide (n ≤ 50) && (n - 2) % 3 == 0

def censusStatus : Nat → Option LaneStatus
  | 1 => some .opened
  | 2 => some .closed
  | _ => none

/-- No fleet number appears twice. -/
def noRepeats : List Nat → Bool
  | [] => true
  | f :: l => !l.contains f && noRepeats l

/-- The tests of R64 in order, then the census. -/
def censusHandler : Handler := yardHandler fun p k y =>
  let n := u8 p 0
  let entries := censusEntries (p.drop 2)
  let named := entries.filterMap (·.1)
  if n < 1 ∨ 24 < n then (y, .range)
  else
    match tget y.lanes n with
    | none => (y, .notFound)
    | some l =>
      match censusStatus (u8 p 1) with
      | none => (y, .range)
      | some status =>
        if noRepeats named = false then (y, .range)
        else if named.any fun f => (vehOf y f).isNone then (y, .notFound)
        else if l.status = .opened ∨ l.pendings ≠ [] then (y, .state)
        else
          (takeCensus k n status entries y,
           if entries.all fun e => clampTo 80 200 e.2 == e.2 then .ok else .okClamped)

/-- CENSUS (R64). -/
def execCensus (s : State) : Host.Outcome State Fault Refusal :=
  officeStep (ofKind kindCensus) censusLength censusHandler s

/-! ## LANE_SET (R65) -/

/-- The tests of LANE_SET, then the order whose code is `order`. R65 gives its three refusals no order: a command that names an
unloaded lane and an order outside the three is answered NOT_FOUND, the model's choice (log 57). -/
def laneHandler (order : Nat) (act : Site → Nat → Lane → Yard → Yard × Result) : Handler := yardHandler fun p k y =>
  let n := u8 p 0
  if n < 1 ∨ 24 < n then (y, .range)
  else
    match tget y.lanes n with
    | none => (y, .notFound)
    | some l => if u8 p 1 = order then act k n l y else (y, .range)

/-- Order open. -/
def laneOpen (_ : Site) (n : Nat) (l : Lane) (y : Yard) : Yard × Result :=
  match l.status with
  | .opened => (y, .ok)
  | .closed => (roomEvent (updLane n (fun l => { l with status := .opened }) y), .ok)
  | .unverified => (y, .state)

/-- Order close. -/
def laneClose (_ : Site) (n : Nat) (l : Lane) (y : Yard) : Yard × Result :=
  match l.status with
  | .opened => (updLane n (fun l => { l with status := .closed }) y, .ok)
  | .closed => (y, .ok)
  | .unverified => (y, .state)

/-- Order declare empty. -/
def laneEmpty (k : Site) (n : Nat) (l : Lane) (y : Yard) : Yard × Result :=
  match l.status with
  | .opened => (y, .state)
  | .closed => (y, .state)
  | .unverified => (declareEmpty k n y, .ok)

def laneSetStep (order : Nat) (act : Site → Nat → Lane → Yard → Yard × Result) (s : State) :
    Host.Outcome State Fault Refusal :=
  officeStep (ofCode kindLaneSet 1 2 order 3) (· == 2) (laneHandler order act) s

/-- LANE_SET_OPEN (R65). -/
def execLaneSetOpen (s : State) : Host.Outcome State Fault Refusal := laneSetStep 1 laneOpen s

/-- LANE_SET_CLOSE (R65). -/
def execLaneSetClose (s : State) : Host.Outcome State Fault Refusal := laneSetStep 2 laneClose s

/-- LANE_SET_DECLARE_EMPTY (R65). -/
def execLaneSetDeclareEmpty (s : State) : Host.Outcome State Fault Refusal := laneSetStep 3 laneEmpty s

end Sys2Proof.Machine
end

