-- ==== Sys2Proof/Machine/DutyCmds.lean ====
section
/-! DEFINITION. The office's orders on duties and banks: BANK_ACTIVATE (three modes), DUTY_CANCEL, DUTY_CALL (R131, R132,
R134). -/

namespace Sys2Proof.Machine

/-! ## BANK_ACTIVATE (R134) -/

/-- The mode test, then the mode whose code is `mode`. -/
def bankHandler (mode : Nat) (act : Site → Yard → Yard × Result) : Handler := yardHandler fun p k y =>
  if u8 p 0 = mode then act k y else (y, .range)

def bankStepCommand (mode : Nat) (act : Site → Yard → Yard × Result) (s : State) : Host.Outcome State Fault Refusal :=
  officeStep (ofCode kindBankActivate 0 1 mode 3) (· == 1) (bankHandler mode act) s

/-- AT_ROLLOVER. -/
def activateAtRollover (_ : Site) (y : Yard) : Yard × Result := ({ y with activation := true }, .ok)

/-- BANK_ACTIVATE_AT_ROLLOVER (R134). -/
def execBankActivateAtRollover (s : State) : Host.Outcome State Fault Refusal := bankStepCommand 1 activateAtRollover s

/-- NOW: refused while a duty of the active bank is CALLED; the bank step runs, then the catch-up of a running clock. -/
def activateNow (k : Site) (y : Yard) : Yard × Result :=
  if tany (duties y) fun r => r.state == .called then (y, .state)
  else
    let y := bankStep k true y
    (if clockFree k then y else catchUp k y, .ok)

/-- BANK_ACTIVATE_NOW (R134). -/
def execBankActivateNow (s : State) : Host.Outcome State Fault Refusal := bankStepCommand 2 activateNow s

/-- CANCEL. -/
def activateCancel (_ : Site) (y : Yard) : Yard × Result := ({ y with activation := false }, .ok)

/-- BANK_ACTIVATE_CANCEL (R134). -/
def execBankActivateCancel (s : State) : Host.Outcome State Fault Refusal := bankStepCommand 3 activateCancel s

/-! ## DUTY_CANCEL (R131) -/

/-- A duty in OPEN, HELD, BLOCKED or CALLED is cancelled; a CALLED vehicle at its front returns to PARKED or APRON. -/
def cancelDuty (k : Site) (r : Duty) (y : Yard) : Yard :=
  let d := r.entry.number
  let y := match r.vehicle with
    | some f => standDown k f (unpairRecords f y)
    | none => y
  leaveCallList d (updDuty d (fun r => { r with state := .cancelled, reason := none }) y)

def cancelHandler : Handler := yardHandler fun p k y =>
  let d := u16 p 0
  if d < 1 ∨ 9999 < d then (y, .range)
  else
    match dutyOf y d with
    | none => (y, .notFound)
    | some r =>
      match r.state with
      | .cancelled => (y, .ok)
      | .departed => (y, .state)
      | _ => (cancelDuty k r y, .ok)

/-- DUTY_CANCEL (R131). -/
def execDutyCancel (s : State) : Host.Outcome State Fault Refusal :=
  officeStep (ofKind kindDutyCancel) (· == 2) cancelHandler s

/-! ## DUTY_CALL (R132) -/

/-- The former vehicle of D takes V's former duty E when E is OPEN, HELD or BLOCKED and the vehicle is not ABSENT. -/
def passesOn (y : Yard) (w : Option Nat) (e : Option Duty) : Bool :=
  mayTakeDuty y w && (match e with
    | some e => evaluable e.state
    | none => false)

/-- V takes D from its former vehicle, and an E that is HELD or BLOCKED is evaluated in R132's place for it, before V is called;
what that evaluation itself owes runs when the event is complete (R118, log 10, log 61). R132 names no field of its SWAP, so
R155 leaves them absent. -/
def takeDuty (k : Site) (f : Nat) (r : Duty) (y : Yard) : Yard :=
  let d := r.entry.number
  if r.vehicle = some f then y
  else
    let e := pairedDuty y f
    let y := exchange f d (passesOn y r.vehicle e) y
    let y := updDuty d (fun r => { r with marks := { r.marks with swapped := true } }) y
    let y := raise .swap none none none y
    match e with
    | some e => if (dutyStateOf y e.entry.number).any waiting then evaluate k false e.entry.number y else y
    | none => y

/-- The call is made from the front V stands at once E has been evaluated; V is not called for D where that evaluation has called
it for E (log 61). -/
def callHandler : Handler := yardHandler fun p k y =>
  let d := u16 p 0
  let f := u16 p 2
  if d < 1 ∨ 9999 < d then (y, .range)
  else
    match dutyOf y d, vehOf y f with
    | some r, some v =>
      if clockFree k || !evaluable r.state then (y, .state)
      else
        match atFront y v with
        | none => (y, .state)
        | some _ =>
          if v.entry.outOfService || !inMask r.entry.mask v.entry.cls then (y, .state)
          else (callFromFront k d f (takeDuty k f r y), .ok)
    | _, _ => (y, .notFound)

/-- DUTY_CALL (R132). -/
def execDutyCall (s : State) : Host.Outcome State Fault Refusal := officeStep (ofKind kindDutyCall) (· == 4) callHandler s

end Sys2Proof.Machine
end

