-- ==== Sys2Proof/Machine/FuelCmds.lean ====
section
/-! DEFINITION. The commands of the Fuel Turn Controller: VEHICLE_PRESENT, NOZZLE_LIFTED, METER_COUNT, NOZZLE_HUNG,
ISLAND_CLEAR, ISLAND_REPORT_FAULT and the three island timers (R87 to R98). -/

namespace Sys2Proof.Machine

/-! ## Turns -/

/-- The sign of an island, which receives the directions of its route decisions (R18). -/
def islandSign (y : Yard) (n : Nat) : Option Nat := (tget y.islands n).bind (·.entry.sign)

/-- The route decision of a vehicle that leaves an island; the ending of its service is reported (R9, R17). -/
def leaveIsland (k : Site) (n f : Nat) (y : Yard) : Yard × Direction := route k (islandSign y n) f (report y)

/-- Write a credit: the level rises by the dispensed litres, an unknown level counting as 0 (R94). -/
def credit (k : Site) (i : Island) (y : Yard) : Yard :=
  match i.vehicle with
  | none => y
  | some f =>
    updService f
      (fun v => { v with
        level := limitLevel (classOf k v).tank (some (v.level.getD 0 + dispensed i.lastCount i.turnFactor)) }) y

/-- The end of a turn as an island clear in ENDING (R95). -/
def completeTurn (k : Site) (n f : Nat) (y : Yard) : Yard × Direction :=
  match leaveIsland k n f (updIsland n endTurn (markFuelDone f y)) with
  | (y, dir) => (fuelCalls k y, dir)

/-- AUTHORIZE, or the end of a turn whose limit is 0 (R89, steps 2 to 4). -/
def authorise (k : Site) (n f : Nat) (y : Yard) : Yard × Option Direction :=
  match tget y.islands n, vehOf y f with
  | some i, some v =>
    let litres := limitLitres (classOf k v).tank v.level i.entry.meter
    if litres = 0 then
      match completeTurn k n f y with
      | (y, dir) => (y, some dir)
    else
      let pulses := litres * i.entry.meter
      let y := updIsland n
        (fun i => { i with
          state := .authorized, turnFactor := i.entry.meter, limit := pulses, lastCount := 0,
          timer := some (k.now + setting k 13 * Config.minute) }) y
      (islandCmd k n 1 f pulses y, none)
  | _, _ => (y, none)

/-- "Vehicle present" for the island's vehicle in CALLED (R89). -/
def startTurn (k : Site) (n f percent : Nat) (y : Yard) : Yard × Option Direction :=
  authorise k n f (readPercent k f percent (updIsland n (fun i => { i with timer := none }) y))

/-- A called vehicle goes back to the head of the queue: a join under R85, refused when the queue is full or no loaded island's
mask holds its class. A refused vehicle is handled as R88 handles the full queue: marked fuel-skipped, FUEL_SKIPPED, and the
route decision with the island's station (log 60). The second component is that decision's direction. -/
def returnOrSkip (k : Site) (n c : Nat) (y : Yard) : Yard × Option Direction :=
  if fuelJoinable y c then (returnToFuel k c y, none)
  else match leaveIsland k n c (skipFuel c y) with
    | (y, dir) => (y, some dir)

/-- A queued impostor takes the turn (R90). The direction is that of the called vehicle where its return is refused, else that of
a turn that ends at once (R35, log 60). -/
def impostorTurn (k : Site) (n f percent : Nat) (i : Island) (y : Yard) : Yard × Option Direction :=
  let y := report (setState k f .fuelling { y with fuelQ := without y.fuelQ f })
  let passed := match i.vehicle with
    | some c => returnOrSkip k n c y
    | none => (y, none)
  match startTurn k n f percent (updIsland n (fun i => { i with vehicle := some f }) passed.1) with
  | (y, dir) => (fuelCalls k y, passed.2.or dir)

/-- WRONG_VEHICLE at an island (R90). -/
def wrongAtIsland (n f : Nat) (y : Yard) : Yard := raise .wrongVehicle (some f) (some (.island n)) none y

/-- What the owner of a report makes of it: the yard and the direction it issued, or none where it ignores the report (R35,
log 23). -/
abbrev Acted := Option (Yard × Option Direction)

/-- A report acted on without a direction. -/
def acted (y : Yard) : Acted := some (y, none)

/-- A report acted on with the direction of its route decision. -/
def directed (r : Yard × Direction) : Acted := some (r.1, some r.2)

/-- What an island makes of a report: the island's number and record, the fleet and value fields. -/
abbrev IslandAct := Site → Nat → Island → Nat → Nat → Yard → Acted

/-- The percent a report's value field carries; the manual states none for a value above 255 (R5, R163, log 40). -/
def percentOf (value : Nat) : Nat := if value ≤ 255 then value else (Config.openPercent value).toNat

/-- "Vehicle present" (R89, R90). -/
def vehiclePresent : IslandAct := fun k n i f value y =>
  match i.state with
  | .closed => none
  | .manual => none
  | .idle => acted (wrongAtIsland n f y)
  | .called =>
    if i.vehicle = some f then some (startTurn k n f (percentOf value) y)
    else if y.fuelQ.contains f && islandAccepts y i f then some (impostorTurn k n f (percentOf value) i y)
    else acted (wrongAtIsland n f y)
  | _ => if i.vehicle = some f then none else acted (wrongAtIsland n f y)

/-- The flow-stall deadline (R93). -/
def stallDeadline (k : Site) : Nat := k.now + setting k 14 * Config.second

/-- AUTHORIZED to DISPENSING (R91). -/
def liftNozzle (k : Site) (n : Nat) (y : Yard) : Yard :=
  updIsland n (fun i => { i with state := .dispensing, timer := some (stallDeadline k) }) y

/-- "Nozzle lifted" (R91). -/
def nozzleLifted : IslandAct := fun k n i _ _ y =>
  if i.state = .authorized then acted (liftNozzle k n y) else none

/-- A count above the last count is progress, and STOP goes once when it reaches the limit (R92). -/
def count (k : Site) (n c : Nat) (y : Yard) : Yard :=
  match tget y.islands n with
  | none => y
  | some i =>
    if i.lastCount < c then
      let y := updIsland n
        (fun i => { i with lastCount := c, timer := if i.stopSent then i.timer else some (stallDeadline k) }) y
      if i.limit ≤ c ∧ i.stopSent = false then updIsland n (fun i => { i with timer := none }) (stopOnce k n y) else y
    else y

/-- "Meter count" (R91, R92): a count below the last one is ignored. -/
def meterCount : IslandAct := fun k n i _ c y =>
  match i.state with
  | .authorized => acted (if c = 0 then y else count k n c (liftNozzle k n y))
  | .dispensing => if c < i.lastCount then none else acted (count k n c y)
  | _ => none

/-- The credit of a turn and the state ENDING (R94). -/
def hangNozzle (k : Site) (n : Nat) (y : Yard) : Yard :=
  match tget y.islands n with
  | none => y
  | some i => credit k i (updIsland n (fun i => { i with state := .ending, timer := none }) y)

/-- "Nozzle hung" (R94). -/
def nozzleHung : IslandAct := fun k n i _ c y =>
  if authorised i then acted (hangNozzle k n (count k n c y)) else none

/-- "Island clear" (R95). -/
def islandClear : IslandAct := fun k n i _ _ y =>
  match i.vehicle with
  | none => none
  | some f =>
    match i.state with
    | .ending => directed (completeTurn k n f y)
    | .authorized => directed (completeTurn k n f (hangNozzle k n (stopOnce k n y)))
    | .dispensing => directed (completeTurn k n f (hangNozzle k n (stopOnce k n y)))
    | _ => none

/-- "Fault" (R96). -/
def islandFault : IslandAct := fun k n i _ _ y =>
  match i.state with
  | .closed => none
  | .manual => none
  | _ =>
    let y := if authorised i then stopOnce k n y else y
    let y := if i.state = .dispensing then credit k i y else y
    let y := raise .islandFault i.vehicle (some (.island n)) none (updIsland n (freeIsland .closed) y)
    match i.vehicle with
    | none => acted y
    | some f => directed (leaveIsland k n f (markFuelSkipped f y))

/-! ## Reports as field rows -/

def isIslandRow (code : Nat) : FieldRow → Bool
  | .island _ c => c == code
  | _ => false

/-- The vehicle of a report: the one the island held, or the one a "vehicle present" names (R35). -/
def reportVehicle (held : Option Nat) (code fleet : Nat) : Option Nat :=
  match held with
  | some f => some f
  | none => if code = 1 then some fleet else none

/-- The yard after a report, and its note: processed when the owner acted on it, not processed when it ignored it (R35,
log 23). -/
def takenReport (fleet : Option Nat) (k : Site) (y : Yard) (a : Acted) : Site × Yard × Note :=
  match a with
  | some (z, dir) => (k, z, { fleet := fleet, direction := dir, disposition := .processed })
  | none => (k, y, { fleet := fleet, direction := none, disposition := .unprocessed })

/-- The Fuel Turn Controller takes a report (R32). -/
def islandReport (g : IslandAct) : FieldAct := fun r f k y =>
  match r with
  | .island n code =>
    match tget y.islands n with
    | none => (k, y, .bare .unprocessed)
    | some i =>
      let fleet := u16 f.payload 1
      takenReport (reportVehicle i.vehicle code fleet) k y (g k n i fleet (u16 f.payload 3) y)
  | _ => (k, y, .bare .unprocessed)

def islandStep (code : Nat) (g : IslandAct) (s : State) : Host.Outcome State Fault Refusal :=
  fieldStep (isIslandRow code) (takeFieldFrame (islandReport g)) s

/-- VEHICLE_PRESENT (R89). -/
def execVehiclePresent (s : State) : Host.Outcome State Fault Refusal := islandStep 1 vehiclePresent s

/-- NOZZLE_LIFTED (R91). -/
def execNozzleLifted (s : State) : Host.Outcome State Fault Refusal := islandStep 2 nozzleLifted s

/-- METER_COUNT (R92). -/
def execMeterCount (s : State) : Host.Outcome State Fault Refusal := islandStep 3 meterCount s

/-- NOZZLE_HUNG (R94). -/
def execNozzleHung (s : State) : Host.Outcome State Fault Refusal := islandStep 4 nozzleHung s

/-- ISLAND_CLEAR (R95). -/
def execIslandClear (s : State) : Host.Outcome State Fault Refusal := islandStep 5 islandClear s

/-- ISLAND_REPORT_FAULT (R96). -/
def execIslandReportFault (s : State) : Host.Outcome State Fault Refusal := islandStep 6 islandFault s

/-! ## Island timers -/

/-- The timer of an island in a state has run out. -/
def islandExpiry (st : IslandState) (n : Nat) (g : Site → Island → Yard → Yard) (s : State) :
    Host.Outcome State Fault Refusal :=
  match tget s.yard.islands n with
  | none => .next s
  | some i =>
    match i.timer with
    | none => .next s
    | some t => if i.state = st ∧ t ≤ s.site.now then next s (onYard (fun k y => g k i y) s.desk) else .next s

/-- The vehicle's missed calls rise by one (R7). -/
def missCall (f : Nat) (y : Yard) : Yard := updVeh f (fun v => { v with missedCalls := satSucc 2 v.missedCalls }) y

/-- A vehicle that has missed two calls (R88, R105). -/
def missedTwice (y : Yard) (f : Nat) : Bool := ((vehOf y f).map fun v => decide (2 ≤ v.missedCalls)).getD false

/-- The called vehicle has missed its call (R88); its return at the first miss passes the join test of R85 (log 60). -/
def missIslandCall (k : Site) (n f : Nat) (y : Yard) : Yard :=
  let y := updIsland n endTurn (missCall f y)
  if missedTwice y f then
    (leaveIsland k n f (raise .fuelTurnMissed (some f) (some (.island n)) none (markFuelSkipped f y))).1
  else (returnOrSkip k n f y).1

/-- ARRIVAL_TIMER_EXPIRY (R88). -/
def execArrivalTimerExpiry (n : Nat) (s : State) : Host.Outcome State Fault Refusal :=
  islandExpiry .called n
    (fun k i y => match i.vehicle with
      | some f => fuelCalls k (missIslandCall k n f y)
      | none => y) s

/-- The authorisation timer's expiry: stop sent stays set until the next call (R91, R87). -/
def authorisationEnds (k : Site) (n f : Nat) (y : Yard) : Yard :=
  fuelCalls k (leaveIsland k n f (updIsland n expireTurn (markFuelSkipped f (stopOnce k n y)))).1

/-- AUTHORISATION_TIMER_EXPIRY (R91). -/
def execAuthorisationTimerExpiry (n : Nat) (s : State) : Host.Outcome State Fault Refusal :=
  islandExpiry .authorized n
    (fun k i y => match i.vehicle with
      | some f => authorisationEnds k n f y
      | none => y) s

/-- The flow-stall timer's expiry (R93). -/
def stall (k : Site) (n : Nat) (i : Island) (y : Yard) : Yard :=
  raise .flowStall i.vehicle (some (.island n)) none
    (updIsland n (fun i => { i with timer := none }) (stopOnce k n y))

/-- FLOW_STALL_TIMER_EXPIRY (R93). -/
def execFlowStallTimerExpiry (n : Nat) (s : State) : Host.Outcome State Fault Refusal :=
  islandExpiry .dispensing n (fun k i y => stall k n i y) s

/-! ## Yield and resume (R98, R39) -/

/-- The island's yield handling (R98). -/
def yieldIsland (k : Site) (n : Nat) (y : Yard) : Yard :=
  match tget y.islands n with
  | none => y
  | some i =>
    if i.state = .manual then y
    else
      let y := updIsland n (freeIsland .manual) y
      match i.vehicle with
      | none => y
      | some f =>
        (leaveIsland k n f (updService f (fun v => { v with level := none, fuelSkipped := true }) y)).1

/-- The island goes IDLE and calls from its queue (R39). -/
def resumeIsland (k : Site) (n : Nat) (y : Yard) : Yard :=
  fuelCalls k (updIsland n (fun i => { i with state := .idle }) y)

end Sys2Proof.Machine
end

