-- ==== Sys2Proof/Machine/LinkCmds.lean ====
section
/-! DEFINITION. The commands of the reset pin, the Link Ports and the Notice Queue: POWER_ON_RESET, RX_BYTE,
RECEIVE_GAP_TIMEOUT, FIELD_EGRESS_SEND, OFFICE_EGRESS_SEND, NOTICE_HOLD_EXPIRY (R24 to R30, R153, R158). -/

namespace Sys2Proof.Machine

/-- POWER_ON_RESET (R153). -/
def execPowerOnReset (rate1 rate0 : Bool) (s : State) : Host.Outcome State Fault Refusal :=
  .next (powerOn { rate1 := rate1, rate0 := rate0 } s)

/-- The receiving side of a port. -/
def portOf (x : Rx) : Port → RxPort
  | .field => x.field
  | .office => x.office

def setPort (p : Port) (r : RxPort) (x : Rx) : Rx :=
  match p with
  | .field => { x with field := r }
  | .office => { x with office := r }

/-- A port after an assembly event: a good frame joins an ingress queue that holds fewer than 8, or is dropped with
LINK_OVERRUN; a discard raises LINK_ERROR (R25, R26). -/
def receive (p : Port) (a : Assembly × RxEvent) (s : State) : State :=
  let r := { portOf s.rx p with assembly := a.1 }
  match a.2 with
  | .nothing => { s with rx := setPort p r s.rx }
  | .good f =>
    if r.ingress.length < Config.ingressCap then
      { s with rx := setPort p { r with ingress := r.ingress ++ [f] } s.rx }
    else { s with rx := setPort p r s.rx, out := offerNotice s.site .linkOverrun none (some (.port p none)) none s.out }
  | .discard c =>
    { s with rx := setPort p r s.rx, out := offerNotice s.site .linkError none (some (.port p (some c))) none s.out }

/-- RX_BYTE (R24). -/
def execRxByte (p : Port) (b : Byte) (s : State) : Host.Outcome State Fault Refusal :=
  .next (receive p (assemble (portOf s.rx p).assembly b) s)

/-- RECEIVE_GAP_TIMEOUT (R24, log 5). -/
def execReceiveGapTimeout (p : Port) (s : State) : Host.Outcome State Fault Refusal :=
  .next (receive p (gapOut (portOf s.rx p).assembly) s)

/-- FIELD_EGRESS_SEND (R27, R28). -/
def execFieldEgressSend (s : State) : Host.Outcome State Fault Refusal :=
  .next { s with out := fieldSend s.site s.yard.callList s.out }

/-- OFFICE_EGRESS_SEND (R29, R30). -/
def execOfficeEgressSend (s : State) : Host.Outcome State Fault Refusal :=
  .next { s with out := officeSend s.site s.out }

/-- NOTICE_HOLD_EXPIRY (R158): the oldest notice's age reaches the hold time. -/
def execNoticeHoldExpiry (s : State) : Host.Outcome State Fault Refusal :=
  match s.out.notices with
  | [] => .next s
  | n :: _ =>
    if elapsed s.site n.joined (setting s.site 22 * Config.second) then .next { s with out := tryBatch s.site s.out }
    else .next s

end Sys2Proof.Machine
end

