-- ==== Sys2Proof/Machine/Queries.lean ====
section
/-! DEFINITION. The eight variants of QUERY (R159, R160, R164). A byte for which the manual states no value is a free value
(log 17). -/

namespace Sys2Proof.Machine

/-- A query reads the desk: a result and data. -/
abbrev QueryAct := List Byte → Desk → Result × List Byte

/-- The row takes the queries of its variant, and those no row's variant fits: an empty payload, one of more than four
bytes, or a variant outside 1..8 (log 33). -/
def isQuery (variant : Nat) (f : Frame) : Bool :=
  f.kind == kindQuery &&
  (f.payload.length == 0 || decide (4 < f.payload.length) || u8 f.payload 0 == variant ||
   decide (u8 f.payload 0 < 1) || decide (8 < u8 f.payload 0))

/-- The variant test, then the length of the variant, then the reading; the reply is counted, because it may use free
values (R159, R164, log 17, log 19). -/
def queryHandler (variant len : Nat) (act : QueryAct) : Handler := fun p _ d =>
  if u8 p 0 = variant then
    if p.length = len then (d, some (act p d)) else (d, plain .badLength)
  else (d, plain .range)

/-- The reply used the free values of its number. -/
def countOpen (d : Desk) : Desk := { d with out := { d.out with openCount := d.out.openCount + 1 } }

/-- A query whose reply may hold free values. -/
def openQueryHandler (variant len : Nat) (act : QueryAct) : Handler := fun p f d =>
  match queryHandler variant len act p f d with
  | (d, a) => (countOpen d, a)

def queryLength (n : Nat) : Bool := decide (1 ≤ n) && decide (n ≤ 4)

def queryStep (variant len : Nat) (act : QueryAct) (s : State) : Host.Outcome State Fault Refusal :=
  officeStep (isQuery variant) queryLength (openQueryHandler variant len act) s

/-- A list padded with zeros, or cut, to a length. -/
def padded (n : Nat) (l : List Byte) : List Byte := (l ++ List.replicate n 0).take n

/-- An optional station address. -/
def stationByte (a : Option Nat) : Byte := byte (orZero a)

def flagByte (b : Bool) : Byte := byte (bit b 0)

/-! ## VEHICLE -/

def placeKind : Option Place → Nat
  | none => 0
  | some (.lane _ _) => 1
  | some (.pendingLane _) => 2
  | some (.island _) => 3
  | some (.washLane _) => 4
  | some (.apron _) => 5
  | some .departing => 6
  | some .fuelQueue => 7
  | some .washQueue => 8

/-- The place number byte: the number of a lane, island or wash lane. -/
def placeByte (n : Nat) : Option Place → Byte
  | some (.lane l _) => byte l
  | some (.pendingLane l) => byte l
  | some (.island l) => byte l
  | some (.washLane l) => byte l
  | _ => Config.openByte n .placeNumber

/-- The position byte: the position in a lane list or in the apron list. -/
def positionByte (n : Nat) : Option Place → Byte
  | some (.lane _ p) => byte p
  | some (.apron p) => byte p
  | _ => Config.openByte n .placePosition

/-- The 22 data bytes of QUERY VEHICLE (R164). -/
def vehicleBytes (n : Nat) (y : Yard) (v : Vehicle) : List Byte :=
  let place := placeOf y v.entry.fleet
  bytes2 v.entry.fleet ++
  [byte v.entry.cls, byte v.entry.length,
   byte (bit v.entry.outOfService 0 + bit v.fuelSkipped 1 + bit v.fuelDone 2 + bit v.washIncomplete 3 + bit v.washDone 4),
   byte (vehStateCode v.state), byte (placeKind place), placeByte n place, positionByte n place] ++
  bytes2 (v.level.getD 0xFFFF) ++ [byte v.daysSinceWash] ++ bytes2 (orZero v.duty) ++ [byte v.missedCalls] ++
  timeBytes v.since

def readVehicle : QueryAct := fun p d =>
  let f := u16 p 1
  if f < 1 ∨ 65534 < f then (.range, [])
  else
    match vehOf d.yard f with
    | none => (.notFound, [])
    | some v => (.ok, vehicleBytes d.out.openCount d.yard v)

/-- QUERY_VEHICLE (R159). -/
def execQueryVehicle (s : State) : Host.Outcome State Fault Refusal := queryStep 1 3 readVehicle s

/-! ## LANE -/

/-- Whole minutes from an entry time to now, saturating at 255; an entry time later than now has no stated age. -/
def ageByte (n i : Nat) (k : Site) (t : YTime) : Byte :=
  if timeSeconds (presentTime k) < timeSeconds t then Config.openByte n (.entryAge i)
  else byte (min 255 ((timeSeconds (presentTime k) - timeSeconds t) / 60))

/-- The bytes of a lane list's entries from position i (counted from 1). -/
def itemBytes (n : Nat) (k : Site) : Nat → List LaneItem → List Byte
  | _, [] => []
  | i, e :: l => bytes2 (orZero e.vehicle) ++ [byte e.length, ageByte n i k e.entered] ++ itemBytes n k (i + 1) l

/-- A signed number in two bytes of two's complement: `a` less `b` (R162). -/
def signedBytes2 (a b : Nat) : List Byte := bytes2 (a + 65536 - b % 65536)

/-- The data of part 1: 56 bytes less the reply header at most (R164). -/
def lanePart1 (n : Nat) (k : Site) (y : Yard) (l : Lane) : List Byte :=
  let used := occupied k y l
  bytes2 l.entry.capacity ++
  [BitVec.ofNat 8 l.entry.mask.toNat, byte l.entry.unknownLength, byte l.entry.entryMouth, byte l.entry.exitMouth,
   stationByte l.entry.frontSign, byte (laneStatusCode l.status + bit l.doubt 2 + l.pendings.length * 8),
   byte l.items.length] ++
  bytes2 used ++ signedBytes2 l.entry.capacity used ++
  padded 8 (l.pendings.flatMap fun p => bytes2 p.fleet) ++ padded 32 (itemBytes n k 1 (l.items.take 8))

def lanePart2 (n : Nat) (k : Site) (l : Lane) : List Byte :=
  [byte l.items.length] ++ padded 32 (itemBytes n k 9 (l.items.drop 8))

/-- The range of the arguments is tested before the record is looked up, in every variant: the model's choice (log 48). -/
def readLane : QueryAct := fun p d =>
  let n := u8 p 1
  let part := u8 p 2
  if n < 1 ∨ 24 < n ∨ part < 1 ∨ 2 < part then (.range, [])
  else
    match tget d.yard.lanes n with
    | none => (.notFound, [])
    | some l =>
      (.ok, if part = 1 then lanePart1 d.out.openCount d.site d.yard l else lanePart2 d.out.openCount d.site l)

/-- QUERY_LANE (R159). -/
def execQueryLane (s : State) : Host.Outcome State Fault Refusal := queryStep 2 3 readLane s

/-! ## DUTY -/

/-- The nine bytes of a duty entry after its header (R165). -/
def dutyEntryBytes (e : DutyEntry) : List Byte :=
  bytes2 e.number ++ [BitVec.ofNat 8 e.mask.toNat] ++ bytes2 e.departure ++ bytes2 e.fuel ++
  [flagByte e.wash, byte (orZero e.lead)]

def callTimeBytes (n : Nat) : Option YTime → List Byte
  | some t => timeBytes t
  | none => [0, 1, 2, 3, 4].map fun i => Config.openByte n (.callTime i)

def marksByte (m : Marks) : Byte := byte (bit m.late 0 + bit m.early 1 + bit m.unconfirmed 2 + bit m.swapped 3)

def dutyBytes (n : Nat) (k : Site) (r : Duty) : List Byte :=
  dutyEntryBytes r.entry ++ [byte (dutyStateCode r.state), byte (blockedCode r.reason)] ++ bytes2 (orZero r.vehicle) ++
  [marksByte r.marks] ++ callTimeBytes n r.callTime ++ bytes2 (dueMinute k r.entry) ++ bytes2 (lateMinute k r.entry)

/-- The duty of a number in a bank. -/
def dutyIn (t : Table Duty) (d : Nat) : Option Duty := (tfind t fun r => r.entry.number == d).map (·.2)

def readDuty : QueryAct := fun p d =>
  let bank := u8 p 1
  let number := u16 p 2
  if bank < 1 ∨ 2 < bank ∨ number < 1 ∨ 9999 < number then (.range, [])
  else
    match dutyIn (if bank = 1 then d.yard.bankA else d.yard.bankB) number with
    | none => (.notFound, [])
    | some r => (.ok, dutyBytes d.out.openCount d.site r)

/-- QUERY_DUTY (R159). -/
def execQueryDuty (s : State) : Host.Outcome State Fault Refusal := queryStep 3 4 readDuty s

/-! ## ISLAND, WASH -/

/-- The station of a role is in MANUAL. -/
def roleManual (k : Site) (r : Role) : Bool :=
  match stationOfRole k r with
  | some s => s.manual
  | none => false

def islandBytes (k : Site) (n : Nat) (i : Island) : List Byte :=
  [byte (islandStateCode i.state)] ++ bytes2 (orZero i.vehicle) ++ [byte i.turnFactor] ++ bytes2 i.limit ++
  bytes2 i.lastCount ++ [byte (bit i.stopSent 0 + bit (roleManual k (.island n)) 1)]

def readIsland : QueryAct := fun p d =>
  let n := u8 p 1
  if n < 1 ∨ 4 < n then (.range, [])
  else
    match tget d.yard.islands n with
    | none => (.notFound, [])
    | some i => (.ok, islandBytes d.site n i)

/-- QUERY_ISLAND (R159). -/
def execQueryIsland (s : State) : Host.Outcome State Fault Refusal := queryStep 4 2 readIsland s

/-- The control mode byte: the manual gives the modes of a wash lane no code (R164, log 37). -/
def washModeByte (n : Nat) (k : Site) (w : Nat) : Byte :=
  Config.openByte n (.controlMode (match stationOfRole k (.wash w) with
    | some s => if s.manual then 1 else 0
    | none => 2))

def stageIndexByte (n : Nat) : Option Nat → Byte
  | some i => byte i
  | none => Config.openByte n .stageIndex

def washBytes (n : Nat) (k : Site) (w : Nat) (l : WashLane) : List Byte :=
  [byte (washStateCode l.state), stageIndexByte n l.stageIndex] ++ bytes2 (orZero l.vehicle) ++ [byte l.plan.length] ++
  padded 12 (l.plan.flatMap fun s => bytes2 s.time) ++ [washModeByte n k w]

def readWash : QueryAct := fun p d =>
  let n := u8 p 1
  if n < 1 ∨ 2 < n then (.range, [])
  else
    match tget d.yard.washLanes n with
    | none => (.notFound, [])
    | some l => (.ok, washBytes d.out.openCount d.site n l)

/-- QUERY_WASH (R159). -/
def execQueryWash (s : State) : Host.Outcome State Fault Refusal := queryStep 5 2 readWash s

/-! ## QUEUES, CALLS -/

/-- The list a QUEUES query names. -/
def queueOf (y : Yard) : Nat → Option (List Nat)
  | 1 => some y.fuelQ
  | 2 => some y.washQ
  | 3 => some y.apron
  | _ => none

def readQueues : QueryAct := fun p d =>
  match queueOf d.yard (u8 p 1) with
  | none => (.range, [])
  | some l => (.ok, [byte (u8 p 1), byte l.length] ++ l.flatMap bytes2)

/-- QUERY_QUEUES (R159). -/
def execQueryQueues (s : State) : Host.Outcome State Fault Refusal := queryStep 6 2 readQueues s

/-- Six board lines from line i (counted from 0), empty beyond the list. -/
def sixLines (l : List BoardLine) (i : Nat) : List Byte := padded 48 (((l.drop i).take 6).flatMap boardLineBytes)

def readCalls : QueryAct := fun p d =>
  let part := u8 p 1
  if part < 1 ∨ 2 < part then (.range, [])
  else (.ok, [byte d.yard.callList.length] ++ sixLines d.yard.callList (if part = 1 then 0 else 6))

/-- QUERY_CALLS (R159). -/
def execQueryCalls (s : State) : Host.Outcome State Fault Refusal := queryStep 7 2 readCalls s

/-! ## STATUS -/

def clockStateCode : ClockState → Nat
  | .free => 0
  | .locked => 1
  | .holdover => 2

/-- The state byte of QUERY STATUS (R164). -/
def statusByte (d : Desk) : Byte :=
  byte (clockStateCode d.site.clock.state + bit (d.yard.active == .b) 2 + bit d.yard.activation 3 +
    bit d.site.commit.isSome 4 + bit d.site.store.isSome 5 + bit d.out.overflow 6)

def statusBytes (d : Desk) : List Byte :=
  [statusByte d] ++ timeBytes (presentTime d.site) ++ [byte d.out.notices.length]

/-- STATUS: the overflow flag is reported and then cleared (R160). -/
def statusHandler : Handler := fun p f d =>
  match queryHandler 8 1 (fun _ d => (.ok, statusBytes d)) p f d with
  | (d, some (.ok, data)) => ({ d with out := { d.out with overflow := false } }, some (.ok, data))
  | (d, a) => (d, a)

/-- QUERY_STATUS (R160). -/
def execQueryStatus (s : State) : Host.Outcome State Fault Refusal := officeStep (isQuery 8) queryLength statusHandler s

end Sys2Proof.Machine
end

