-- ==== Sys2Proof/Machine/WashCmds.lean ====
section
/-! DEFINITION. The commands of the Wash Sequencer: VEHICLE_IN_POSITION, STAGE_DONE, LANE_CLEAR, WASH_REPORT_FAULT,
CALL_TIMER_EXPIRY, STAGE_TIMER_EXPIRY (R105 to R115). -/

namespace Sys2Proof.Machine

/-- The sign of a wash lane, which receives the directions of its route decisions (R18). -/
def washSign (y : Yard) (n : Nat) : Option Nat := (tget y.washLanes n).bind (·.entry.sign)

/-- The route decision of a vehicle that leaves a wash lane; the ending of its service is reported (R9, R17). -/
def leaveWash (k : Site) (n f : Nat) (y : Yard) : Yard × Direction := route k (washSign y n) f (report y)

/-- The wash plan of a program for a vehicle's length (R106, step 3). -/
def washPlan (length lref : Nat) (p : List Stage) : List PlanStage :=
  p.map fun s => { kind := s.kind, time := stageTime length lref s }

/-- Order stage i (counted from 1): its timer runs for the stage time plus the stage grace (R106, R109). -/
def orderStage (k : Site) (n i : Nat) (s : PlanStage) (y : Yard) : Yard :=
  washCmd k n 1 i (stageKindCode s.kind) s.time
    (updWash n
      (fun l => { l with
        state := .running, stageIndex := some i, timer := some (k.now + (s.time + setting k 16) * Config.second) }) y)

/-- WASH_SKIPPED with the wash lane as place, and the vehicle wash-incomplete (R105, R106). -/
def skipAtLane (n f : Nat) (y : Yard) : Yard :=
  raise .washSkipped (some f) (some (.washLane n)) (pairedNumber y f) (markWashIncomplete f y)

/-- "Vehicle in position" for the lane's vehicle in CALLED (R106). -/
def startWash (k : Site) (n f : Nat) (y : Yard) : Yard × Option Direction :=
  match tget y.washLanes n, vehOf y f with
  | some l, some v =>
    match (tget k.programs (classOf k v).washProgram).map (washPlan v.entry.length l.entry.lref) with
    | some (s :: rest) =>
      (orderStage k n 1 s (updWash n (fun l => { l with plan := s :: rest }) y), none)
    | _ =>
      match leaveWash k n f (skipAtLane n f (updWash n endWash y)) with
      | (y, dir) => (washCalls k y, some dir)
  | _, _ => (y, none)

/-- A queued impostor takes the call (R108). -/
def impostorWash (k : Site) (n f : Nat) (l : WashLane) (y : Yard) : Yard × Option Direction :=
  let y := report (setState k f .washing { y with washQ := without y.washQ f })
  let y := match l.vehicle with
    | some c => returnToWash k c y
    | none => y
  match startWash k n f (updWash n (fun l => { l with vehicle := some f }) y) with
  | (y, dir) => (washCalls k y, dir)

/-- WRONG_VEHICLE at a wash lane (R108). -/
def wrongAtWash (n f : Nat) (y : Yard) : Yard := raise .wrongVehicle (some f) (some (.washLane n)) none y

/-- What a wash lane makes of a report: the lane's number and record, the fleet field and the stage number. -/
abbrev WashAct := Site → Nat → WashLane → Nat → Nat → Yard → Acted

/-- "Vehicle in position" (R106, R108). In IDLE any vehicle gives WRONG_VEHICLE, as R108's table says, one withdrawn from the
lane too: the model's choice against R113, which ignores such a report unless another vehicle is called (log 49). -/
def vehicleInPosition : WashAct := fun k n l f _ y =>
  match l.state with
  | .idle => acted (wrongAtWash n f y)
  | .called =>
    if l.vehicle = some f then some (startWash k n f y)
    else if y.washQ.contains f && washAccepts y l f then some (impostorWash k n f l y)
    else acted (wrongAtWash n f y)
  | .running => if l.vehicle = some f then none else acted (wrongAtWash n f y)
  | .draining => if l.vehicle = some f then none else acted (wrongAtWash n f y)
  | .closed => none
  | .fault => none
  | .manual => none

/-- "Stage done" (R109). -/
def stageDone : WashAct := fun k n l _ stage y =>
  if l.state = .running ∧ l.stageIndex = some stage then
    match l.plan[stage]? with
    | some s => acted (orderStage k n (stage + 1) s y)
    | none => acted (updWash n (fun l => { l with state := .draining, stageIndex := none, timer := none }) y)
  else none

/-- The wash stops without its credit: the lane goes FAULT, and a vehicle it held is routed on (R111, R112). -/
def faultWash (k : Site) (n : Nat) (l : WashLane) (y : Yard) : Yard × Option Direction :=
  let y := raise .washFault l.vehicle (some (.washLane n)) none (updWash n (freeWash .fault) y)
  match l.vehicle with
  | none => (y, none)
  | some f =>
    match leaveWash k n f (markWashIncomplete f y) with
    | (y, dir) => (y, some dir)

/-- The wash is credited (R6, R110). -/
def creditWash (f : Nat) (y : Yard) : Yard := updService f (fun v => { v with daysSinceWash := 0, washDone := true }) y

/-- "Lane clear" (R110). -/
def laneClear : WashAct := fun k n l _ _ y =>
  match l.state, l.vehicle with
  | .draining, some f =>
    match leaveWash k n f (updWash n endWash (creditWash f y)) with
    | (y, dir) => directed (washCalls k y, dir)
  | .running, _ => some (faultWash k n l (abortWash k n y))
  | _, _ => none

/-- "Fault" (R112). -/
def washFault : WashAct := fun k n l _ _ y =>
  match l.state with
  | .closed => none
  | .fault => none
  | .manual => none
  | _ => some (faultWash k n l y)

/-! ## Reports as field rows -/

def isWashRow (code : Nat) : FieldRow → Bool
  | .wash _ c => c == code
  | _ => false

/-- The Wash Sequencer takes a report (R32). -/
def washReport (g : WashAct) : FieldAct := fun r f k y =>
  match r with
  | .wash n code =>
    match tget y.washLanes n with
    | none => (k, y, .bare .unprocessed)
    | some l =>
      let fleet := u16 f.payload 1
      takenReport (reportVehicle l.vehicle code fleet) k y (g k n l fleet (u8 f.payload 3) y)
  | _ => (k, y, .bare .unprocessed)

def washStep (code : Nat) (g : WashAct) (s : State) : Host.Outcome State Fault Refusal :=
  fieldStep (isWashRow code) (takeFieldFrame (washReport g)) s

/-- VEHICLE_IN_POSITION (R106). -/
def execVehicleInPosition (s : State) : Host.Outcome State Fault Refusal := washStep 1 vehicleInPosition s

/-- STAGE_DONE (R109). -/
def execStageDone (s : State) : Host.Outcome State Fault Refusal := washStep 2 stageDone s

/-- LANE_CLEAR (R110). -/
def execLaneClear (s : State) : Host.Outcome State Fault Refusal := washStep 3 laneClear s

/-- WASH_REPORT_FAULT (R112). -/
def execWashReportFault (s : State) : Host.Outcome State Fault Refusal := washStep 4 washFault s

/-! ## Lane timers -/

/-- The timer of a wash lane in a state has run out. -/
def washExpiry (st : WashState) (n : Nat) (g : Site → WashLane → Yard → Yard) (s : State) :
    Host.Outcome State Fault Refusal :=
  match tget s.yard.washLanes n with
  | none => .next s
  | some l =>
    match l.timer with
    | none => .next s
    | some t => if l.state = st ∧ t ≤ s.site.now then next s (onYard (fun k y => g k l y) s.desk) else .next s

/-- The called vehicle has missed its call (R105). -/
def missWashCall (k : Site) (n f : Nat) (y : Yard) : Yard :=
  let y := updWash n endWash (missCall f y)
  if missedTwice y f then (leaveWash k n f (skipAtLane n f y)).1
  else if y.washQ.length < Config.queueCap then returnToWash k f y
  else (leaveWash k n f (skipWash f y)).1

/-- CALL_TIMER_EXPIRY (R105). -/
def execCallTimerExpiry (n : Nat) (s : State) : Host.Outcome State Fault Refusal :=
  washExpiry .called n
    (fun k l y => match l.vehicle with
      | some f => washCalls k (missWashCall k n f y)
      | none => y) s

/-- STAGE_TIMER_EXPIRY (R111). -/
def execStageTimerExpiry (n : Nat) (s : State) : Host.Outcome State Fault Refusal :=
  washExpiry .running n (fun k l y => (faultWash k n l (abortWash k n y)).1) s

/-! ## Yield and resume (R115, R39) -/

/-- The wash lane's yield handling (R115). -/
def yieldWash (k : Site) (n : Nat) (y : Yard) : Yard :=
  match tget y.washLanes n with
  | none => y
  | some l =>
    if l.state = .manual then y
    else
      let y := updWash n (freeWash .manual) y
      match l.vehicle with
      | none => y
      | some f => (leaveWash k n f (markWashIncomplete f y)).1

/-- The lane goes IDLE, or CLOSED where it is held closed, and the calling rule runs (R39). -/
def resumeWash (k : Site) (n : Nat) (y : Yard) : Yard := washCalls k (updWash n endWash y)

end Sys2Proof.Machine
end

