-- ==== Sys2Proof/Machine/System.lean ====
section
/-! DEFINITION. The Dispatcher's own commands and YARD_CLEAR: UNPROCESSED_FIELD_FRAME, OFFICE_FRAME_TO_FIELD,
BAD_KIND_COMMAND, STATION_RESUME, YARD_CLEAR (R32, R36 to R40, R161). -/

namespace Sys2Proof.Machine

/-! ## UNPROCESSED_FIELD_FRAME (R32) -/

/-- A frame that no owner takes, or a report of a code in no table, which is acted on in no state (R32, R163, log 23). -/
def isUnprocessedRow : FieldRow → Bool
  | .other => true
  | .island _ code => decide (code < 1) || decide (6 < code)
  | .wash _ code => decide (code < 1) || decide (4 < code)
  | _ => false

/-- The vehicle of a frame that is not acted on: the one held by the reporting island or wash lane (R35). -/
def unprocessedVehicle (y : Yard) : FieldRow → Option Nat
  | .island n _ => (tget y.islands n).bind (·.vehicle)
  | .wash n _ => (tget y.washLanes n).bind (·.vehicle)
  | _ => none

/-- UNPROCESSED_FIELD_FRAME (R32): a frame that is not acted on is forwarded only. -/
def execUnprocessedFieldFrame (s : State) : Host.Outcome State Fault Refusal :=
  fieldStep isUnprocessedRow
    (fun r f d =>
      forward f { fleet := unprocessedVehicle d.yard r, direction := none, disposition := .unprocessed } d) s

/-! ## OFFICE_FRAME_TO_FIELD (R36 to R38) -/

/-- The yield handling of the block that owns the station (R38, step 3). -/
def yieldRole (k : Site) (r : Role) (y : Yard) : Yard :=
  match r with
  | .island n => yieldIsland k n y
  | .wash n => yieldWash k n y
  | _ => y

/-- Write a station's control mode. -/
def setMode (a : Nat) (manual : Bool) (k : Site) : Site :=
  { k with stations := tmap k.stations fun s => if s.entry.address = a then { s with manual := manual } else s }

/-- A yield in its four steps; the frame joins field egress before the retries its yield causes (R38). -/
def yieldStation (f : Frame) (st : Station) (d : Desk) : Desk :=
  let a := st.entry.address
  let k := setMode a true d.site
  let d := { d with site := k, out := dropOwn k d.yard.callList a d.out }
  let d := flush { d with yard := yieldRole k st.entry.role d.yard }
  let d := { d with out := offerToField k f d.out }
  settle (notify .stationYielded (some (.station a)) d)

/-- An office frame that is not a command: the control-conflict check, then field egress (R36, R37). -/
def officeToField (f : Frame) (d : Desk) : Desk :=
  match stationAt d.site f.dest.toNat with
  | none => { d with out := offerToField d.site f d.out }
  | some st =>
    if controllable st.entry.role && !st.manual then
      match st.entry.policy with
      | .guards => notify .controlConflict (some (.station st.entry.address)) d
      | .yields => yieldStation f st d
    else { d with out := offerToField d.site f d.out }

/-- OFFICE_FRAME_TO_FIELD (R36). -/
def execOfficeFrameToField (s : State) : Host.Outcome State Fault Refusal :=
  match s.rx.office.ingress with
  | [] => .next s
  | f :: rest =>
    if toPart s.site f then .next s
    else
      next { s with rx.office.ingress := rest } (officeToField f s.desk)

/-! ## BAD_KIND_COMMAND (R40) -/

/-- BAD_KIND_COMMAND (R40): the kind test comes before the length test. -/
def execBadKindCommand (s : State) : Host.Outcome State Fault Refusal :=
  officeStep (fun f => !isCommandKind f.kind) (fun _ => true) (fun _ _ d => (d, plain .badKind)) s

/-! ## STATION_RESUME (R39) -/

/-- A station returned from MANUAL resumes by its role (R39). -/
def resumeRole (st : Station) (d : Desk) : Desk :=
  match st.entry.role with
  | .island n => { d with yard := resumeIsland d.site n d.yard }
  | .wash n => { d with yard := resumeWash d.site n d.yard }
  | .board =>
    { d with out := markUnsent d.site st.entry.address d.out, yard := boardsChanged d.yard }
  | _ => d

/-- A station already in AUTO: a CLOSED island, or a CLOSED or FAULT wash lane, reopens (R39). -/
def reopenRole (st : Station) (d : Desk) : Desk :=
  match st.entry.role with
  | .island n =>
    if (tget d.yard.islands n).map (·.state) = some .closed then { d with yard := resumeIsland d.site n d.yard } else d
  | .wash n =>
    let st := (tget d.yard.washLanes n).map (·.state)
    if st = some .closed ∨ st = some .fault then { d with yard := resumeWash d.site n d.yard } else d
  | _ => d

def resumeHandler : Handler := fun p _ d =>
  match stationAt d.site (u8 p 0) with
  | none => (d, plain .notFound)
  | some st =>
    if controllable st.entry.role then
      (settle
        (if st.manual then resumeRole st { d with site := setMode st.entry.address false d.site } else reopenRole st d),
       plain .ok)
    else (d, plain .state)

/-- STATION_RESUME (R39). -/
def execStationResume (s : State) : Host.Outcome State Fault Refusal :=
  officeStep (ofKind kindStationResume) (· == 1) resumeHandler s

/-! ## YARD_CLEAR (R161) -/

/-- YARD_CLEAR (R161). -/
def execYardClear (s : State) : Host.Outcome State Fault Refusal :=
  officeStep (ofKind kindYardClear) (· == 0) (fun _ _ d => (clearDesk d, plain .ok)) s

end Sys2Proof.Machine
end

