-- ==== Sys2Proof/Machine/VehicleOrders.lean ====
section
/-! DEFINITION. The five orders of VEHICLE_SET (R19 to R23). -/

namespace Sys2Proof.Machine

/-- What an order does with a rostered vehicle. -/
abbrev OrderAct := Site → Vehicle → Yard → Yard × Result

/-- The tests of R19 in order, then the order whose code is `order`. -/
def orderHandler (order : Nat) (act : OrderAct) : Handler := yardHandler fun p k y =>
  if u8 p 2 = order then
    match vehOf y (u16 p 0) with
    | none => (y, .notFound)
    | some v => act k v y
  else (y, .range)

def orderStep (order : Nat) (act : OrderAct) (s : State) : Host.Outcome State Fault Refusal :=
  officeStep (ofCode kindVehicleSet 2 3 order 5) (· == 3) (orderHandler order act) s

/-- The effects of setting out-of-service on a vehicle that is in service and not DEPARTING (R11, R20). -/
def takeOutOfService (k : Site) (f : Nat) (y : Yard) : Yard :=
  let y := if stateOf y f = some .called then standDown k f (withdrawCall f y) else y
  updVeh f (fun v => { v with entry.outOfService := true }) (unpair f y)

/-- The effects of clearing out-of-service on a vehicle that is out of service; the change is reported (R21). -/
def returnToService (f : Nat) (y : Yard) : Yard :=
  report (updVeh f (fun v => { v with entry.outOfService := false }) y)

/-- Set out-of-service (R20). -/
def orderOutOfService : OrderAct := fun k v y =>
  if v.state = .departing then (y, .state)
  else if v.entry.outOfService then (y, .ok)
  else (takeOutOfService k v.entry.fleet y, .ok)

/-- VEHICLE_SET_OUT_OF_SERVICE (R20). -/
def execVehicleSetOutOfService (s : State) : Host.Outcome State Fault Refusal := orderStep 1 orderOutOfService s

/-- Clear out-of-service (R21). -/
def orderInService : OrderAct := fun _ v y =>
  if v.entry.outOfService then (returnToService v.entry.fleet y, .ok) else (y, .ok)

/-- VEHICLE_SET_CLEAR_OUT_OF_SERVICE (R21). -/
def execVehicleSetClearOutOfService (s : State) : Host.Outcome State Fault Refusal := orderStep 2 orderInService s

/-- Mark UNLOCATED (R22). -/
def orderUnlocated : OrderAct := fun k v y =>
  let f := v.entry.fleet
  if v.state = .unlocated then (y, .ok)
  else (setState k f .unlocated (takeOut k f (withdrawCall f y)), .ok)

/-- VEHICLE_SET_MARK_UNLOCATED (R22). -/
def execVehicleSetMarkUnlocated (s : State) : Host.Outcome State Fault Refusal := orderStep 3 orderUnlocated s

/-- The vehicle stands PARKED or on the apron (R23). -/
def standing (v : Vehicle) : Bool := v.state == .parked || v.state == .apron

/-- Send to fuel (R23). -/
def orderToFuel : OrderAct := fun k v y =>
  let f := v.entry.fleet
  if standing v && fuelJoinable y f then
    let y := updService f (fun v => { v with fuelDone := false, fuelSkipped := false }) (takeOut k f y)
    (fuelJoined k false f (joinFuel k f y), .ok)
  else (y, .state)

/-- VEHICLE_SET_SEND_TO_FUEL (R23). -/
def execVehicleSetSendToFuel (s : State) : Host.Outcome State Fault Refusal := orderStep 4 orderToFuel s

/-- Send to wash (R23). -/
def orderToWash : OrderAct := fun k v y =>
  let f := v.entry.fleet
  if standing v && washJoinable y f then
    let y := updService f (fun v => { v with washDone := false, washIncomplete := false }) (takeOut k f y)
    (washJoined k f (joinWash k f y), .ok)
  else (y, .state)

/-- VEHICLE_SET_SEND_TO_WASH (R23). -/
def execVehicleSetSendToWash (s : State) : Host.Outcome State Fault Refusal := orderStep 5 orderToWash s

end Sys2Proof.Machine
end

