-- ==== Sys2Proof/Machine/TableWrites.lean ====
section
/-! DEFINITION. Writing one table entry: the structural tests, the live-edit checks, the write with its clamping and the
effects of each table (R4, R31, R43, R46, R83, R99, R101, R114, R133, R145, R148 to R150, R154, R165). -/

namespace Sys2Proof.Machine

/-- What becomes of an entry: refused, or written with or without a clamp. -/
inductive Written where
  | refused (r : Result)
  | wrote (d : Desk) (clamped : Bool)

/-- The value lies outside the range and would be clamped. -/
def outOf (lo hi n : Nat) : Bool := clampTo lo hi n != n

/-- A key, other than the slot's own, is already held by another slot (R145, R148). -/
def heldElsewhere {α : Type} (t : Table α) (slot : Nat) (p : α → Bool) : Bool := t.any fun e => e.1 != slot && p e.2

/-- An entry's effect on the yard, written with the site as it stands. -/
def wroteYard (d : Desk) (clamped : Bool) (y : Yard) : Written := .wrote { d with yard := y } clamped

/-! ## Roster (R2, R20, R21, R148, R149) -/

/-- A vehicle is present unless it is ABSENT or UNLOCATED (R149). -/
def present (v : Vehicle) : Bool := v.state != .absent && v.state != .unlocated

/-- A level written against the class a vehicle now names (R4). -/
def relimit (k : Site) (f : Nat) (y : Yard) : Yard :=
  updService f (fun v => { v with level := limitLevel (classOf k v).tank v.level }) y

/-- Remove the record of an ABSENT or UNLOCATED vehicle: a paired one is first unpaired (R149). -/
def removeVehicle (slot f : Nat) (y : Yard) : Yard :=
  let y := unpair f y
  { y with roster := terase y.roster slot }

def createVehicle (k : Site) (slot : Nat) (e : RosterEntry) (y : Yard) : Yard :=
  { y with roster := tset y.roster slot (freshVehicle (presentTime k) e) }

/-- The effects of a change of the out-of-service field (R20, R21). -/
def changeService (k : Site) (v : Vehicle) (oos : Bool) (y : Yard) : Yard :=
  if v.entry.outOfService = oos then y
  else if oos then takeOutOfService k v.entry.fleet y
  else returnToService v.entry.fleet y

/-- Rewrite a vehicle's record: a present vehicle may change its out-of-service field alone, and not even that in DEPARTING
(R149, log 41). A present vehicle's length is compared with the clamped one (log 46). -/
def rewriteVehicle (v : Vehicle) (e : RosterEntry) (clamped : Bool) (d : Desk) : Written :=
  let f := e.fleet
  if present v then
    if e.cls = v.entry.cls ∧ e.length = v.entry.length ∧
        (v.state = .departing → e.outOfService = v.entry.outOfService) then
      wroteYard d clamped (changeService d.site v e.outOfService d.yard)
    else .refused .inUse
  else
    let y := changeService d.site v e.outOfService d.yard
    let y := updVeh f (fun v => { v with entry := e }) y
    wroteYard d clamped (if e.cls = v.entry.cls then y else relimit d.site f y)

/-- A roster entry; its length is compared with a present vehicle's after the clamp: the model's choice (log 46). A class above
7, which has no place in the class table, is refused like an empty place, with NOT_FOUND: the model's choice (log 56). -/
def writeRoster (slot : Nat) (p : List Byte) (d : Desk) : Written :=
  let old := tget d.yard.roster slot
  if u8 p 0 = 0 then
    match old with
    | none => .wrote d false
    | some v => if present v then .refused .inUse else wroteYard d false (removeVehicle slot v.entry.fleet d.yard)
  else
    let f := u16 p 1
    match flagOf (u8 p 5) with
    | none => .refused .range
    | some oos =>
      let e : RosterEntry := { fleet := f, cls := u8 p 3, length := clampTo 80 200 (u8 p 4), outOfService := oos }
      let clamped := outOf 80 200 (u8 p 4)
      if f < 1 ∨ 65534 < f then .refused .range
      else if (tget d.site.classes e.cls).isNone then .refused .notFound
      else if heldElsewhere d.yard.roster slot fun v => v.entry.fleet == f then .refused .inUse
      else
        match old with
        | none => wroteYard d clamped (createVehicle d.site slot e d.yard)
        | some v =>
          if v.entry.fleet = f then rewriteVehicle v e clamped d
          else if present v then .refused .inUse
          else wroteYard d clamped (createVehicle d.site slot e (removeVehicle slot v.entry.fleet d.yard))

/-! ## Classes (R4, R149) -/

/-- Every level of the class above its tank is lowered, each a change of fuel state (R4). -/
def lowerLevels (k : Site) (cls : Nat) (y : Yard) : Yard :=
  (y.roster.filterMap fun p => if p.2.entry.cls = cls then some p.2.entry.fleet else none).foldl
    (fun y f => relimit k f y) y

def writeClass (c : Nat) (p : List Byte) (d : Desk) : Written :=
  if u8 p 0 = 0 then
    if tany d.yard.roster fun v => v.entry.cls == c then .refused .inUse
    else .wrote { d with site := { d.site with classes := terase d.site.classes c } } false
  else
    let e : ClassEntry :=
      { tank := clampTo 50 900 (u16 p 1), reserve := clampTo 0 200 (u8 p 3), spareFuel := clampTo 0 900 (u16 p 4),
        washInterval := clampTo 0 7 (u8 p 6), washProgram := clampTo 1 8 (u8 p 7) }
    let clamped := outOf 50 900 (u16 p 1) || outOf 0 200 (u8 p 3) || outOf 0 900 (u16 p 4) || outOf 0 7 (u8 p 6) ||
      outOf 1 8 (u8 p 7)
    let k := { d.site with classes := tset d.site.classes c e }
    .wrote { d with site := k, yard := lowerLevels k c d.yard } clamped

/-! ## Lanes (R43, R78, R148, R150) -/

/-- A class of the new mask is not in the old one. -/
def addsClass (old new : ClassMask) : Bool := (new &&& ~~~old) != 0

/-- A mouth is reset as by a loop-map write (R46). -/
def resetMouthAt (k : Site) (m : Nat) : Site := { k with mouths := tmod k.mouths m fun m => resetMouth m.entry }

/-- A change of a mouth of a lane resets the old and the new mouth (R150). -/
def changeMouth (old new : Nat) (k : Site) : Site := if old = new then k else resetMouthAt (resetMouthAt k old) new

/-- A lane names a mouth. -/
def namesMouth (m : Nat) (l : Lane) : Bool := l.entry.entryMouth == m || l.entry.exitMouth == m

def writeLane (n : Nat) (p : List Byte) (d : Desk) : Written :=
  let old := tget d.yard.lanes n
  if u8 p 0 = 0 then
    match old with
    | none => .wrote d false
    | some l =>
      if l.items = [] ∧ l.pendings = [] then wroteYard d false { d.yard with lanes := terase d.yard.lanes n }
      else .refused .inUse
  else
    let given := u8 p 4
    let e : LaneEntry :=
      { capacity := clampTo 100 2500 (u16 p 1), mask := BitVec.ofNat 8 (u8 p 3),
        unknownLength := if given = 0 then 180 else clampTo 80 200 given,
        entryMouth := u8 p 5, exitMouth := u8 p 6, frontSign := optional (u8 p 7) }
    let clamped := outOf 100 2500 (u16 p 1) || (given != 0 && outOf 80 200 given)
    if e.entryMouth < 1 ∨ 48 < e.entryMouth ∨ e.exitMouth < 1 ∨ 48 < e.exitMouth then .refused .range
    else if e.entryMouth = e.exitMouth ∨ heldElsewhere d.yard.lanes n (namesMouth e.entryMouth) ∨
        heldElsewhere d.yard.lanes n (namesMouth e.exitMouth) then .refused .inUse
    else
      match old with
      | none => wroteYard d clamped { d.yard with lanes := tset d.yard.lanes n (freshLane e) }
      | some l =>
        let y := { d.yard with lanes := tset d.yard.lanes n { l with entry := e } }
        let y := if l.entry.capacity < e.capacity ∨ addsClass l.entry.mask e.mask = true then roomEvent y else y
        .wrote
          { d with
            site := changeMouth l.entry.entryMouth e.entryMouth (changeMouth l.entry.exitMouth e.exitMouth d.site)
            yard := y } clamped

/-! ## Loop map (R46, R49, R148) -/

/-- The concentrators the loop map names, each once. -/
def distinct (l : List Nat) : List Nat := l.foldl (fun acc a => if acc.contains a then acc else a :: acc) []

/-- After a loop-map write: a newly named concentrator is out of silence with its timer started; one no longer named
has none (R46, R49, log 29). -/
def syncConcentrators (before : Table Mouth) (k : Site) : Site :=
  let kept := k.concentrators.map fun p =>
    if namedIn k.mouths p.1 then p else (p.1, { p.2 with timer := none, silent := false })
  { k with
    concentrators := (namedConcentrators k.mouths).foldl
      (fun t a => if namedIn before a then t
        else tset t a { loops := loopsOf k a, timer := some (silenceDeadline k), silent := false }) kept }

/-- A station record holds the address with role LOOPS. -/
def isLoops (k : Site) (a : Nat) : Bool :=
  match stationAt k a with
  | some s => s.entry.role == .loops
  | none => false

def writeLoop (m : Nat) (p : List Byte) (d : Desk) : Written :=
  if u8 p 0 = 0 then
    .wrote { d with site := syncConcentrators d.site.mouths { d.site with mouths := terase d.site.mouths m } } false
  else
    match debounceOf (u8 p 5) with
    | none => .refused .range
    | some t =>
      let e : LoopEntry :=
        { stationA := u8 p 1, indexA := clampTo 0 15 (u8 p 2), stationB := u8 p 3, indexB := clampTo 0 15 (u8 p 4),
          debounce := t }
      let mouths := tset d.site.mouths m (resetMouth e)
      if isLoops d.site e.stationA = false ∨ isLoops d.site e.stationB = false then .refused .notFound
      else if Config.concentratorCap < (distinct (namedConcentrators mouths)).length then .refused .inUse
      else
        .wrote { d with site := syncConcentrators d.site.mouths { d.site with mouths := mouths } }
          (outOf 0 15 (u8 p 2) || outOf 0 15 (u8 p 4))

/-! ## Stations (R31, R59, R150) -/

def isReader : Role → Bool
  | .gateIn => true
  | .gateOut => true
  | .yard => true
  | _ => false

/-- The island or wash lane of a role holds a vehicle. -/
def roleBusy (y : Yard) : Role → Bool
  | .island n => ((tget y.islands n).map (·.vehicle.isSome)).getD false
  | .wash n => ((tget y.washLanes n).map (·.vehicle.isSome)).getD false
  | _ => false

/-- A record may lose its role: not in MANUAL, and not while its island or wash lane holds a vehicle (R31, R150). -/
def mayChangeRole (y : Yard) (s : Station) : Bool :=
  !(controllable s.entry.role && s.manual) && !roleBusy y s.entry.role

/-- A record may be removed (R150). -/
def mayRemoveStation (k : Site) (y : Yard) (s : Station) : Bool :=
  mayChangeRole y s && !(s.entry.role == .loops && namedIn k.mouths s.entry.address)

/-- A role that one record at most may hold is held elsewhere, or four other records hold BOARD (R31). -/
def roleTaken (t : Table Station) (slot : Nat) : Role → Bool
  | .island n => heldElsewhere t slot fun s => s.entry.role == .island n
  | .wash n => heldElsewhere t slot fun s => s.entry.role == .wash n
  | .board => decide (Config.boardCap ≤ (t.filter fun e => e.1 != slot && e.2.entry.role == .board).length)
  | _ => false

/-- A reader's record in the tag-repeat memory goes with its reader role (R59). -/
def forgetReader (a : Nat) (r : Option Role) (k : Site) : Site :=
  if (r.map isReader).getD false then k else { k with tagMemory := terase k.tagMemory a }

/-- What a new or rewritten station record sets off: the calling rules, and the boards (R87, R105, R130). -/
def stationEffects (k : Site) (old new : Option Role) (y : Yard) : Yard :=
  let y := if old = some .board ∨ new = some .board then boardsChanged y else y
  match new with
  | some (.island _) => fuelCalls k y
  | some (.wash _) => washCalls k y
  | _ => y

def writeStation (slot : Nat) (p : List Byte) (d : Desk) : Written :=
  let old := tget d.site.stations slot
  let oldRole := old.map (·.entry.role)
  if u8 p 0 = 0 then
    match old with
    | none => .wrote d false
    | some s =>
      if mayRemoveStation d.site d.yard s then
        let k := forgetReader s.entry.address none { d.site with stations := terase d.site.stations slot }
        .wrote { d with site := k, yard := stationEffects k oldRole none d.yard } false
      else .refused .inUse
  else
    let a := u8 p 1
    match roleOf (u8 p 2), policyOf (u8 p 4) with
    | some role, some policy =>
      let e : StationEntry := { address := a, role := role, sign := optional (u8 p 3), policy := policy }
      let write (s : Station) (gone : Option Nat) : Written :=
        let k := { d.site with stations := tset d.site.stations slot s }
        let k := match gone with
          | some b => forgetReader b none k
          | none => forgetReader a (some role) k
        .wrote { d with site := k, yard := stationEffects k oldRole (some role) d.yard } false
      if a < 1 ∨ 239 < a then .refused .range
      else if heldElsewhere d.site.stations slot fun s => s.entry.address == a then .refused .inUse
      else if roleTaken d.site.stations slot role then .refused .inUse
      else
        match old with
        | none => write (freshStation e) none
        | some s =>
          if s.entry.address = a then
            if s.entry.role = role ∨ mayChangeRole d.yard s = true then write { s with entry := e } none
            else .refused .inUse
          else if mayRemoveStation d.site d.yard s then write (freshStation e) (some s.entry.address)
          else .refused .inUse
    | _, _ => .refused .range

/-! ## Forwarding (R33) -/

def writeForwarding (kind : Nat) (p : List Byte) (d : Desk) : Written :=
  if u8 p 0 = 0 then .wrote { d with site := { d.site with forwarding := terase d.site.forwarding kind } } false
  else
    match actionOf (u8 p 1) with
    | none => .refused .range
    | some a => .wrote { d with site := { d.site with forwarding := tset d.site.forwarding kind a } } false

/-! ## Islands (R83, R99, R150) -/

/-- A queued vehicle whose class no loaded island accepts leaves the fuel queue (R99). -/
def retestFuelOf (k : Site) (y : Yard) (f : Nat) : Yard :=
  if y.fuelQ.contains f && !(tany y.islands fun i => islandAccepts y i f) then
    (route k none f (skipFuel f { y with fuelQ := without y.fuelQ f })).1
  else y

def retestFuel (k : Site) (y : Yard) : Yard := fuelCalls k (y.fuelQ.foldl (retestFuelOf k) y)

/-- The effect of a change of held closed on an island (R99, log 28). No running field but the state changes, so an IDLE
island whose last authorisation expired goes CLOSED with stop sent still set (R91), where R84 says that no stop is
outstanding: the model's choice (log 47). -/
def holdIsland (e : IslandEntry) (i : Island) : Island :=
  let j := { i with entry := e }
  if e.heldClosed = i.entry.heldClosed then j
  else if e.heldClosed then
    match i.state with
    | .idle => { j with state := .closed }
    | .closed => j
    | .manual => j
    | _ => { j with closeAtEnd := true }
  else { j with closeAtEnd := false }

/-- After an island entry is written: a rewrite is followed by the test of the queue, a new record by the calling rule
(R87, R99). -/
def islandWritten (k : Site) (old : Option Island) (y : Yard) : Yard :=
  match old with
  | none => fuelCalls k y
  | some _ => retestFuel k y

def writeIsland (n : Nat) (p : List Byte) (d : Desk) : Written :=
  let old := tget d.yard.islands n
  if u8 p 0 = 0 then
    match old with
    | none => .wrote d false
    | some i =>
      if i.vehicle.isSome then .refused .inUse
      else wroteYard d false (retestFuel d.site { d.yard with islands := terase d.yard.islands n })
  else
    match flagOf (u8 p 4) with
    | none => .refused .range
    | some held =>
      let e : IslandEntry :=
        { mask := BitVec.ofNat 8 (u8 p 1), meter := clampTo 1 72 (u8 p 2), sign := optional (u8 p 3), heldClosed := held }
      let i := match old with
        | none => freshIsland e
        | some i => holdIsland e i
      wroteYard d (outOf 1 72 (u8 p 2)) 
        (islandWritten d.site old { d.yard with islands := tset d.yard.islands n i })

/-! ## Wash lanes and programs (R100, R101, R114, R150) -/

/-- A queued vehicle that no loaded wash lane accepts leaves the wash queue (R114). -/
def retestWashOf (k : Site) (y : Yard) (f : Nat) : Yard :=
  if y.washQ.contains f && !(tany y.washLanes fun l => washAccepts y l f) then
    (route k none f (skipWash f { y with washQ := without y.washQ f })).1
  else y

def retestWash (k : Site) (y : Yard) : Yard := washCalls k (y.washQ.foldl (retestWashOf k) y)

/-- The effect of a rewrite on a wash lane: an IDLE lane newly held closed goes CLOSED at once (R114). -/
def holdWash (e : WashLaneEntry) (l : WashLane) : WashLane :=
  let m := { l with entry := e }
  if e.heldClosed = true ∧ l.entry.heldClosed = false ∧ l.state = .idle then { m with state := .closed } else m

/-- After a wash lane entry is written: a rewrite of the class mask or the max length is followed by the test of the queue,
any other entry by the calling rule (R105, R114). -/
def washWritten (k : Site) (old : Option WashLane) (e : WashLaneEntry) (y : Yard) : Yard :=
  match old with
  | none => washCalls k y
  | some l => if l.entry.mask = e.mask ∧ l.entry.maxLength = e.maxLength then washCalls k y else retestWash k y

def writeWashLane (n : Nat) (p : List Byte) (d : Desk) : Written :=
  let old := tget d.yard.washLanes n
  if u8 p 0 = 0 then
    match old with
    | none => .wrote d false
    | some l =>
      if l.vehicle.isSome then .refused .inUse
      else wroteYard d false (retestWash d.site { d.yard with washLanes := terase d.yard.washLanes n })
  else
    match flagOf (u8 p 5) with
    | none => .refused .range
    | some held =>
      let given := u8 p 3
      let e : WashLaneEntry :=
        { mask := BitVec.ofNat 8 (u8 p 1), maxLength := clampTo 80 200 (u8 p 2),
          lref := if given = 0 then 120 else clampTo 60 200 given, sign := optional (u8 p 4), heldClosed := held }
      let l := match old with
        | none => freshWash e
        | some l => holdWash e l
      wroteYard d (outOf 80 200 (u8 p 2) || (given != 0 && outOf 60 200 given))
        (washWritten d.site old e { d.yard with washLanes := tset d.yard.washLanes n l })

/-- One stage of a program entry, at its slot of the entry; none when an enumerated field is undefined (R148). -/
def stageOf (p : List Byte) (i : Nat) : Option Stage :=
  match stageKindOf (u8 p (2 + 4 * i)), flagOf (u8 p (5 + 4 * i)) with
  | some kind, some scales => some { kind := kind, base := clampTo 1 600 (u16 p (3 + 4 * i)), scales := scales }
  | _, _ => none

/-- The stages of a program entry, when every one is defined. -/
def stagesOf (p : List Byte) : List Nat → Option (List Stage)
  | [] => some []
  | i :: l => match stageOf p i, stagesOf p l with
    | some s, some rest => some (s :: rest)
    | _, _ => none

def writeProgram (n : Nat) (p : List Byte) (d : Desk) : Written :=
  if u8 p 0 = 0 then .wrote { d with site := { d.site with programs := terase d.site.programs n } } false
  else
    let count := u8 p 1
    if count < 1 ∨ 6 < count then .refused .range
    else
      match stagesOf p (List.range count) with
      | none => .refused .range
      | some l =>
        .wrote { d with site := { d.site with programs := tset d.site.programs n l } }
          ((List.range count).any fun i => outOf 1 600 (u16 p (3 + 4 * i)))

/-! ## Duty banks (R133, R150) -/

/-- The late mark and DUTY_LATE where a late minute that has changed has passed (R133). R133 names no field of the notice, so
R155 leaves them absent. -/
def lateAfterWrite (k : Site) (d : Nat) (y : Yard) : Yard :=
  match dutyOf y d with
  | none => y
  | some r =>
    if evaluable r.state && !r.marks.late && decide (lateMinute k r.entry ≤ presentMinute k) then
      raise .dutyLate none none none (setLate d y)
    else y

/-- The effects of an entry written to the active bank (R133): none while the clock is FREE. The evaluation and its rounds
come before the late mark: the model's choice (log 45). -/
def dutyWritten (k : Site) (d : Nat) (lateChanged : Bool) (y : Yard) : Yard :=
  if clockFree k then y
  else
    match dutyOf y d with
    | none => y
    | some r =>
      let y :=
        if dueMinute k r.entry ≤ presentMinute k then drain k (evaluate k false d y)
        else if waiting r.state then updDuty d (fun r => { r with state := .opened, reason := none }) y
        else y
      if lateChanged then lateAfterWrite k d y else y

/-- Remove a duty of the active bank: its vehicle becomes a spare (R150). -/
def removeDuty (bk : Bank) (slot : Nat) (r : Duty) (y : Yard) : Yard :=
  let y := if bk = y.active then
      match r.vehicle with
      | some f => unpairRecords f y
      | none => y
    else y
  setBank bk (terase (bankOf y bk) slot) y

/-- A duty of a bank may be rewritten or removed: always in the shadow bank (R133, R150). -/
def mayEditDuty (y : Yard) (bk : Bank) (r : Duty) : Bool := bk != y.active || evaluable r.state

def writeDuty (bk : Bank) (slot : Nat) (p : List Byte) (d : Desk) : Written :=
  let y := d.yard
  let bank := bankOf y bk
  let old := tget bank slot
  if u8 p 0 = 0 then
    match old with
    | none => .wrote d false
    | some r => if mayEditDuty y bk r then wroteYard d false (removeDuty bk slot r y) else .refused .inUse
  else
    let number := u16 p 1
    let lead := u8 p 9
    match flagOf (u8 p 8) with
    | none => .refused .range
    | some wash =>
      let e : DutyEntry :=
        { number := number, mask := BitVec.ofNat 8 (u8 p 3), departure := clampTo 0 1439 (u16 p 4),
          fuel := clampTo 0 900 (u16 p 6), wash := wash, lead := if lead = 0 then none else some (clampTo 1 60 lead) }
      let clamped := outOf 0 1439 (u16 p 4) || outOf 0 900 (u16 p 6) || (lead != 0 && outOf 1 60 lead)
      let write (r : Duty) (lateChanged : Bool) (y : Yard) : Written :=
        let y := setBank bk (tset (bankOf y bk) slot r) y
        wroteYard d clamped (if bk = y.active then dutyWritten d.site number lateChanged y else y)
      if number < 1 ∨ 9999 < number then .refused .range
      else if heldElsewhere bank slot fun r => r.entry.number == number then .refused .inUse
      else
        match old with
        | none => write (freshDuty e) true y
        | some r =>
          if mayEditDuty y bk r then
            if r.entry.number = number then
              write { r with entry := e } (lateMinute d.site e != lateMinute d.site r.entry) y
            else write (freshDuty e) true (removeDuty bk slot r y)
          else .refused .inUse

/-! ## Settings (R66, R133, R141, R154, R158) -/

/-- One duty after a write of the call lead or the late grace: evaluated where the write made it due, marked late where
it made it late (R133, log 31), in that order (log 45). -/
def reconsider (before k : Site) (y : Yard) (d : Nat) : Yard :=
  match dutyOf y d with
  | none => y
  | some r =>
    let m := presentMinute k
    let y := if m < dueMinute before r.entry ∧ dueMinute k r.entry ≤ m then drain k (evaluate k false d y) else y
    if m < lateMinute before r.entry then lateAfterWrite k d y else y

def reconsiderDuties (before k : Site) (y : Yard) : Yard :=
  if clockFree k then y else (dutyOrder y).foldl (reconsider before k) y

/-- What a changed setting sets off. -/
def settingEffects (n : Nat) (before : Site) (d : Desk) : Desk :=
  let k := d.site
  if setting before n = setting k n then d
  else if n = 1 ∨ n = 5 then { d with yard := roomEvent d.yard }
  else if n = 17 ∨ n = 18 then { d with yard := reconsiderDuties before k d.yard }
  else if n = 19 then { d with yard := boardsChanged d.yard }
  else if n = 20 then if k.clock.state = .locked ∧ holdoverDue k = true then enterHoldover d else d
  else d

/-- A write of the batch threshold or the hold time is followed by the test of R158. -/
def batchTest (n : Nat) (d : Desk) : Desk := if n = 21 ∨ n = 22 then { d with out := tryBatch d.site d.out } else d

def writeSetting (n : Nat) (p : List Byte) (d : Desk) : Written :=
  let write (t : Table Nat) : Desk := batchTest n (settingEffects n d.site { d with site := { d.site with settings := t } })
  if u8 p 0 = 0 then .wrote (write (terase d.site.settings n)) false
  else
    let v := u16 p 1
    let range := settingRange n
    if n = 6 ∧ 239 < v then .refused .range
    else .wrote (write (tset d.site.settings n (clampTo range.1 range.2 v))) (outOf range.1 range.2 v)

/-! ## Any table -/

/-- Write one entry at an index: the header first (R165), then the table's own tests and effects. -/
def writeEntry (t : TableId) (i : Nat) (p : List Byte) (d : Desk) : Written :=
  if 1 < u8 p 0 then .refused .range
  else
    match t with
    | .roster => writeRoster i p d
    | .classes => writeClass i p d
    | .lanes => writeLane i p d
    | .loopMap => writeLoop i p d
    | .stations => writeStation i p d
    | .forwarding => writeForwarding i p d
    | .islands => writeIsland i p d
    | .washLanes => writeWashLane i p d
    | .programs => writeProgram i p d
    | .settings => writeSetting i p d
    | .bankA => writeDuty .a i p d
    | .bankB => writeDuty .b i p d

end Sys2Proof.Machine
end

