-- ==== Sys2Proof/Machine/TableCmds.lean ====
section
/-! DEFINITION. The commands of the Table Store: TABLE_OPEN, TABLE_DATA, TABLE_READ, COMMIT, COMMIT_COMPLETE,
COMMIT_TIMEOUT (R145 to R152). -/

namespace Sys2Proof.Machine

/-! ## TABLE_OPEN (R146) -/

/-- The index lies from the first index to the end (R146, R151). -/
def indexIn (t : TableId) (i : Nat) : Bool := decide (firstIndex t ≤ i) && decide (i ≤ endIndex t)

def setCursor (code i : Nat) (d : Desk) : Desk :=
  { d with site := { d.site with cursors := tset d.site.cursors code i } }

def openHandler : Handler := fun p _ d =>
  match tableOf (u8 p 0) with
  | none => (d, plain .range)
  | some t => if indexIn t (u16 p 1) then (setCursor (u8 p 0) (u16 p 1) d, plain .ok) else (d, plain .range)

/-- TABLE_OPEN (R146). -/
def execTableOpen (s : State) : Host.Outcome State Fault Refusal :=
  officeStep (ofKind kindTableOpen) (· == 3) openHandler s

/-! ## TABLE_DATA (R147) -/

/-- How far a frame's entries came: the desk, the entries written, the cursor, a clamp, and a refusal that stopped it. -/
structure Load where
  desk : Desk
  written : Nat
  cursor : Nat
  clamped : Bool
  refusal : Option Result

/-- The next entry of a frame: written and its effects complete before the next, unless the frame has stopped. -/
def loadEntry (t : TableId) (l : Load) (p : List Byte) : Load :=
  match l.refusal with
  | some _ => l
  | none =>
    if l.cursor = endIndex t then { l with refusal := some .tableEnd }
    else
      match writeEntry t l.cursor p l.desk with
      | .refused r => { l with refusal := some r }
      | .wrote d c =>
        { desk := settle d, written := l.written + 1, cursor := l.cursor + 1, clamped := l.clamped || c,
          refusal := none }

/-- The n entries of a payload, each of one size. -/
def entriesOf (size : Nat) (p : List Byte) : Nat → List (List Byte)
  | 0 => []
  | n + 1 => p.take size :: entriesOf size (p.drop size) n

/-- The result of a frame whose entries were reached (R147). -/
def loadResult (l : Load) : Result :=
  match l.refusal with
  | some r => r
  | none => if l.clamped then .okClamped else .ok

/-- The entries of a frame from an open cursor. -/
def load (t : TableId) (code cursor : Nat) (p : List Byte) (d : Desk) : Desk × Answer :=
  let l := (entriesOf (entrySize t) p (p.length / entrySize t)).foldl (loadEntry t)
    { desk := d, written := 0, cursor := cursor, clamped := false, refusal := none }
  (setCursor code l.cursor l.desk, some (loadResult l, [byte l.written] ++ bytes2 l.cursor))

/-- The cases of R147 in order. -/
def dataHandler : Handler := fun p _ d =>
  if d.site.commit.isSome then (d, plain .busy)
  else
    match tableOf (u8 p 0) with
    | none => (d, plain .range)
    | some t =>
      if p.length ≤ 1 ∨ (p.length - 1) % entrySize t ≠ 0 then (d, plain .badLength)
      else
        match tget d.site.cursors (u8 p 0) with
        | none => (d, plain .noCursor)
        | some c => load t (u8 p 0) c (p.drop 1) d

/-- TABLE_DATA (R147). -/
def execTableData (s : State) : Host.Outcome State Fault Refusal :=
  officeStep (ofKind kindTableData) (fun n => decide (1 ≤ n)) dataHandler s

/-! ## TABLE_READ (R151, R165) -/

/-- A present entry: header 1, then its fields. -/
def full (l : List Byte) : List Byte := 1 :: l

/-- An empty entry: header 0; the manual gives its fields no value (log 17). -/
def emptyBytes (n j size : Nat) : List Byte :=
  0 :: (List.range (size - 1)).map fun i => Config.openByte n (.emptyEntry j i)

def rosterBytes (e : RosterEntry) : List Byte :=
  full (bytes2 e.fleet ++ [byte e.cls, byte e.length, flagByte e.outOfService])

def classBytes (e : ClassEntry) : List Byte :=
  full (bytes2 e.tank ++ [byte e.reserve] ++ bytes2 e.spareFuel ++ [byte e.washInterval, byte e.washProgram])

def laneBytes (e : LaneEntry) : List Byte :=
  full (bytes2 e.capacity ++
    [BitVec.ofNat 8 e.mask.toNat, byte e.unknownLength, byte e.entryMouth, byte e.exitMouth, byte (orZero e.frontSign)])

def loopBytes (e : LoopEntry) : List Byte :=
  full [byte e.stationA, byte e.indexA, byte e.stationB, byte e.indexB, byte (debounceCode e.debounce)]

def stationBytes (e : StationEntry) : List Byte :=
  full [byte e.address, byte (roleCode e.role), byte (orZero e.sign), byte (policyCode e.policy)]

def islandEntryBytes (e : IslandEntry) : List Byte :=
  full [BitVec.ofNat 8 e.mask.toNat, byte e.meter, byte (orZero e.sign), flagByte e.heldClosed]

def washEntryBytes (e : WashLaneEntry) : List Byte :=
  full [BitVec.ofNat 8 e.mask.toNat, byte e.maxLength, byte e.lref, byte (orZero e.sign), flagByte e.heldClosed]

/-- A stage slot of a program. A program is a list of stages (R100), and the places of a list beyond its contents are sent as
zeros (R164, R165). -/
def stageBytes (l : List Stage) (i : Nat) : List Byte :=
  match l[i]? with
  | some s => [byte (stageKindCode s.kind)] ++ bytes2 s.base ++ [flagByte s.scales]
  | none => List.replicate 4 0

def programBytes (l : List Stage) : List Byte := full (byte l.length :: (List.range 6).flatMap (stageBytes l))

/-- An empty settings place is returned with its default value; its header has no stated value but 0 or 1 (R151,
R165). -/
def settingBytes (n j i : Nat) : Option Nat → List Byte
  | some v => full (bytes2 v)
  | none => (Config.openByte n (.emptySetting j) &&& 1) :: bytes2 (settingDefault i)

/-- A place's bytes: its entry, or an empty one. -/
def placeBytes {α : Type} (n j size : Nat) (g : α → List Byte) : Option α → List Byte
  | some e => g e
  | none => emptyBytes n j size

/-- The entry at an index of a table, the j-th of its reply. -/
def entryBytes (t : TableId) (n j i : Nat) (d : Desk) : List Byte :=
  match t with
  | .roster => placeBytes n j 6 (fun v => rosterBytes v.entry) (tget d.yard.roster i)
  | .classes => placeBytes n j 8 classBytes (tget d.site.classes i)
  | .lanes => placeBytes n j 8 (fun l => laneBytes l.entry) (tget d.yard.lanes i)
  | .loopMap => placeBytes n j 6 (fun m => loopBytes m.entry) (tget d.site.mouths i)
  | .stations => placeBytes n j 5 (fun s => stationBytes s.entry) (tget d.site.stations i)
  | .forwarding => placeBytes n j 2 (fun a => full [byte (actionCode a)]) (tget d.site.forwarding i)
  | .islands => placeBytes n j 5 (fun l => islandEntryBytes l.entry) (tget d.yard.islands i)
  | .washLanes => placeBytes n j 6 (fun l => washEntryBytes l.entry) (tget d.yard.washLanes i)
  | .programs => placeBytes n j 26 programBytes (tget d.site.programs i)
  | .settings => settingBytes n j i (tget d.site.settings i)
  | .bankA => placeBytes n j 10 (fun r => full (dutyEntryBytes r.entry)) (tget d.yard.bankA i)
  | .bankB => placeBytes n j 10 (fun r => full (dutyEntryBytes r.entry)) (tget d.yard.bankB i)

/-- The tests of R151 in order, then the entries. -/
def readHandler : Handler := fun p _ d =>
  let i := u16 p 1
  let count := u8 p 3
  match tableOf (u8 p 0) with
  | none => (d, plain .range)
  | some t =>
    if indexIn t i = false then (d, plain .range)
    else if count < 1 ∨ readCap t < count then (d, plain .range)
    else
      let m := min count (endIndex t - i)
      (countOpen d,
       some (.ok, byte m :: (List.range m).flatMap fun j => entryBytes t d.out.openCount j (i + j) d))

/-- TABLE_READ (R151). -/
def execTableRead (s : State) : Host.Outcome State Fault Refusal :=
  officeStep (ofKind kindTableRead) (· == 4) readHandler s

/-! ## COMMIT (R152) -/

/-- The image of the ten retained tables (R152). -/
def imageOf (d : Desk) : Tables :=
  { roster := tmap d.yard.roster (·.entry), classes := d.site.classes, lanes := tmap d.yard.lanes (·.entry),
    loopMap := tmap d.site.mouths (·.entry), stations := tmap d.site.stations (·.entry),
    forwarding := d.site.forwarding, islands := tmap d.yard.islands (·.entry),
    washLanes := tmap d.yard.washLanes (·.entry), programs := d.site.programs, settings := d.site.settings }

/-- BUSY in flight; otherwise the write begins, the store is INVALID and the reply waits in its reserved slot. -/
def commitHandler : Handler := fun _ f d =>
  if d.site.commit.isSome then (d, plain .busy)
  else
    ({ d with
       site := { d.site with
         store := none
         commit := some { started := d.site.now, from_ := f.src, own := f.dest, image := imageOf d } } }, none)

/-- COMMIT (R152). -/
def execCommit (s : State) : Host.Outcome State Fault Refusal :=
  officeStep (ofKind kindCommit) (· == 0) commitHandler s

/-- The reply to the COMMIT in flight, in its reserved slot. -/
def commitReply (c : Commit) (r : Result) (d : Desk) : Desk :=
  { d with out := putReply (replyFrame c.from_ c.own kindCommit r []) d.out }

/-- COMMIT_COMPLETE (R152): the write completes before 4 s have passed. -/
def execCommitComplete (s : State) : Host.Outcome State Fault Refusal :=
  match s.site.commit with
  | none => .next s
  | some c =>
    if elapsed s.site c.started Config.commitTicks then .next s
    else
      next s (commitReply c .ok { s.desk with site := { s.site with store := some c.image, commit := none } })

/-- COMMIT_TIMEOUT (R152): the write has not completed 4 s after the command. -/
def execCommitTimeout (s : State) : Host.Outcome State Fault Refusal :=
  match s.site.commit with
  | none => .next s
  | some c =>
    if elapsed s.site c.started Config.commitTicks then
      next s (commitReply c .state (notify .commitFailed none { s.desk with site := { s.site with commit := none } }))
    else .next s

end Sys2Proof.Machine
end

