-- ==== Sys2Proof/Machine/Dispatch.lean ====
section
/-! DEFINITION. The effect of every command: one arm for each constructor of Instr. -/

namespace Sys2Proof.Machine

def exec (i : Instr) (s : State) : Host.Outcome State Fault Refusal :=
  match i with
  | .powerOnReset rate1 rate0 => Sys2Proof.Machine.execPowerOnReset rate1 rate0 s
  | .rxByte port byte => Sys2Proof.Machine.execRxByte port byte s
  | .receiveGapTimeout port => Sys2Proof.Machine.execReceiveGapTimeout port s
  | .tagRead => Sys2Proof.Machine.execTagRead s
  | .loopState => Sys2Proof.Machine.execLoopState s
  | .debounceExpiry mouth => Sys2Proof.Machine.execDebounceExpiry mouth s
  | .stuckTimerExpiry mouth => Sys2Proof.Machine.execStuckTimerExpiry mouth s
  | .silenceTimerExpiry station => Sys2Proof.Machine.execSilenceTimerExpiry station s
  | .pendingTimeout lane => Sys2Proof.Machine.execPendingTimeout lane s
  | .transitTimeout => Sys2Proof.Machine.execTransitTimeout s
  | .vehiclePresent => Sys2Proof.Machine.execVehiclePresent s
  | .nozzleLifted => Sys2Proof.Machine.execNozzleLifted s
  | .meterCount => Sys2Proof.Machine.execMeterCount s
  | .nozzleHung => Sys2Proof.Machine.execNozzleHung s
  | .islandClear => Sys2Proof.Machine.execIslandClear s
  | .islandReportFault => Sys2Proof.Machine.execIslandReportFault s
  | .arrivalTimerExpiry island => Sys2Proof.Machine.execArrivalTimerExpiry island s
  | .authorisationTimerExpiry island => Sys2Proof.Machine.execAuthorisationTimerExpiry island s
  | .flowStallTimerExpiry island => Sys2Proof.Machine.execFlowStallTimerExpiry island s
  | .vehicleInPosition => Sys2Proof.Machine.execVehicleInPosition s
  | .stageDone => Sys2Proof.Machine.execStageDone s
  | .laneClear => Sys2Proof.Machine.execLaneClear s
  | .washReportFault => Sys2Proof.Machine.execWashReportFault s
  | .callTimerExpiry washLane => Sys2Proof.Machine.execCallTimerExpiry washLane s
  | .stageTimerExpiry washLane => Sys2Proof.Machine.execStageTimerExpiry washLane s
  | .unprocessedFieldFrame => Sys2Proof.Machine.execUnprocessedFieldFrame s
  | .officeFrameToField => Sys2Proof.Machine.execOfficeFrameToField s
  | .badKindCommand => Sys2Proof.Machine.execBadKindCommand s
  | .tableOpen => Sys2Proof.Machine.execTableOpen s
  | .tableData => Sys2Proof.Machine.execTableData s
  | .tableRead => Sys2Proof.Machine.execTableRead s
  | .commit => Sys2Proof.Machine.execCommit s
  | .commitComplete => Sys2Proof.Machine.execCommitComplete s
  | .commitTimeout => Sys2Proof.Machine.execCommitTimeout s
  | .bankActivateAtRollover => Sys2Proof.Machine.execBankActivateAtRollover s
  | .bankActivateNow => Sys2Proof.Machine.execBankActivateNow s
  | .bankActivateCancel => Sys2Proof.Machine.execBankActivateCancel s
  | .time => Sys2Proof.Machine.execTime s
  | .census => Sys2Proof.Machine.execCensus s
  | .laneSetOpen => Sys2Proof.Machine.execLaneSetOpen s
  | .laneSetClose => Sys2Proof.Machine.execLaneSetClose s
  | .laneSetDeclareEmpty => Sys2Proof.Machine.execLaneSetDeclareEmpty s
  | .vehicleSetOutOfService => Sys2Proof.Machine.execVehicleSetOutOfService s
  | .vehicleSetClearOutOfService => Sys2Proof.Machine.execVehicleSetClearOutOfService s
  | .vehicleSetMarkUnlocated => Sys2Proof.Machine.execVehicleSetMarkUnlocated s
  | .vehicleSetSendToFuel => Sys2Proof.Machine.execVehicleSetSendToFuel s
  | .vehicleSetSendToWash => Sys2Proof.Machine.execVehicleSetSendToWash s
  | .dutyCancel => Sys2Proof.Machine.execDutyCancel s
  | .dutyCall => Sys2Proof.Machine.execDutyCall s
  | .stationResume => Sys2Proof.Machine.execStationResume s
  | .queryVehicle => Sys2Proof.Machine.execQueryVehicle s
  | .queryLane => Sys2Proof.Machine.execQueryLane s
  | .queryDuty => Sys2Proof.Machine.execQueryDuty s
  | .queryIsland => Sys2Proof.Machine.execQueryIsland s
  | .queryWash => Sys2Proof.Machine.execQueryWash s
  | .queryQueues => Sys2Proof.Machine.execQueryQueues s
  | .queryCalls => Sys2Proof.Machine.execQueryCalls s
  | .queryStatus => Sys2Proof.Machine.execQueryStatus s
  | .yardClear => Sys2Proof.Machine.execYardClear s
  | .fieldEgressSend => Sys2Proof.Machine.execFieldEgressSend s
  | .officeEgressSend => Sys2Proof.Machine.execOfficeEgressSend s
  | .noticeHoldExpiry => Sys2Proof.Machine.execNoticeHoldExpiry s
  | .yardSecondAdvance => Sys2Proof.Machine.execYardSecondAdvance s
  | .holdoverTimerExpiry => Sys2Proof.Machine.execHoldoverTimerExpiry s

end Sys2Proof.Machine
end

