-- ==== Sys2Proof/Safety.lean ====
section
/-! DEFINITION. What "safe" says of this part, the invariants its steps keep, and the premises and end states in which the
statements about its commands are written. -/

namespace Sys2Proof.Machine

/-! ## Bounds of the link side -/

/-- The slots reserved for replies to come: one for a commit in flight, none otherwise (R29, R152). -/
def reservedFor (k : Site) : Nat := if k.commit.isSome then 1 else 0

/-- No two queued notices are equal in kind and all optional fields (R157). -/
def noticesDistinct (l : List Notice) : Prop := l.Pairwise fun a b => sameNotice a b = false

/-- The batches that wait in office egress. -/
def batches (l : List OfficeItem) : Nat := (l.filter fun i => i.cls == .batch).length

/-- The bounds of the sending side, with `r` slots reserved (R27 to R30, R130, R157). -/
structure OutOk (r : Nat) (o : Out) : Prop where
  fieldQ : o.fieldQ.length ≤ Config.fieldEgressCap
  /-- a held frame means that no slot is free (R28) -/
  held : o.held = [] ∨ o.fieldQ.length = Config.fieldEgressCap
  slots : o.officeQ.length + o.reserved ≤ Config.officeEgressCap
  reserved : o.reserved = r
  batch : batches o.officeQ ≤ 1
  run : o.runCount ≤ Config.runLimit
  notices : o.notices.length ≤ Config.noticeCap
  distinct : noticesDistinct o.notices
  counts : ∀ n ∈ o.notices, 1 ≤ n.count ∧ n.count ≤ 255
  images : ∀ p ∈ o.images, p.2.length = Config.boardLines

/-- The invariant of the link side. -/
structure LinkOk (s : State) : Prop where
  field : s.rx.field.ingress.length ≤ Config.ingressCap
  office : s.rx.office.ingress.length ≤ Config.ingressCap
  out : OutOk (reservedFor s.site) s.out

/-! ## Tables in order -/

/-- Every table of an image has its places in rising index (R145). -/
structure ImageOk (T : Tables) : Prop where
  roster : tableWf T.roster
  classes : tableWf T.classes
  lanes : tableWf T.lanes
  loopMap : tableWf T.loopMap
  stations : tableWf T.stations
  forwarding : tableWf T.forwarding
  islands : tableWf T.islands
  washLanes : tableWf T.washLanes
  programs : tableWf T.programs
  settings : tableWf T.settings

/-- The live tables, the retained store and the image of a commit in flight have their places in rising index. -/
structure TablesOk (s : State) : Prop where
  live : ImageOk (imageOf s.desk)
  bankA : tableWf s.yard.bankA
  bankB : tableWf s.yard.bankB
  store : ∀ T, s.site.store = some T → ImageOk T
  commit : ∀ c, s.site.commit = some c → ImageOk c.image

/-! ## Bounds of the yard's collections -/

/-- A lane's lists (R44). -/
def laneOk (l : Lane) : Prop :=
  l.items.length + l.pendings.length ≤ Config.laneCap ∧ l.pendings.length ≤ Config.pendingCap

/-- The bounds of the collections that hold vehicles (R44, R45, R57, R85, R103); and between steps everything a step on
the yard made has been handed over. -/
structure YardOk (y : Yard) : Prop where
  lanes : ∀ p ∈ y.lanes, laneOk p.2
  apron : y.apron.length ≤ Config.apronCap
  departing : y.departing.length ≤ Config.departingCap
  fuelQ : y.fuelQ.length ≤ Config.queueCap
  washQ : y.washQ.length ≤ Config.queueCap
  emits : y.emits = []

/-! ## Orders -/

/-- The numbers `l`, each keyed by a first number and itself, in ascending first and then own number. -/
def InOrder (keys : List (Nat × Nat)) (l : List Nat) : Prop :=
  ∃ s : List (Nat × Nat), s.Perm keys ∧ s.Pairwise (fun a b => a.1 < b.1 ∨ a.1 = b.1 ∧ a.2 ≤ b.2) ∧ l = s.map (·.2)

/-! ## Running several commands -/

/-- The commands one after another. -/
def execAll : List Instr → State → Host.Outcome State Fault Refusal
  | [], s => .next s
  | c :: l, s =>
    match exec c s with
    | .next t => execAll l t
    | .fault f => .fault f
    | .refused r => .refused r

/-! ## Premises: the frame at the head of a queue -/

/-- The head of field ingress is a TAG_READ of the right length from a reader (R32). -/
structure TagHead (s : State) (f : Frame) (rest : List Frame) (st : Station) : Prop where
  head : s.rx.field.ingress = f :: rest
  station : stationAt s.site f.src.toNat = some st
  reader : isReader st.entry.role = true
  kind : f.kind = kindTagRead
  length : f.payload.length = 3

/-- The head of field ingress is a LOOP_STATE of the right length from a concentrator (R32). -/
structure LoopHead (s : State) (f : Frame) (rest : List Frame) (st : Station) : Prop where
  head : s.rx.field.ingress = f :: rest
  station : stationAt s.site f.src.toNat = some st
  role : st.entry.role = .loops
  kind : f.kind = kindLoopState
  length : f.payload.length = 2

/-- The head of field ingress is a report with a code from the station, in AUTO, of the loaded island n (R32, R83). -/
structure IslandHead (s : State) (f : Frame) (rest : List Frame) (st : Station) (n code : Nat) (i : Island) : Prop where
  head : s.rx.field.ingress = f :: rest
  station : stationAt s.site f.src.toNat = some st
  role : st.entry.role = .island n
  auto : st.manual = false
  loaded : tget s.yard.islands n = some i
  kind : f.kind = kindIslandReport
  length : f.payload.length = 5
  code : u8 f.payload 0 = code

/-- The head of field ingress is a report with a code from the station, in AUTO, of the loaded wash lane n (R32, R101). -/
structure WashHead (s : State) (f : Frame) (rest : List Frame) (st : Station) (n code : Nat) (l : WashLane) : Prop where
  head : s.rx.field.ingress = f :: rest
  station : stationAt s.site f.src.toNat = some st
  role : st.entry.role = .wash n
  auto : st.manual = false
  loaded : tget s.yard.washLanes n = some l
  kind : f.kind = kindWashReport
  length : f.payload.length = 4
  code : u8 f.payload 0 = code

/-- The head of office ingress is a command of a kind with a payload, and a slot is free for its reply (R29, R36). -/
structure CommandHead (s : State) (f : Frame) (rest : List Frame) (kind : Byte) (p : List Byte) : Prop where
  head : s.rx.office.ingress = f :: rest
  dest : f.dest.toNat = ownAddress s.site
  kind : f.kind = kind
  payload : f.payload = p
  slot : 0 < officeFree s.out

/-! ## End states -/

/-- The note of a processed frame that concerns a vehicle (R35). -/
def processed (fleet : Option Nat) (dir : Option Direction) : Note :=
  { fleet := fleet, direction := dir, disposition := .processed }

/-- The note of a report that its owner ignores in its present state (R35, log 23). -/
def ignored (fleet : Option Nat) : Note := { fleet := fleet, direction := none, disposition := .unprocessed }

/-- After a field frame: `k` and `y` are what its owner left, before what it owes runs (R26, R33). The annotation is made after
that, so it shows the state and duty the caused rounds left: the model's choice (log 53). -/
def afterField (s : State) (f : Frame) (rest : List Frame) (k : Site) (y : Yard) (n : Note) : State :=
  ({ s with rx.field.ingress := rest }).withDesk (forward f n (settle { out := s.out, site := k, yard := y }))

/-- The desk of a command whose reply slot is reserved (R29). -/
def reservedDesk (s : State) : Desk := { s.desk with out := reserveSlot s.out }

/-- After a command whose handler left the desk `d` and answered at once. -/
def afterCommand (s : State) (f : Frame) (rest : List Frame) (d : Desk) (r : Result) (data : List Byte) : State :=
  ({ s with rx.office.ingress := rest }).withDesk (reply f (some (r, data)) d)

/-- After a refused command: the frame is gone and the reply is made, and nothing else has changed (R41). -/
def afterRefusal (s : State) (f : Frame) (rest : List Frame) (r : Result) : State :=
  afterCommand s f rest (reservedDesk s) r []

/-- After an order on the yard that was carried out: `y` is what it left, before what it owes runs. -/
def afterOrder (s : State) (f : Frame) (rest : List Frame) (y : Yard) (r : Result) : State :=
  afterCommand s f rest (settle { reservedDesk s with yard := y }) r []

/-- After a timer of the yard: `y` is what its expiry left, before what it owes runs. -/
def afterTimer (s : State) (k : Site) (y : Yard) : State := s.withDesk (settle { out := s.out, site := k, yard := y })

/-! ## The operations the statements name -/

/-- What reading and writing a place of a table come to, for every type of entry (R145). -/
def TableOperations : Prop :=
  ∀ (α : Type) (t : Table α) (n : Nat) (v : α) (f : α → α),
    tget t n = (t.filter fun p => p.1 = n).head?.map (·.2) ∧
    tmap t f = t.map (fun p => (p.1, f p.2)) ∧
    (∀ m, tget (tset t n v) m = if m = n then some v else tget t m) ∧
    (∀ m, tget (terase t n) m = if m = n then none else tget t m) ∧
    (∀ m, tget (tmod t n f) m = if m = n then (tget t n).map f else tget t m)

/-- What the operations that read and change one record of the yard come to: a vehicle by its fleet number (R1), a duty of the
active bank by its number (R116), a pairing, a lane, an island or a wash lane by its number, and the two service flags. -/
def RecordOperations : Prop :=
  (∀ (k : Site) (y : Yard) (g d : Nat),
    let bank : Table Duty := if y.active = .a then y.bankA else y.bankB
    vehOf y g = (y.roster.filter fun p => p.2.entry.fleet = g).head?.map (·.2) ∧
    dutyOf y d = (bank.filter fun p => p.2.entry.number = d).head?.map (·.2) ∧
    stateOf y g = (vehOf y g).map (·.state) ∧
    pairedNumber y g = (vehOf y g).bind (·.duty) ∧
    pairedDuty y g = (pairedNumber y g).bind (dutyOf y) ∧
    (∀ v, vehOf y g = some v → lengthOf y g = v.entry.length) ∧
    (∀ v e, tget k.classes v.entry.cls = some e → classOf k v = e)) ∧
  (∀ (g : Nat) (change : Vehicle → Vehicle) (y : Yard),
    updVeh g change y =
      { y with roster := y.roster.map fun p => if p.2.entry.fleet = g then (p.1, change p.2) else p }) ∧
  (∀ (d : Nat) (change : Duty → Duty) (y : Yard),
    let rewritten (bank : Table Duty) : Table Duty :=
      bank.map fun p => if p.2.entry.number = d then (p.1, change p.2) else p
    (y.active = .a → updDuty d change y = { y with bankA := rewritten y.bankA }) ∧
    (y.active = .b → updDuty d change y = { y with bankB := rewritten y.bankB })) ∧
  (∀ (n : Nat) (y : Yard) (l : Lane → Lane) (i : Island → Island) (w : WashLane → WashLane),
    updLane n l y = { y with lanes := tmod y.lanes n l } ∧
    updIsland n i y = { y with islands := tmod y.islands n i } ∧
    updWash n w y = { y with washLanes := tmod y.washLanes n w }) ∧
  (∀ (g : Nat) (y : Yard),
    markFuelSkipped g y = updService g (fun v => { v with fuelSkipped := true }) y ∧
    markWashIncomplete g y = updService g (fun v => { v with washIncomplete := true }) y)

/-- What the yard is told: a change of a vehicle's state writes the state and, as its since, the present day and second (R3, R8,
R9); a notice carries exactly the fleet, the place and the duty given (R155); a report owes one duty retry round (R124); a room
event owes one retry round (R78); and a change of the call list hands the list over as it stands (R130). The present minute
is the second divided by 60. -/
def YardOperations : Prop :=
  (∀ k : Site, presentTime k = { day := k.clock.day, second := k.clock.second } ∧
    presentMinute k = k.clock.second / 60) ∧
  (∀ (k : Site) (g : Nat) (st : VehState) (y : Yard),
    setState k g st y = { y with roster := y.roster.map fun p =>
      if p.2.entry.fleet = g ∧ p.2.state ≠ st then
        (p.1, { p.2 with state := st, since := { day := k.clock.day, second := k.clock.second } })
      else p }) ∧
  (∀ (kind : NoticeKind) (fleet : Option Nat) (place : Option NoticePlace) (duty : Option Nat) (y : Yard),
    raise kind fleet place duty y = { y with emits := y.emits ++ [.notice kind fleet place duty] }) ∧
  (∀ y : Yard,
    report y = { y with todo.dutyRounds := y.todo.dutyRounds + 1 } ∧
    roomEvent y = { y with todo.roomRounds := y.todo.roomRounds + 1 } ∧
    boardsChanged y = { y with emits := y.emits ++ [.boards y.callList] })

/-! ## The shape of the tables -/

/-- The twelve tables by code (R164), each with its first index and one past its last (R145) and the bytes of its entry
(R165); the 23 settings, each with its range and the default that an empty place holds, where 0 stands for an absent apron sign
station (R154); and the codes that an entry's enumerated fields read, no other number being one (R148, R165). That a flag reads
0 and 1 alone is the model's choice (log 20). -/
def TableShapes : Prop :=
  (∀ (c : Nat) (t : TableId) (first last size : Nat),
    (c, t, first, last, size) ∈
      [(1, .roster, 0, 256, 6), (2, .classes, 0, 8, 8), (3, .lanes, 1, 25, 8), (4, .loopMap, 1, 49, 6),
       (5, .stations, 0, 64, 5), (6, .forwarding, 0, 32, 2), (7, .islands, 1, 5, 5), (8, .washLanes, 1, 3, 6),
       (9, .programs, 1, 9, 26), (10, .settings, 0, 23, 3), (11, .bankA, 0, 192, 10), (12, .bankB, 0, 192, 10)] →
    tableOf c = some t ∧ firstIndex t = first ∧ endIndex t = last ∧ entrySize t = size) ∧
  (∀ c, c < 1 ∨ 12 < c → tableOf c = none) ∧
  (∀ n lo hi standard : Nat,
    (n, lo, hi, standard) ∈
      [(0, 241, 254, 250), (1, 0, 50, 15), (2, 0, 4095, 600), (3, 0, 255, 16), (4, 0, 255, 8), (5, 0, 255, 0),
       (6, 0, 239, 0), (7, 60, 3600, 600), (8, 1, 30, 5), (9, 2, 30, 10), (10, 1, 30, 10), (11, 5, 120, 30),
       (12, 1, 15, 5), (13, 1, 10, 3), (14, 10, 255, 60), (15, 1, 15, 5), (16, 10, 120, 30), (17, 1, 60, 10),
       (18, 0, 30, 5), (19, 1, 12, 12), (20, 30, 600, 120), (21, 1, 5, 1), (22, 1, 10, 2)] →
    settingRange n = (lo, hi) ∧ settingDefault n = standard) ∧
  (∀ (k : Site) (n : Nat), setting k n = (tget k.settings n).getD (settingDefault n)) ∧
  (∀ n r, roleOf n = some r ↔ (n, r) ∈
    [(1, .gateIn), (2, .gateOut), (3, .yard), (4, .loops), (5, .sign), (6, .board), (0x11, .island 1), (0x12, .island 2),
     (0x13, .island 3), (0x14, .island 4), (0x21, .wash 1), (0x22, .wash 2)]) ∧
  (∀ n c, policyOf n = some c ↔ (n, c) ∈ [(1, .yields), (2, .guards)]) ∧
  (∀ n a, actionOf n = some a ↔ (n, a) ∈ [(1, .pass), (2, .absorb), (3, .annotate)]) ∧
  (∀ n b, debounceOf n = some b ↔ (n, b) ∈ [(0, .none), (1, .ms200), (2, .ms500), (3, .ms1000)]) ∧
  (∀ n g, stageKindOf n = some g ↔ (n, g) ∈
    [(1, .preRinse), (2, .chemical), (3, .brush), (4, .rinse), (5, .dry), (6, .underbody)]) ∧
  (∀ n b, flagOf n = some b ↔ (n, b) ∈ [(0, false), (1, true)])

/-! ## What one entry writes, table by table (R145, R148 to R150, R165) -/

/-- ROSTER (R1, R2, R148, R149): the refusals in order, the clamp of the length, creation, and the live-edit checks. A vehicle
neither ABSENT nor UNLOCATED may change its out-of-service field alone, and not even that in DEPARTING; its length is
compared after the clamp (log 46). A flag above 1 is refused (log 20), and a class above 7 as one whose place is empty (log
56). -/
def RosterWrites : Prop :=
  ∀ (n : Nat) (p : List Byte) (d : Desk),
    let run := writeEntry .roster n p d
    let present (v : Vehicle) : Prop := v.state ≠ .absent ∧ v.state ≠ .unlocated
    let removed (v : Vehicle) : Table Vehicle := terase (unpair v.entry.fleet d.yard).roster n
    let g := u16 p 1
    let e : RosterEntry :=
      { fleet := g, cls := u8 p 3, length := max 80 (min 200 (u8 p 4)), outOfService := decide (u8 p 5 = 1) }
    let clamped := decide (u8 p 4 < 80 ∨ 200 < u8 p 4)
    let fresh : Vehicle :=
      { entry := e, state := .unlocated, level := none, daysSinceWash := 255, duty := none, fuelSkipped := false,
        fuelDone := false, washIncomplete := false, washDone := false, missedCalls := 0, since := presentTime d.site }
    let bad := g < 1 ∨ 65534 < g ∨ 1 < u8 p 5
    let elsewhere := ∃ q ∈ d.yard.roster, q.1 ≠ n ∧ q.2.entry.fleet = g
    (u8 p 0 = 0 →
      (tget d.yard.roster n = none → run = .wrote d false) ∧
      (∀ v, tget d.yard.roster n = some v →
        (present v → run = .refused .inUse) ∧
        (¬present v →
          run = .wrote { d with yard := { unpair v.entry.fleet d.yard with roster := removed v } } false))) ∧
    (u8 p 0 = 1 →
      (bad → run = .refused .range) ∧
      (¬bad → tget d.site.classes e.cls = none → run = .refused .notFound) ∧
      (¬bad → tget d.site.classes e.cls ≠ none → elsewhere → run = .refused .inUse) ∧
      (¬bad → tget d.site.classes e.cls ≠ none → ¬elsewhere →
        (tget d.yard.roster n = none →
          run = .wrote { d with yard.roster := tset d.yard.roster n fresh } clamped) ∧
        (∀ v, tget d.yard.roster n = some v →
          let service (y : Yard) : Yard :=
            if e.outOfService = v.entry.outOfService then y
            else if e.outOfService then
              updVeh g (fun v => { v with entry.outOfService := true })
                (unpair g (if stateOf y g = some .called then standDown d.site g (withdrawCall g y) else y))
            else report (updVeh g (fun v => { v with entry.outOfService := false }) y)
          let held := v.entry.fleet ≠ g ∨ e.cls ≠ v.entry.cls ∨ e.length ≠ v.entry.length ∨
            (v.state = .departing ∧ e.outOfService ≠ v.entry.outOfService)
          let rewritten : Yard := updVeh g (fun v => { v with entry := e }) (service d.yard)
          (present v → held → run = .refused .inUse) ∧
          (present v → ¬held → run = .wrote { d with yard := service d.yard } clamped) ∧
          (¬present v → v.entry.fleet = g → e.cls = v.entry.cls → run = .wrote { d with yard := rewritten } clamped) ∧
          (¬present v → v.entry.fleet = g → e.cls ≠ v.entry.cls →
            run = .wrote
              { d with
                yard := updService g (fun v => { v with level := v.level.map (min (classOf d.site v).tank) }) rewritten }
              clamped) ∧
          (¬present v → v.entry.fleet ≠ g →
            run = .wrote { d with yard := { unpair v.entry.fleet d.yard with roster := tset (removed v) n fresh } }
              clamped))))

/-- CLASSES (R4, R148, R149): the clamps, the levels lowered to a smaller tank, and the removal of a class no vehicle
names. -/
def ClassWrites : Prop :=
  ∀ (n : Nat) (p : List Byte) (d : Desk),
    let run := writeEntry .classes n p d
    let named := ∃ q ∈ d.yard.roster, q.2.entry.cls = n
    let e : ClassEntry :=
      { tank := max 50 (min 900 (u16 p 1)), reserve := min 200 (u8 p 3), spareFuel := min 900 (u16 p 4),
        washInterval := min 7 (u8 p 6), washProgram := max 1 (min 8 (u8 p 7)) }
    let clamped := decide (u16 p 1 < 50 ∨ 900 < u16 p 1 ∨ 200 < u8 p 3 ∨ 900 < u16 p 4 ∨ 7 < u8 p 6 ∨ u8 p 7 < 1 ∨
      8 < u8 p 7)
    let k : Site := { d.site with classes := tset d.site.classes n e }
    let limit (y : Yard) (g : Nat) : Yard :=
      updService g (fun v => { v with level := v.level.map (min (classOf k v).tank) }) y
    let fleets := (d.yard.roster.filter fun q => q.2.entry.cls = n).map (·.2.entry.fleet)
    (u8 p 0 = 0 → named → run = .refused .inUse) ∧
    (u8 p 0 = 0 → ¬named → run = .wrote { d with site.classes := terase d.site.classes n } false) ∧
    (u8 p 0 = 1 → run = .wrote { d with site := k, yard := fleets.foldl limit d.yard } clamped)

/-- LANES (R43, R46, R78, R148, R150): the mouths' tests, the clamps and the default length; a greater capacity or a class
added to the mask makes room; a lane's old and new mouth are reset when it changes one; only an empty lane is removed. -/
def LaneWrites : Prop :=
  ∀ (n : Nat) (p : List Byte) (d : Desk),
    let run := writeEntry .lanes n p d
    let a := u8 p 5
    let b := u8 p 6
    let e : LaneEntry :=
      { capacity := max 100 (min 2500 (u16 p 1)), mask := BitVec.ofNat 8 (u8 p 3),
        unknownLength := if u8 p 4 = 0 then 180 else max 80 (min 200 (u8 p 4)),
        entryMouth := a, exitMouth := b, frontSign := optional (u8 p 7) }
    let clamped := decide (u16 p 1 < 100 ∨ 2500 < u16 p 1 ∨ (u8 p 4 ≠ 0 ∧ (u8 p 4 < 80 ∨ 200 < u8 p 4)))
    let fresh : Lane := { entry := e, status := .unverified, doubt := false, items := [], pendings := [] }
    let bad := a < 1 ∨ 48 < a ∨ b < 1 ∨ 48 < b
    let taken := a = b ∨ ∃ q ∈ d.yard.lanes, q.1 ≠ n ∧
      (q.2.entry.entryMouth = a ∨ q.2.entry.exitMouth = a ∨ q.2.entry.entryMouth = b ∨ q.2.entry.exitMouth = b)
    (u8 p 0 = 0 →
      (tget d.yard.lanes n = none → run = .wrote d false) ∧
      (∀ l, tget d.yard.lanes n = some l →
        (l.items ≠ [] ∨ l.pendings ≠ [] → run = .refused .inUse) ∧
        (l.items = [] → l.pendings = [] → run = .wrote { d with yard.lanes := terase d.yard.lanes n } false))) ∧
    (u8 p 0 = 1 →
      (bad → run = .refused .range) ∧
      (¬bad → taken → run = .refused .inUse) ∧
      (¬bad → ¬taken →
        (tget d.yard.lanes n = none →
          run = .wrote { d with yard.lanes := tset d.yard.lanes n fresh } clamped) ∧
        (∀ l, tget d.yard.lanes n = some l →
          let changed : List Nat := (if l.entry.entryMouth = a then [] else [l.entry.entryMouth, a]) ++
            (if l.entry.exitMouth = b then [] else [l.entry.exitMouth, b])
          let k : Site := { d.site with
            mouths := d.site.mouths.map fun q => if q.1 ∈ changed then (q.1, resetMouth q.2.entry) else q }
          let y : Yard := { d.yard with lanes := tset d.yard.lanes n { l with entry := e } }
          let room := l.entry.capacity < e.capacity ∨ ∃ c, inMask e.mask c = true ∧ inMask l.entry.mask c = false
          (room → run = .wrote { d with site := k, yard := roomEvent y } clamped) ∧
          (¬room → run = .wrote { d with site := k, yard := y } clamped))))

/-- LOOP MAP (R46, R49, R148): the tests of the concentrators' stations and of their number; the written mouth is reset; a
concentrator the map newly names starts out of silence with its timer, and one it names no longer has none (log 29). -/
def LoopWrites : Prop :=
  (∀ (n : Nat) (p : List Byte) (d : Desk),
    let run := writeEntry .loopMap n p d
    let loops (a : Nat) : Prop := ∃ st, stationAt d.site a = some st ∧ st.entry.role = .loops
    let sync (mouths : Table Mouth) : Site := syncConcentrators d.site.mouths { d.site with mouths := mouths }
    (u8 p 0 = 0 → run = .wrote { d with site := sync (terase d.site.mouths n) } false) ∧
    (u8 p 0 = 1 → 3 < u8 p 5 → run = .refused .range) ∧
    (u8 p 0 = 1 → ∀ t, debounceOf (u8 p 5) = some t →
      let e : LoopEntry := { stationA := u8 p 1, indexA := min 15 (u8 p 2), stationB := u8 p 3, indexB := min 15 (u8 p 4),
                             debounce := t }
      let mouths := tset d.site.mouths n
        { entry := e, accepted := .clear, candidate := none, stuck := none, tracker := .idle }
      let named := mouths.flatMap fun q => [q.2.entry.stationA, q.2.entry.stationB]
      (¬loops e.stationA ∨ ¬loops e.stationB → run = .refused .notFound) ∧
      (loops e.stationA → loops e.stationB →
        ((∃ l : List Nat, l.Nodup ∧ l.length = 9 ∧ ∀ a ∈ l, a ∈ named) → run = .refused .inUse) ∧
        ((∃ l : List Nat, l.length ≤ 8 ∧ ∀ a ∈ named, a ∈ l) →
          run = .wrote { d with site := sync mouths } (decide (15 < u8 p 2 ∨ 15 < u8 p 4)))))) ∧
  (∀ (before : Table Mouth) (k : Site),
    let z := syncConcentrators before k
    z = { k with concentrators := z.concentrators } ∧
    ∀ a,
      (namedIn k.mouths a = true → namedIn before a = true → tget z.concentrators a = tget k.concentrators a) ∧
      (namedIn k.mouths a = true → namedIn before a = false →
        tget z.concentrators a =
          some { loops := loopsOf k a, timer := some (k.now + setting k 8 * 100), silent := false }) ∧
      (namedIn k.mouths a = false →
        tget z.concentrators a = (tget k.concentrators a).map fun c => { c with timer := none, silent := false }))

/-- STATIONS (R31, R59, R87, R105, R130, R150): the refusals in order; a record in MANUAL, one whose island or wash lane holds
a vehicle, and a concentrator the loop map names stay; a reader's tag memory goes with its role; an island's or wash lane's
new record calls, and a board's change brings the boards up to date. -/
def StationWrites : Prop :=
  ∀ (n : Nat) (p : List Byte) (d : Desk),
    let run := writeEntry .stations n p d
    let keeps (s : Station) : Prop :=
      (controllable s.entry.role = true ∧ s.manual = true) ∨
      (∃ m i, s.entry.role = .island m ∧ tget d.yard.islands m = some i ∧ i.vehicle ≠ none) ∨
      ∃ m l, s.entry.role = .wash m ∧ tget d.yard.washLanes m = some l ∧ l.vehicle ≠ none
    let stays (s : Station) : Prop := keeps s ∨ (s.entry.role = .loops ∧ namedIn d.site.mouths s.entry.address = true)
    let boards (r : Role) (y : Yard) : Yard :=
      if r = .board ∨ (tget d.site.stations n).map (·.entry.role) = some .board then boardsChanged y else y
    let calls (k : Site) (r : Role) (y : Yard) : Yard := match r with
      | .island _ => fuelCalls k y
      | .wash _ => washCalls k y
      | _ => y
    (u8 p 0 = 0 →
      (tget d.site.stations n = none → run = .wrote d false) ∧
      (∀ s, tget d.site.stations n = some s →
        (stays s → run = .refused .inUse) ∧
        (¬stays s →
          run = .wrote
            { d with
              site.stations := terase d.site.stations n
              site.tagMemory := terase d.site.tagMemory s.entry.address
              yard := if s.entry.role = .board then boardsChanged d.yard else d.yard } false))) ∧
    (u8 p 0 = 1 →
      let a := u8 p 1
      (roleOf (u8 p 2) = none ∨ policyOf (u8 p 4) = none → run = .refused .range) ∧
      (∀ role policy, roleOf (u8 p 2) = some role → policyOf (u8 p 4) = some policy →
        let e : StationEntry := { address := a, role := role, sign := optional (u8 p 3), policy := policy }
        let others := d.site.stations.filter fun q => q.1 ≠ n
        let bad := a < 1 ∨ 239 < a
        let taken := (∃ q ∈ others, q.2.entry.address = a) ∨
          (∃ q ∈ others, q.2.entry.role = role ∧ ((∃ m, role = .island m) ∨ ∃ m, role = .wash m)) ∨
          (role = .board ∧ 4 ≤ (others.filter fun q => q.2.entry.role = .board).length)
        let ends (s : Station) (memory : Table TagRecord) : Prop :=
          let k : Site := { d.site with stations := tset d.site.stations n s, tagMemory := memory }
          run = .wrote { d with site := k, yard := calls k role (boards role d.yard) } false
        let kept := if isReader role = true then d.site.tagMemory else terase d.site.tagMemory a
        (bad → run = .refused .range) ∧
        (¬bad → taken → run = .refused .inUse) ∧
        (¬bad → ¬taken →
          (tget d.site.stations n = none → ends { entry := e, manual := false } kept) ∧
          (∀ s, tget d.site.stations n = some s →
            (s.entry.address = a → s.entry.role = role ∨ ¬keeps s → ends { s with entry := e } kept) ∧
            (s.entry.address = a → s.entry.role ≠ role → keeps s → run = .refused .inUse) ∧
            (s.entry.address ≠ a → stays s → run = .refused .inUse) ∧
            (s.entry.address ≠ a → ¬stays s →
              ends { entry := e, manual := false } (terase d.site.tagMemory s.entry.address))))))

/-- FORWARDING and WASH PROGRAMS (R33, R100, R148): an undefined action, stage kind or flag and a stage count outside 1..6 are
refused; the stage times are clamped; an empty entry empties its place. -/
def ForwardingAndProgramWrites : Prop :=
  ∀ (n : Nat) (p : List Byte) (d : Desk),
    (u8 p 0 = 0 →
      writeEntry .forwarding n p d = .wrote { d with site.forwarding := terase d.site.forwarding n } false ∧
      writeEntry .programs n p d = .wrote { d with site.programs := terase d.site.programs n } false) ∧
    (u8 p 0 = 1 →
      (actionOf (u8 p 1) = none → writeEntry .forwarding n p d = .refused .range) ∧
      (∀ a, actionOf (u8 p 1) = some a →
        writeEntry .forwarding n p d = .wrote { d with site.forwarding := tset d.site.forwarding n a } false) ∧
      (u8 p 1 < 1 ∨ 6 < u8 p 1 → writeEntry .programs n p d = .refused .range) ∧
      ((∃ i < u8 p 1, stageKindOf (u8 p (2 + 4 * i)) = none ∨ 1 < u8 p (5 + 4 * i)) →
        writeEntry .programs n p d = .refused .range) ∧
      (∀ l : List Stage, 1 ≤ u8 p 1 → u8 p 1 ≤ 6 → l.length = u8 p 1 →
        (∀ i < u8 p 1, ∃ kind, stageKindOf (u8 p (2 + 4 * i)) = some kind ∧ u8 p (5 + 4 * i) ≤ 1 ∧
          l[i]? = some
            { kind := kind, base := max 1 (min 600 (u16 p (3 + 4 * i))), scales := decide (u8 p (5 + 4 * i) = 1) }) →
        writeEntry .programs n p d = .wrote { d with site.programs := tset d.site.programs n l }
          (decide (∃ i < u8 p 1, u16 p (3 + 4 * i) < 1 ∨ 600 < u16 p (3 + 4 * i)))))

/-- ISLANDS (R83, R87, R99, R148, R150): the clamp of the meter factor; a new island calls; a rewrite is followed by the
test of the queue, in which a vehicle no island accepts is routed on fuel-skipped. Held closed closes an IDLE island at once
and any other at the end of its turn (log 28); an island with a vehicle is not removed. -/
def IslandWrites : Prop :=
  (∀ (n : Nat) (p : List Byte) (d : Desk),
    let run := writeEntry .islands n p d
    let e : IslandEntry :=
      { mask := BitVec.ofNat 8 (u8 p 1), meter := max 1 (min 72 (u8 p 2)), sign := optional (u8 p 3),
        heldClosed := decide (u8 p 4 = 1) }
    let clamped := decide (u8 p 2 < 1 ∨ 72 < u8 p 2)
    let written (i : Island) : Yard := { d.yard with islands := tset d.yard.islands n i }
    (u8 p 0 = 0 →
      (tget d.yard.islands n = none → run = .wrote d false) ∧
      (∀ i, tget d.yard.islands n = some i →
        (i.vehicle ≠ none → run = .refused .inUse) ∧
        (i.vehicle = none →
          run = .wrote { d with yard := retestFuel d.site { d.yard with islands := terase d.yard.islands n } } false))) ∧
    (u8 p 0 = 1 → 1 < u8 p 4 → run = .refused .range) ∧
    (u8 p 0 = 1 → u8 p 4 ≤ 1 →
      (tget d.yard.islands n = none →
        run = .wrote
          { d with yard := fuelCalls d.site (written
              { entry := e, state := if e.heldClosed then .closed else .idle, vehicle := none, turnFactor := e.meter,
                limit := 0, lastCount := 0, stopSent := false, timer := none, closeAtEnd := false }) } clamped) ∧
      (∀ i, tget d.yard.islands n = some i →
        let ends (j : Island) : Prop := run = .wrote { d with yard := retestFuel d.site (written j) } clamped
        (e.heldClosed = i.entry.heldClosed → ends { i with entry := e }) ∧
        (e.heldClosed = false → i.entry.heldClosed = true → ends { i with entry := e, closeAtEnd := false }) ∧
        (e.heldClosed = true → i.entry.heldClosed = false →
          (i.state = .idle → ends { i with entry := e, state := .closed }) ∧
          (i.state = .closed ∨ i.state = .manual → ends { i with entry := e }) ∧
          (i.state ≠ .idle → i.state ≠ .closed → i.state ≠ .manual →
            ends { i with entry := e, closeAtEnd := true }))))) ∧
  (∀ (k : Site) (y : Yard) (turn : Yard → Nat → Yard),
    (∀ z g,
      let accepted := g ∉ z.fuelQ ∨ ∃ q ∈ z.islands, islandAccepts z q.2 g = true
      let out : Yard := markFuelSkipped g { z with fuelQ := without z.fuelQ g }
      (accepted → turn z g = z) ∧
      (¬accepted → turn z g = (route k none g (raise .fuelSkipped (some g) none (pairedNumber
        { z with fuelQ := without z.fuelQ g } g) out)).1)) →
    retestFuel k y = fuelCalls k (y.fuelQ.foldl turn y))

/-- WASH LANES (R101, R105, R114, R148, R150): the clamps and the default reference length; a rewrite of the class mask or the
max length is followed by the test of the queue, in which a vehicle no lane accepts is routed on wash-incomplete, and any
other entry by the calling rule. Held closed closes an IDLE lane at once; a lane with a vehicle is not removed. -/
def WashLaneWrites : Prop :=
  (∀ (n : Nat) (p : List Byte) (d : Desk),
    let run := writeEntry .washLanes n p d
    let e : WashLaneEntry :=
      { mask := BitVec.ofNat 8 (u8 p 1), maxLength := max 80 (min 200 (u8 p 2)),
        lref := if u8 p 3 = 0 then 120 else max 60 (min 200 (u8 p 3)), sign := optional (u8 p 4),
        heldClosed := decide (u8 p 5 = 1) }
    let clamped := decide (u8 p 2 < 80 ∨ 200 < u8 p 2 ∨ (u8 p 3 ≠ 0 ∧ (u8 p 3 < 60 ∨ 200 < u8 p 3)))
    let written (l : WashLane) : Yard := { d.yard with washLanes := tset d.yard.washLanes n l }
    (u8 p 0 = 0 →
      (tget d.yard.washLanes n = none → run = .wrote d false) ∧
      (∀ l, tget d.yard.washLanes n = some l →
        (l.vehicle ≠ none → run = .refused .inUse) ∧
        (l.vehicle = none →
          run = .wrote { d with yard := retestWash d.site { d.yard with washLanes := terase d.yard.washLanes n } }
            false))) ∧
    (u8 p 0 = 1 → 1 < u8 p 5 → run = .refused .range) ∧
    (u8 p 0 = 1 → u8 p 5 ≤ 1 →
      (tget d.yard.washLanes n = none →
        run = .wrote
          { d with yard := washCalls d.site (written
              { entry := e, state := if e.heldClosed then .closed else .idle, stageIndex := none, vehicle := none,
                plan := [], timer := none }) } clamped) ∧
      (∀ l m, tget d.yard.washLanes n = some l →
        (m = { l with entry := e, state := .closed } ∧ e.heldClosed = true ∧ l.entry.heldClosed = false ∧
            l.state = .idle) ∨
          (m = { l with entry := e } ∧ ¬(e.heldClosed = true ∧ l.entry.heldClosed = false ∧ l.state = .idle)) →
        let same := l.entry.mask = e.mask ∧ l.entry.maxLength = e.maxLength
        (same → run = .wrote { d with yard := washCalls d.site (written m) } clamped) ∧
        (¬same → run = .wrote { d with yard := retestWash d.site (written m) } clamped)))) ∧
  (∀ (k : Site) (y : Yard) (turn : Yard → Nat → Yard),
    (∀ z g,
      let accepted := g ∉ z.washQ ∨ ∃ q ∈ z.washLanes, washAccepts z q.2 g = true
      let out : Yard := markWashIncomplete g { z with washQ := without z.washQ g }
      (accepted → turn z g = z) ∧
      (¬accepted → turn z g = (route k none g (raise .washSkipped (some g) none (pairedNumber
        { z with washQ := without z.washQ g } g) out)).1)) →
    retestWash k y = washCalls k (y.washQ.foldl turn y))

/-- SETTINGS (R66, R78, R130, R133, R141, R148, R154, R158): an apron sign above 239 is refused; any other value is written as
the nearest limit of its range; an empty entry restores the default. A changed gap or tolerance makes room, a changed lead or
grace reconsiders the duties, a changed board size brings the boards up to date, and a changed holdover limit may end LOCKED;
a write of the batch settings is followed by the test of R158. -/
def SettingWrites : Prop :=
  ∀ (n : Nat) (p : List Byte) (d : Desk),
    let run := writeEntry .settings n p d
    let lo := (settingRange n).1
    let hi := (settingRange n).2
    let written (v : Option Nat) : Site := { d.site with settings := match v with
      | some v => tset d.site.settings n v
      | none => terase d.site.settings n }
    (u8 p 0 = 1 → n = 6 → 239 < u16 p 1 → run = .refused .range) ∧
    (∀ v c, (u8 p 0 = 0 ∧ v = none ∧ c = false) ∨
        (u8 p 0 = 1 ∧ ¬(n = 6 ∧ 239 < u16 p 1) ∧ v = some (max lo (min hi (u16 p 1))) ∧
          c = decide (u16 p 1 < lo ∨ hi < u16 p 1)) →
      lo ≤ hi →
      let k := written v
      let w : Desk := { d with site := k }
      let changed := setting d.site n ≠ setting k n
      (n ≤ 22 → v = none → setting k n = settingDefault n) ∧
      (∀ u, v = some u → setting k n = u) ∧
      (n ∉ [1, 5, 17, 18, 19, 20, 21, 22] ∨ (¬changed ∧ n ≠ 21 ∧ n ≠ 22) → run = .wrote w c) ∧
      (n = 1 ∨ n = 5 → changed → run = .wrote { w with yard := roomEvent d.yard } c) ∧
      (n = 17 ∨ n = 18 → changed → run = .wrote { w with yard := reconsiderDuties d.site k d.yard } c) ∧
      (n = 19 → changed → run = .wrote { w with yard := boardsChanged d.yard } c) ∧
      (n = 20 → changed →
        let due := k.clock.state = .locked ∧ ∃ t, k.clock.holdover = some t ∧ t + setting k 20 * 100 ≤ k.now
        let h : Site := { k with clock := { k.clock with state := .holdover } }
        (due → run = .wrote { w with site := h, out := offerNotice h .clockHoldover none none none d.out } c) ∧
        (¬due → run = .wrote w c)) ∧
      (n = 21 ∨ n = 22 → run = .wrote { w with out := tryBatch k d.out } c))

/-- DUTY BANKS (R116, R133, R148, R150): the refusals in order and the clamps; a duty of the active bank that is CALLED,
DEPARTED or CANCELLED stays; a removed one leaves its vehicle a spare; one written to the active bank is evaluated when it is
due, goes back to OPEN when it is not, and is then marked late when its late minute changed and has passed (log 45), with a
DUTY_LATE without fields, since R133 names none (R155). -/
def DutyWrites : Prop :=
  (∀ (bk : Bank) (n : Nat) (p : List Byte) (d : Desk),
    let run := writeEntry (match bk with
      | .a => .bankA
      | .b => .bankB) n p d
    let bank := bankOf d.yard bk
    let free (r : Duty) : Yard := match r.vehicle with
      | some g => if bk = d.yard.active then unpairRecords g d.yard else d.yard
      | none => d.yard
    let removed (r : Duty) : Yard := setBank bk (terase (bankOf (free r) bk) n) (free r)
    let fixed (r : Duty) : Prop :=
      bk = d.yard.active ∧ (r.state = .called ∨ r.state = .departed ∨ r.state = .cancelled)
    let g := u16 p 1
    let e : DutyEntry :=
      { number := g, mask := BitVec.ofNat 8 (u8 p 3), departure := min 1439 (u16 p 4), fuel := min 900 (u16 p 6),
        wash := decide (u8 p 8 = 1), lead := if u8 p 9 = 0 then none else some (min 60 (u8 p 9)) }
    let clamped := decide (1439 < u16 p 4 ∨ 900 < u16 p 6 ∨ 60 < u8 p 9)
    let fresh : Duty :=
      { entry := e, state := .opened, reason := none, vehicle := none,
        marks := { late := false, early := false, unconfirmed := false, swapped := false }, callTime := none }
    let bad := g < 1 ∨ 9999 < g ∨ 1 < u8 p 8
    let elsewhere := ∃ q ∈ bank, q.1 ≠ n ∧ q.2.entry.number = g
    let ends (r : Duty) (late : Bool) (y : Yard) : Prop :=
      let z := setBank bk (tset (bankOf y bk) n r) y
      run = .wrote { d with yard := if bk = d.yard.active then dutyWritten d.site g late z else z } clamped
    (u8 p 0 = 0 →
      (tget bank n = none → run = .wrote d false) ∧
      (∀ r, tget bank n = some r →
        (fixed r → run = .refused .inUse) ∧ (¬fixed r → run = .wrote { d with yard := removed r } false))) ∧
    (u8 p 0 = 1 →
      (bad → run = .refused .range) ∧
      (¬bad → elsewhere → run = .refused .inUse) ∧
      (¬bad → ¬elsewhere →
        (tget bank n = none → ends fresh true d.yard) ∧
        (∀ r, tget bank n = some r →
          (fixed r → run = .refused .inUse) ∧
          (¬fixed r → r.entry.number = g →
            ends { r with entry := e } (decide (lateMinute d.site e ≠ lateMinute d.site r.entry)) d.yard) ∧
          (¬fixed r → r.entry.number ≠ g → ends fresh true (removed r)))))) ∧
  (∀ (k : Site) (d : Nat) (late : Bool) (y : Yard) (r : Duty), dutyOf y d = some r →
    let due := dueMinute k r.entry ≤ presentMinute k
    let marked (z : Yard) : Yard := if late then lateAfterWrite k d z else z
    let run := dutyWritten k d late y
    (k.clock.state = .free → run = y) ∧
    (k.clock.state ≠ .free → due → run = marked (drain k (evaluate k false d y))) ∧
    (k.clock.state ≠ .free → ¬due → r.state = .held ∨ r.state = .blocked →
      run = marked (updDuty d (fun r => { r with state := .opened, reason := none }) y)) ∧
    (k.clock.state ≠ .free → ¬due → r.state ≠ .held → r.state ≠ .blocked → run = marked y)) ∧
  (∀ (k : Site) (d : Nat) (y : Yard) (r : Duty), dutyOf y d = some r →
    let late := (r.state = .opened ∨ r.state = .held ∨ r.state = .blocked) ∧ r.marks.late = false ∧
      lateMinute k r.entry ≤ presentMinute k
    (late → lateAfterWrite k d y = raise .dutyLate none none none
      (updDuty d (fun r => { r with marks := { r.marks with late := true } }) y)) ∧
    (¬late → lateAfterWrite k d y = y)) ∧
  (∀ (before k : Site) (y : Yard) (turn : Yard → Nat → Yard),
    (∀ z d, dutyOf z d = none → turn z d = z) →
    (∀ z d r, dutyOf z d = some r →
      let m := presentMinute k
      let due := m < dueMinute before r.entry ∧ dueMinute k r.entry ≤ m
      let marked (w : Yard) : Yard := if m < lateMinute before r.entry then lateAfterWrite k d w else w
      (due → turn z d = marked (drain k (evaluate k false d z))) ∧ (¬due → turn z d = marked z)) →
    (k.clock.state = .free → reconsiderDuties before k y = y) ∧
    (k.clock.state ≠ .free → reconsiderDuties before k y = (dutyOrder y).foldl turn y))

/-! ## Layouts of replies, table entries and notices (R162 to R165) -/

/-- Numbers as they are sent, each with its width in bytes: high byte first (R162). -/
def sent (fields : List (Nat × Nat)) : List Byte :=
  fields.flatMap fun p => (List.range p.1).map fun i => BitVec.ofNat 8 (p.2 / 256 ^ (p.1 - 1 - i))

/-- The fields of a duty entry after its header (R165). -/
def dutyFields (e : DutyEntry) : List (Nat × Nat) :=
  [(2, e.number), (1, e.mask.toNat), (2, e.departure), (2, e.fuel), (1, if e.wash then 1 else 0), (1, e.lead.getD 0)]

/-- The four bytes of a place of a lane list, counted from 0: its fleet number, its length, and the whole minutes since it
entered, up to 255; zeros beyond the list (R164). An entry time later than now has a free age (log 17). -/
def placeFields (n : Nat) (k : Site) (l : Lane) (i : Nat) : List (Nat × Nat) :=
  let now := k.clock.day * 86400 + k.clock.second
  match l.items[i]? with
  | none => [(4, 0)]
  | some e =>
    let t := e.entered.day * 86400 + e.entered.second
    [(2, e.vehicle.getD 0), (1, e.length),
     (1, if now < t then (Config.openByte n (.entryAge (i + 1))).toNat else min 255 ((now - t) / 60))]

/-- The eight bytes of a board line (R163); the bits 2 to 6 of the stand byte, which no field names, are 0 (log 18). -/
def boardLineFields (b : BoardLine) : List (Nat × Nat) :=
  let stand : Nat × Nat := match b.stand with
    | .lane n => (1, n)
    | .apron => (2, 0)
    | .exit => (3, 0)
  [(2, b.duty), (2, b.fleet), (2, b.departure), (1, stand.1 + bit b.verify 7), (1, stand.2)]

/-- The eight bytes of a BOARD_LINE after its line number: an empty line carries 0 in every field (R163). -/
def imageLineFields : ImageLine → List (Nat × Nat)
  | .line b => boardLineFields b
  | .empty => [(8, 0)]
  | .unsent => [(8, 0)]

/-- The eleven results with their codes (R164), and the REPLY: to the address the command came from, from the address it was sent
to (R36, R40), carrying the command's kind, the result code and the data of a query (R164). It takes the slot its command
reserved, at the end of office egress (R29). -/
def ReplyLayout : Prop :=
  ∀ (result : Result) (code : Byte),
    (result, code) ∈
      [(.ok, 0x00), (.okClamped, 0x01), (.busy, 0x02), (.range, 0x10), (.notFound, 0x11), (.inUse, 0x12),
       (.state, 0x13), (.tableEnd, 0x14), (.noCursor, 0x15), (.badLength, 0x16), (.badKind, 0x17)] →
    (∀ (asker own kind : Byte) (data : List Byte), replyFrame asker own kind result data =
      { dest := asker, src := own, kind := 0x60, payload := kind :: code :: data }) ∧
    (∀ (f : Frame) (o : Out), putReply f o =
      { o with reserved := o.reserved - 1, officeQ := o.officeQ ++ [{ cls := .reply, frame := f }] }) ∧
    (∀ (f : Frame) (data : List Byte) (d : Desk), reply f (some (result, data)) d = { d with out := { d.out with
      reserved := d.out.reserved - 1
      officeQ := d.out.officeQ ++
        [{ cls := .reply, frame := { dest := f.src, src := f.dest, kind := 0x60, payload := f.kind :: code :: data } }] } })

/-- The codes of states, reasons, roles, policies, actions, debounce times and stage kinds (R163 to R165). -/
def SentCodes : Prop :=
  (∀ p ∈ [(VehState.absent, 1), (.unlocated, 2), (.fuelWait, 3), (.fuelling, 4), (.washWait, 5), (.washing, 6),
      (.stowPending, 7), (.stowWait, 8), (.apron, 9), (.parked, 10), (.called, 11), (.departing, 12)],
    vehStateCode p.1 = p.2) ∧
  (∀ p ∈ [(IslandState.closed, 0), (.idle, 1), (.called, 2), (.authorized, 3), (.dispensing, 4), (.ending, 5),
      (.manual, 6)], islandStateCode p.1 = p.2) ∧
  (∀ p ∈ [(WashState.closed, 0), (.idle, 1), (.called, 2), (.running, 3), (.draining, 4), (.fault, 5), (.manual, 6)],
    washStateCode p.1 = p.2) ∧
  (∀ p ∈ [(DutyState.opened, 0), (.held, 1), (.blocked, 2), (.called, 3), (.departed, 4), (.cancelled, 5)],
    dutyStateCode p.1 = p.2) ∧
  (∀ p ∈ [(none, 0), (some BlockedReason.buried, 1), (some .notReady, 2), (some .noVehicle, 3)],
    blockedCode p.1 = p.2) ∧
  (∀ p ∈ [(LaneStatus.opened, 1), (.closed, 2), (.unverified, 3)], laneStatusCode p.1 = p.2) ∧
  (∀ p ∈ [(Role.gateIn, 1), (.gateOut, 2), (.yard, 3), (.loops, 4), (.sign, 5), (.board, 6)], roleCode p.1 = p.2) ∧
  (∀ n, roleCode (.island n) = 16 + n ∧ roleCode (.wash n) = 32 + n) ∧
  policyCode .yields = 1 ∧ policyCode .guards = 2 ∧
  actionCode .pass = 1 ∧ actionCode .absorb = 2 ∧ actionCode .annotate = 3 ∧
  debounceCode .none = 0 ∧ debounceCode .ms200 = 1 ∧ debounceCode .ms500 = 2 ∧ debounceCode .ms1000 = 3 ∧
  (∀ p ∈ [(StageKind.preRinse, 1), (.chemical, 2), (.brush, 3), (.rinse, 4), (.dry, 5), (.underbody, 6)],
    stageKindCode p.1 = p.2)

/-- The entries of a notice batch, one after another, each field by field in line order, with the codes of the kinds, the
severities and the places (R156, R165). The place number of a notice without a place is a free value (log 17); bit 1 of the
descriptor and bits 3 to 7 of a port's place number, which no field names, are 0 (log 18). -/
def NoticeLayout : Prop :=
  (∀ (c i : Nat) (n : Notice) (l : List Notice),
    batchBytes c i [] = [] ∧ batchBytes c i (n :: l) = noticeBytes c i n ++ batchBytes c (i + 1) l) ∧
  ∀ (c i : Nat) (n : Notice) (code level place number : Nat),
    (n.kind, code, level) ∈
      [(.unknownVehicle, 1, 1), (.relocated, 2, 1), (.fuelSkipped, 3, 1), (.fuelTurnMissed, 4, 1), (.flowStall, 5, 1),
       (.wrongVehicle, 6, 0), (.islandFault, 7, 2), (.washSkipped, 8, 0), (.washFault, 9, 2), (.stowMissed, 10, 1),
       (.unexpectedEntry, 11, 1), (.laneUnderrun, 12, 1), (.laneOverflow, 13, 2), (.mouthFault, 14, 1),
       (.loopStuck, 15, 2), (.stationSilent, 16, 2), (.custodyMismatch, 17, 2), (.transitTimeout, 18, 1),
       (.yardFull, 19, 2), (.swap, 20, 0), (.dutyBlocked, 21, 2), (.dutyLate, 22, 1), (.callOverdue, 23, 1),
       (.callWithdrawn, 24, 0), (.unplannedDeparture, 25, 1), (.controlConflict, 26, 1), (.stationYielded, 27, 0),
       (.linkError, 28, 1), (.linkOverrun, 29, 2), (.egressFull, 30, 1), (.clockHoldover, 31, 2), (.clockLocked, 32, 0),
       (.dayRollover, 33, 0), (.commitFailed, 34, 2), (.tablesLost, 35, 2)] →
    ((n.place = none ∧ place = 0 ∧ number = (Config.openByte c (.noticePlace i)).toNat) ∨
      (n.place = some (.lane number) ∧ place = 1) ∨ (n.place = some (.island number) ∧ place = 2) ∨
      (n.place = some (.washLane number) ∧ place = 3) ∨ (n.place = some (.station number) ∧ place = 4) ∨
      (n.place = some (.mouth number) ∧ place = 5) ∨
      ∃ port reason r, n.place = some (.port port reason) ∧ place = 6 ∧
        (reason, r) ∈ [(none, 0), (some .crc, 1), (some .length, 2), (some .gap, 3)] ∧
        number = if port = .office then 4 + r else r) →
    noticeBytes c i n = sent
      [(1, code), (1, level * 64 + place * 8 + bit n.fleet.isSome 2 + n.second / 65536 % 2), (1, number),
       (2, n.fleet.getD 0), (2, n.duty.getD 0), (2, n.second), (1, n.count)]

/-- The data of the QUERY replies, field by field in line order (R163, R164); a free value where no value is stated (logs 17,
37), and 0 in a bit no field names (log 18). -/
def QueryLayouts : Prop :=
  (∀ (n : Nat) (y : Yard) (v : Vehicle),
    let number := (Config.openByte n .placeNumber).toNat
    let position := (Config.openByte n .placePosition).toNat
    let place : List (Nat × Nat) := match placeOf y v.entry.fleet with
      | none => [(1, 0), (1, number), (1, position)]
      | some (.lane l p) => [(1, 1), (1, l), (1, p)]
      | some (.pendingLane l) => [(1, 2), (1, l), (1, position)]
      | some (.island i) => [(1, 3), (1, i), (1, position)]
      | some (.washLane w) => [(1, 4), (1, w), (1, position)]
      | some (.apron p) => [(1, 5), (1, number), (1, p)]
      | some .departing => [(1, 6), (1, number), (1, position)]
      | some .fuelQueue => [(1, 7), (1, number), (1, position)]
      | some .washQueue => [(1, 8), (1, number), (1, position)]
    vehicleBytes n y v = sent
      ([(2, v.entry.fleet), (1, v.entry.cls), (1, v.entry.length),
        (1, bit v.entry.outOfService 0 + bit v.fuelSkipped 1 + bit v.fuelDone 2 + bit v.washIncomplete 3 +
          bit v.washDone 4),
        (1, vehStateCode v.state)] ++ place ++
       [(2, v.level.getD 65535), (1, v.daysSinceWash), (2, v.duty.getD 0), (1, v.missedCalls), (2, v.since.day),
        (3, v.since.second)])) ∧
  (∀ (n : Nat) (k : Site) (y : Yard) (l : Lane),
    let used := occupied k y l
    lanePart1 n k y l = sent
      ([(2, l.entry.capacity), (1, l.entry.mask.toNat), (1, l.entry.unknownLength), (1, l.entry.entryMouth),
        (1, l.entry.exitMouth), (1, l.entry.frontSign.getD 0),
        (1, laneStatusCode l.status + bit l.doubt 2 + l.pendings.length * 8), (1, l.items.length), (2, used),
        (2, (BitVec.ofInt 16 ((l.entry.capacity : Int) - used)).toNat)] ++
       ((List.range 4).map fun i => (2, (l.pendings[i]?.map (·.fleet)).getD 0)) ++
       (List.range 8).flatMap (placeFields n k l)) ∧
    lanePart2 n k l = sent ((1, l.items.length) :: (List.range 8).flatMap fun i => placeFields n k l (8 + i))) ∧
  (∀ (n : Nat) (k : Site) (r : Duty),
    let time : List (Nat × Nat) := match r.callTime with
      | some t => [(2, t.day), (3, t.second)]
      | none => (List.range 5).map fun i => (1, (Config.openByte n (.callTime i)).toNat)
    dutyBytes n k r = sent
      (dutyFields r.entry ++
       [(1, dutyStateCode r.state), (1, blockedCode r.reason), (2, r.vehicle.getD 0),
        (1, bit r.marks.late 0 + bit r.marks.early 1 + bit r.marks.unconfirmed 2 + bit r.marks.swapped 3)] ++ time ++
       [(2, dueMinute k r.entry), (2, lateMinute k r.entry)])) ∧
  (∀ (k : Site) (n : Nat) (i : Island),
    let manual := ((stationOfRole k (.island n)).map (·.manual)).getD false
    islandBytes k n i = sent
      [(1, islandStateCode i.state), (2, i.vehicle.getD 0), (1, i.turnFactor), (2, i.limit), (2, i.lastCount),
       (1, bit i.stopSent 0 + bit manual 1)]) ∧
  (∀ (n : Nat) (k : Site) (w : Nat) (l : WashLane),
    let index := match l.stageIndex with
      | some i => i
      | none => (Config.openByte n .stageIndex).toNat
    let mode := match stationOfRole k (.wash w) with
      | some s => if s.manual then 1 else 0
      | none => 2
    washBytes n k w l = sent
      ([(1, washStateCode l.state), (1, index), (2, l.vehicle.getD 0), (1, l.plan.length)] ++
       ((List.range 6).map fun i => (2, (l.plan[i]?.map (·.time)).getD 0)) ++
       [(1, (Config.openByte n (.controlMode mode)).toNat)])) ∧
  (∀ (l : List BoardLine) (first : Nat),
    let line (i : Nat) : List (Nat × Nat) := match l[first + i]? with
      | none => [(8, 0)]
      | some b => boardLineFields b
    sixLines l first = sent ((List.range 6).flatMap line)) ∧
  (∀ d : Desk,
    let c := d.site.clock
    statusBytes d = sent
      [(1, (match c.state with
            | .free => 0
            | .locked => 1
            | .holdover => 2) + bit (d.yard.active == .b) 2 + bit d.yard.activation 3 + bit d.site.commit.isSome 4 +
          bit d.site.store.isSome 5 + bit d.out.overflow 6),
       (2, c.day), (3, c.second), (1, d.out.notices.length)])

/-- The entries of a TABLE_READ reply, the j-th at an index i, field by field after the header 1; an empty entry is a header 0
and free values, and an empty settings place carries its default (R151, R165; log 17). -/
def EntryLayouts : Prop :=
  ∀ (n j i : Nat) (d : Desk),
    let free (p : OpenByte) : Nat × Nat := (1, (Config.openByte n p).toNat)
    let empty (size : Nat) : List (Nat × Nat) := (1, 0) :: (List.range (size - 1)).map fun b => free (.emptyEntry j b)
    let flag (b : Bool) : Nat × Nat := (1, if b then 1 else 0)
    let gives (t : TableId) (fields : List (Nat × Nat)) : Prop := entryBytes t n j i d = sent fields
    gives .roster (match tget d.yard.roster i with
      | none => empty 6
      | some v => [(1, 1), (2, v.entry.fleet), (1, v.entry.cls), (1, v.entry.length), flag v.entry.outOfService]) ∧
    gives .classes (match tget d.site.classes i with
      | none => empty 8
      | some c => [(1, 1), (2, c.tank), (1, c.reserve), (2, c.spareFuel), (1, c.washInterval), (1, c.washProgram)]) ∧
    gives .lanes (match tget d.yard.lanes i with
      | none => empty 8
      | some l => [(1, 1), (2, l.entry.capacity), (1, l.entry.mask.toNat), (1, l.entry.unknownLength),
          (1, l.entry.entryMouth), (1, l.entry.exitMouth), (1, l.entry.frontSign.getD 0)]) ∧
    gives .loopMap (match tget d.site.mouths i with
      | none => empty 6
      | some m => [(1, 1), (1, m.entry.stationA), (1, m.entry.indexA), (1, m.entry.stationB), (1, m.entry.indexB),
          (1, debounceCode m.entry.debounce)]) ∧
    gives .stations (match tget d.site.stations i with
      | none => empty 5
      | some s => [(1, 1), (1, s.entry.address), (1, roleCode s.entry.role), (1, s.entry.sign.getD 0),
          (1, policyCode s.entry.policy)]) ∧
    gives .forwarding (match tget d.site.forwarding i with
      | none => empty 2
      | some a => [(1, 1), (1, actionCode a)]) ∧
    gives .islands (match tget d.yard.islands i with
      | none => empty 5
      | some l => [(1, 1), (1, l.entry.mask.toNat), (1, l.entry.meter), (1, l.entry.sign.getD 0),
          flag l.entry.heldClosed]) ∧
    gives .washLanes (match tget d.yard.washLanes i with
      | none => empty 6
      | some l => [(1, 1), (1, l.entry.mask.toNat), (1, l.entry.maxLength), (1, l.entry.lref), (1, l.entry.sign.getD 0),
          flag l.entry.heldClosed]) ∧
    gives .programs (match tget d.site.programs i with
      | none => empty 26
      | some l => [(1, 1), (1, l.length)] ++ (List.range 6).flatMap fun g => match l[g]? with
          | some s => [(1, stageKindCode s.kind), (2, s.base), flag s.scales]
          | none => [(4, 0)]) ∧
    gives .settings (match tget d.site.settings i with
      | none => [(1, (Config.openByte n (.emptySetting j)).toNat % 2), (2, settingDefault i)]
      | some v => [(1, 1), (2, v)]) ∧
    gives .bankA (match tget d.yard.bankA i with
      | none => empty 10
      | some r => (1, 1) :: dutyFields r.entry) ∧
    gives .bankB (match tget d.yard.bankB i with
      | none => empty 10
      | some r => (1, 1) :: dutyFields r.entry)

end Sys2Proof.Machine
end

