-- ==== Sys2Proof/Certificates/Slice0/Obligations.lean ====
section
/-! DEFINITION. The statements for the provers, in the order of OBLIGATIONS.json. Premises and end states are those of
Safety.lean. -/

open Sys2Proof Sys2Proof.Machine

/-! ## The step, the queue and the invariants -/

/-- A step runs exactly the command at the front of the queue, on the state with the rest of the queue. -/
def Obligations.StepRunsFrontCommand : Prop :=
  ∀ (c : Instr) (rest : List Instr) (s : State),
    step { s with pending := c :: rest } = exec c { s with pending := rest }

/-- On an empty queue a step is one 10 ms tick (DESIGN CHOICE, log 3): the timebase and the second phase rise by one, and the
hundredth tick of a second is what YARD_SECOND_ADVANCE does. -/
def Obligations.EmptyQueueTicks : Prop :=
  ∀ s : State, s.pending = [] →
    (s.site.clock.phase + 1 < 100 →
      step s = .next
        { s with
          site := { s.site with
            now := s.site.now + 1, clock := { s.site.clock with phase := s.site.clock.phase + 1 } } }) ∧
    (s.site.clock.phase = 99 → step s = exec .yardSecondAdvance s)

/-- Every command answers a next state in every state, and leaves the queue of commands as it was. -/
def Obligations.NothingStops : Prop :=
  ∀ (c : Instr) (s : State), ∃ t, exec c s = .next t ∧ t.pending = s.pending

/-- The state after reset is within the bounds of the link side and of the yard, and its tables are in order. -/
def Obligations.ResetWithinBounds : Prop := LinkOk State.reset ∧ YardOk State.reset.yard ∧ TablesOk State.reset

/-- HEADLINE: every step keeps the bounds of the link side: 8 frames of ingress a port, 16 of field egress with a frame held
only when it is full, 16 slots of office egress occupied or reserved with one reserved exactly while a commit is in flight,
one waiting batch, 32 different notices with counts 1..255, board images of twelve lines. -/
def Obligations.StepKeepsLinkBounds : Prop :=
  ∀ s t : State, LinkOk s → step s = .next t → LinkOk t

/-- HEADLINE: with the tables in order, every step keeps the bounds of the yard's collections: 16 entries and pending vehicles
a lane, 4 pending, 16 on the apron and in each service queue, 8 departing; and leaves nothing to hand over. -/
def Obligations.StepKeepsYardBounds : Prop :=
  ∀ s t : State, TablesOk s → YardOk s.yard → step s = .next t → YardOk t.yard

/-- HEADLINE: every step keeps the live tables, the retained store and the image of a commit in rising index order. -/
def Obligations.StepKeepsTableOrder : Prop :=
  ∀ s t : State, TablesOk s → step s = .next t → TablesOk t

/-- HEADLINE: with the tables in order, no command but POWER_ON_RESET, TABLE_DATA and the two out-of-service orders changes a
table field of any of the twelve tables. -/
def Obligations.OtherCommandsKeepTables : Prop :=
  ∀ (c : Instr) (s t : State), TablesOk s → (∀ r1 r0, c ≠ .powerOnReset r1 r0) → c ≠ .tableData →
    c ≠ .vehicleSetOutOfService → c ≠ .vehicleSetClearOutOfService → exec c s = .next t →
    imageOf t.desk = imageOf s.desk ∧
    tmap t.yard.bankA (·.entry) = tmap s.yard.bankA (·.entry) ∧
    tmap t.yard.bankB (·.entry) = tmap s.yard.bankB (·.entry)

/-! ## Reset -/

/-- POWER_ON_RESET: the receiving side, the queues, the clock, the duty banks and the cursors start again, and the tables are
those of the store. Every vehicle is UNLOCATED with its service flags clear and since at day 0, second 0 (R2); every lane is
UNVERIFIED and empty (R43); every mouth is CLEAR with its tracker in IDLE, and every concentrator the loop map names is out of
silence with its loops clear and its timer started (R46, R49); every island and wash lane is IDLE, or CLOSED where its record
is held closed, without a vehicle, an authorisation or a wash (R83, R101); every station is in AUTO (R42); and every board's
image is empty (R130). With a bad store TABLES_LOST is on its way to the office: its batch is formed at once and leaves the
notice queue empty, the model's reading of R42, R153 and R158 (log 7). -/
def Obligations.PowerOnReset : Prop :=
  ∀ (r1 r0 : Bool) (s : State), ∃ t, exec (.powerOnReset r1 r0) s = .next t ∧
    t.pending = s.pending ∧
    t.rx = { field := { assembly := .hunt, ingress := [] }, office := { assembly := .hunt, ingress := [] },
             rate := { rate1 := r1, rate0 := r0 } } ∧
    t.out.fieldQ = [] ∧ t.out.held = [] ∧ t.out.reserved = 0 ∧ t.out.runCount = 0 ∧ t.out.overflow = false ∧
    t.out.notices = [] ∧
    t.site.clock = { day := 0, second := 0, phase := 0, state := .free, processed := none, holdover := none } ∧
    t.site.cursors = [] ∧ t.site.commit = none ∧ t.site.store = s.site.store ∧ t.site.tagMemory = [] ∧
    t.yard.bankA = [] ∧ t.yard.bankB = [] ∧ t.yard.active = .a ∧ t.yard.activation = false ∧ t.yard.callList = [] ∧
    t.yard.apron = [] ∧ t.yard.departing = [] ∧ t.yard.fuelQ = [] ∧ t.yard.washQ = [] ∧
    (∀ p ∈ t.yard.roster, p.2.state = .unlocated ∧ p.2.level = none ∧ p.2.daysSinceWash = 255 ∧ p.2.duty = none ∧
      p.2.missedCalls = 0 ∧ p.2.fuelSkipped = false ∧ p.2.fuelDone = false ∧ p.2.washIncomplete = false ∧
      p.2.washDone = false ∧ p.2.since = { day := 0, second := 0 }) ∧
    (∀ p ∈ t.yard.lanes, p.2.status = .unverified ∧ p.2.doubt = false ∧ p.2.items = [] ∧ p.2.pendings = []) ∧
    (∀ p ∈ t.yard.islands, p.2 =
      { entry := p.2.entry, state := if p.2.entry.heldClosed then .closed else .idle, vehicle := none,
        turnFactor := p.2.entry.meter, limit := 0, lastCount := 0, stopSent := false, timer := none,
        closeAtEnd := false }) ∧
    (∀ p ∈ t.yard.washLanes, p.2 =
      { entry := p.2.entry, state := if p.2.entry.heldClosed then .closed else .idle, stageIndex := none,
        vehicle := none, plan := [], timer := none }) ∧
    (∀ p ∈ t.site.mouths, p.2 =
      { entry := p.2.entry, accepted := .clear, candidate := none, stuck := none, tracker := .idle }) ∧
    (∀ a, let named := ∃ p ∈ t.site.mouths, p.2.entry.stationA = a ∨ p.2.entry.stationB = a
      (named → tget t.site.concentrators a =
        some { loops := 0, timer := some (t.site.now + setting t.site 8 * 100), silent := false }) ∧
      (¬named → tget t.site.concentrators a = none)) ∧
    (∀ p ∈ t.site.stations, p.2.manual = false) ∧
    (∀ a, let board := ∃ p ∈ t.site.stations, p.2.entry.role = .board ∧ p.2.entry.address = a
      (board → tget t.out.images a = some (List.replicate 12 .empty)) ∧ (¬board → tget t.out.images a = none)) ∧
    (∀ T, s.site.store = some T → imageOf t.desk = T ∧ t.out.officeQ = []) ∧
    (s.site.store = none → imageOf t.desk = Tables.none ∧
      ∃ f, t.out.officeQ = [{ cls := .batch, frame := f }] ∧ f.dest = 240 ∧ f.src = 250 ∧ f.kind = 0x61 ∧
        f.payload.take 2 = [1, 35])

/-! ## Link Ports and the Notice Queue -/

/-- RX_BYTE before the last byte of a frame (HUNT, HEADER and BODY, and the discard of a length above 56), and
RECEIVE_GAP_TIMEOUT, which discards a frame under way and does nothing in HUNT (R24). -/
def Obligations.RxByteAssembles : Prop :=
  ∀ (p : Port) (b : Byte) (s : State),
    let r := portOf s.rx p
    let with_ (a : Assembly) : State := { s with rx := setPort p { r with assembly := a } s.rx }
    (r.assembly = .hunt → b ≠ 0xA5 → exec (.rxByte p b) s = .next s) ∧
    (r.assembly = .hunt → b = 0xA5 → exec (.rxByte p b) s = .next (with_ (.header []))) ∧
    (∀ got, r.assembly = .header got → got.length < 3 → exec (.rxByte p b) s = .next (with_ (.header (got ++ [b])))) ∧
    (∀ d c k, r.assembly = .header [d, c, k] →
      let h : Header := { dest := d, src := c, kind := k, length := b }
      (56 < b.toNat → exec (.rxByte p b) s =
        .next { with_ .hunt with out := offerNotice s.site .linkError none (some (.port p (some .length))) none s.out }) ∧
      (b.toNat = 0 → exec (.rxByte p b) s = .next (with_ (.check h [] none))) ∧
      (1 ≤ b.toNat → b.toNat ≤ 56 → exec (.rxByte p b) s = .next (with_ (.body h [])))) ∧
    (∀ h got, r.assembly = .body h got →
      (got.length + 1 < h.length.toNat → exec (.rxByte p b) s = .next (with_ (.body h (got ++ [b])))) ∧
      (got.length + 1 = h.length.toNat → exec (.rxByte p b) s = .next (with_ (.check h (got ++ [b]) none)))) ∧
    (∀ h got, r.assembly = .check h got none → exec (.rxByte p b) s = .next (with_ (.check h got (some b)))) ∧
    (r.assembly = .hunt → exec (.receiveGapTimeout p) s = .next s) ∧
    (r.assembly ≠ .hunt → exec (.receiveGapTimeout p) s =
      .next { with_ .hunt with out := offerNotice s.site .linkError none (some (.port p (some .gap))) none s.out })

/-- RX_BYTE that completes a frame: a good frame joins an ingress queue that holds fewer than 8 and is dropped with
LINK_OVERRUN otherwise; a frame whose CRC does not match is discarded with LINK_ERROR; and the CRC of the nine bytes 0x31 to
0x39 is 0x29B1 (R25, R26). -/
def Obligations.RxLastByte : Prop :=
  crcOf [0x31, 0x32, 0x33, 0x34, 0x35, 0x36, 0x37, 0x38, 0x39] = 0x29B1 ∧
  ∀ (p : Port) (b high : Byte) (h : Header) (got : List Byte) (s : State),
    (portOf s.rx p).assembly = .check h got (some high) →
    let good := crcBytes (crcOf ([h.dest, h.src, h.kind, h.length] ++ got)) = [high, b]
    let r := portOf s.rx p
    let hunting : State := { s with rx := setPort p { r with assembly := .hunt } s.rx }
    (good → r.ingress.length < 8 →
      exec (.rxByte p b) s = .next
        { s with rx := setPort p { assembly := .hunt, ingress := r.ingress ++ [frameOf h got] } s.rx }) ∧
    (good → 8 ≤ r.ingress.length →
      exec (.rxByte p b) s =
        .next { hunting with out := offerNotice s.site .linkOverrun none (some (.port p none)) none s.out }) ∧
    (¬good →
      exec (.rxByte p b) s =
        .next { hunting with out := offerNotice s.site .linkError none (some (.port p (some .crc))) none s.out })

/-- The bytes of a frame as the part sends it, taken by a port that hunts, put exactly that frame in the port's ingress queue
and change nothing else (R24, R25, R162). -/
def Obligations.WireRoundTrip : Prop :=
  ∀ (p : Port) (f : Frame) (s : State), f.payload.length ≤ 56 → (portOf s.rx p).assembly = .hunt →
    (portOf s.rx p).ingress.length < 8 →
    execAll ((wire f).map (Instr.rxByte p)) s = .next
      { s with rx := setPort p { assembly := .hunt, ingress := (portOf s.rx p).ingress ++ [f] } s.rx }

/-- FIELD_EGRESS_SEND begins the oldest frame; with a frame held, the one held longest takes the slot (R27, R28). When that
leaves the queue full, a frame to a station that is no board ends the command: the frames behind it stay held, and a line it
carries is taken into its board's image. A placed board line is taken into its board's image, and the comparison resumes:
unless the board is in MANUAL or the Departure Sequencer holds another frame for it, a BOARD_LINE for the lowest line that
still differs joins the end of the held frames, and none when no line differs (R28, R130). A BOARD_LINE carries the line's
number, counted from 1, and the line's eight bytes, zeros for an empty line (R163), with 0 in the bits no field names (log 18).
What a step has made: at its end what it owes runs, and the own frames and notices it made are handed over in the order they
were made. A block makes no own frame for a station of controllable role in MANUAL, and one handed over for such a station is
discarded. Any other takes a free slot when no frame is held; with a frame held, or no slot free, it replaces the one its block
holds for the same station in its place in line, or is held behind the others. A notice is offered to the Notice Queue (R27,
R28, R155). That what an event owes runs before the hand-over is the model's order (log 10). -/
def Obligations.FieldEgressSend : Prop :=
  (∀ (s : State) (i : FieldItem) (q : List FieldItem), s.out.fieldQ = i :: q →
    (s.out.held = [] →
      exec .fieldEgressSend s = .next { s with out := { s.out with fieldQ := q, fieldTx := wire i.frame } }) ∧
    (∀ h rest, s.out.held = h :: rest → q.length < 16 →
      ∃ t tail, exec .fieldEgressSend s = .next t ∧ t.out.fieldTx = wire i.frame ∧
        t.out.fieldQ = q ++ { frame := h.frame, own := true } :: tail ∧
        t.site = s.site ∧ t.yard = s.yard ∧ t.rx = s.rx)) ∧
  (∀ (s : State) (i : FieldItem) (q : List FieldItem) (h : Held) (rest : List Held), s.out.fieldQ = i :: q →
    q.length = 15 → s.out.held = h :: rest →
    let k := s.site
    let a := h.frame.dest.toNat
    let images : Table (List ImageLine) := match h.image with
      | some (j, line) => tmod s.out.images a fun lines => lines.set j line
      | none => s.out.images
    let placed : Out := { s.out with
      fieldQ := q ++ [{ frame := h.frame, own := true }], held := rest, images := images, fieldTx := wire i.frame }
    let ends (o : Out) : Prop := exec .fieldEgressSend s = .next { s with out := o }
    let board := ∃ p ∈ k.stations, p.2.entry.role = .board ∧ p.2.entry.address = a
    let target (j : Nat) : ImageLine := match s.yard.callList[j]? with
      | some l => if j < setting k 19 then .line l else .empty
      | none => .empty
    let rests := inManual k a = true ∨ ∃ g ∈ rest, g.block = .departure ∧ g.frame.dest.toNat = a
    (¬board → ends placed) ∧
    (board → rests → ends placed) ∧
    (∀ image, board → ¬rests → tget images a = some image →
      ((∀ j line, image[j]? = some line → line = target j) → ends placed) ∧
      (∀ j line, image[j]? = some line → line ≠ target j →
        (∀ i x, i < j → image[i]? = some x → x = target i) →
        ends { placed with held := rest ++ [{
          block := .departure
          frame := { dest := byte a, src := byte (ownAddress k), kind := 0x43,
                     payload := sent ((1, j + 1) :: imageLineFields (target j)) }
          image := some (j, target j) }] }))) ∧
  (∀ (k : Site) (block : Block) (a : Nat) (kind : Byte) (p : List Byte) (y : Yard),
    let manual := ∃ st, stationAt k a = some st ∧ controllable st.entry.role = true ∧ st.manual = true
    (manual → sendOwn k block a kind p y = y) ∧
    (¬manual → sendOwn k block a kind p y = { y with
      emits := y.emits ++ [.own block { dest := byte a, src := byte (ownAddress k), kind := kind, payload := p }] })) ∧
  (∀ (k : Site) (block : Block) (f : Frame) (o : Out),
    let manual := ∃ st, stationAt k f.dest.toNat = some st ∧ controllable st.entry.role = true ∧ st.manual = true
    let h : Held := { block := block, frame := f, image := none }
    let same (g : Held) : Prop := g.block = block ∧ g.frame.dest = f.dest
    let run := handOver k o (.own block f)
    (manual → run = o) ∧
    (¬manual → o.held = [] → o.fieldQ.length < 16 →
      run = { o with fieldQ := o.fieldQ ++ [{ frame := f, own := true }] }) ∧
    (¬manual → o.held ≠ [] ∨ 16 ≤ o.fieldQ.length →
      (∀ before g after, o.held = before ++ g :: after → same g → (∀ x ∈ before, ¬same x) →
        run = { o with held := before ++ h :: after }) ∧
      ((∀ g ∈ o.held, ¬same g) → run = { o with held := o.held ++ [h] }))) ∧
  (∀ (k : Site) (kind : NoticeKind) (fleet : Option Nat) (place : Option NoticePlace) (duty : Option Nat) (o : Out),
    handOver k o (.notice kind fleet place duty) = offerNotice k kind fleet place duty o) ∧
  (∀ d : Desk,
    let y := drain d.site d.yard
    settle d = { out := y.emits.foldl (handOver d.site) d.out, site := d.site, yard := { y with emits := [] } })

/-- OFFICE_EGRESS_SEND sends the frame the arbiter's four rules choose, the first of its class, and keeps the run count, which
is 0 after power-on and which YARD_CLEAR does not change (R30). With that frame gone the batch test is made: the sending side
is what the test of NoticeQueue leaves of it (R29, R158). -/
def Obligations.OfficeArbiter : Prop :=
  (∀ (s : State) (c : OfficeClass) (f : Frame) (before after : List OfficeItem),
    s.out.officeQ = before ++ { cls := c, frame := f } :: after → (∀ i ∈ before, i.cls ≠ c) →
    (if s.out.runCount = 4 ∧ ∃ i ∈ s.out.officeQ, i.cls = .forwarded then c = .forwarded
     else if ∃ i ∈ s.out.officeQ, i.cls = .reply then c = .reply
     else if ∃ i ∈ s.out.officeQ, i.cls = .batch then c = .batch
     else c = .forwarded) →
    ∃ t batch, exec .officeEgressSend s = .next t ∧ t.out.officeTx = wire f ∧
      t.out.officeQ = before ++ after ++ batch ∧ (∀ i ∈ batch, i.cls = .batch) ∧
      t.out.runCount = (if c = .forwarded then 0 else if s.out.runCount < 4 then s.out.runCount + 1 else 4) ∧
      t.out = tryBatch s.site { s.out with
        officeQ := before ++ after
        runCount := if c = .forwarded then 0 else if s.out.runCount < 4 then s.out.runCount + 1 else 4
        officeTx := wire f } ∧
      t.out.fieldQ = s.out.fieldQ ∧ t.site = s.site ∧ t.yard = s.yard ∧ t.rx = s.rx) ∧
  (∀ (r1 r0 : Bool) (s t : State), exec (.powerOnReset r1 r0) s = .next t → t.out.runCount = 0) ∧
  (∀ s t : State, exec .yardClear s = .next t → t.out.runCount = s.out.runCount)

/-- A notice offered to the queue: a match raises the count of the queued one alone; otherwise it joins a queue of fewer than
32, or is dropped and the overflow flag set (R157). NOTICE_HOLD_EXPIRY: when the oldest notice has reached the hold time, a
slot is free and no batch waits, a batch of up to five of the oldest notices is formed and they leave the queue (R158). The
test after a notice joins forms such a batch when the queue holds the batch threshold or the oldest notice has reached the
hold time, under the same two conditions, and otherwise changes nothing (R29, R158). A batch's entries are laid out field by
field, with the kind codes and the severities (R156, R165). The free bytes of its entries are those of the model's own count
of replies and batches (log 17), and the bits no field names are 0 (log 18). -/
def Obligations.NoticeQueue : Prop :=
  (∀ (k : Site) (kind : NoticeKind) (fleet : Option Nat) (place : Option NoticePlace) (duty : Option Nat) (o : Out),
    let n : Notice :=
      { kind := kind, fleet := fleet, place := place, duty := duty, second := k.clock.second, count := 1,
        joined := k.now }
    let matched (m : Notice) : Prop := m.kind = kind ∧ m.fleet = fleet ∧ m.place = place ∧ m.duty = duty
    (∀ before m after, o.notices = before ++ m :: after → matched m → (∀ x ∈ before, ¬matched x) →
      offerNotice k kind fleet place duty o =
        { o with notices := before ++ { m with count := if m.count < 255 then m.count + 1 else 255 } :: after }) ∧
    ((∀ x ∈ o.notices, ¬matched x) → o.notices.length < 32 →
      offerNotice k kind fleet place duty o = tryBatch k { o with notices := o.notices ++ [n] }) ∧
    ((∀ x ∈ o.notices, ¬matched x) → 32 ≤ o.notices.length →
      offerNotice k kind fleet place duty o = { o with overflow := true })) ∧
  (∀ (s : State) (n : Notice) (l : List Notice), s.out.notices = n :: l →
    n.joined + setting s.site 22 * 100 ≤ s.site.now → 0 < officeFree s.out → (∀ i ∈ s.out.officeQ, i.cls ≠ .batch) →
    ∃ t f, exec .noticeHoldExpiry s = .next t ∧ t.out.notices = (n :: l).drop 5 ∧
      t.out.officeQ = s.out.officeQ ++ [{ cls := .batch, frame := f }] ∧ f.dest = 240 ∧ f.kind = 0x61 ∧
      f.src = byte (ownAddress s.site) ∧
      f.payload = byte (min 5 (n :: l).length) :: batchBytes s.out.openCount 0 ((n :: l).take 5) ∧
      t.site = s.site ∧ t.yard = s.yard ∧ t.rx = s.rx ∧ t.out.fieldQ = s.out.fieldQ) ∧
  (∀ (k : Site) (o : Out),
    let due := ∃ n l, o.notices = n :: l ∧
      (setting k 21 ≤ o.notices.length ∨ n.joined + setting k 22 * 100 ≤ k.now)
    let fits := o.officeQ.length + o.reserved < 16 ∧ ∀ i ∈ o.officeQ, i.cls ≠ .batch
    let batch : Frame :=
      { dest := 240, src := byte (ownAddress k), kind := 0x61,
        payload := byte (min 5 o.notices.length) :: batchBytes o.openCount 0 (o.notices.take 5) }
    (due → fits → tryBatch k o = { o with
      notices := o.notices.drop 5
      officeQ := o.officeQ ++ [{ cls := .batch, frame := batch }]
      openCount := o.openCount + 1 }) ∧
    (¬due ∨ ¬fits → tryBatch k o = o)) ∧
  NoticeLayout

/-! ## Tag reads and the route decision -/

/-- TAG_READ: a repeat is not acted on and is forwarded as a repeat read; any other read replaces the reader's record; an
unknown vehicle raises UNKNOWN_VEHICLE, and a rostered one is handled by the reader's role (R12, R34, R59, R60). An arrival is
R13's six steps: relocation (log 12), unpairing, the new night (log 9), the level, pairing and the route decision. Pairing
takes the earliest blocked duty without a vehicle for which the vehicle is ready, then the earliest open one whose mask holds
its class (R119). A GATE_OUT read takes the apron step and then the first of four cases that applies: the vehicle's own
departing entry, an unidentified one, a custody mismatch with the oldest entry, an empty list (R45, R61 to R63). In a mismatch
X takes Y's duty even out of service, and Y out of service takes none (log 24); the entry Y takes over keeps its entry time
(log 25); and Y goes UNLOCATED where the entry names a lane no longer loaded, the model's choice (log 54). A YARD read that
moves nothing is processed for its annotation (log 23). The annotation shows the vehicle as the rounds the frame caused left
it, the model's choice (log 53). -/
def Obligations.TagRead : Prop :=
  (∀ (s : State) (f : Frame) (rest : List Frame) (st : Station), TagHead s f rest st →
    let fleet := u16 f.payload 0
    let recorded := ∃ r, tget s.site.tagMemory f.src.toNat = some r ∧ r.fleet = fleet ∧
      s.site.now < r.at_ + setting s.site 11 * 100
    let k := { s.site with tagMemory := tset s.site.tagMemory f.src.toNat { fleet := fleet, at_ := s.site.now } }
    (recorded → exec .tagRead s = .next (afterField s f rest s.site s.yard
      { fleet := some fleet, direction := none, disposition := .repeated })) ∧
    (¬recorded → vehOf s.yard fleet = none →
      exec .tagRead s = .next (afterField s f rest k
        (raise .unknownVehicle (some fleet) (some (.station f.src.toNat)) none s.yard) (processed (some fleet) none))) ∧
    (∀ v, ¬recorded → vehOf s.yard fleet = some v → st.entry.role = .gateIn →
      let a := arrive k f.src.toNat fleet (u8 f.payload 2) st.entry.sign s.yard
      exec .tagRead s = .next (afterField s f rest k a.1 (processed (some fleet) (some a.2)))) ∧
    (∀ v, ¬recorded → vehOf s.yard fleet = some v → st.entry.role = .gateOut →
      exec .tagRead s = .next (afterField s f rest k (exitRead k fleet s.yard) (processed (some fleet) none))) ∧
    (∀ v, ¬recorded → vehOf s.yard fleet = some v → st.entry.role = .yard → v.state ≠ .unlocated →
      exec .tagRead s = .next (afterField s f rest k s.yard (processed (some fleet) none))) ∧
    (∀ v, ¬recorded → vehOf s.yard fleet = some v → st.entry.role = .yard → v.state = .unlocated →
      let a := placement k fleet (setState k fleet .stowWait s.yard)
      exec .tagRead s = .next (afterField s f rest k (showSign k st.entry.sign fleet a.2 a.1)
        (processed (some fleet) (some a.2))))) ∧
  (∀ (k : Site) (a g percent : Nat) (sign : Option Nat) (y : Yard) (v : Vehicle), vehOf y g = some v →
    let caused (z : Yard) : Yard :=
      let w := drain k { z with todo.returned := [] }
      { w with todo.returned := z.todo.returned ++ w.todo.returned }
    let place : NoticePlace := match placeOf y g with
      | some (.lane n _) => .lane n
      | some (.pendingLane n) => .lane n
      | some (.island n) => .island n
      | some (.washLane n) => .washLane n
      | _ => .station a
    let found : Yard :=
      if v.state = .absent ∨ v.state = .unlocated then y
      else raise .relocated (some g) (some place) none (caused (takeOut k g (withdrawCall g y)))
    let night : Yard := updVeh g (fun v => { v with missedCalls := 0, state := .unlocated, since := presentTime k })
      (updService g
        (fun v => { v with fuelSkipped := false, fuelDone := false, washIncomplete := false, washDone := false })
        (caused (unpair g found)))
    arrive k a g percent sign y = route k sign g (pairArrival g
      (updService g (fun v => { v with level := levelFromPercent (classOf k v).tank percent v.level }) night))) ∧
  (∀ (g : Nat) (y : Yard) (v : Vehicle), vehOf y g = some v →
    let blocked (d : Nat) : Prop := ∃ r, dutyOf y d = some r ∧ r.state = .blocked ∧ r.reason = some .noVehicle ∧
      r.vehicle = none ∧ ready v r = true
    let open_ (d : Nat) : Prop := ∃ r, dutyOf y d = some r ∧ r.state = .opened ∧ r.vehicle = none ∧
      inMask r.entry.mask v.entry.cls = true
    let first (p : Nat → Prop) (d : Nat) : Prop :=
      ∃ before after, dutyOrder y = before ++ d :: after ∧ p d ∧ ∀ e ∈ before, ¬p e
    (v.entry.outOfService = true → pairArrival g y = y) ∧
    (v.entry.outOfService = false →
      (∀ d, first blocked d → pairArrival g y = pair g d y) ∧
      (∀ d, (∀ e ∈ dutyOrder y, ¬blocked e) → first open_ d → pairArrival g y = pair g d y) ∧
      ((∀ e ∈ dutyOrder y, ¬blocked e ∧ ¬open_ e) → pairArrival g y = y))) ∧
  (∀ (k : Site) (x : Nat) (y : Yard),
    let z : Yard :=
      if x ∈ y.apron then
        setState k x .departing (joinDeparting k (some x) none (roomEvent { y with apron := without y.apron x }))
      else y
    let entryOf (w : Option Nat) : Prop := ∃ e ∈ z.departing, e.vehicle = w
    (∀ before e after, z.departing = before ++ e :: after → e.vehicle = some x → (∀ i ∈ before, i.vehicle ≠ some x) →
      exitRead k x y = settleDeparture k x { z with departing := before ++ after }) ∧
    (∀ before e after, z.departing = before ++ e :: after → e.vehicle = none → (∀ i ∈ before, i.vehicle ≠ none) →
      ¬entryOf (some x) →
      exitRead k x y = settleDeparture k x (takeOut k x { z with departing := before ++ after })) ∧
    (∀ e rest w, z.departing = e :: rest → e.vehicle = some w → ¬entryOf (some x) → ¬entryOf none →
      let u : Yard := { z with departing := rest }
      let t : Yard := takeOut k x u
      let ends (lane : Option Nat) (p : Yard) : Prop := exitRead k x y =
        raise .custodyMismatch (some x) (lane.map .lane) none (settleDeparture k x (swapDuties x w p))
      (∀ n, laneHolding u x = some n →
        let p := report (setState k w .parked (updLane n
          (fun l => { l with
            doubt := true
            items := l.items.map fun i => if i.vehicle = some x then { i with vehicle := some w, length := lengthOf u w } else i })
          u))
        ends (some n) (if (tget u.lanes n).bind frontVehicle = some x then report p else p)) ∧
      (∀ n l, laneHolding u x = none → e.lane = some n → tget t.lanes n = some l →
        l.items.length + l.pendings.length < 16 →
        let p := report (setState k w .parked (updLane n
          (fun l => { l with
            doubt := true
            items := { vehicle := some w, length := lengthOf t w, entered := presentTime k } :: l.items }) t))
        (∀ g, frontVehicle l = some g → stateOf p g = some .called →
          ends (some n) (report (report (setState k g .parked (withdrawCall g p))))) ∧
        ((∀ g, frontVehicle l = some g → stateOf p g ≠ some .called) → ends (some n) (report p))) ∧
      (laneHolding u x = none →
        (∀ n l, e.lane = some n → tget t.lanes n = some l → 16 ≤ l.items.length + l.pendings.length) →
        ends none (setState k w .unlocated t))) ∧
    (z.departing = [] →
      let gone : Yard := raise .unplannedDeparture (some x) none (pairedNumber z x) (setState k x .absent (takeOut k x z))
      (stateOf z x = some .absent →
        exitRead k x y = raise .unplannedDeparture (some x) none (pairedNumber z x) z) ∧
      (stateOf z x ≠ some .absent →
        (pairedNumber z x = none → exitRead k x y = gone) ∧
        (∀ d, pairedNumber z x = some d → exitRead k x y = settleDuty d gone)))) ∧
  (∀ (x w : Nat) (y : Yard),
    let a := withdrawCall x y
    let b := unpairRecords w (unpairRecords x a)
    let c : Yard := match pairedNumber a w with
      | some d => updDuty d (fun r => { r with marks := { r.marks with swapped := true } }) (pair x d b)
      | none => b
    (pairedNumber a x = none → swapDuties x w y = c) ∧
    (∀ d v, pairedNumber a x = some d → vehOf c w = some v →
      swapDuties x w y = oweIfWaiting d (if v.entry.outOfService = true then c else pair w d c))) ∧
  (∀ (k : Site) (x : Nat) (y : Yard),
    let z := setState k x .absent y
    (pairedDuty z x = none →
      settleDeparture k x y = raise .unplannedDeparture (some x) none (pairedNumber z x) z) ∧
    (∀ r, pairedDuty z x = some r →
      settleDeparture k x y =
        if r.state = .called then settleDuty r.entry.number z
        else raise .unplannedDeparture (some x) none (some r.entry.number) (settleDuty r.entry.number z)))

/-- When a vehicle needs fuel and when it needs a wash, for a vehicle paired with a duty, a spare and a vehicle out of service
(R14). -/
def Obligations.NeedForService : Prop :=
  ∀ (k : Site) (v : Vehicle) (d : Option Duty),
    let c := classOf k v
    let threshold := match d with
      | some r => r.entry.fuel + c.reserve
      | none => c.spareFuel + c.reserve
    (v.entry.outOfService = true → needsFuel k v d = false ∧ needsWash k v d = false) ∧
    (v.entry.outOfService = false →
      (needsFuel k v d = true ↔ v.level = none ∨ ∃ l, v.level = some l ∧ l < threshold) ∧
      (needsWash k v d = true ↔ (∃ r, d = some r ∧ r.entry.wash = true) ∨ c.washInterval ≤ v.daysSinceWash) ∧
      (c.washInterval = 0 → needsWash k v d = true) ∧
      (v.daysSinceWash = 255 → c.washInterval ≤ 7 → needsWash k v d = true))

/-- The route decision's cases in order, for a vehicle in service and one out of service (R15, R16). The fuel queue takes a
vehicle while it holds fewer than 16 and some island's mask holds its class, and the wash queue while it holds fewer than 16
and some wash lane's mask holds its class and its max length is not below the vehicle's. A join is at the end of the queue,
with the missed calls at 0 (R7); a refusal sets fuel-skipped or wash-incomplete and raises FUEL_SKIPPED or WASH_SKIPPED with
the fleet and the paired duty (R16). The decision's direction goes to the causing station's sign, unless there is none or it
is in MANUAL (R18, R163). What a join sets off after it, an urgent move or a deferral where the duty is HELD and then the
calling rule, is in the model's order (R87, R105, R122, log 14). -/
def Obligations.RouteDecision : Prop :=
  (∀ (k : Site) (f : Nat) (v : Vehicle) (y : Yard), vehOf y f = some v →
    let d := v.duty.bind (dutyOf y)
    let release := ∃ r, d = some r ∧ (r.state = .held ∨ r.state = .blocked) ∧ ready v r = true
    let fuel := needsFuel k v d = true ∧ v.fuelDone = false ∧ v.fuelSkipped = false
    let wash := needsWash k v d = true ∧ v.washDone = false ∧ v.washIncomplete = false
    (∀ onward : Nat → Yard → Yard × Direction,
      let decide_ := routeCases k onward f y
      (v.entry.outOfService = true → decide_ = placement k f y) ∧
      (v.entry.outOfService = false → release →
        ∃ r, d = some r ∧ decide_ = (directRelease k r.entry.number f y, .exit)) ∧
      (v.entry.outOfService = false → ¬release → fuel → fuelJoinable y f = true →
        decide_ = (joinFuel k f y, .fuelRoad)) ∧
      (v.entry.outOfService = false → ¬release → fuel → fuelJoinable y f = false →
        decide_ = onward f (skipFuel f y)) ∧
      (v.entry.outOfService = false → ¬release → ¬fuel → decide_ = onward f y)) ∧
    (wash → washJoinable y f = true → washOrPlace k f y = (joinWash k f y, .washRoad)) ∧
    (wash → washJoinable y f = false → washOrPlace k f y = placement k f (skipWash f y)) ∧
    (¬wash → washOrPlace k f y = placement k f y) ∧
    (fuelJoinable y f = true ↔
      y.fuelQ.length < 16 ∧ ∃ p ∈ y.islands, inMask p.2.entry.mask v.entry.cls = true) ∧
    (washJoinable y f = true ↔
      y.washQ.length < 16 ∧ ∃ p ∈ y.washLanes, inMask p.2.entry.mask v.entry.cls = true ∧
        v.entry.length ≤ p.2.entry.maxLength) ∧
    joinFuel k f y = setState k f .fuelWait
      (updVeh f (fun v => { v with missedCalls := 0 }) { y with fuelQ := y.fuelQ ++ [f] }) ∧
    joinWash k f y = setState k f .washWait
      (updVeh f (fun v => { v with missedCalls := 0 }) { y with washQ := y.washQ ++ [f] }) ∧
    skipFuel f y = raise .fuelSkipped (some f) none v.duty (updService f (fun v => { v with fuelSkipped := true }) y) ∧
    skipWash f y = raise .washSkipped (some f) none v.duty
      (updService f (fun v => { v with washIncomplete := true }) y)) ∧
  (∀ (k : Site) (sign : Option Nat) (f : Nat) (dir : Direction) (y : Yard),
    let shown := showSign k sign f dir y
    (sign = none → shown = y) ∧
    (∀ a, sign = some a → inManual k a = true → shown = y) ∧
    (∀ a code target, sign = some a → inManual k a = false →
      (dir, code, target) ∈ [(.fuelRoad, 1, 0), (.washRoad, 2, 0), (.apron, 6, 0), (.hold, 7, 0), (.exit, 8, 0)] ∨
        (code = 3 ∧ dir = .island target) ∨ (code = 4 ∧ dir = .wash target) ∨ (code = 5 ∧ dir = .lane target) →
      shown = { y with emits := y.emits ++ [.own .vehicleTable
        { dest := byte a, src := byte (ownAddress k), kind := 0x40,
          payload := sent [(2, f), (1, code), (1, target), (2, 0), (1, 0)] }] })) ∧
  (∀ (k : Site) (sign : Option Nat) (f : Nat) (y : Yard),
    let a := routeCases k (washOrPlace k) f y
    let shown := showSign k sign f a.2 a.1
    let run := route k sign f y
    let held := ∃ r, pairedDuty shown f = some r ∧ r.state = .held
    (a.2 = .fuelRoad → held → run = (fuelCalls k (fuelUrgent f shown), a.2)) ∧
    (a.2 = .fuelRoad → ¬held → run = (fuelCalls k shown, a.2)) ∧
    (∀ r, a.2 = .washRoad → pairedDuty shown f = some r → r.state = .held →
      run = (washCalls k (if r.entry.wash then washUrgent f shown else defer k false f shown), a.2)) ∧
    (a.2 = .washRoad → ¬held → run = (washCalls k shown, a.2)) ∧
    (a.2 ≠ .fuelRoad → a.2 ≠ .washRoad → run = (shown, a.2)))

/-! ## Placement -/

/-- With the lanes in order, the choice takes a lane that takes part, with the lowest score, and among equal scores the lowest
lane number; where a lane takes part, one is chosen (R73, R76). A lane is eligible on four conditions: OPEN, the class in its
mask, room in its lists, and room in its length, its pending vehicles counted in (R68, R44). An eligible lane takes part in a
forced choice, and in an ordinary one when the vehicle overtakes its tail by no more than the tolerance (R70, R76). -/
def Obligations.LaneChoice : Prop :=
  (∀ (k : Site) (y : Yard) (v : Vehicle) (forced : Bool), tableWf y.lanes →
    (∀ n, chooseLane k y v forced = some n →
      ∃ l, (n, l) ∈ y.lanes ∧ takesPart k y v forced l = true ∧
        ∀ m l', (m, l') ∈ y.lanes → takesPart k y v forced l' = true →
          laneScore k y v l < laneScore k y v l' ∨ (laneScore k y v l = laneScore k y v l' ∧ n ≤ m)) ∧
    (chooseLane k y v forced = none → ∀ p ∈ y.lanes, takesPart k y v forced p.2 = false)) ∧
  (∀ (k : Site) (y : Yard) (v : Vehicle) (l : Lane),
    occupied k y l = (l.items.map fun i => i.length + setting k 1).sum +
      (l.pendings.map fun p => lengthOf y p.fleet + setting k 1).sum ∧
    (eligible k y v l = true ↔
      l.status = .opened ∧ inMask l.entry.mask v.entry.cls = true ∧
      (l.items.length + l.pendings.length < 16 ∧ l.pendings.length < 4) ∧
      occupied k y l + v.entry.length + setting k 1 ≤ l.entry.capacity) ∧
    (takesPart k y v true l = true ↔ eligible k y v l = true) ∧
    (takesPart k y v false l = true ↔ eligible k y v l = true ∧
      ∀ t, laneTail y l = some t → t ≤ departureOf y v.entry.fleet + setting k 5))

/-- The time term, the room term and the score, exactly as R71 and R72 give them, with the greatest values they give for
settings in their ranges. -/
def Obligations.Score : Prop :=
  ∀ (k : Site) (departure : Nat) (tail : Option Nat) (spare : Nat),
    (tail = none → timeTerm k departure tail = setting k 2) ∧
    (∀ t, tail = some t → t ≤ departure → timeTerm k departure tail = (departure - t) * setting k 3 / 16) ∧
    (∀ t, tail = some t → departure < t → timeTerm k departure tail = 40960 + (t - departure) * 16) ∧
    roomTerm k spare = spare * setting k 4 / 64 ∧
    score k departure tail spare = min 65535 (timeTerm k departure tail + roomTerm k spare) ∧
    (∀ y v l, eligible k y v l = true →
      occupied k y l + (v.entry.length + gap k) ≤ l.entry.capacity ∧
      laneScore k y v l = score k (departureOf y v.entry.fleet) (laneTail y l)
        (l.entry.capacity - occupied k y l - (v.entry.length + gap k))) ∧
    (setting k 2 ≤ 4095 → setting k 3 ≤ 255 → setting k 4 ≤ 255 → departure ≤ 1440 →
      (∀ t, tail = some t → t ≤ 1440) → spare ≤ 2420 →
      roomTerm k spare ≤ 9642 ∧
      (tail = none → score k departure tail spare ≤ 13737) ∧
      (∀ t, tail = some t → t ≤ departure →
        timeTerm k departure tail ≤ 22950 ∧ score k departure tail spare ≤ 32592) ∧
      (∀ t, tail = some t → departure < t →
        40976 ≤ timeTerm k departure tail ∧ timeTerm k departure tail ≤ 64000 ∧
        (t - departure ≤ 255 → timeTerm k departure tail ≤ 45040) ∧
        40976 ≤ score k departure tail spare ∧ score k departure tail spare ≤ 65535 ∧
        (setting k 4 = 8 → score k departure tail spare ≤ 64302)))

/-- The departure of a vehicle for placement and the tail departure of a lane (R69). -/
def Obligations.DeparturesAndTails : Prop :=
  (∀ (y : Yard) (f : Nat) (v : Vehicle), vehOf y f = some v →
    (v.entry.outOfService = true → departureOf y f = 1440) ∧
    (v.duty = none → departureOf y f = 1440) ∧
    (∀ n d, v.entry.outOfService = false → v.duty = some n → dutyOf y n = some d →
      (d.state = .opened ∨ d.state = .held ∨ d.state = .blocked ∨ d.state = .called →
        departureOf y f = d.entry.departure) ∧
      (d.state = .departed → departureOf y f = 1440))) ∧
  (∀ (y : Yard) (l : Lane),
    (l.items = [] → l.pendings = [] → laneTail y l = none) ∧
    (∀ l' p, l.pendings = l' ++ [p] → laneTail y l = some (departureOf y p.fleet)) ∧
    (∀ l' i, l.pendings = [] → l.items = l' ++ [i] →
      (i.vehicle = none → laneTail y l = some 1440) ∧
      (∀ f, i.vehicle = some f → laneTail y l = some (departureOf y f))))

/-- A placement's four stages: a lane of the ordinary choice, the apron while it holds fewer than 16, a lane of the forced
choice, and STOW_WAIT with YARD_FULL (R67, R75 to R77). A chosen lane takes the vehicle at the end of its pending list; a join
that is asked for with another tail than the lane's, or of a lane no longer eligible, is refused (R74). A retry round is an
apron pass in apron order, without the vehicles of BLOCKED duties, and a waiting pass in ascending since and then fleet
number, in which a vehicle that finds no place stays as it is; each move is reported, shown at the apron sign and followed by
the duty retry rounds it owes (R79, R80). The bound 4096 of the rounds is the model's (log 11), and so is the turn of a
vehicle that enters STOW_WAIT during the pass (log 52). -/
def Obligations.PlacementStages : Prop :=
  (∀ (k : Site) (f : Nat) (y : Yard),
    (∀ z n, toLane k f false y = some (z, n) → placement k f y = (z, .lane n)) ∧
    (toLane k f false y = none → y.apron.length < 16 →
      placement k f y = (report (setState k f .apron { y with apron := y.apron ++ [f] }), .apron)) ∧
    (toLane k f false y = none → 16 ≤ y.apron.length →
      (∀ z n, toLane k f true y = some (z, n) → placement k f y = (z, .lane n)) ∧
      (toLane k f true y = none →
        placement k f y =
          (raise .yardFull (some f) none (pairedNumber y f) (setState k f .stowWait y), .hold)))) ∧
  (∀ (k : Site) (f n : Nat) (y : Yard) (v : Vehicle) (l : Lane), vehOf y f = some v → tget y.lanes n = some l →
    let joined : Yard := setState k f .stowPending
      (updLane n (fun l => { l with pendings := l.pendings ++ [{ fleet := f, joined := k.now }] }) y)
    (∀ tail, eligible k y v l = true → laneTail y l = tail → requestLane k f n tail y = some joined) ∧
    (∀ tail, eligible k y v l = false ∨ laneTail y l ≠ tail → requestLane k f n tail y = none) ∧
    (∀ forced, chooseLane k y v forced = none → toLane k f forced y = none) ∧
    (∀ forced, tableWf y.lanes → chooseLane k y v forced = some n → toLane k f forced y = some (joined, n))) ∧
  (∀ (k : Site) (y : Yard), retryRound k y = waitingPass k 4096 [] (apronPass k 4096 [] y)) ∧
  (∀ (k : Site) (bound : Nat) (served : List Nat) (y : Yard),
    let stands (g : Nat) : Prop := stateOf y g = some .apron ∧ g ∉ served
    ((∀ g ∈ y.apron, ¬stands g) → apronPass k bound served y = y) ∧
    (∀ before f after, y.apron = before ++ f :: after → stands f → (∀ g ∈ before, ¬stands g) →
      apronPass k (bound + 1) served y = apronPass k bound (f :: served) (apronTurn k f y))) ∧
  (∀ (k : Site) (bound : Nat) (served : List Nat) (y : Yard),
    let waits := (y.roster.filter fun p => p.2.state = .stowWait ∧ p.2.entry.fleet ∉ served).map fun p =>
      (p.2.since.day * 86400 + p.2.since.second, p.2.entry.fleet)
    (waits = [] → waitingPass k bound served y = y) ∧
    (∀ l, InOrder waits l → ∀ f after, l = f :: after →
      waitingPass k (bound + 1) served y = waitingPass k bound (f :: served) (waitTurn k f y))) ∧
  (∀ (k : Site) (f : Nat) (y : Yard),
    let moved (dir : Direction) (z : Yard) : Yard := drainDuty k 4096 (showSign k (optional (setting k 6)) f dir (report z))
    let apron (z : Yard) : Yard := { z with apron := without z.apron f }
    let blocked := ∃ r, pairedDuty y f = some r ∧ r.state = .blocked
    (blocked → apronTurn k f y = y) ∧
    (¬blocked → toLane k f false y = none → apronTurn k f y = y) ∧
    (¬blocked → ∀ z n, toLane k f false y = some (z, n) → apronTurn k f y = moved (.lane n) (apron z)) ∧
    (∀ z n, toLane k f false y = some (z, n) → waitTurn k f y = moved (.lane n) z) ∧
    (toLane k f false y = none → y.apron.length < 16 →
      waitTurn k f y = moved .apron (setState k f .apron { y with apron := y.apron ++ [f] })) ∧
    (toLane k f false y = none → 16 ≤ y.apron.length →
      (∀ z n, toLane k f true y = some (z, n) → waitTurn k f y = moved (.lane n) z) ∧
      (toLane k f true y = none → waitTurn k f y = y)))

/-! ## Loops, lanes and the departing list -/

/-- LOOP_STATE: the concentrator's states are stored, it leaves silence, and its silence timer restarts when the loop map
names it (R47, R49). That a concentrator the loop map does not name is stored without a timer, and that the timer's length is
taken at its start, is the model's choice (log 29). Then the mouths take the report, in ascending number (the model's choice,
log 43): each whose loops the concentrator carries and whose concentrators are out of silence debounces its raw pair state by
R47's table (a candidate is made, replaced, kept or discarded; without a debounce time the raw state is accepted at once), and
the first report after silence hands an accepted CLEAR to an UNCERTAIN tracker (R49). An accepted state starts or stops the
stuck timer and moves the tracker (R48, R50). -/
def Obligations.LoopStateStored : Prop :=
  (∀ (s : State) (f : Frame) (rest : List Frame) (st : Station), LoopHead s f rest st →
    let a := f.src.toNat
    let c : Concentrator :=
      { loops := BitVec.ofNat 16 (u16 f.payload 0)
        timer := if namedIn s.site.mouths a then some (s.site.now + setting s.site 8 * 100) else none
        silent := false }
    let k : Site := { s.site with concentrators := tset s.site.concentrators a c }
    let back := ∃ old, tget s.site.concentrators a = some old ∧ old.silent = true
    (∃ t, exec .loopState s = .next t ∧ t.rx = { s.rx with field := { s.rx.field with ingress := rest } } ∧
      t.site.concentrators = tset s.site.concentrators a c ∧
      t.site.stations = s.site.stations ∧ t.site.clock = s.site.clock ∧ t.site.settings = s.site.settings) ∧
    (∀ b, (b = true ↔ back) →
      let r := (s.site.mouths.map (·.1)).foldl (mouthReport a b) (k, s.yard)
      exec .loopState s = .next (afterField s f rest r.1 r.2 (.bare .processed)))) ∧
  (∀ (a n : Nat) (back : Bool) (k : Site) (y : Yard) (m : Mouth), tget k.mouths n = some m →
    let takes := (m.entry.stationA = a ∨ m.entry.stationB = a) ∧ silentAt k m.entry.stationA = false ∧
      silentAt k m.entry.stationB = false
    let raw := rawState k m.entry
    let ends (c : Option (PairState × Nat)) : Prop :=
      mouthReport a back (k, y) n = ({ k with mouths := tset k.mouths n { m with candidate := c } }, y)
    (¬takes → mouthReport a back (k, y) n = (k, y)) ∧
    (takes →
      (raw = m.accepted → ¬(back = true ∧ raw = .clear ∧ m.tracker = .uncertain) → ends none) ∧
      (raw = m.accepted → back = true → raw = .clear → m.tracker = .uncertain →
        mouthReport a back (k, y) n = accept n .clear k y) ∧
      (raw ≠ m.accepted → m.candidate.map (·.1) = some raw → mouthReport a back (k, y) n = (k, y)) ∧
      (raw ≠ m.accepted → m.candidate.map (·.1) ≠ some raw → m.entry.debounce = .none →
        mouthReport a back (k, y) n = accept n raw k y) ∧
      (raw ≠ m.accepted → m.candidate.map (·.1) ≠ some raw → m.entry.debounce ≠ .none → ends (some (raw, k.now))))) ∧
  (∀ (k : Site) (e : LoopEntry) (a b : Concentrator), tget k.concentrators e.stationA = some a →
    tget k.concentrators e.stationB = some b →
    silentAt k e.stationA = a.silent ∧
    rawState k e = (match a.loops.getLsbD e.indexA, b.loops.getLsbD e.indexB with
      | false, false => .clear
      | true, false => .a
      | true, true => .ab
      | false, true => .b)) ∧
  (∀ (n : Nat) (p : PairState) (k : Site) (y : Yard) (m : Mouth), tget k.mouths n = some m →
    let k' : Site := { k with
      mouths := tset k.mouths n { m with
        accepted := p, candidate := none, stuck := if p = .clear then none else some k.now,
        tracker := (track m.tracker p).1 } }
    ((track m.tracker p).2 = .nothing → accept n p k y = (k', y)) ∧
    ((track m.tracker p).2 = .fault →
      let z := raise .mouthFault none (some (.mouth n)) none y
      (laneOfMouth y n = none → accept n p k y = (k', z)) ∧
      (∀ g l, laneOfMouth y n = some (g, l) → accept n p k y = (k', updLane g (fun l => { l with doubt := true }) z))) ∧
    (∀ q, (track m.tracker p).2 = .passed q → accept n p k y = (k', drain k' (passage k' n q y))))

/-- The passage tracker: from every state CLEAR leads to IDLE; a forward passage is given exactly by CLEAR in F3, a reverse
one exactly by CLEAR in R3, MOUTH_FAULT exactly by CLEAR in F2, R2 and UNCERTAIN; and the tracker goes to or stays in
UNCERTAIN exactly as the table says (R50). -/
def Obligations.TrackerTable : Prop :=
  ∀ (t : Tracker) (p : PairState),
    (p = .clear → (track t p).1 = .idle) ∧
    ((track t p).2 = .passed .forward ↔ t = .f3 ∧ p = .clear) ∧
    ((track t p).2 = .passed .reverse ↔ t = .r3 ∧ p = .clear) ∧
    ((track t p).2 = .fault ↔ p = .clear ∧ (t = .f2 ∨ t = .r2 ∨ t = .uncertain)) ∧
    ((track t p).1 = .uncertain ↔
      (t = .idle ∧ p = .ab) ∨ (t = .f1 ∧ p = .b) ∨ (t = .f3 ∧ p = .a) ∨ (t = .r1 ∧ p = .a) ∨ (t = .r3 ∧ p = .b) ∨
      (t = .uncertain ∧ p ≠ .clear)) ∧
    ((track t p).1 = .f1 ↔ p = .a ∧ (t = .idle ∨ t = .f1 ∨ t = .f2)) ∧
    ((track t p).1 = .f2 ↔ p = .ab ∧ (t = .f1 ∨ t = .f2 ∨ t = .f3)) ∧
    ((track t p).1 = .f3 ↔ p = .b ∧ (t = .f2 ∨ t = .f3)) ∧
    ((track t p).1 = .r1 ↔ p = .b ∧ (t = .idle ∨ t = .r1 ∨ t = .r2)) ∧
    ((track t p).1 = .r2 ↔ p = .ab ∧ (t = .r1 ∨ t = .r2 ∨ t = .r3)) ∧
    ((track t p).1 = .r3 ↔ p = .a ∧ (t = .r2 ∨ t = .r3))

/-- DEBOUNCE_EXPIRY, after the debounce time of 0, 200, 500 or 1000 ms: the candidate becomes the accepted state, the stuck
timer starts or stops, and the tracker moves (R47, R48, R50). STUCK_TIMER_EXPIRY raises LOOP_STUCK and puts the tracker in
UNCERTAIN (R48). SILENCE_TIMER_EXPIRY raises STATION_SILENT, discards candidates, holds accepted states and puts the trackers
of the concentrator's mouths in UNCERTAIN (R49). -/
def Obligations.LoopTimers : Prop :=
  (∀ p ∈ [(Debounce.none, 0), (.ms200, 20), (.ms500, 50), (.ms1000, 100)], debounceTicks p.1 = p.2) ∧
  (∀ (m : Nat) (s : State) (e : Mouth) (p : PairState) (t0 : Nat), tget s.site.mouths m = some e →
    e.candidate = some (p, t0) → t0 + debounceTicks e.entry.debounce ≤ s.site.now →
    let e' : Mouth := { e with
      accepted := p, candidate := none, stuck := if p = .clear then none else some s.site.now,
      tracker := (track e.tracker p).1 }
    let k : Site := { s.site with mouths := tset s.site.mouths m e' }
    ((track e.tracker p).2 = .nothing → exec (.debounceExpiry m) s = .next (afterTimer s k s.yard)) ∧
    ((track e.tracker p).2 = .fault → exec (.debounceExpiry m) s = .next (afterTimer s k (mouthFault m s.yard))) ∧
    (∀ q, (track e.tracker p).2 = .passed q →
      exec (.debounceExpiry m) s = .next (afterTimer s k (drain k (passage k m q s.yard))))) ∧
  (∀ (m : Nat) (s : State) (e : Mouth) (t0 : Nat), tget s.site.mouths m = some e → e.stuck = some t0 →
    t0 + setting s.site 7 * 100 ≤ s.site.now →
    exec (.stuckTimerExpiry m) s = .next
      (afterTimer s
        { s.site with mouths := tset s.site.mouths m { e with stuck := none, tracker := .uncertain } }
        (raise .loopStuck none (some (.mouth m)) none s.yard))) ∧
  (∀ (a : Nat) (s : State) (c : Concentrator) (t0 : Nat), tget s.site.concentrators a = some c → c.timer = some t0 →
    t0 ≤ s.site.now →
    exec (.silenceTimerExpiry a) s = .next
      (afterTimer s
        { s.site with
          concentrators := tmod s.site.concentrators a fun c => { c with timer := none, silent := true }
          mouths := tmap s.site.mouths fun e =>
            if e.entry.stationA = a ∨ e.entry.stationB = a then { e with candidate := none, tracker := .uncertain }
            else e }
        (raise .stationSilent none (some (.station a)) none s.yard)))

/-- The four passages of a mouth of a lane (R51). A forward passage at the entry mouth binds the oldest pending vehicle,
pushes an unidentified entry, or overflows (R52). A reverse one at the exit mouth pushes an unidentified entry at the front:
the most recently directed pending vehicle is displaced when entries and pending then exceed 16, and a CALLED vehicle moved
back from position 1 loses its call (R53). A reverse one at the entry mouth pops the back, whose vehicle goes UNLOCATED, with
a call withdrawn (R54). A forward one at the exit mouth pops the front into a departing entry; a full departing list first
loses its oldest entry (R55, R57). A pop from an empty list raises LANE_UNDERRUN (R51). A notice carries the fleet and the
place its rule names and no other: the LANE_OVERFLOW of a full list has the lane as place at the entry mouth (R52) and no
place at the exit mouth (R53, R155). -/
def Obligations.EntryPush : Prop :=
  (∀ (k : Site) (m n : Nat) (l : Lane) (y : Yard), laneOfMouth y m = some (n, l) →
    (l.entry.entryMouth = m → passage k m .forward y = pushBack k n y ∧ passage k m .reverse y = popBack k n y) ∧
    (l.entry.entryMouth ≠ m → passage k m .forward y = popFront k n y ∧ passage k m .reverse y = pushFront k n y)) ∧
  (∀ (k : Site) (n : Nat) (l : Lane) (y : Yard), tget y.lanes n = some l →
    let items (q : Lane → List LaneItem) (z : Yard) : Yard := updLane n (fun l => { l with items := q l }) z
    let doubt (z : Yard) : Yard := updLane n (fun l => { l with doubt := true }) z
    let unknown (l : Lane) : LaneItem := { vehicle := none, length := l.entry.unknownLength, entered := presentTime k }
    let full (place : Option NoticePlace) : Yard := doubt (raise .laneOverflow none place none y)
    let empty : Yard := doubt (raise .laneUnderrun none (some (.lane n)) none y)
    let front (z : Yard) : Yard := if l.items = [] then report z else z
    let bound (p : PendingItem) : LaneItem :=
      { vehicle := some p.fleet, length := lengthOf y p.fleet, entered := presentTime k }
    let strange (q : Lane → List LaneItem) : Yard := raise .unexpectedEntry none (some (.lane n)) none (doubt (items q y))
    (∀ p rest, l.pendings = p :: rest →
      pushBack k n y = front (report (setState k p.fleet .parked
        (updLane n (fun l => { l with items := l.items ++ [bound p], pendings := rest }) y)))) ∧
    (l.pendings = [] → l.items.length < 16 → pushBack k n y = front (strange fun l => l.items ++ [unknown l])) ∧
    (l.pendings = [] → 16 ≤ l.items.length → pushBack k n y = full (some (.lane n))) ∧
    (16 ≤ l.items.length → pushFront k n y = full none) ∧
    (∀ z, l.items.length < 16 →
      (l.items.length + 1 + l.pendings.length ≤ 16 ∧ z = strange (fun l => unknown l :: l.items) ∨
        16 < l.items.length + 1 + l.pendings.length ∧ ∃ p, l.pendings.getLast? = some p ∧
          z = roomEvent (raise .laneOverflow (some p.fleet) (some (.lane n)) none
            (setState k p.fleet .unlocated
              (updLane n (fun l => { l with pendings := l.pendings.dropLast })
                (strange fun l => unknown l :: l.items))))) →
      (∀ g, frontVehicle l = some g → stateOf z g = some .called →
        pushFront k n y = report (report (setState k g .parked (withdrawCall g z)))) ∧
      ((∀ g, frontVehicle l = some g → stateOf z g ≠ some .called) → pushFront k n y = report z)) ∧
    (l.items = [] → popBack k n y = empty ∧ popFront k n y = empty) ∧
    (∀ i, l.items.getLast? = some i →
      let z := roomEvent (items (·.items.dropLast) y)
      let left (z : Yard) : Yard := if l.items.length = 1 then report z else z
      (i.vehicle = none → popBack k n y = left z) ∧
      (∀ g, i.vehicle = some g →
        (stateOf z g = some .called → popBack k n y = left (setState k g .unlocated (withdrawCall g z))) ∧
        (stateOf z g ≠ some .called → popBack k n y = left (setState k g .unlocated z)))) ∧
    (∀ i rest, l.items = i :: rest →
      let z := joinDeparting k i.vehicle (some n) (roomEvent (items (fun _ => rest) y))
      (i.vehicle = none → popFront k n y = report z) ∧
      (∀ g, i.vehicle = some g → popFront k n y = report (setState k g .departing z)))) ∧
  (∀ (k : Site) (vehicle lane : Option Nat) (y : Yard),
    let joined (z : Yard) : Yard := { z with
      departing := z.departing ++ [{ vehicle := vehicle, lane := lane, popTime := presentTime k, started := k.now }] }
    (y.departing.length < 8 → joinDeparting k vehicle lane y = joined y) ∧
    (8 ≤ y.departing.length → joinDeparting k vehicle lane y = joined (expireDeparting k y)))

/-- PENDING_TIMEOUT: the oldest pending vehicle of the lane leaves its list and goes UNLOCATED, STOW_MISSED is raised, and
room has appeared (R56). TRANSIT_TIMEOUT: the oldest entry is removed and its vehicle goes UNLOCATED; a CALLED duty is settled
as DEPARTED with the unconfirmed mark and leaves the call list; TRANSIT_TIMEOUT is raised (R58). The operations on the yard in
which this and the other statements are written come to what YardOperations and RecordOperations say: a new state with its
since, a notice with its fields, a report and a room event with the round each owes, the boards' call list, the records by
their numbers (R1, R3, R8, R9, R78, R116, R124, R130, R155). -/
def Obligations.CustodyTimeouts : Prop :=
  (∀ (n : Nat) (s : State) (l : Lane) (p : PendingItem) (rest : List PendingItem), tget s.yard.lanes n = some l →
    l.pendings = p :: rest → p.joined + setting s.site 9 * 6000 ≤ s.site.now →
    exec (.pendingTimeout n) s = .next (afterTimer s s.site
      (roomEvent (raise .stowMissed (some p.fleet) (some (.lane n)) none
        (setState s.site p.fleet .unlocated (updLane n (fun l => { l with pendings := rest }) s.yard)))))) ∧
  (∀ (s : State) (e : DepartingItem) (rest : List DepartingItem), s.yard.departing = e :: rest →
    e.started + setting s.site 10 * 6000 ≤ s.site.now →
    let gone (z : Yard) : Yard := raise .transitTimeout e.vehicle (e.lane.map .lane) none z
    let y : Yard := { s.yard with departing := rest }
    (e.vehicle = none → exec .transitTimeout s = .next (afterTimer s s.site (gone y))) ∧
    (∀ f, e.vehicle = some f →
      let z := setState s.site f .unlocated y
      (∀ r, pairedDuty z f = some r → r.state = .called →
        exec .transitTimeout s = .next (afterTimer s s.site
          (gone (leaveCallList r.entry.number
            (updDuty r.entry.number
              (fun r => { r with state := .departed, marks := { r.marks with unconfirmed := true } }) z))))) ∧
      ((∀ r, pairedDuty z f = some r → r.state ≠ .called) →
        exec .transitTimeout s = .next (afterTimer s s.site (gone z))))) ∧
  YardOperations ∧ RecordOperations

/-- CENSUS: the tests of R64 in order, each refusing with its reply and changing nothing, and the census when all pass. The
census drops the vehicles the lane held and the census does not name, takes each named vehicle out of its holder and parks it,
and writes the list, its lengths clamped, with the doubt mark cleared and the status given; room has appeared and the change
is reported (R64). The order in which vehicles are dropped and taken, from the front, is the model's choice (log 44); the room
event and the report are its reading (log 34), and so that there is one room event whatever is removed and also where the lane
opens (log 55). -/
def Obligations.Census : Prop :=
  (∀ (s : State) (f : Frame) (rest : List Frame) (p : List Byte), CommandHead s f rest kindCensus p →
    2 ≤ p.length → p.length ≤ 50 → (p.length - 2) % 3 = 0 →
    let n := u8 p 0
    let entries := censusEntries (p.drop 2)
    let named := entries.filterMap (·.1)
    let badStatus := u8 p 1 ≠ 1 ∧ u8 p 1 ≠ 2
    (n < 1 ∨ 24 < n → exec .census s = .next (afterRefusal s f rest .range)) ∧
    (1 ≤ n → n ≤ 24 → tget s.yard.lanes n = none → exec .census s = .next (afterRefusal s f rest .notFound)) ∧
    (∀ l, 1 ≤ n → n ≤ 24 → tget s.yard.lanes n = some l →
      (badStatus ∨ ¬named.Nodup → exec .census s = .next (afterRefusal s f rest .range)) ∧
      (¬badStatus → named.Nodup → (∃ g ∈ named, vehOf s.yard g = none) →
        exec .census s = .next (afterRefusal s f rest .notFound)) ∧
      (¬badStatus → named.Nodup → (∀ g ∈ named, vehOf s.yard g ≠ none) →
        (l.status = .opened ∨ l.pendings ≠ [] → exec .census s = .next (afterRefusal s f rest .state)) ∧
        (l.status ≠ .opened → l.pendings = [] →
          exec .census s = .next
            (afterOrder s f rest
              (takeCensus s.site n (if u8 p 1 = 1 then .opened else .closed) entries s.yard)
              (if ∀ e ∈ entries, 80 ≤ e.2 ∧ e.2 ≤ 200 then .ok else .okClamped)))))) ∧
  (∀ (k : Site) (n : Nat) (status : LaneStatus) (entries : List CensusEntry) (y : Yard) (l : Lane),
    tget y.lanes n = some l →
    let named := entries.filterMap (·.1)
    let old := (l.items.filterMap (·.vehicle)).filter fun g => g ∉ named
    let dropped := old.foldl (fun z g => setState k g .unlocated (withdrawCall g z))
      (updLane n (fun l => { l with items := [] }) y)
    let taken := named.foldl (fun z g => report (setState k g .parked (takeOut k g (withdrawCall g z)))) dropped
    takeCensus k n status entries y = report (roomEvent (updLane n
      (fun l => { l with
        items := entries.map fun e => { vehicle := e.1, length := max 80 (min 200 e.2), entered := presentTime k }
        doubt := false, status := status })
      taken)))

/-- LANE_SET: a lane outside 1..24 is refused with RANGE, an unloaded one with NOT_FOUND, an order outside the three with
RANGE, and each order acts by the lane's status (R65). That an unloaded lane is tested before the order is the model's choice
(log 57). That an order outside the three is answered by any of the three rows is the model's choice (log 33). A declaration
that an UNVERIFIED lane is empty makes every vehicle of its list UNLOCATED with its call withdrawn, from the front (the
model's choice, log 44), empties the list, clears the doubt mark and opens the lane; the room event, and the report where the
list held an entry, are the model's reading (log 34), and so that there is one room event for the opening and every removal
(log 55). -/
def Obligations.LaneSet : Prop :=
  (∀ (s : State) (f : Frame) (rest : List Frame) (p : List Byte) (c : Instr) (order : Nat),
    (c, order) ∈ [(Instr.laneSetOpen, 1), (.laneSetClose, 2), (.laneSetDeclareEmpty, 3)] →
    CommandHead s f rest kindLaneSet p → p.length = 2 → (u8 p 1 = order ∨ u8 p 1 < 1 ∨ 3 < u8 p 1) →
    let n := u8 p 0
    let reopen : Yard := roomEvent (updLane n (fun l => { l with status := .opened }) s.yard)
    let close : Yard := updLane n (fun l => { l with status := .closed }) s.yard
    (n < 1 ∨ 24 < n → exec c s = .next (afterRefusal s f rest .range)) ∧
    (1 ≤ n → n ≤ 24 → tget s.yard.lanes n = none → exec c s = .next (afterRefusal s f rest .notFound)) ∧
    (∀ l, 1 ≤ n → n ≤ 24 → tget s.yard.lanes n = some l →
      (u8 p 1 ≠ order → exec c s = .next (afterRefusal s f rest .range)) ∧
      (u8 p 1 = 1 → l.status = .opened → exec c s = .next (afterOrder s f rest s.yard .ok)) ∧
      (u8 p 1 = 1 → l.status = .closed → exec c s = .next (afterOrder s f rest reopen .ok)) ∧
      (u8 p 1 = 2 → l.status = .opened → exec c s = .next (afterOrder s f rest close .ok)) ∧
      (u8 p 1 = 2 → l.status = .closed → exec c s = .next (afterOrder s f rest s.yard .ok)) ∧
      (u8 p 1 = 1 ∨ u8 p 1 = 2 → l.status = .unverified → exec c s = .next (afterRefusal s f rest .state)) ∧
      (u8 p 1 = 3 → l.status ≠ .unverified → exec c s = .next (afterRefusal s f rest .state)) ∧
      (u8 p 1 = 3 → l.status = .unverified →
        exec c s = .next (afterOrder s f rest (declareEmpty s.site n s.yard) .ok)))) ∧
  (∀ (k : Site) (n : Nat) (y : Yard) (l : Lane), tget y.lanes n = some l →
    let lost := (l.items.filterMap (·.vehicle)).foldl (fun z g => setState k g .unlocated (withdrawCall g z)) y
    let emptied := roomEvent (updLane n (fun l => { l with items := [], doubt := false, status := .opened }) lost)
    (l.items = [] → declareEmpty k n y = emptied) ∧ (l.items ≠ [] → declareEmpty k n y = report emptied))

/-! ## Refuelling turns -/

/-- VEHICLE_PRESENT in every island state (R89, R90). For the called vehicle the level follows the percent; a limit above 0 is
authorised in pulses, and a limit of 0 ends the turn as an island clear does. A queued vehicle the island accepts takes the
turn of the called one, which goes back to the head of the queue; any other raises WRONG_VEHICLE; a turn's own vehicle is
ignored. The return is a join, refused when the queue is full or no loaded island's mask holds the class (R85); that a refused
vehicle is then marked fuel-skipped and routed on with FUEL_SKIPPED, its direction the annotation's, is the model's choice (log
60). The annotation of an ignored report says not processed: the model's reading of R35 (log 23). The value field is the
percent up to 255 (R5, R163); above, where the manual leaves it open, the percent is a free value (log 40). The report made as
the passed-over vehicle returns to the head of the queue is the model's reading (log 13). A percent of 0..100 gives the level
that share of the tank, rounded down; 101..254 give the tank, and 255 leaves the level as it was (R5). A change of level or
fuel flags owes a duty retry round, and so does one of days since wash or wash flags (R6). The annotation shows the vehicle as
the rounds the frame caused left it, the model's choice (log 53). -/
def Obligations.VehiclePresent : Prop :=
  (∀ (s : State) (f : Frame) (rest : List Frame) (st : Station) (n : Nat) (i : Island), IslandHead s f rest st n 1 i →
    let g := u16 f.payload 1
    let percent := percentOf (u16 f.payload 3)
    let k := s.site
    let ends (y : Yard) (dir : Option Direction) : Prop := exec .vehiclePresent s =
      .next (afterField s f rest k y (processed (some (i.vehicle.getD g)) dir))
    let ignores : Prop := exec .vehiclePresent s =
      .next (afterField s f rest k s.yard (ignored (some (i.vehicle.getD g))))
    let wrong : Yard := raise .wrongVehicle (some g) (some (.island n)) none s.yard
    let queued := g ∈ s.yard.fuelQ ∧ islandAccepts s.yard i g = true
    (i.state = .closed ∨ i.state = .manual → ignores) ∧
    (i.state = .idle → ends wrong none) ∧
    (i.state = .authorized ∨ i.state = .dispensing ∨ i.state = .ending →
      (i.vehicle = some g → ignores) ∧ (i.vehicle ≠ some g → ends wrong none)) ∧
    (i.state = .called → i.vehicle ≠ some g → ¬queued → ends wrong none) ∧
    (∀ c, i.state = .called → i.vehicle = some c → c ≠ g → queued →
      let taken := report (setState k g .fuelling { s.yard with fuelQ := without s.yard.fuelQ g })
      let joinable := taken.fuelQ.length < 16 ∧ ∃ v, vehOf taken c = some v ∧
        ∃ p ∈ taken.islands, inMask p.2.entry.mask v.entry.cls = true
      let turn (y : Yard) := startTurn k n g percent (updIsland n (fun i => { i with vehicle := some g }) y)
      (joinable →
        let a := turn (report (setState k c .fuelWait { taken with fuelQ := c :: without taken.fuelQ c }))
        ends (fuelCalls k a.1) a.2) ∧
      (¬joinable →
        let away := route k i.entry.sign c
          (report (raise .fuelSkipped (some c) none (pairedNumber taken c) (markFuelSkipped c taken)))
        ends (fuelCalls k (turn away.1).1) (some away.2))) ∧
    (∀ v, i.state = .called → i.vehicle = some g →
      let y := readPercent k g percent (updIsland n (fun i => { i with timer := none }) s.yard)
      vehOf y g = some v →
      let litres := min ((classOf k v).tank - v.level.getD 0) (65535 / i.entry.meter)
      (0 < litres →
        ends (islandCmd k n 1 g (litres * i.entry.meter)
          (updIsland n (fun i => { i with
            state := .authorized, turnFactor := i.entry.meter, limit := litres * i.entry.meter, lastCount := 0,
            timer := some (k.now + setting k 13 * 6000) }) y)) none) ∧
      (litres = 0 → let a := completeTurn k n g y; ends a.1 (some a.2)))) ∧
  (∀ (k : Site) (g percent : Nat) (y : Yard),
    readPercent k g percent y =
      updService g (fun v => { v with level := levelFromPercent (classOf k v).tank percent v.level }) y) ∧
  (∀ value, value ≤ 255 → percentOf value = value) ∧
  (∀ (tank percent : Nat) (level : Option Nat),
    (percent ≤ 100 → levelFromPercent tank percent level = some (tank * percent / 100)) ∧
    (101 ≤ percent → percent ≤ 254 → levelFromPercent tank percent level = some tank) ∧
    (255 ≤ percent → levelFromPercent tank percent level = level)) ∧
  (∀ (g : Nat) (change : Vehicle → Vehicle) (y : Yard),
    (vehOf y g = none → updService g change y = y) ∧
    (∀ v, vehOf y g = some v →
      let w := change v
      let fuel := w.level = v.level ∧ w.fuelSkipped = v.fuelSkipped ∧ w.fuelDone = v.fuelDone
      let wash := w.daysSinceWash = v.daysSinceWash ∧ w.washIncomplete = v.washIncomplete ∧ w.washDone = v.washDone
      updService g change y = { y with
        roster := tmap y.roster fun v => if v.entry.fleet = g then change v else v
        todo.dutyRounds := y.todo.dutyRounds + (if fuel then 0 else 1) + (if wash then 0 else 1) }))

/-- NOZZLE_LIFTED: AUTHORIZED goes DISPENSING with the flow-stall timer; in every other state the report is ignored (R91).
METER_COUNT: in AUTHORIZED a count of 0 changes nothing and one above 0 is a lifted nozzle and then a count; in DISPENSING a
count below the last one is ignored, one equal to it changes nothing, one above it becomes the last count and restarts the
flow-stall timer unless stop sent is set, and one that reaches the limit with stop sent clear sends STOP once and stops the
timer; in every other state it is ignored (R91, R92). The annotation of an ignored report says not processed: the model's
reading of R35 (log 23). The annotation shows the vehicle as the rounds the frame caused left it, the model's choice (log 53).
-/
def Obligations.NozzleAndMeter : Prop :=
  ∀ (s : State) (f : Frame) (rest : List Frame) (st : Station) (n : Nat) (i : Island),
    let k := s.site
    let stall := k.now + setting k 14 * 100
    let lifted : Yard := updIsland n (fun i => { i with state := .dispensing, timer := some stall }) s.yard
    let ends (c : Instr) (y : Yard) : Prop :=
      exec c s = .next (afterField s f rest k y (processed i.vehicle none))
    let ignores (c : Instr) : Prop := exec c s = .next (afterField s f rest k s.yard (ignored i.vehicle))
    (IslandHead s f rest st n 2 i →
      (i.state = .authorized → ends .nozzleLifted lifted) ∧ (i.state ≠ .authorized → ignores .nozzleLifted)) ∧
    (IslandHead s f rest st n 3 i →
      let c := u16 f.payload 3
      let counted : Yard := updIsland n
        (fun i => { i with lastCount := c, timer := if i.stopSent then i.timer else some stall }) s.yard
      (i.state = .authorized → c = 0 → ends .meterCount s.yard) ∧
      (i.state = .authorized → 0 < c → ends .meterCount (count k n c lifted)) ∧
      (i.state = .dispensing → c < i.lastCount → ignores .meterCount) ∧
      (i.state = .dispensing → c = i.lastCount → ends .meterCount s.yard) ∧
      (i.state = .dispensing → i.lastCount < c → (c < i.limit ∨ i.stopSent = true) → ends .meterCount counted) ∧
      (i.state = .dispensing → i.lastCount < c → i.limit ≤ c → i.stopSent = false →
        ends .meterCount
          (updIsland n (fun i => { i with timer := none })
            (islandCmd k n 2 (orZero i.vehicle) 0 (updIsland n (fun i => { i with stopSent := true }) counted)))) ∧
      (i.state ≠ .authorized → i.state ≠ .dispensing → ignores .meterCount))

/-- NOZZLE_HUNG in AUTHORIZED and DISPENSING: the final count is first taken as a meter count; then the island goes ENDING
without a timer, and the vehicle's level becomes min(tank, level + floor((last count + floor(k ÷ 2)) ÷ k)), an unknown level
counting as 0. In every other state the report is ignored (R94); its annotation then says not processed: the model's reading
of R35 (log 23). The annotation shows the vehicle as the rounds the frame caused left it, the model's choice (log 53). -/
def Obligations.NozzleHung : Prop :=
  ∀ (s : State) (f : Frame) (rest : List Frame) (st : Station) (n : Nat) (i : Island), IslandHead s f rest st n 4 i →
    let k := s.site
    let c := u16 f.payload 3
    let ends (y : Yard) : Prop := exec .nozzleHung s = .next (afterField s f rest k y (processed i.vehicle none))
    let under := i.state = .authorized ∨ i.state = .dispensing
    (∀ g, under → i.vehicle = some g → c ≤ i.lastCount →
      ends (updService g
        (fun v => { v with
          level := some (min (classOf k v).tank (v.level.getD 0 + (i.lastCount + i.turnFactor / 2) / i.turnFactor)) })
        (updIsland n (fun i => { i with state := .ending, timer := none }) s.yard))) ∧
    (∀ g, under → i.vehicle = some g → i.lastCount < c →
      ends (updService g
        (fun v => { v with
          level := some (min (classOf k v).tank (v.level.getD 0 + (c + i.turnFactor / 2) / i.turnFactor)) })
        (updIsland n (fun i => { i with state := .ending, timer := none }) (count k n c s.yard)))) ∧
    (¬under → exec .nozzleHung s = .next (afterField s f rest k s.yard (ignored i.vehicle)))

/-- ISLAND_CLEAR ends a turn: fuel-done is set, the island goes IDLE, or CLOSED where it was held closed during the turn (log
28), without a vehicle, the vehicle is routed on, and the calling rule runs. In AUTHORIZED and DISPENSING, STOP goes first if
it has not gone and the vehicle is credited; in every other state but ENDING the report is ignored (R95, R99); its annotation
then says not processed: the model's reading of R35 (log 23). The calling rule takes islands 1 to 4 in ascending number: an
IDLE island whose station exists and is in AUTO calls the first queued vehicle whose class its mask holds. The vehicle leaves
the queue and goes FUELLING, which is reported (log 13); the island goes CALLED with it, limit and last count 0, stop sent
clear, and the arrival timer started; and ISLAND n is shown at the island's sign (R9, R87). Any other island calls nothing. An
ISLAND_CMD goes to the island's station unless that is in MANUAL; STOP carries the island's vehicle and goes once a turn (R92,
R163); a credit is that of R94. The annotation shows the vehicle as the rounds the frame caused left it, the model's choice
(log 53). -/
def Obligations.IslandClear : Prop :=
  (∀ (s : State) (f : Frame) (rest : List Frame) (st : Station) (n : Nat) (i : Island), IslandHead s f rest st n 5 i →
    let k := s.site
    let ended (g : Nat) (z : Yard) : Yard × Direction :=
      route k i.entry.sign g (report (updIsland n (fun i => { i with
          state := if i.closeAtEnd then .closed else .idle, vehicle := none, limit := 0, lastCount := 0,
          stopSent := false, timer := none, closeAtEnd := false })
        (updService g (fun v => { v with fuelDone := true }) z)))
    let ends (y : Yard) (dir : Option Direction) : Prop :=
      exec .islandClear s = .next (afterField s f rest k y (processed i.vehicle dir))
    (∀ g, i.vehicle = some g → i.state = .ending →
      ends (fuelCalls k (ended g s.yard).1) (some (ended g s.yard).2)) ∧
    (∀ g, i.vehicle = some g → i.state = .authorized ∨ i.state = .dispensing →
      let z := ended g (credit k i
        (updIsland n (fun i => { i with state := .ending, timer := none }) (stopOnce k n s.yard)))
      ends (fuelCalls k z.1) (some z.2)) ∧
    (i.state ≠ .ending → i.state ≠ .authorized → i.state ≠ .dispensing →
      exec .islandClear s = .next (afterField s f rest k s.yard (ignored i.vehicle)))) ∧
  (∀ (k : Site) (y : Yard), fuelCalls k y = callIsland k (callIsland k (callIsland k (callIsland k y 1) 2) 3) 4) ∧
  (∀ (k : Site) (y : Yard) (n : Nat),
    let run := callIsland k y n
    (tget y.islands n = none → run = y) ∧
    (∀ i, tget y.islands n = some i →
      let may := i.state = .idle ∧ ∃ st, stationOfRole k (.island n) = some st ∧ st.manual = false
      let accepts (g : Nat) : Prop := ∃ v, vehOf y g = some v ∧ inMask i.entry.mask v.entry.cls = true
      (¬may → run = y) ∧
      ((∀ g ∈ y.fuelQ, ¬accepts g) → run = y) ∧
      (∀ before g after, may → y.fuelQ = before ++ g :: after → accepts g → (∀ x ∈ before, ¬accepts x) →
        run = showSign k i.entry.sign g (.island n)
          (updIsland n (fun i => { i with
              state := .called, vehicle := some g, limit := 0, lastCount := 0, stopSent := false,
              timer := some (k.now + setting k 12 * 6000) })
            (report (setState k g .fuelling { y with fuelQ := without y.fuelQ g })))))) ∧
  (∀ (k : Site) (n c g limit : Nat) (y : Yard),
    let run := islandCmd k n c g limit y
    (stationOfRole k (.island n) = none → run = y) ∧
    (∀ st, stationOfRole k (.island n) = some st →
      (inManual k st.entry.address = true → run = y) ∧
      (inManual k st.entry.address = false → run = { y with emits := y.emits ++ [.own .fuelTurn
        { dest := byte st.entry.address, src := byte (ownAddress k), kind := 0x41,
          payload := sent [(1, c), (2, g), (2, limit)] }] }))) ∧
  (∀ (k : Site) (n : Nat) (y : Yard) (i : Island), tget y.islands n = some i →
    (i.stopSent = true → stopOnce k n y = y) ∧
    (i.stopSent = false → stopOnce k n y =
      islandCmd k n 2 (orZero i.vehicle) 0 (updIsland n (fun i => { i with stopSent := true }) y))) ∧
  (∀ (k : Site) (i : Island) (g : Nat) (y : Yard), i.vehicle = some g →
    credit k i y = updService g
      (fun v => { v with
        level := some (min (classOf k v).tank (v.level.getD 0 + (i.lastCount + i.turnFactor / 2) / i.turnFactor)) }) y)

/-- ISLAND_REPORT_FAULT: STOP goes if it has not in AUTHORIZED and DISPENSING, the credit is made in DISPENSING, the island
goes CLOSED, ISLAND_FAULT is raised, and a vehicle it held is routed on fuel-skipped; in CLOSED the report is ignored (R96),
and its annotation says not processed: the model's reading of R35 (log 23). The annotation shows the vehicle as the rounds the
frame caused left it, the model's choice (log 53). -/
def Obligations.IslandReportFault : Prop :=
  ∀ (s : State) (f : Frame) (rest : List Frame) (st : Station) (n : Nat) (i : Island), IslandHead s f rest st n 6 i →
    let k := s.site
    let closed (z : Yard) : Yard :=
      raise .islandFault i.vehicle (some (.island n)) none
        (updIsland n (fun i => { i with
          state := .closed, vehicle := none, limit := 0, lastCount := 0, stopSent := false, timer := none,
          closeAtEnd := false }) z)
    let ends (y : Yard) (dir : Option Direction) : Prop :=
      exec .islandReportFault s = .next (afterField s f rest k y (processed i.vehicle dir))
    let routed (g : Nat) (z : Yard) : Prop :=
      let a := route k i.entry.sign g (report (markFuelSkipped g (closed z)))
      ends a.1 (some a.2)
    (∀ g, i.vehicle = some g →
      (i.state = .called ∨ i.state = .ending → routed g s.yard) ∧
      (i.state = .authorized → routed g (stopOnce k n s.yard)) ∧
      (i.state = .dispensing → routed g (credit k i (stopOnce k n s.yard)))) ∧
    (i.state = .idle → i.vehicle = none → ends (closed s.yard) none) ∧
    (i.state = .closed → exec .islandReportFault s = .next (afterField s f rest k s.yard (ignored i.vehicle)))

/-- The three island timers: a first missed call returns the vehicle to the head of a queue with room whose join test it
passes, or routes it on with FUEL_SKIPPED when the queue is full (R85, R88) or no loaded island's mask holds its class (the
model's reading of R85, log 60); a second, its missed calls having reached 2, is routed on with FUEL_TURN_MISSED; an
authorisation not used is stopped and its vehicle routed on, with stop sent left set until the next call; a flow stall sends
STOP and raises FLOW_STALL (R88, R91, R93). CLOSED in place of IDLE for an island held closed in the turn (log 28), where stop
sent stays set too (log 47), and the report of a missed vehicle's return to the head of the queue (log 13) are the model's. -/
def Obligations.IslandTimers : Prop :=
  ∀ (n : Nat) (s : State) (i : Island) (g t0 : Nat), tget s.yard.islands n = some i → i.vehicle = some g →
    i.timer = some t0 → t0 ≤ s.site.now →
    let k := s.site
    let missed := updIsland n endTurn (updVeh g (fun v => { v with missedCalls := min 2 (v.missedCalls + 1) }) s.yard)
    let second := ∃ v, vehOf missed g = some v ∧ 2 ≤ v.missedCalls
    let routed (z : Yard) : Yard := fuelCalls k (route k i.entry.sign g (report z)).1
    let joinable := missed.fuelQ.length < 16 ∧ ∃ v, vehOf missed g = some v ∧
      ∃ p ∈ missed.islands, inMask p.2.entry.mask v.entry.cls = true
    (i.state = .called → ¬second → joinable →
      exec (.arrivalTimerExpiry n) s = .next
        (afterTimer s k
          (fuelCalls k (report (setState k g .fuelWait { missed with fuelQ := g :: without missed.fuelQ g }))))) ∧
    (i.state = .called → ¬second → ¬joinable →
      exec (.arrivalTimerExpiry n) s = .next
        (afterTimer s k
          (routed (raise .fuelSkipped (some g) none (pairedNumber missed g) (markFuelSkipped g missed))))) ∧
    (i.state = .called → second →
      exec (.arrivalTimerExpiry n) s = .next
        (afterTimer s k
          (routed (raise .fuelTurnMissed (some g) (some (.island n)) none (markFuelSkipped g missed))))) ∧
    (i.state = .authorized →
      exec (.authorisationTimerExpiry n) s = .next
        (afterTimer s k (routed (updIsland n (fun i => { i with
            state := if i.closeAtEnd then .closed else .idle, vehicle := none, limit := 0, lastCount := 0, timer := none,
            closeAtEnd := false })
          (markFuelSkipped g (stopOnce k n s.yard)))))) ∧
    (i.state = .dispensing →
      exec (.flowStallTimerExpiry n) s = .next
        (afterTimer s k
          (raise .flowStall (some g) (some (.island n)) none
            (updIsland n (fun i => { i with timer := none }) (stopOnce k n s.yard)))))

/-! ## Washing lanes -/

/-- The length factor and the stage time, exactly as R107 gives them: F = floor(1024 × Lb ÷ Lref), ceil(base × F ÷ 1024) for a
stage that scales and base for one that does not, clamped to 5..900; and a longer bus is never washed for less. -/
def Obligations.StageTime : Prop :=
  ∀ (lb lref : Nat) (st : Stage), 80 ≤ lb → lb ≤ 200 → 60 ≤ lref → lref ≤ 200 →
    lengthFactor lb lref = 1024 * lb / lref ∧
    409 ≤ lengthFactor lb lref ∧ lengthFactor lb lref ≤ 3413 ∧ (lb = lref → lengthFactor lb lref = 1024) ∧
    (st.scales = true → ∃ t, 1024 * t < st.base * lengthFactor lb lref + 1024 ∧
      st.base * lengthFactor lb lref ≤ 1024 * t ∧ stageTime lb lref st = max 5 (min 900 t)) ∧
    (st.scales = false → stageTime lb lref st = max 5 (min 900 st.base)) ∧
    5 ≤ stageTime lb lref st ∧ stageTime lb lref st ≤ 900 ∧
    (∀ lb', lb ≤ lb' → stageTime lb lref st ≤ stageTime lb' lref st)

/-- VEHICLE_IN_POSITION in every wash lane state (R106, R108): for the called vehicle with its program loaded, the plan is
made, each program stage with its kind and its stage time (R107), and stage 1 ordered; with the program absent, the lane is
freed, WASH_SKIPPED raised and the vehicle routed on. A queued vehicle the lane accepts takes the call of the called one; any
other raises WRONG_VEHICLE; a wash's own vehicle is ignored. The annotation of an ignored report says not processed: the
model's reading of R35 (log 23), and so is the report made as the passed-over vehicle returns to the head of the queue (log
13). That any vehicle, one withdrawn from the lane too, raises WRONG_VEHICLE in IDLE is the model's choice between R108 and
R113 (log 49). The annotation shows the vehicle as the rounds the frame caused left it, the model's choice (log 53). -/
def Obligations.VehicleInPosition : Prop :=
  (∀ (length lref : Nat) (p : List Stage),
    washPlan length lref p = p.map fun s => { kind := s.kind, time := stageTime length lref s }) ∧
  ∀ (s : State) (f : Frame) (rest : List Frame) (st : Station) (n : Nat) (l : WashLane), WashHead s f rest st n 1 l →
    let g := u16 f.payload 1
    let k := s.site
    let ends (y : Yard) (dir : Option Direction) : Prop := exec .vehicleInPosition s =
      .next (afterField s f rest k y (processed (some (l.vehicle.getD g)) dir))
    let ignores : Prop := exec .vehicleInPosition s =
      .next (afterField s f rest k s.yard (ignored (some (l.vehicle.getD g))))
    let wrong : Yard := raise .wrongVehicle (some g) (some (.washLane n)) none s.yard
    let queued := g ∈ s.yard.washQ ∧ washAccepts s.yard l g = true
    (l.state = .closed ∨ l.state = .fault ∨ l.state = .manual → ignores) ∧
    (l.state = .idle → ends wrong none) ∧
    (l.state = .running ∨ l.state = .draining →
      (l.vehicle = some g → ignores) ∧ (l.vehicle ≠ some g → ends wrong none)) ∧
    (l.state = .called → l.vehicle ≠ some g → ¬queued → ends wrong none) ∧
    (∀ c, l.state = .called → l.vehicle = some c → c ≠ g → queued →
      let taken := report (setState k g .washing { s.yard with washQ := without s.yard.washQ g })
      let a := startWash k n g (updWash n (fun l => { l with vehicle := some g })
        (report (setState k c .washWait { taken with washQ := c :: without taken.washQ c })))
      ends (washCalls k a.1) a.2) ∧
    (∀ v, l.state = .called → l.vehicle = some g → vehOf s.yard g = some v →
      (∀ p ps, tget k.programs (classOf k v).washProgram = some (p :: ps) →
        let time := stageTime v.entry.length l.entry.lref p
        ends (washCmd k n 1 1 (stageKindCode p.kind) time
          (updWash n (fun l => { l with
              state := .running, stageIndex := some 1, timer := some (k.now + (time + setting k 16) * 100) })
            (updWash n (fun m => { m with plan := washPlan v.entry.length l.entry.lref (p :: ps) }) s.yard))) none) ∧
      (tget k.programs (classOf k v).washProgram = none →
        let a := route k l.entry.sign g (report (skipAtLane n g (updWash n endWash s.yard)))
        ends (washCalls k a.1) (some a.2)))

/-- STAGE_DONE: with the number of the stage under way the next stage is ordered, or the lane goes DRAINING after the last;
any other report is ignored (R109), and its annotation says not processed: the model's reading of R35 (log 23). The annotation
shows the vehicle as the rounds the frame caused left it, the model's choice (log 53). -/
def Obligations.StageDone : Prop :=
  ∀ (s : State) (f : Frame) (rest : List Frame) (st : Station) (n : Nat) (l : WashLane), WashHead s f rest st n 2 l →
    let j := u8 f.payload 3
    let k := s.site
    let note : Note := processed l.vehicle none
    (∀ p, l.state = .running → l.stageIndex = some j → l.plan[j]? = some p →
      exec .stageDone s = .next
        (afterField s f rest k
          (washCmd k n 1 (j + 1) (stageKindCode p.kind) p.time
            (updWash n (fun l => { l with
              state := .running, stageIndex := some (j + 1),
              timer := some (k.now + (p.time + setting k 16) * 100) }) s.yard)) note)) ∧
    (l.state = .running → l.stageIndex = some j → l.plan[j]? = none →
      exec .stageDone s = .next
        (afterField s f rest k
          (updWash n (fun l => { l with state := .draining, stageIndex := none, timer := none }) s.yard) note)) ∧
    (l.state ≠ .running ∨ l.stageIndex ≠ some j →
      exec .stageDone s = .next (afterField s f rest k s.yard (ignored l.vehicle)))

/-- LANE_CLEAR in DRAINING: days since wash becomes 0 and wash-done is set, the lane is freed, the vehicle routed on and the
calling rule runs. In RUNNING: ABORT goes, and the report is taken as a fault. In every other state it is ignored (R110), and
its annotation says not processed: the model's reading of R35 (log 23). The calling rule takes lane 1 and then lane 2: an IDLE
lane whose station exists and is in AUTO calls the first queued vehicle whose class its mask holds and whose length is not
above its max length. The vehicle leaves the queue and goes WASHING, which is reported (log 13); the lane goes CALLED with it,
without a stage index or a plan, and with the call timer started; and WASH n is shown at the lane's sign (R9, R101, R105). Any
other lane calls nothing. A WASH_CMD goes to the lane's station unless that is in MANUAL (R163). The annotation shows the
vehicle as the rounds the frame caused left it, the model's choice (log 53). -/
def Obligations.LaneClear : Prop :=
  (∀ (s : State) (f : Frame) (rest : List Frame) (st : Station) (n : Nat) (l : WashLane), WashHead s f rest st n 3 l →
    let k := s.site
    let ends (y : Yard) (dir : Option Direction) : Prop :=
      exec .laneClear s = .next (afterField s f rest k y (processed l.vehicle dir))
    (∀ g, l.state = .draining → l.vehicle = some g →
      let a := route k l.entry.sign g (report (updWash n (fun l => { l with
          state := if l.entry.heldClosed then .closed else .idle, stageIndex := none, vehicle := none, plan := [],
          timer := none })
        (updService g (fun v => { v with daysSinceWash := 0, washDone := true }) s.yard)))
      ends (washCalls k a.1) (some a.2)) ∧
    (∀ g, l.state = .running → l.vehicle = some g →
      let a := route k l.entry.sign g (report (markWashIncomplete g
        (raise .washFault (some g) (some (.washLane n)) none
          (updWash n (freeWash .fault) (washCmd k n 2 0 0 0 s.yard)))))
      ends a.1 (some a.2)) ∧
    (l.state ≠ .draining → l.state ≠ .running →
      exec .laneClear s = .next (afterField s f rest k s.yard (ignored l.vehicle)))) ∧
  (∀ (k : Site) (y : Yard), washCalls k y = callWash k (callWash k y 1) 2) ∧
  (∀ (k : Site) (y : Yard) (n : Nat),
    let run := callWash k y n
    (tget y.washLanes n = none → run = y) ∧
    (∀ l, tget y.washLanes n = some l →
      let may := l.state = .idle ∧ ∃ st, stationOfRole k (.wash n) = some st ∧ st.manual = false
      let accepts (g : Nat) : Prop := ∃ v, vehOf y g = some v ∧ inMask l.entry.mask v.entry.cls = true ∧
        v.entry.length ≤ l.entry.maxLength
      (¬may → run = y) ∧
      ((∀ g ∈ y.washQ, ¬accepts g) → run = y) ∧
      (∀ before g after, may → y.washQ = before ++ g :: after → accepts g → (∀ x ∈ before, ¬accepts x) →
        run = showSign k l.entry.sign g (.wash n)
          (updWash n (fun l => { l with
              state := .called, vehicle := some g, stageIndex := none, plan := [],
              timer := some (k.now + setting k 15 * 6000) })
            (report (setState k g .washing { y with washQ := without y.washQ g })))))) ∧
  (∀ (k : Site) (n c stage kind time : Nat) (y : Yard),
    let run := washCmd k n c stage kind time y
    (stationOfRole k (.wash n) = none → run = y) ∧
    (∀ st, stationOfRole k (.wash n) = some st →
      (inManual k st.entry.address = true → run = y) ∧
      (inManual k st.entry.address = false → run = { y with emits := y.emits ++ [.own .washSequencer
        { dest := byte st.entry.address, src := byte (ownAddress k), kind := 0x42,
          payload := sent [(1, c), (1, stage), (1, kind), (2, time)] }] })))

/-- WASH_REPORT_FAULT, STAGE_TIMER_EXPIRY and CALL_TIMER_EXPIRY: a fault or a stage timeout puts the lane in FAULT, raises
WASH_FAULT and routes a vehicle it held on wash-incomplete, the timeout after ABORT; a fault is ignored in CLOSED and FAULT,
its annotation saying not processed (the model's reading of R35, log 23); a first missed call returns the vehicle to the head
of a queue with room, or routes it on with WASH_SKIPPED when the queue is full, and a second, its missed calls having reached
2, routes it on with WASH_SKIPPED naming the lane (R105, R111, R112). The report of a first missed call's return to the head
of the queue is the model's (log 13). The annotation shows the vehicle as the rounds the frame caused left it, the model's
choice (log 53). -/
def Obligations.WashStops : Prop :=
  ∀ (n : Nat) (s : State) (l : WashLane),
    let k := s.site
    let fault (z : Yard) : Yard := raise .washFault l.vehicle (some (.washLane n)) none
      (updWash n (fun l => { l with state := .fault, stageIndex := none, vehicle := none, plan := [], timer := none }) z)
    let stopped (g : Nat) (z : Yard) : Yard × Direction :=
      route k l.entry.sign g (report (markWashIncomplete g (fault z)))
    (∀ f rest st, WashHead s f rest st n 4 l →
      let ends (y : Yard) (dir : Option Direction) : Prop :=
        exec .washReportFault s = .next (afterField s f rest k y (processed l.vehicle dir))
      (∀ g, l.vehicle = some g → l.state = .called ∨ l.state = .running ∨ l.state = .draining →
        ends (stopped g s.yard).1 (some (stopped g s.yard).2)) ∧
      (l.vehicle = none → l.state = .idle → ends (fault s.yard) none) ∧
      (l.state = .closed ∨ l.state = .fault →
        exec .washReportFault s = .next (afterField s f rest k s.yard (ignored l.vehicle)))) ∧
    (∀ g t0, tget s.yard.washLanes n = some l → l.vehicle = some g → l.timer = some t0 → t0 ≤ k.now →
      let missed := updWash n endWash (updVeh g (fun v => { v with missedCalls := min 2 (v.missedCalls + 1) }) s.yard)
      let second := ∃ v, vehOf missed g = some v ∧ 2 ≤ v.missedCalls
      let routed (z : Yard) : Yard := washCalls k (route k l.entry.sign g (report z)).1
      (l.state = .running →
        exec (.stageTimerExpiry n) s = .next (afterTimer s k (stopped g (washCmd k n 2 0 0 0 s.yard)).1)) ∧
      (l.state = .called → ¬second → missed.washQ.length < 16 →
        exec (.callTimerExpiry n) s = .next
          (afterTimer s k
            (washCalls k (report (setState k g .washWait { missed with washQ := g :: without missed.washQ g }))))) ∧
      (l.state = .called → ¬second → 16 ≤ missed.washQ.length →
        exec (.callTimerExpiry n) s = .next
          (afterTimer s k
            (routed (raise .washSkipped (some g) none (pairedNumber missed g) (markWashIncomplete g missed))))) ∧
      (l.state = .called → second →
        exec (.callTimerExpiry n) s = .next
          (afterTimer s k
            (routed (raise .washSkipped (some g) (some (.washLane n)) (pairedNumber missed g)
              (markWashIncomplete g missed))))))

/-! ## Forwarding and office frames -/

/-- UNPROCESSED_FIELD_FRAME: no block takes a frame of an unknown source, of a kind or a length that its station's role does
not send, of an island or wash lane whose station is in MANUAL or whose record is not loaded, or of a sign or a board (R32,
R83, R101, R163). A frame of an unknown source, or of a kind that is no field kind, is forwarded as it came; from a known
source PASS forwards it as it came, ABSORB forwards nothing, and ANNOTATE appends eight bytes without a vehicle to a payload
of at most 48 (R32, R33, R35). An island's or wash lane's report of a code in no table changes nothing either; that it is
unprocessed, with the vehicle the island or wash lane holds in its annotation, is the model's reading of R35 and R163 (log
23). Every field frame ends so, those that were acted on and the repeat reads too: its annotation carries the vehicle, its
state and paired duty as processing left them, the direction and its target, and 0 processed, 1 a repeat or 2 not processed
(R33 to R35, R163). A frame offered to office egress takes a free slot of the 16 that are neither occupied nor reserved; with
none it is dropped and EGRESS_FULL raised with the office port (R29). That the rounds a frame caused come before its
annotation is the model's choice (log 53). -/
def Obligations.UnprocessedFieldFrame : Prop :=
  (∀ (k : Site) (y : Yard) (f : Frame),
    let sends (kind : Byte) (length : Nat) : Prop := f.kind = kind ∧ f.payload.length = length
    classify k y f = .other ↔ stationAt k f.src.toNat = none ∨ ∃ st, stationAt k f.src.toNat = some st ∧
      ((st.entry.role = .gateIn ∨ st.entry.role = .gateOut ∨ st.entry.role = .yard) ∧ ¬sends 0x01 3 ∨
        st.entry.role = .loops ∧ ¬sends 0x02 2 ∨
        (∃ n, st.entry.role = .island n ∧ (¬sends 0x03 5 ∨ st.manual = true ∨ tget y.islands n = none)) ∨
        (∃ n, st.entry.role = .wash n ∧ (¬sends 0x04 4 ∨ st.manual = true ∨ tget y.washLanes n = none)) ∨
        st.entry.role = .sign ∨ st.entry.role = .board)) ∧
  (∀ (s : State) (f : Frame) (rest : List Frame), s.rx.field.ingress = f :: rest →
    classify s.site s.yard f = .other →
    let ends (o : Out) : Prop :=
      exec .unprocessedFieldFrame s = .next { s with rx.field.ingress := rest, out := o }
    (stationAt s.site f.src.toNat = none ∨ 32 ≤ f.kind.toNat → ends (offerForwarded s.site f s.out)) ∧
    (∀ st, stationAt s.site f.src.toNat = some st → f.kind.toNat < 32 →
      (actionFor s.site f.kind.toNat = .pass → ends (offerForwarded s.site f s.out)) ∧
      (actionFor s.site f.kind.toNat = .absorb → ends s.out) ∧
      (actionFor s.site f.kind.toNat = .annotate → f.payload.length ≤ 48 →
        ends (offerForwarded s.site { f with payload := f.payload ++ [0, 0, 0, 0, 0, 0, 0, 2] } s.out)) ∧
      (actionFor s.site f.kind.toNat = .annotate → 48 < f.payload.length → ends (offerForwarded s.site f s.out)))) ∧
  (∀ (s : State) (f : Frame) (rest : List Frame) (st : Station) (n code : Nat) (held : Option Nat),
    (∃ i, IslandHead s f rest st n code i ∧ (code < 1 ∨ 6 < code) ∧ i.vehicle = held) ∨
      (∃ l, WashHead s f rest st n code l ∧ (code < 1 ∨ 4 < code) ∧ l.vehicle = held) →
    let v := held.bind (vehOf s.yard)
    let note : List Byte := bytes2 (orZero held) ++ [byte ((v.map fun v => vehStateCode v.state).getD 0), 0, 0] ++
      bytes2 (orZero (v.bind (·.duty))) ++ [2]
    let ends (o : Out) : Prop :=
      exec .unprocessedFieldFrame s = .next { s with rx.field.ingress := rest, out := o }
    (actionFor s.site f.kind.toNat = .pass → ends (offerForwarded s.site f s.out)) ∧
    (actionFor s.site f.kind.toNat = .absorb → ends s.out) ∧
    (actionFor s.site f.kind.toNat = .annotate →
      ends (offerForwarded s.site { f with payload := f.payload ++ note } s.out))) ∧
  (∀ (f : Frame) (n : Note) (d : Desk),
    let known := stationAt d.site f.src.toNat ≠ none ∧ f.kind.toNat < 32
    let action := (tget d.site.forwarding f.kind.toNat).getD .pass
    let offered (g : Frame) : Prop := forward f n d = { d with out := offerForwarded d.site g d.out }
    let v := n.fleet.bind (vehOf d.yard)
    (¬known → offered f) ∧
    (known → action = .pass → offered f) ∧
    (known → action = .absorb → forward f n d = d) ∧
    (known → action = .annotate → 48 < f.payload.length → offered f) ∧
    (∀ code target did, known → action = .annotate → f.payload.length ≤ 48 →
      ((n.direction, code, target) ∈
        [(none, 0, 0), (some .fuelRoad, 1, 0), (some .washRoad, 2, 0), (some .apron, 6, 0), (some .hold, 7, 0),
         (some .exit, 8, 0)] ∨ (n.direction = some (.island target) ∧ code = 3) ∨
        (n.direction = some (.wash target) ∧ code = 4) ∨ (n.direction = some (.lane target) ∧ code = 5)) →
      (n.disposition, did) ∈ [(.processed, 0), (.repeated, 1), (.unprocessed, 2)] →
      let note := sent
        [(2, n.fleet.getD 0), (1, (v.map fun v => vehStateCode v.state).getD 0), (1, code), (1, target),
         (2, (v.bind (·.duty)).getD 0), (1, did)]
      offered { f with payload := f.payload ++ note })) ∧
  (∀ (k : Site) (f : Frame) (o : Out),
    (o.officeQ.length + o.reserved < 16 →
      offerForwarded k f o = { o with officeQ := o.officeQ ++ [{ cls := .forwarded, frame := f }] }) ∧
    (16 ≤ o.officeQ.length + o.reserved →
      offerForwarded k f o = offerNotice k .egressFull none (some (.port .office none)) none o))

/-- OFFICE_FRAME_TO_FIELD: a frame to a GUARD station in AUTO is dropped with CONTROL_CONFLICT; a frame to a station in MANUAL,
of a role the part does not drive, or unknown, is offered to field egress (R36, R37). A YIELD station in AUTO goes MANUAL; the
part's own frames to it, waiting and held, are removed and the freed slots go to the frames held longest; its island or wash
lane yields; the frame is then offered to field egress, STATION_YIELDED is raised, and what the yield owes runs (R38). A
yielding island goes MANUAL, and its vehicle is routed on fuel-skipped with its level unknown (R98); a yielding wash lane goes
MANUAL, and its vehicle is routed on wash-incomplete (R115). BAD_KIND_COMMAND: a frame to the part that is no command kind is
answered BAD_KIND and changes nothing (R40). A forwarded frame is placed when no frame is held and at least 4 of the 16 slots
are free; otherwise it is dropped and EGRESS_FULL raised with the field port (R27, R28). A command of a length R164 does not
list is answered BAD_LENGTH and changes nothing (R40): that every row of BANK_ACTIVATE, LANE_SET and VEHICLE_SET answers a
wrong length is the model's choice (log 33), and that an empty TABLE_DATA is BAD_LENGTH, also while a commit is in flight, is
its reading of R40 and R152 (log 35). With no free slot for its reply no command is taken: it stays at the head and nothing
changes (R29); nor does a row act when the head is no command of its kind, the model's choice (log 2). A reply and the eleven
result codes are laid out field by field (R29, R36, R40, R164). -/
def Obligations.OfficeFrames : Prop :=
  (∀ (s : State) (f : Frame) (rest : List Frame), s.rx.office.ingress = f :: rest → f.dest.toNat ≠ ownAddress s.site →
    let ends (o : Out) : Prop := exec .officeFrameToField s = .next { s with rx.office.ingress := rest, out := o }
    (stationAt s.site f.dest.toNat = none → ends (offerToField s.site f s.out)) ∧
    (∀ st, stationAt s.site f.dest.toNat = some st →
      (controllable st.entry.role = false ∨ st.manual = true → ends (offerToField s.site f s.out)) ∧
      (controllable st.entry.role = true → st.manual = false → st.entry.policy = .guards →
        ends (offerNotice s.site .controlConflict none (some (.station st.entry.address)) none s.out)) ∧
      (controllable st.entry.role = true → st.manual = false → st.entry.policy = .yields →
        let a := st.entry.address
        let k : Site := { s.site with
          stations := tmap s.site.stations fun x => if x.entry.address = a then { x with manual := true } else x }
        let freed : Out := releaseHeld k s.yard.callList 16
          { s.out with
            fieldQ := s.out.fieldQ.filter fun i => ¬(i.own = true ∧ i.frame.dest.toNat = a)
            held := s.out.held.filter fun h => h.frame.dest.toNat ≠ a }
        let yielded : Yard := match st.entry.role with
          | .island n => yieldIsland k n s.yard
          | .wash n => yieldWash k n s.yard
          | _ => s.yard
        let d := flush { out := freed, site := k, yard := yielded }
        let offered := offerNotice k .stationYielded none (some (.station a)) none (offerToField k f d.out)
        exec .officeFrameToField s = .next
          (({ s with rx.office.ingress := rest }).withDesk (settle { d with out := offered }))))) ∧
  (∀ (k : Site) (n : Nat) (y : Yard) (i : Island), tget y.islands n = some i →
    let z : Yard := updIsland n (fun i => { i with
      state := .manual, vehicle := none, limit := 0, lastCount := 0, stopSent := false, timer := none,
      closeAtEnd := false }) y
    (i.state = .manual → yieldIsland k n y = y) ∧
    (i.state ≠ .manual → i.vehicle = none → yieldIsland k n y = z) ∧
    (∀ g, i.state ≠ .manual → i.vehicle = some g →
      yieldIsland k n y = (route k i.entry.sign g
        (report (updService g (fun v => { v with level := none, fuelSkipped := true }) z))).1)) ∧
  (∀ (k : Site) (n : Nat) (y : Yard) (l : WashLane), tget y.washLanes n = some l →
    let z : Yard := updWash n (fun l => { l with
      state := .manual, stageIndex := none, vehicle := none, plan := [], timer := none }) y
    (l.state = .manual → yieldWash k n y = y) ∧
    (l.state ≠ .manual → l.vehicle = none → yieldWash k n y = z) ∧
    (∀ g, l.state ≠ .manual → l.vehicle = some g →
      yieldWash k n y = (route k l.entry.sign g (report (markWashIncomplete g z))).1)) ∧
  (∀ (s : State) (f : Frame) (rest : List Frame) (kind : Byte) (p : List Byte), CommandHead s f rest kind p →
    kind.toNat < 0x80 ∨ 0x8D < kind.toNat → exec .badKindCommand s = .next (afterRefusal s f rest .badKind)) ∧
  (∀ (k : Site) (f : Frame) (o : Out),
    (o.held = [] → o.fieldQ.length ≤ 12 →
      offerToField k f o = { o with fieldQ := o.fieldQ ++ [{ frame := f, own := false }] }) ∧
    (o.held ≠ [] ∨ 12 < o.fieldQ.length →
      offerToField k f o = offerNotice k .egressFull none (some (.port .field none)) none o)) ∧
  (let rows : List (Instr × Byte × List Nat) :=
     [(.tableOpen, 0x80, [3]), (.tableRead, 0x82, [4]), (.commit, 0x83, [0]), (.bankActivateAtRollover, 0x84, [1]),
      (.bankActivateNow, 0x84, [1]), (.bankActivateCancel, 0x84, [1]), (.time, 0x85, [5]),
      (.census, 0x86, (List.range 17).map fun n => 2 + 3 * n), (.laneSetOpen, 0x87, [2]), (.laneSetClose, 0x87, [2]),
      (.laneSetDeclareEmpty, 0x87, [2]), (.vehicleSetOutOfService, 0x88, [3]), (.vehicleSetClearOutOfService, 0x88, [3]),
      (.vehicleSetMarkUnlocated, 0x88, [3]), (.vehicleSetSendToFuel, 0x88, [3]), (.vehicleSetSendToWash, 0x88, [3]),
      (.dutyCancel, 0x89, [2]), (.dutyCall, 0x8A, [4]), (.stationResume, 0x8B, [1]), (.yardClear, 0x8D, [0])]
   let variable_ : List (Instr × Byte) :=
     [(.tableData, 0x81), (.queryVehicle, 0x8C), (.queryLane, 0x8C), (.queryDuty, 0x8C), (.queryIsland, 0x8C),
      (.queryWash, 0x8C), (.queryQueues, 0x8C), (.queryCalls, 0x8C), (.queryStatus, 0x8C)]
   (∀ (s : State) (f : Frame) (rest : List Frame) (p : List Byte) (c : Instr) (kind : Byte) (lengths : List Nat),
     (c, kind, lengths) ∈ rows → CommandHead s f rest kind p → p.length ∉ lengths →
     exec c s = .next (afterRefusal s f rest .badLength)) ∧
   (∀ (s : State) (f : Frame) (rest : List Frame), CommandHead s f rest 0x81 [] →
     exec .tableData s = .next (afterRefusal s f rest .badLength)) ∧
   (∀ (s : State) (c : Instr) (kind : Byte), (c, kind) ∈ (rows.map fun r => (r.1, r.2.1)) ++ variable_ →
     16 ≤ s.out.officeQ.length + s.out.reserved ∨
       ¬(∃ f rest, s.rx.office.ingress = f :: rest ∧ f.dest.toNat = ownAddress s.site ∧ f.kind = kind) →
     exec c s = .next s) ∧
   ∀ s : State, 16 ≤ s.out.officeQ.length + s.out.reserved → exec .badKindCommand s = .next s) ∧
  ReplyLayout

/-! ## Tables -/

/-- TABLE_OPEN: a table outside the twelve or an index outside the table is refused with RANGE; otherwise its cursor opens at
the index (R146). The shape of every table, the ranges and defaults of the settings and the codes an entry may carry are those
of TableShapes (R145, R148, R154, R164, R165), where a flag reads 0 and 1 alone by the model's choice (log 20); and a table is
read and written place by place. -/
def Obligations.TableOpen : Prop :=
  TableShapes ∧ TableOperations ∧
  (∀ (s : State) (f : Frame) (rest : List Frame) (p : List Byte), CommandHead s f rest kindTableOpen p → p.length = 3 →
    (tableOf (u8 p 0) = none → exec .tableOpen s = .next (afterRefusal s f rest .range)) ∧
    (∀ t, tableOf (u8 p 0) = some t → (u16 p 1 < firstIndex t ∨ endIndex t < u16 p 1) →
      exec .tableOpen s = .next (afterRefusal s f rest .range)) ∧
    (∀ t, tableOf (u8 p 0) = some t → firstIndex t ≤ u16 p 1 → u16 p 1 ≤ endIndex t →
      exec .tableOpen s = .next
        (afterCommand s f rest
          { reservedDesk s with site := { s.site with cursors := tset s.site.cursors (u8 p 0) (u16 p 1) } } .ok [])))

/-- TABLE_DATA: the four tests before the entries, in order; a frame whose cursor stands at the end is refused with TABLE_END;
one forwarding entry is written at the cursor, which advances (R147, R33); and a settings entry is written as the nearest
limit of its range, reported as clamped exactly when the value lies outside (R148, R154). That BUSY and the RANGE of an
unknown table come before BAD_LENGTH at payload length 1 is the model's reading (log 35). The entries of a frame are written
one after another, each with its effects complete before the next, until one is refused or the cursor stands at the end
(R147); a header above 1 is refused with RANGE (R165). What one entry writes, clamps or refuses is said table by table, in the
order of the table codes (R31, R33, R43, R46, R83, R99 to R101, R114, R133, R148 to R150, R154; logs 19, 20, 28, 29, 41, 45,
46, 47). A loop index and a wash program out of range are clamped (log 21); a sign station is any byte (log 22), and setting 6
written present with 0 is absent (log 36); a changed lead or grace reconsiders the duties in the model's order (log 31), and a
duty created past its late minute is late at once (log 32). A roster entry naming a class above 7 is refused with NOT_FOUND,
the model's choice (log 56). What the entries after a change of the own address cause is sent from the new address, the
model's choice (log 59). -/
def Obligations.TableData : Prop :=
  (∀ (s : State) (f : Frame) (rest : List Frame) (p : List Byte), CommandHead s f rest kindTableData p →
    1 ≤ p.length →
    (s.site.commit ≠ none → exec .tableData s = .next (afterRefusal s f rest .busy)) ∧
    (s.site.commit = none → tableOf (u8 p 0) = none → exec .tableData s = .next (afterRefusal s f rest .range)) ∧
    (∀ t, s.site.commit = none → tableOf (u8 p 0) = some t →
      (p.length = 1 ∨ (p.length - 1) % entrySize t ≠ 0 →
        exec .tableData s = .next (afterRefusal s f rest .badLength)) ∧
      (1 < p.length → (p.length - 1) % entrySize t = 0 →
        (tget s.site.cursors (u8 p 0) = none → exec .tableData s = .next (afterRefusal s f rest .noCursor)) ∧
        (tget s.site.cursors (u8 p 0) = some (endIndex t) →
          exec .tableData s = .next
            (afterCommand s f rest
              { reservedDesk s with
                site := { s.site with cursors := tset s.site.cursors (u8 p 0) (endIndex t) } }
              .tableEnd (0 :: bytes2 (endIndex t)))))) ∧
    (∀ b a i, s.site.commit = none → p = [6, 1, b] → actionOf b.toNat = some a →
      tget s.site.cursors 6 = some i → i < 32 →
      exec .tableData s = .next
        (afterCommand s f rest
          (setCursor 6 (i + 1)
            (settle { reservedDesk s with
              site := { s.site with forwarding := tset s.site.forwarding i a } }))
          .ok (1 :: bytes2 (i + 1))))) ∧
  (∀ (n : Nat) (p : List Byte) (d : Desk), n < 23 → n ≠ 6 → u8 p 0 = 1 →
    let lo := (settingRange n).1
    let hi := (settingRange n).2
    ∃ e c, writeEntry .settings n p d = .wrote e c ∧
      setting e.site n = max lo (min hi (u16 p 1)) ∧ (c = true ↔ u16 p 1 < lo ∨ hi < u16 p 1)) ∧
  (∀ (s : State) (f : Frame) (rest : List Frame) (p : List Byte) (t : TableId) (i : Nat),
    CommandHead s f rest kindTableData p → s.site.commit = none → tableOf (u8 p 0) = some t → 1 < p.length →
    (p.length - 1) % entrySize t = 0 → tget s.site.cursors (u8 p 0) = some i →
    let entries := (List.range ((p.length - 1) / entrySize t)).map fun j =>
      (p.drop (1 + entrySize t * j)).take (entrySize t)
    let l := entries.foldl (loadEntry t)
      { desk := reservedDesk s, written := 0, cursor := i, clamped := false, refusal := none }
    exec .tableData s = .next
      (afterCommand s f rest (setCursor (u8 p 0) l.cursor l.desk)
        (match l.refusal with
         | some r => r
         | none => if l.clamped then .okClamped else .ok)
        (byte l.written :: bytes2 l.cursor))) ∧
  (∀ (t : TableId) (l : Load) (p : List Byte),
    (l.refusal ≠ none → loadEntry t l p = l) ∧
    (l.refusal = none → l.cursor = endIndex t → loadEntry t l p = { l with refusal := some .tableEnd }) ∧
    (l.refusal = none → l.cursor ≠ endIndex t →
      (∀ r, writeEntry t l.cursor p l.desk = .refused r → loadEntry t l p = { l with refusal := some r }) ∧
      (∀ d c, writeEntry t l.cursor p l.desk = .wrote d c →
        loadEntry t l p =
          { desk := settle d, written := l.written + 1, cursor := l.cursor + 1, clamped := l.clamped || c,
            refusal := none }))) ∧
  (∀ (t : TableId) (i : Nat) (p : List Byte) (d : Desk), 1 < u8 p 0 → writeEntry t i p d = .refused .range) ∧
  RosterWrites ∧ ClassWrites ∧ LaneWrites ∧ LoopWrites ∧ StationWrites ∧ ForwardingAndProgramWrites ∧ IslandWrites ∧
  WashLaneWrites ∧ SettingWrites ∧ DutyWrites

/-- TABLE_READ: a table, an index or a count out of range is refused with RANGE; otherwise the reply carries the count of
entries asked for or as many as remain, and nothing is written but the number of replies that use free values (R151). That
number, and the free values of the fields of an empty entry, are the model's (log 17), and so is the 0 of a settings entry
that was written present with no station (log 36). Stage slots beyond a program's stages are zeros (R100, R164). Each table's
entry is laid out field by field in EntryLayouts, with the codes of SentCodes (R163 to R165). -/
def Obligations.TableRead : Prop :=
  (∀ (s : State) (f : Frame) (rest : List Frame) (p : List Byte), CommandHead s f rest kindTableRead p → p.length = 4 →
    (tableOf (u8 p 0) = none → exec .tableRead s = .next (afterRefusal s f rest .range)) ∧
    (∀ t, tableOf (u8 p 0) = some t →
      (u16 p 1 < firstIndex t ∨ endIndex t < u16 p 1 ∨ u8 p 3 < 1 ∨ 53 / entrySize t < u8 p 3 →
        exec .tableRead s = .next (afterRefusal s f rest .range)) ∧
      (firstIndex t ≤ u16 p 1 → u16 p 1 ≤ endIndex t → 1 ≤ u8 p 3 → u8 p 3 ≤ 53 / entrySize t →
        let m := min (u8 p 3) (endIndex t - u16 p 1)
        exec .tableRead s = .next
          (afterCommand s f rest
            { reservedDesk s with out := { reserveSlot s.out with openCount := s.out.openCount + 1 } } .ok
            (byte m :: (List.range m).flatMap fun j =>
              entryBytes t s.out.openCount j (u16 p 1 + j) s.desk))))) ∧
  EntryLayouts ∧ SentCodes

/-- COMMIT, COMMIT_COMPLETE and COMMIT_TIMEOUT: the image is taken and the store is INVALID while it is written, with the
reply's slot reserved; completion before 4 s makes the store VALID with the image and answers OK; at 4 s the commit ends with
COMMIT_FAILED and REFUSED STATE, the store as it was, INVALID; a second COMMIT is answered BUSY (R152). -/
def Obligations.CommitCycle : Prop :=
  (∀ (s : State) (f : Frame) (rest : List Frame), CommandHead s f rest kindCommit [] →
    (s.site.commit = none →
      exec .commit s = .next { s with
        rx.office.ingress := rest
        out := reserveSlot s.out
        site := { s.site with
          store := none
          commit := some { started := s.site.now, from_ := f.src, own := f.dest, image := imageOf s.desk } } }) ∧
    (s.site.commit ≠ none → exec .commit s = .next (afterRefusal s f rest .busy))) ∧
  (∀ (s : State) (c : Machine.Commit), s.site.commit = some c →
    (s.site.now < c.started + 400 →
      exec .commitComplete s = .next { s with
        out := putReply (replyFrame c.from_ c.own kindCommit .ok []) s.out
        site := { s.site with store := some c.image, commit := none } }) ∧
    (c.started + 400 ≤ s.site.now →
      exec .commitTimeout s = .next { s with
        out := putReply (replyFrame c.from_ c.own kindCommit .state [])
          (offerNotice { s.site with commit := none } .commitFailed none none none s.out)
        site := { s.site with commit := none } }))

/-! ## Duties -/

/-- Ready for a duty, and at a front (R120). The front is the one lane, OPEN or CLOSED, at whose position 1 the PARKED vehicle
stands, or the apron for a vehicle in APRON that its list holds; it is never the exit. -/
def Obligations.ReadyAndAtFront : Prop :=
  (∀ (v : Vehicle) (d : Duty),
    ready v d = true ↔
      v.entry.outOfService = false ∧ inMask d.entry.mask v.entry.cls = true ∧
      (∃ l, v.level = some l ∧ d.entry.fuel ≤ l) ∧ (d.entry.wash = false ∨ v.daysSinceWash = 0)) ∧
  (∀ (y : Yard) (v : Vehicle),
    ((atFront y v).isSome = true ↔
      (v.state = .parked ∧ ∃ p ∈ y.lanes, (p.2.status = .opened ∨ p.2.status = .closed) ∧
        frontVehicle p.2 = some v.entry.fleet) ∨
      (v.state = .apron ∧ v.entry.fleet ∈ y.apron)) ∧
    let stands (l : Lane) : Prop := (l.status = .opened ∨ l.status = .closed) ∧
      ∃ i rest, l.items = i :: rest ∧ i.vehicle = some v.entry.fleet
    (∀ n, atFront y v = some (.lane n) → v.state = .parked ∧ ∃ l, (n, l) ∈ y.lanes ∧ stands l) ∧
    (∀ before n l after, v.state = .parked → y.lanes = before ++ (n, l) :: after → stands l →
      (∀ p ∈ before ++ after, ¬stands p.2) → atFront y v = some (.lane n)) ∧
    (atFront y v = some .apron ↔ v.state = .apron ∧ v.entry.fleet ∈ y.apron) ∧
    atFront y v ≠ some .exit)

/-- An evaluation: none in FREE, and none of a CALLED, DEPARTED or CANCELLED duty (R121). Otherwise the first row of R121's
table that applies; entering HELD asks the service to hurry or to give up the wash, at once or, for the due events of a
minute, collected (R122). A vehicle whose record shows APRON or CALLED while it stands at no front has no row and is taken as
no vehicle, the model's choice (log 58). An urgent move puts a queued vehicle at the head of its queue, and is ignored for
another (R86, R104). A deferral, ignored likewise, takes the vehicle out of the wash queue, marks it wash-incomplete and runs
the route decision without case 3; a join of the fuel queue is then followed by its urgent move where the duty is HELD and by
the calling rule (R17, R104, log 14). A substitution takes the candidate of latest own departure, the first on a tie, which is
called in the place of the duty's vehicle; without a candidate the duty goes BLOCKED, with the notice when it enters BLOCKED
or its reason changes (R123). A duty retry round evaluates the HELD and BLOCKED duties in ascending departure minute and then
number (R121, R124). Everything an event owes runs at its end: the returned duties whose due minute has come join those to be
evaluated at once, these are evaluated in order, then the duty retry rounds run, then the retry rounds, each with what it owes
(R78, R118, R124, R127; logs 10 and 44; the bound 4096 is log 11). -/
def Obligations.Evaluation : Prop :=
  (∀ (k : Site) (collect : Bool) (d : Nat) (r : Duty) (y : Yard), dutyOf y d = some r →
    let run := evaluate k collect d y
    (k.clock.state = .free → run = y) ∧
    (r.state = .called ∨ r.state = .departed ∨ r.state = .cancelled → run = y) ∧
    (k.clock.state ≠ .free → (r.state = .opened ∨ r.state = .held ∨ r.state = .blocked) →
      (r.vehicle = none → run = substitute k r .noVehicle y) ∧
      (∀ g v, r.vehicle = some g → vehOf y g = some v →
        let held := updDuty d (fun r => { r with state := .held, reason := none }) y
        let urgent (fuel : Bool) : Yard := { held with todo.urgent := held.todo.urgent ++ [(fuel, g)] }
        (∀ stand, atFront y v = some stand → ready v r = true → run = callVehicle k d g stand y) ∧
        (∀ stand, atFront y v = some stand → ready v r = false → run = substitute k r .notReady y) ∧
        (v.state = .departing → run = callInPlace k d g y) ∧
        (v.state = .fuelling ∨ v.state = .washing ∨ v.state = .stowPending → r.state ≠ .held → run = held) ∧
        (v.state = .fuelWait → r.state ≠ .held →
          run = if collect then urgent true else fuelCalls k (fuelUrgent g held)) ∧
        (v.state = .washWait → r.entry.wash = true → r.state ≠ .held →
          run = if collect then urgent false else washCalls k (washUrgent g held)) ∧
        (v.state = .washWait → r.entry.wash = false → r.state ≠ .held →
          run = washCalls k (defer k collect g held)) ∧
        (v.state = .fuelling ∨ v.state = .washing ∨ v.state = .stowPending ∨ v.state = .fuelWait ∨
            v.state = .washWait → r.state = .held → run = y) ∧
        (v.state = .parked → atFront y v = none → run = substitute k r .buried y) ∧
        (v.state = .stowWait ∨ v.state = .unlocated ∨ v.state = .absent → run = substitute k r .noVehicle y) ∧
        (v.state = .apron ∨ v.state = .called → atFront y v = none → run = substitute k r .noVehicle y)))) ∧
  (∀ (k : Site) (r : Duty) (reason : BlockedReason) (y : Yard),
    let d := r.entry.number
    let order := y.apron ++ y.lanes.filterMap fun p => frontVehicle p.2
    let fits (g t : Nat) : Prop := ∃ v, vehOf y g = some v ∧ (atFront y v).isSome = true ∧ ready v r = true ∧
      ((v.duty = none ∧ t = 1440) ∨
        ∃ n e, v.duty = some n ∧ dutyOf y n = some e ∧ e.state = .opened ∧ r.entry.departure < e.entry.departure ∧
          t = e.entry.departure)
    let run := substitute k r reason y
    ((∀ g ∈ order, ∀ t, ¬fits g t) →
      (r.state = .blocked → r.reason = some reason → run = y) ∧
      (r.state ≠ .blocked ∨ r.reason ≠ some reason →
        run = raise .dutyBlocked r.vehicle none (some d)
          (updDuty d (fun r => { r with state := .blocked, reason := some reason }) y))) ∧
    (∀ before c after t keep v stand, order = before ++ c :: after → fits c t →
      (∀ g ∈ before, ∀ u, fits g u → u < t) → (∀ g ∈ after, ∀ u, fits g u → u ≤ t) →
      (keep = true ↔ ∃ w, r.vehicle = some w ∧ stateOf y w ≠ some .absent) →
      let z := raise .swap (some c) none (some d)
        (updDuty d (fun r => { r with marks := { r.marks with swapped := true } }) (exchange c d keep y))
      vehOf y c = some v → atFront y v = some stand → run = callVehicle k d c stand z)) ∧
  (∀ y : Yard, InOrder ((duties y).map fun p => (p.2.entry.departure, p.2.entry.number)) (dutyOrder y)) ∧
  (∀ (k : Site) (y : Yard) (turn : Yard → Nat → Yard),
    (∀ z d, ((∃ r, dutyOf z d = some r ∧ (r.state = .held ∨ r.state = .blocked)) → turn z d = evaluate k false d z) ∧
      ((∀ r, dutyOf z d = some r → r.state ≠ .held ∧ r.state ≠ .blocked) → turn z d = z)) →
    dutyRound k y = (dutyOrder y).foldl turn y) ∧
  (∀ (k : Site) (bound : Nat) (y : Yard),
    (y.todo.lost = [] → y.todo.dutyRounds = 0 → drainDuty k bound y = y) ∧
    (∀ m, y.todo.lost = [] → y.todo.dutyRounds = m + 1 →
      drainDuty k (bound + 1) y = drainDuty k bound (dutyRound k { y with todo.dutyRounds := m })) ∧
    (∀ d rest, y.todo.lost = d :: rest →
      drainDuty k (bound + 1) y = drainDuty k bound (evaluate k false d { y with todo.lost := rest }))) ∧
  (∀ (k : Site) (bound : Nat) (y : Yard),
    let due := y.todo.returned.filter fun d => (dutyOf y d).any fun r => dueMinute k r.entry ≤ presentMinute k
    let z := drainDuty k 4096 { y with todo.returned := [], todo.lost := y.todo.lost ++ due }
    drain k y = drainFor k 4096 y ∧
    (z.todo.roomRounds = 0 → drainFor k (bound + 1) y = z) ∧
    (∀ m, z.todo.roomRounds = m + 1 →
      drainFor k (bound + 1) y = drainFor k bound (retryRound k { z with todo.roomRounds := m }))) ∧
  (∀ (f : Nat) (y : Yard),
    (f ∈ y.fuelQ → fuelUrgent f y = { y with fuelQ := f :: without y.fuelQ f }) ∧
    (f ∉ y.fuelQ → fuelUrgent f y = y) ∧
    (f ∈ y.washQ → washUrgent f y = { y with washQ := f :: without y.washQ f }) ∧
    (f ∉ y.washQ → washUrgent f y = y)) ∧
  (∀ (k : Site) (collect : Bool) (f : Nat) (y : Yard),
    let a := routeCases k (placement k) f
      (updService f (fun v => { v with washIncomplete := true }) { y with washQ := without y.washQ f })
    let z := a.1
    let held := ∃ r, pairedDuty z f = some r ∧ r.state = .held
    let run := defer k collect f y
    (f ∉ y.washQ → run = y) ∧
    (f ∈ y.washQ →
      (a.2 ≠ .fuelRoad → run = z) ∧
      (a.2 = .fuelRoad → ¬held → run = fuelCalls k z) ∧
      (a.2 = .fuelRoad → held → collect = false → run = fuelCalls k (fuelUrgent f z)) ∧
      (a.2 = .fuelRoad → held → collect = true →
        run = fuelCalls k { z with todo.urgent := z.todo.urgent ++ [(true, f)] })))

/-- BANK_ACTIVATE in its three modes (R134): AT_ROLLOVER and CANCEL set and clear the pending activation; NOW is refused while
a duty of the active bank is CALLED, and otherwise runs the bank step with the banks swapped, then the catch-up of a clock
that is not FREE. That a mode outside the three is answered by any of the three rows is the model's choice (log 33). -/
def Obligations.BankActivate : Prop :=
  ∀ (s : State) (f : Frame) (rest : List Frame) (p : List Byte), CommandHead s f rest kindBankActivate p →
    p.length = 1 →
    let called := ∃ e ∈ duties s.yard, e.2.state = .called
    (u8 p 0 = 1 →
      exec .bankActivateAtRollover s = .next (afterOrder s f rest { s.yard with activation := true } .ok)) ∧
    (u8 p 0 = 2 → called → exec .bankActivateNow s = .next (afterRefusal s f rest .state)) ∧
    (u8 p 0 = 2 → ¬called → s.site.clock.state = .free →
      exec .bankActivateNow s = .next (afterOrder s f rest (bankStep s.site true s.yard) .ok)) ∧
    (u8 p 0 = 2 → ¬called → s.site.clock.state ≠ .free →
      exec .bankActivateNow s = .next
        (afterOrder s f rest (catchUp s.site (bankStep s.site true s.yard)) .ok)) ∧
    (u8 p 0 = 3 →
      exec .bankActivateCancel s = .next (afterOrder s f rest { s.yard with activation := false } .ok)) ∧
    (u8 p 0 < 1 ∨ 3 < u8 p 0 → ∀ c ∈ [Instr.bankActivateAtRollover, .bankActivateNow, .bankActivateCancel],
      exec c s = .next (afterRefusal s f rest .range))

/-- The bank step: the banks exchange roles when an activation is pending or NOW asks for it, the pending activation becomes
none, the call list is empty, every duty of both banks is OPEN without reason, marks or call time, and every duty of the
shadow bank is unpaired (R135). In full, in four steps: the roles; every duty of both banks back to OPEN; every vehicle
unpaired, CALL_WITHDRAWN for each duty that was CALLED, in the order of the call list (the model's choice, log 27), its
vehicle, where it is in CALLED, back to APRON or PARKED at its place and reported, the call list emptied and the boards
brought up to date; and pairing at arrival for the vehicles of the apron, the lane lists and then the pending lists in
ascending lane, the fuel queue, the islands, the wash queue and the wash lanes, in that order, each in its own order (R119,
R135). -/
def Obligations.BankStep : Prop :=
  ∀ (k : Site) (swap : Bool) (y : Yard),
    let z := bankStep k swap y
    z.active = (if swap = true ∨ y.activation = true then otherBank y.active else y.active) ∧
    z.activation = false ∧ z.callList = [] ∧
    (∀ e ∈ z.bankA ++ z.bankB, e.2.state = .opened ∧ e.2.reason = none ∧ e.2.callTime = none ∧
      e.2.marks = { late := false, early := false, unconfirmed := false, swapped := false }) ∧
    (∀ e ∈ bankOf z (otherBank z.active), e.2.vehicle = none) ∧
    (let fresh (r : Duty) : Duty :=
       { entry := r.entry, state := .opened, reason := none, vehicle := none,
         marks := { late := false, early := false, unconfirmed := false, swapped := false }, callTime := none }
     let swapped := swap = true ∨ y.activation = true
     let unpaired : Yard := { y with
       active := if swapped then otherBank y.active else y.active
       activation := false
       bankA := tmap y.bankA fresh
       bankB := tmap y.bankB fresh
       roster := tmap y.roster fun v => { v with duty := none } }
     let ended (w : Yard) (l : BoardLine) : Yard :=
       let n := raise .callWithdrawn (some l.fleet) none (some l.duty) w
       if stateOf w l.fleet = some .called then
         report (setState k l.fleet (if l.fleet ∈ w.apron then .apron else .parked) n)
       else n
     let called : Yard := y.callList.foldl ended unpaired
     let emptied : Yard := { called with callList := [], emits := called.emits ++ [.boards []] }
     let order : List Nat := emptied.apron ++ (emptied.lanes.flatMap fun p => p.2.items.filterMap (·.vehicle)) ++
       (emptied.lanes.flatMap fun p => p.2.pendings.map (·.fleet)) ++ emptied.fuelQ ++
       (emptied.islands.filterMap fun p => p.2.vehicle) ++ emptied.washQ ++
       (emptied.washLanes.filterMap fun p => p.2.vehicle)
     z = order.foldl (fun w g => pairArrival g w) emptied)

/-- DUTY_CANCEL (R131): RANGE, NOT_FOUND and STATE in their cases; a cancelled duty stays so; any other is cancelled, its
vehicle unpaired and, when CALLED, stood down, and it leaves the call list. -/
def Obligations.DutyCancel : Prop :=
  ∀ (s : State) (f : Frame) (rest : List Frame) (p : List Byte), CommandHead s f rest kindDutyCancel p →
    p.length = 2 →
    let d := u16 p 0
    (d < 1 ∨ 9999 < d → exec .dutyCancel s = .next (afterRefusal s f rest .range)) ∧
    (1 ≤ d → d ≤ 9999 → dutyOf s.yard d = none → exec .dutyCancel s = .next (afterRefusal s f rest .notFound)) ∧
    (∀ r, 1 ≤ d → d ≤ 9999 → dutyOf s.yard d = some r →
      (r.state = .departed → exec .dutyCancel s = .next (afterRefusal s f rest .state)) ∧
      (r.state = .cancelled → exec .dutyCancel s = .next (afterOrder s f rest s.yard .ok)) ∧
      (r.state ≠ .departed → r.state ≠ .cancelled →
        let free : Yard := match r.vehicle with
          | some g => standDown s.site g (unpairRecords g s.yard)
          | none => s.yard
        exec .dutyCancel s = .next
          (afterOrder s f rest
            (leaveCallList d (updDuty d (fun r => { r with state := .cancelled, reason := none }) free)) .ok)))

/-- DUTY_CALL (R132): the tests in order; the duty's own vehicle is called without exchange, and another takes the duty first.
Taking it is an exchange: both vehicles and the duties are unpaired, the new vehicle is paired with the duty, and the former
one with the new one's former duty where that is allowed. Pairing and unpairing write both records together, and a HELD or
BLOCKED duty that loses its vehicle is to be evaluated at once (R118); the duty is marked swapped and SWAP is raised, without
fields, since R132 names none (R155); a former duty of the new vehicle that is HELD or BLOCKED is then evaluated, and only
after that is the new vehicle called, from the front it stands at (R132); that a vehicle which this evaluation itself has
called away is not called again is the model's choice (log 61). A call makes the duty CALLED with the call time, adds its line
to the call list, makes the vehicle CALLED, shows the call at the front sign or the apron sign, in a SIGN_SHOW laid out field
by field: code 9, the lane or 0, the duty, verify and holdover in bits 0 and 1 (R163), 0 in the bits no field names (log 18),
and brings the boards up to date (R125); a duty called in place, and a direct release, have stand EXIT and no sign (R126), and
a clear verify flag (the model's choice, log 50). A withdrawn call, a vehicle that stands down, and a duty that has left the
yard (R127). The boards are those of the BOARD stations in slot order (log 26); a board in AUTO whose lines all have a slot
comes to show the first N lines of the call list, one BOARD_LINE for each line that differed, in ascending line; where the
slots end before the lines do, the frame of the next line is held and the rest wait; and behind other held frames the lowest
line that differs is held, unless a frame for the board is held already (R28, R130). A BOARD_LINE carries the line's number and
its eight bytes, zeros for an empty line (R163). A board has an image, empty at first, and no other address has (R130). -/
def Obligations.DutyCall : Prop :=
  (∀ (s : State) (f : Frame) (rest : List Frame) (p : List Byte), CommandHead s f rest kindDutyCall p → p.length = 4 →
    let d := u16 p 0
    let g := u16 p 2
    (d < 1 ∨ 9999 < d → exec .dutyCall s = .next (afterRefusal s f rest .range)) ∧
    (1 ≤ d → d ≤ 9999 → (dutyOf s.yard d = none ∨ vehOf s.yard g = none) →
      exec .dutyCall s = .next (afterRefusal s f rest .notFound)) ∧
    (∀ r v, 1 ≤ d → d ≤ 9999 → dutyOf s.yard d = some r → vehOf s.yard g = some v →
      let front := atFront s.yard v
      let barred := s.site.clock.state = .free ∨ ¬(r.state = .opened ∨ r.state = .held ∨ r.state = .blocked) ∨
        front = none ∨ v.entry.outOfService = true ∨ inMask r.entry.mask v.entry.cls = false
      (barred → exec .dutyCall s = .next (afterRefusal s f rest .state)) ∧
      (∀ stand, ¬barred → front = some stand → r.vehicle = some g →
        exec .dutyCall s = .next (afterOrder s f rest (callVehicle s.site d g stand s.yard) .ok)) ∧
      (¬barred → r.vehicle ≠ some g →
        let z := takeDuty s.site g r s.yard
        let stood (stand : Stand) : Prop := ∃ w, vehOf z g = some w ∧ atFront z w = some stand
        (∀ stand, stood stand → exec .dutyCall s = .next (afterOrder s f rest (callVehicle s.site d g stand z) .ok)) ∧
        ((∀ stand, ¬stood stand) → exec .dutyCall s = .next (afterOrder s f rest z .ok))))) ∧
  (∀ (k : Site) (g : Nat) (r : Duty) (y : Yard) (keep : Bool),
    let d := r.entry.number
    (keep = true ↔ (∃ w, r.vehicle = some w ∧ stateOf y w ≠ some .absent) ∧
      ∃ e, pairedDuty y g = some e ∧ (e.state = .opened ∨ e.state = .held ∨ e.state = .blocked)) →
    let z := raise .swap none none none
      (updDuty d (fun r => { r with marks := { r.marks with swapped := true } }) (exchange g d keep y))
    (r.vehicle = some g → takeDuty k g r y = y) ∧
    (r.vehicle ≠ some g → pairedDuty y g = none → takeDuty k g r y = z) ∧
    (∀ e, r.vehicle ≠ some g → pairedDuty y g = some e →
      takeDuty k g r y =
        if dutyStateOf z e.entry.number = some .held ∨ dutyStateOf z e.entry.number = some .blocked then
          evaluate k false e.entry.number z
        else z)) ∧
  (∀ (f d : Nat) (y : Yard),
    pair f d y =
      updDuty d (fun r => { r with vehicle := some f }) (updVeh f (fun v => { v with duty := some d }) y)) ∧
  (∀ (f : Nat) (y : Yard),
    (pairedNumber y f = none → unpairRecords f y = y ∧ unpair f y = y) ∧
    (∀ d, pairedNumber y f = some d →
      let z := updDuty d (fun r => { r with vehicle := none }) (updVeh f (fun v => { v with duty := none }) y)
      unpairRecords f y = z ∧ unpair f y = oweIfWaiting d z)) ∧
  (∀ (d : Nat) (y : Yard),
    let waits := ∃ r, dutyOf y d = some r ∧ (r.state = .held ∨ r.state = .blocked)
    (waits → oweIfWaiting d y = { y with todo.lost := y.todo.lost ++ [d] }) ∧ (¬waits → oweIfWaiting d y = y)) ∧
  (∀ (c d : Nat) (keep : Bool) (y : Yard),
    let freed : Yard := match (dutyOf y d).bind (·.vehicle) with
      | some w => unpairRecords w (unpairRecords c y)
      | none => unpairRecords c y
    (∀ w e, (dutyOf y d).bind (·.vehicle) = some w → pairedNumber y c = some e → keep = true →
      exchange c d keep y = pair w e (pair c d freed)) ∧
    ((dutyOf y d).bind (·.vehicle) = none ∨ pairedNumber y c = none ∨ keep = false →
      exchange c d keep y = pair c d freed)) ∧
  (∀ (k : Site) (d f : Nat) (y : Yard) (r : Duty), dutyOf y d = some r →
    let listed (stand : Stand) (verify : Bool) : Yard :=
      let z := updDuty d (fun r => { r with state := .called, reason := none, callTime := some (presentTime k) }) y
      { z with
        callList := z.callList ++
          [{ duty := d, fleet := f, departure := r.entry.departure, stand := stand, verify := verify }] }
    let show_ (sign : Option Nat) (target : Nat) (verify : Bool) (z : Yard) : Yard := match sign with
      | some a => sendOwn k .departure a 0x40
          (sent [(2, f), (1, 9), (1, target), (2, d), (1, bit verify 0 + bit (k.clock.state == .holdover) 1)]) z
      | none => z
    (∀ n l, tget y.lanes n = some l → callVehicle k d f (.lane n) y =
      boardsChanged (show_ l.entry.frontSign n l.doubt (setState k f .called (listed (.lane n) l.doubt)))) ∧
    callVehicle k d f .apron y =
      boardsChanged (show_ (optional (setting k 6)) 0 false (setState k f .called (listed .apron false))) ∧
    callInPlace k d f y = boardsChanged (listed .exit false) ∧
    directRelease k d f y =
      boardsChanged (setState k f .departing (joinDeparting k (some f) none (listed .exit false)))) ∧
  (∀ (k : Site) (f : Nat) (y : Yard),
    (pairedDuty y f = none → withdrawCall f y = y) ∧
    (∀ r, pairedDuty y f = some r →
      let d := r.entry.number
      let z := leaveCallList d (updDuty d (fun r => { r with state := .opened, callTime := none })
        (raise .callWithdrawn (some f) none (some d) y))
      (r.state ≠ .called → withdrawCall f y = y) ∧
      (r.state = .called → withdrawCall f y = { z with todo.returned := z.todo.returned ++ [d] })) ∧
    (stateOf y f = some .called →
      standDown k f y = report (setState k f (if f ∈ y.apron then .apron else .parked) y)) ∧
    (stateOf y f ≠ some .called → standDown k f y = y)) ∧
  (∀ (d : Nat) (y : Yard),
    let listed := ∃ l ∈ y.callList, l.duty = d
    (listed → leaveCallList d y = boardsChanged { y with callList := y.callList.filter fun l => l.duty ≠ d }) ∧
    (¬listed → leaveCallList d y = y) ∧
    (dutyOf y d = none → settleDuty d y = y) ∧
    (∀ r, dutyOf y d = some r →
      (r.state = .called → settleDuty d y = leaveCallList d (updDuty d (fun r => { r with state := .departed }) y)) ∧
      (r.state = .opened ∨ r.state = .held ∨ r.state = .blocked →
        settleDuty d y =
          updDuty d (fun r => { r with state := .departed, reason := none, marks := { r.marks with early := true } }) y) ∧
      (r.state = .departed ∨ r.state = .cancelled → settleDuty d y = y))) ∧
  (∀ (k : Site) (lines : List BoardLine) (o : Out),
    handOver k o (.boards lines) =
      (((k.stations.filter fun s => s.2.entry.role = .board).map (·.2.entry.address)).foldl (compareBoard k lines)
        (syncImages k o))) ∧
  (∀ (k : Site) (o : Out), ∃ t, syncImages k o = { o with images := t } ∧ ∀ a,
    let board := ∃ p ∈ k.stations, p.2.entry.role = .board ∧ p.2.entry.address = a
    (board → tget t a = some ((tget o.images a).getD (List.replicate 12 .empty))) ∧ (¬board → tget t a = none)) ∧
  (∀ (k : Site) (lines : List BoardLine) (a : Nat) (o : Out) (image : List ImageLine), a < 256 →
    tget o.images a = some image → image.length = 12 →
    let target (i : Nat) : ImageLine := match lines[i]? with
      | some l => if i < setting k 19 then .line l else .empty
      | none => .empty
    let frame (i : Nat) : Frame :=
      { dest := byte a, src := byte (ownAddress k), kind := 0x43,
        payload := sent ((1, i + 1) :: imageLineFields (target i)) }
    let differ := (List.range 12).filter fun i => image[i]? ≠ some (target i)
    (inManual k a = true → compareBoard k lines o a = o) ∧
    (inManual k a = false → o.held = [] → o.fieldQ.length + differ.length ≤ 16 →
      ∃ t, compareBoard k lines o a =
          { o with images := t, fieldQ := o.fieldQ ++ differ.map fun i => { frame := frame i, own := true } } ∧
        tget t a = some ((List.range 12).map target) ∧ ∀ b, b ≠ a → tget t b = tget o.images b) ∧
    let hold (i : Nat) : Held := { block := .departure, frame := frame i, image := some (i, target i) }
    (∀ i rest, inManual k a = false → o.held = [] → 16 ≤ o.fieldQ.length → differ = i :: rest →
      compareBoard k lines o a = { o with held := [hold i] }) ∧
    (∀ before i after, inManual k a = false → o.held = [] → differ = before ++ i :: after →
      o.fieldQ.length + before.length = 16 →
      ∃ t shown, compareBoard k lines o a =
          { o with
            images := t, held := [hold i], fieldQ := o.fieldQ ++ before.map fun j => { frame := frame j, own := true } } ∧
        tget t a = some shown ∧ (∀ j, shown[j]? = if j ∈ before then some (target j) else image[j]?) ∧
        ∀ b, b ≠ a → tget t b = tget o.images b) ∧
    (inManual k a = false → o.held ≠ [] →
      let waits := ∃ h ∈ o.held, h.block = .departure ∧ h.frame.dest.toNat = a
      (waits ∨ differ = [] → compareBoard k lines o a = o) ∧
      (∀ i rest, ¬waits → differ = i :: rest → compareBoard k lines o a = { o with held := o.held ++ [hold i] })))

/-! ## Clock -/

/-- TIME (R137 to R140): the two refusals; an accepted TIME answers OK and leaves the clock LOCKED at the day and second
carried, phase 0, holdover timer started now; the processed minute stays in a step within the day to a minute not beyond it,
and becomes the present minute otherwise. CLOCK_LOCKED is raised first, in FREE and HOLDOVER alone, with the second carried
(R137, R138). From FREE the catch-up of due and late duties runs (R138). A step within the day delivers the minutes after the
processed one, each whole, in ascending order, and nothing when there is none (R139). A step to a later day runs one rollover,
with the rise of every days since wash, the bank step and DAY_ROLLOVER, and then the minutes from 0, while the rounds the
rollover owes wait for their end (R140); that it does so with the clock already at the day and second carried is the model's
reading (log 15). -/
def Obligations.Time : Prop :=
  (∀ (s : State) (f : Frame) (rest : List Frame) (p : List Byte), CommandHead s f rest kindTime p → p.length = 5 →
    let day := u16 p 0
    let second := u24 p 2
    let c := s.site.clock
    let refused := 86399 < second ∨ (c.state ≠ .free ∧ day < c.day)
    let stays := c.state ≠ .free ∧ day = c.day ∧ ∃ m, c.processed = some m ∧ second / 60 ≤ m
    let t := takeTime day second (reservedDesk s)
    let site (m : Option Nat) : Site := { s.site with
      clock := { day := day, second := second, phase := 0, state := .locked, processed := m, holdover := some s.site.now } }
    (refused → exec .time s = .next (afterRefusal s f rest .range)) ∧
    (¬refused →
      exec .time s = .next (afterCommand s f rest t .ok []) ∧
      (stays → t.site = site c.processed) ∧ (¬stays → t.site = site (some (second / 60))))) ∧
  (∀ (day second : Nat) (d : Desk),
    let c := d.site.clock
    let minute := second / 60
    let at_ (m : Option Nat) : Site := { d.site with
      clock := { day := day, second := second, phase := 0, state := .locked, processed := m, holdover := some d.site.now } }
    let k := at_ c.processed
    let told : Out := if c.state = .locked then d.out else offerNotice k .clockLocked none none none d.out
    let ends (y : Yard) : Prop :=
      takeTime day second d = { settle { out := told, site := k, yard := y } with site := at_ (some minute) }
    let minutes (first : Nat) (y : Yard) : Yard := (List.range' first (minute + 1 - first)).foldl (minuteEvent k) y
    (c.state = .free → ends (catchUp k d.yard)) ∧
    (c.state ≠ .free → day ≤ c.day →
      (c.processed = none → ends (minutes 0 d.yard)) ∧
      (∀ m, c.processed = some m → m < minute → ends (minutes (m + 1) d.yard)) ∧
      (∀ m, c.processed = some m → minute ≤ m → takeTime day second d = { out := told, site := k, yard := d.yard })) ∧
    (c.state ≠ .free → c.day < day →
      let aged : Yard := { d.yard with
        roster := tmap d.yard.roster fun v =>
          { v with daysSinceWash := if v.daysSinceWash < 255 then v.daysSinceWash + 1 else 255 }
        todo.dutyRounds :=
          d.yard.todo.dutyRounds + (d.yard.roster.filter fun p => p.2.daysSinceWash < 255).length }
      let rolled := raise .dayRollover none none none (bankStep k false aged)
      let z := minutes 0 { rolled with todo := .none }
      ends (drain k { z with
        todo.lost := rolled.todo.lost ++ z.todo.lost
        todo.returned := rolled.todo.returned ++ z.todo.returned
        todo.dutyRounds := rolled.todo.dutyRounds + z.todo.dutyRounds
        todo.roomRounds := rolled.todo.roomRounds + z.todo.roomRounds })))

/-- YARD_SECOND_ADVANCE: the next second, its phase 0; a FREE clock passes midnight with the day alone and delivers nothing; a
running clock delivers a minute beyond the processed one, and rolls over at midnight (R136, R142, R143). That the command
moves the timebase on by what is left of the second is the model's choice (log 3). A minute event evaluates the OPEN duties
whose due minute it is, in order, each with what it causes, then issues the urgent moves they collected, the last first, then
takes the late events (R117, R121, R122, R142; log 16); a late event marks an OPEN, HELD or BLOCKED duty late with DUTY_LATE,
and raises CALL_OVERDUE for a CALLED one whose vehicle still stands CALLED (R128). A catch-up takes the due duties, then the
late ones not yet marked (R138). A rollover raises every days since wash, runs the bank step, raises DAY_ROLLOVER and delivers
minute 0 (R143). HOLDOVER_TIMER_EXPIRY: LOCKED goes HOLDOVER with CLOCK_HOLDOVER; in HOLDOVER nothing more happens (R141). -/
def Obligations.ClockRuns : Prop :=
  (∀ s : State, s.site.clock.phase < 100 →
    let now := s.site.now + (100 - s.site.clock.phase)
    let c := s.site.clock
    let minute := (c.second + 1) / 60
    let midnight (m : Option Nat) : Site := { s.site with
      now := now
      clock := { c with day := if c.day < 65535 then c.day + 1 else 65535, second := 0, phase := 0, processed := m } }
    let later (m : Option Nat) : Site := { s.site with
      now := now, clock := { c with second := c.second + 1, phase := 0, processed := m } }
    let run := exec .yardSecondAdvance s
    (c.second < 86399 → c.state = .free → run = .next { s with site := later c.processed }) ∧
    (c.second = 86399 → c.state = .free → run = .next { s with site := midnight c.processed }) ∧
    (c.second < 86399 → c.state ≠ .free →
      (∀ m, c.processed = some m → minute ≤ m → run = .next { s with site := later c.processed }) ∧
      ((c.processed = none ∨ ∃ m, c.processed = some m ∧ m < minute) →
        let k := later c.processed
        let d := settle { out := s.out, site := k, yard := minuteEvent k s.yard minute }
        run = .next (s.withDesk { d with site := later (some minute) }))) ∧
    (c.second = 86399 → c.state ≠ .free →
      let k := midnight c.processed
      let aged : Yard := { s.yard with
        roster := tmap s.yard.roster fun v =>
          { v with daysSinceWash := if v.daysSinceWash < 255 then v.daysSinceWash + 1 else 255 }
        todo.dutyRounds :=
          s.yard.todo.dutyRounds + (s.yard.roster.filter fun p => p.2.daysSinceWash < 255).length }
      let d := settle { out := s.out, site := k,
                        yard := deliverAfterRollover k 0 0 (raise .dayRollover none none none (bankStep k false aged)) }
      run = .next (s.withDesk { d with site := midnight (some 0) }))) ∧
  (∀ (k : Site) (e : DutyEntry),
    dueMinute k e = e.departure - e.lead.getD (setting k 17) ∧
    lateMinute k e = min 1439 (e.departure + setting k 18)) ∧
  (∀ (k : Site) (m : Nat) (y : Yard),
    let where_ (z : Yard) (p : Duty → Bool) : List Nat := (dutyOrder z).filter fun d => (dutyOf z d).any p
    let after := (where_ y fun r => dueMinute k r.entry = m).foldl (dueEvent k true) y
    let urgent := drain k (after.todo.urgent.reverse.foldl
      (fun z u => if u.1 then fuelCalls k (fuelUrgent u.2 z) else washCalls k (washUrgent u.2 z))
      { after with todo.urgent := [] })
    let caught := (where_ y fun r => dueMinute k r.entry ≤ presentMinute k).foldl (dueEvent k false) y
    minuteEvent k y m = (where_ urgent fun r => lateMinute k r.entry = m).foldl (fun z d => lateEvent d z) urgent ∧
    catchUp k y = (where_ caught fun r => lateMinute k r.entry ≤ presentMinute k).foldl
      (fun z d => if (dutyOf z d).any (·.marks.late) then z else lateEvent d z) caught) ∧
  (∀ (k : Site) (collect : Bool) (d : Nat) (y : Yard),
    (dutyStateOf y d = some .opened → dueEvent k collect y d = drain k (evaluate k collect d y)) ∧
    (dutyStateOf y d ≠ some .opened → dueEvent k collect y d = y) ∧
    (dutyOf y d = none → lateEvent d y = y) ∧
    (∀ r, dutyOf y d = some r →
      let stands := ∃ g, r.vehicle = some g ∧ stateOf y g = some .called
      (r.state = .opened ∨ r.state = .held ∨ r.state = .blocked →
        lateEvent d y = raise .dutyLate r.vehicle none (some d)
          (updDuty d (fun r => { r with marks := { r.marks with late := true } }) y)) ∧
      (r.state = .called → stands → lateEvent d y = raise .callOverdue r.vehicle none (some d) y) ∧
      (r.state = .called → ¬stands → lateEvent d y = y) ∧
      (r.state = .departed ∨ r.state = .cancelled → lateEvent d y = y))) ∧
  (∀ (s : State) (t0 : Nat), s.site.clock.holdover = some t0 → t0 + setting s.site 20 * 100 ≤ s.site.now →
    let k := { s.site with clock := { s.site.clock with state := .holdover } }
    (s.site.clock.state = .locked →
      exec .holdoverTimerExpiry s = .next
        { s with site := k, out := offerNotice k .clockHoldover none none none s.out }) ∧
    (s.site.clock.state = .holdover → exec .holdoverTimerExpiry s = .next s))

/-! ## Orders on vehicles and stations -/

/-- The five VEHICLE_SET orders: an order outside the five is refused with RANGE, an unknown fleet number with NOT_FOUND, a
state the order does not accept with STATE, and each accepted order has its effect (R19 to R23). That an order outside the
five is answered by any of the five rows is the model's choice (log 33). A vehicle is taken out of the holder it is in (R10).
Out of a lane list: the lane receives the doubt mark, room has appeared, and the change is reported when the vehicle stood at
position 1. Out of a pending list or the apron list: room has appeared. Out of an island: STOP goes in AUTHORIZED and
DISPENSING if it has not gone, the island is freed as at the end of a turn, and the calling rule runs (R97). Out of a wash
lane: ABORT goes in RUNNING, the lane is freed, and the calling rule runs (R113). Out of the departing list or a queue:
nothing more. The report of a service so ended is the model's reading (log 13), and so is CLOSED for an island held closed in
the turn (log 28). -/
def Obligations.VehicleSet : Prop :=
  (∀ (s : State) (f : Frame) (rest : List Frame) (p : List Byte) (c : Instr) (order : Nat),
    (c, order) ∈ [(Instr.vehicleSetOutOfService, 1), (.vehicleSetClearOutOfService, 2), (.vehicleSetMarkUnlocated, 3),
      (.vehicleSetSendToFuel, 4), (.vehicleSetSendToWash, 5)] →
    CommandHead s f rest kindVehicleSet p → p.length = 3 →
    let g := u16 p 0
    let k := s.site
    let y := s.yard
    let refused (r : Result) : Prop := exec c s = .next (afterRefusal s f rest r)
    let ends (z : Yard) : Prop := exec c s = .next (afterOrder s f rest z .ok)
    (u8 p 2 < 1 ∨ 5 < u8 p 2 → refused .range) ∧
    (u8 p 2 = order → vehOf y g = none → refused .notFound) ∧
    (∀ v, u8 p 2 = order → vehOf y g = some v →
      let standing := v.state = .parked ∨ v.state = .apron
      (order = 1 → v.state = .departing → refused .state) ∧
      (order = 1 → v.state ≠ .departing → v.entry.outOfService = false →
        ends (updVeh g (fun v => { v with entry.outOfService := true })
          (unpair g (if v.state = .called then standDown k g (withdrawCall g y) else y)))) ∧
      (order = 2 → v.entry.outOfService = true →
        ends (report (updVeh g (fun v => { v with entry.outOfService := false }) y))) ∧
      (order = 3 → v.state ≠ .unlocated → ends (setState k g .unlocated (takeOut k g (withdrawCall g y)))) ∧
      ((order = 1 ∧ v.state ≠ .departing ∧ v.entry.outOfService = true) ∨
          (order = 2 ∧ v.entry.outOfService = false) ∨ (order = 3 ∧ v.state = .unlocated) → ends y) ∧
      (order = 4 → standing → fuelJoinable y g = true →
        ends (fuelJoined k false g (joinFuel k g
          (updService g (fun v => { v with fuelDone := false, fuelSkipped := false }) (takeOut k g y))))) ∧
      (order = 5 → standing → washJoinable y g = true →
        ends (washJoined k g (joinWash k g
          (updService g (fun v => { v with washDone := false, washIncomplete := false }) (takeOut k g y))))) ∧
      (order = 4 → ¬standing ∨ fuelJoinable y g = false → refused .state) ∧
      (order = 5 → ¬standing ∨ washJoinable y g = false → refused .state))) ∧
  (∀ (k : Site) (g : Nat) (y : Yard),
    let run := takeOut k g y
    (∀ n l, laneHolding y g = some n → tget y.lanes n = some l →
      let z := roomEvent (updLane n
        (fun l => { l with items := l.items.filter fun i => i.vehicle ≠ some g, doubt := true }) y)
      run = if frontVehicle l = some g then report z else z) ∧
    (laneHolding y g = none →
      (∀ n, pendingHolding y g = some n →
        run = roomEvent (updLane n (fun l => { l with pendings := l.pendings.filter fun p => p.fleet ≠ g }) y)) ∧
      (pendingHolding y g = none →
        (∀ n i, islandHolding y g = some n → tget y.islands n = some i →
          let stops := (i.state = .authorized ∨ i.state = .dispensing) ∧ i.stopSent = false
          let freed (z : Yard) : Yard := fuelCalls k (report (updIsland n (fun i => { i with
            state := if i.closeAtEnd then .closed else .idle, vehicle := none, limit := 0, lastCount := 0,
            stopSent := false, timer := none, closeAtEnd := false }) z))
          (stops → run = freed (islandCmd k n 2 (orZero i.vehicle) 0
            (updIsland n (fun i => { i with stopSent := true }) y))) ∧
          (¬stops → run = freed y)) ∧
        (islandHolding y g = none →
          (∀ n l, washHolding y g = some n → tget y.washLanes n = some l →
            let freed (z : Yard) : Yard := washCalls k (report (updWash n (fun l => { l with
              state := if l.entry.heldClosed then .closed else .idle, stageIndex := none, vehicle := none, plan := [],
              timer := none }) z))
            (l.state = .running → run = freed (washCmd k n 2 0 0 0 y)) ∧ (l.state ≠ .running → run = freed y)) ∧
          (washHolding y g = none →
            (g ∈ y.apron → run = roomEvent { y with apron := without y.apron g }) ∧
            (g ∉ y.apron → run = { y with
              departing := y.departing.filter fun e => e.vehicle ≠ some g
              fuelQ := without y.fuelQ g
              washQ := without y.washQ g }))))))

/-- STATION_RESUME (R39): NOT_FOUND without a record, STATE for a role that is not controllable. A controllable station in
MANUAL returns to AUTO: an island goes IDLE, its other fields as they were, and a wash lane to its rest state, and each calls;
a board's lines 1..N are marked unsent, its other lines and every other image kept, and it is compared (R130); a sign changes
nothing more. In AUTO a CLOSED island, or a CLOSED or FAULT wash lane, reopens, and nothing else changes. -/
def Obligations.StationResume : Prop :=
  (∀ (k : Site) (a : Nat) (o : Out), ∃ t, markUnsent k a o = { o with images := t } ∧
    (∀ b, b ≠ a → tget t b = tget o.images b) ∧ (tget o.images a = none → tget t a = none) ∧
    (∀ image, tget o.images a = some image → ∃ marked, tget t a = some marked ∧ marked.length = image.length ∧
      ∀ i < image.length, marked[i]? = if i < setting k 19 then some .unsent else image[i]?)) ∧
  ∀ (s : State) (f : Frame) (rest : List Frame) (p : List Byte), CommandHead s f rest kindStationResume p →
    p.length = 1 →
    let y := s.yard
    let ends (d : Desk) : Prop := exec .stationResume s = .next (afterCommand s f rest (settle d) .ok [])
    (stationAt s.site (u8 p 0) = none → exec .stationResume s = .next (afterRefusal s f rest .notFound)) ∧
    (∀ st, stationAt s.site (u8 p 0) = some st →
      let k : Site := { s.site with
        stations := tmap s.site.stations fun x =>
          if x.entry.address = st.entry.address then { x with manual := false } else x }
      let auto : Desk := { reservedDesk s with site := k }
      (controllable st.entry.role = false → exec .stationResume s = .next (afterRefusal s f rest .state)) ∧
      (st.manual = true →
        (∀ n, st.entry.role = .island n →
          ends { auto with yard := fuelCalls k (updIsland n (fun i => { i with state := .idle }) y) }) ∧
        (∀ n, st.entry.role = .wash n → ends { auto with yard := washCalls k (updWash n endWash y) }) ∧
        (st.entry.role = .board →
          ends { auto with out := markUnsent k st.entry.address (reserveSlot s.out), yard := boardsChanged y }) ∧
        (st.entry.role = .sign → ends auto)) ∧
      (st.manual = false →
        (∀ n i, st.entry.role = .island n → tget y.islands n = some i → i.state = .closed →
          ends { reservedDesk s with yard := fuelCalls s.site (updIsland n (fun i => { i with state := .idle }) y) }) ∧
        (∀ n i, st.entry.role = .island n → tget y.islands n = some i → i.state ≠ .closed → ends (reservedDesk s)) ∧
        (∀ n l, st.entry.role = .wash n → tget y.washLanes n = some l → (l.state = .closed ∨ l.state = .fault) →
          ends { reservedDesk s with yard := washCalls s.site (updWash n endWash y) }) ∧
        (∀ n l, st.entry.role = .wash n → tget y.washLanes n = some l → l.state ≠ .closed → l.state ≠ .fault →
          ends (reservedDesk s)) ∧
        (st.entry.role = .sign ∨ st.entry.role = .board → ends (reservedDesk s))))

/-! ## Queries, frames and yard clear -/

/-- QUERY (R159, R160, R164): the data of each variant for arguments in range that name a record; a variant outside the eight,
an argument outside its range and a length that is not the variant's are refused, and so is a record that does not exist. The
model's choices: the bytes without a stated value and their count (log 17), the test of the variant before that of its length
(log 19), any row for a variant or length no row fits (log 33), the control mode byte (log 37), and the ranges before the
record (log 48). The data of each reply is laid out field by field in QueryLayouts, with the codes of SentCodes (R163, R164),
and a bit no field names is 0 (log 18). -/
def Obligations.QueriesAnswer : Prop :=
  (∀ (s : State) (f : Frame) (rest : List Frame) (p : List Byte), CommandHead s f rest kindQuery p →
    let n := s.out.openCount
    let d : Desk := { reservedDesk s with out := { reserveSlot s.out with openCount := n + 1 } }
    let gives (c : Instr) (data : List Byte) : Prop := exec c s = .next (afterCommand s f rest d .ok data)
    let refuses (c : Instr) (r : Result) : Prop := exec c s = .next (afterCommand s f rest d r [])
    let seven : List Instr :=
      [.queryVehicle, .queryLane, .queryDuty, .queryIsland, .queryWash, .queryQueues, .queryCalls]
    (1 ≤ p.length → p.length ≤ 4 → (u8 p 0 < 1 ∨ 8 < u8 p 0) → (∀ c ∈ seven, refuses c .range) ∧
      exec .queryStatus s = .next (afterRefusal s f rest .range)) ∧
    (p.length < 1 ∨ 4 < p.length → ∀ c ∈ .queryStatus :: seven, exec c s = .next (afterRefusal s f rest .badLength)) ∧
    (1 ≤ p.length → p.length ≤ 4 →
      (∀ c variant length, (c, variant, length) ∈ [(Instr.queryVehicle, 1, 3), (.queryLane, 2, 3), (.queryDuty, 3, 4),
          (.queryIsland, 4, 2), (.queryWash, 5, 2), (.queryQueues, 6, 2), (.queryCalls, 7, 2)] →
        u8 p 0 = variant → p.length ≠ length → refuses c .badLength) ∧
      (u8 p 0 = 8 → p.length ≠ 1 → exec .queryStatus s = .next (afterRefusal s f rest .badLength))) ∧
    (p.length = 3 → u8 p 0 = 1 →
      (u16 p 1 < 1 ∨ 65534 < u16 p 1 → refuses .queryVehicle .range) ∧
      (1 ≤ u16 p 1 → u16 p 1 ≤ 65534 → vehOf s.yard (u16 p 1) = none → refuses .queryVehicle .notFound) ∧
      (∀ v, 1 ≤ u16 p 1 → u16 p 1 ≤ 65534 → vehOf s.yard (u16 p 1) = some v →
        gives .queryVehicle (vehicleBytes n s.yard v))) ∧
    (p.length = 3 → u8 p 0 = 2 →
      (u8 p 1 < 1 ∨ 24 < u8 p 1 ∨ u8 p 2 < 1 ∨ 2 < u8 p 2 → refuses .queryLane .range) ∧
      (1 ≤ u8 p 1 → u8 p 1 ≤ 24 → 1 ≤ u8 p 2 → u8 p 2 ≤ 2 → tget s.yard.lanes (u8 p 1) = none →
        refuses .queryLane .notFound) ∧
      (∀ l, 1 ≤ u8 p 1 → u8 p 1 ≤ 24 → tget s.yard.lanes (u8 p 1) = some l →
        (u8 p 2 = 1 → gives .queryLane (lanePart1 n s.site s.yard l)) ∧
        (u8 p 2 = 2 → gives .queryLane (lanePart2 n s.site l)))) ∧
    (p.length = 4 → u8 p 0 = 3 →
      let bank := if u8 p 1 = 1 then s.yard.bankA else s.yard.bankB
      (u8 p 1 < 1 ∨ 2 < u8 p 1 ∨ u16 p 2 < 1 ∨ 9999 < u16 p 2 → refuses .queryDuty .range) ∧
      (1 ≤ u8 p 1 → u8 p 1 ≤ 2 → 1 ≤ u16 p 2 → u16 p 2 ≤ 9999 →
        (dutyIn bank (u16 p 2) = none → refuses .queryDuty .notFound) ∧
        (∀ r, dutyIn bank (u16 p 2) = some r → gives .queryDuty (dutyBytes n s.site r)))) ∧
    (p.length = 2 → u8 p 0 = 4 →
      (u8 p 1 < 1 ∨ 4 < u8 p 1 → refuses .queryIsland .range) ∧
      (1 ≤ u8 p 1 → u8 p 1 ≤ 4 → tget s.yard.islands (u8 p 1) = none → refuses .queryIsland .notFound) ∧
      (∀ i, 1 ≤ u8 p 1 → u8 p 1 ≤ 4 → tget s.yard.islands (u8 p 1) = some i →
        gives .queryIsland (islandBytes s.site (u8 p 1) i))) ∧
    (p.length = 2 → u8 p 0 = 5 →
      (u8 p 1 < 1 ∨ 2 < u8 p 1 → refuses .queryWash .range) ∧
      (1 ≤ u8 p 1 → u8 p 1 ≤ 2 → tget s.yard.washLanes (u8 p 1) = none → refuses .queryWash .notFound) ∧
      (∀ l, 1 ≤ u8 p 1 → u8 p 1 ≤ 2 → tget s.yard.washLanes (u8 p 1) = some l →
        gives .queryWash (washBytes n s.site (u8 p 1) l))) ∧
    (p.length = 2 → u8 p 0 = 6 →
      (u8 p 1 < 1 ∨ 3 < u8 p 1 → refuses .queryQueues .range) ∧
      (∀ l, (u8 p 1 = 1 ∧ l = s.yard.fuelQ ∨ u8 p 1 = 2 ∧ l = s.yard.washQ ∨ u8 p 1 = 3 ∧ l = s.yard.apron) →
        gives .queryQueues ([byte (u8 p 1), byte l.length] ++ l.flatMap bytes2))) ∧
    (p.length = 2 → u8 p 0 = 7 →
      (u8 p 1 < 1 ∨ 2 < u8 p 1 → refuses .queryCalls .range) ∧
      (u8 p 1 = 1 → gives .queryCalls (byte s.yard.callList.length :: sixLines s.yard.callList 0)) ∧
      (u8 p 1 = 2 → gives .queryCalls (byte s.yard.callList.length :: sixLines s.yard.callList 6))) ∧
    (p.length = 1 → u8 p 0 = 8 →
      exec .queryStatus s = .next
        (afterCommand s f rest
          { reservedDesk s with out := { reserveSlot s.out with overflow := false } } .ok (statusBytes s.desk)))) ∧
  QueryLayouts ∧ SentCodes

/-- The frame of the queries, of TABLE_READ and of the link commands: the site and the yard are as they were, and so is
everything of the link side the command does not name (R24, R27, R30, R151, R159): for a query and TABLE_READ all but the
office ingress and egress queues, the reserved slots, the model's reply count and, for QUERY_STATUS, the overflow flag; for
FIELD_EGRESS_SEND the office side; for OFFICE_EGRESS_SEND and NOTICE_HOLD_EXPIRY the field side; for a byte or a gap at one
port the other port, and of the sending side all but the notices, their overflow flag and the batch they may form. -/
def Obligations.SiteAndYardKept : Prop :=
  ∀ (s t : State),
    (∀ c ∈ [Instr.queryVehicle, .queryLane, .queryDuty, .queryIsland, .queryWash, .queryQueues, .queryCalls,
        .queryStatus, .tableRead], exec c s = .next t →
      t.pending = s.pending ∧ t.site = s.site ∧ t.yard = s.yard ∧ t.rx.field = s.rx.field ∧
      t.out.fieldQ = s.out.fieldQ ∧ t.out.held = s.out.held ∧ t.out.notices = s.out.notices ∧
      t.out.images = s.out.images ∧ t.out.fieldTx = s.out.fieldTx ∧ t.out.officeTx = s.out.officeTx ∧
      t.out.runCount = s.out.runCount ∧ (c ≠ .queryStatus → t.out.overflow = s.out.overflow) ∧
      t.rx.rate = s.rx.rate ∧ t.rx.office.assembly = s.rx.office.assembly) ∧
    (∀ c ∈ [Instr.fieldEgressSend, .officeEgressSend, .noticeHoldExpiry], exec c s = .next t →
      t.pending = s.pending ∧ t.site = s.site ∧ t.yard = s.yard ∧ t.rx = s.rx ∧ t.out.reserved = s.out.reserved ∧
      t.out.overflow = s.out.overflow) ∧
    (exec .fieldEgressSend s = .next t →
      t.out.officeQ = s.out.officeQ ∧ t.out.runCount = s.out.runCount ∧ t.out.notices = s.out.notices ∧
      t.out.officeTx = s.out.officeTx ∧ t.out.openCount = s.out.openCount) ∧
    (∀ c ∈ [Instr.officeEgressSend, .noticeHoldExpiry], exec c s = .next t →
      t.out.fieldQ = s.out.fieldQ ∧ t.out.held = s.out.held ∧ t.out.images = s.out.images ∧
      t.out.fieldTx = s.out.fieldTx) ∧
    (exec .noticeHoldExpiry s = .next t → t.out.runCount = s.out.runCount ∧ t.out.officeTx = s.out.officeTx) ∧
    (∀ p b, exec (.rxByte p b) s = .next t ∨ exec (.receiveGapTimeout p) s = .next t →
      t.pending = s.pending ∧ t.site = s.site ∧ t.yard = s.yard ∧ t.rx.rate = s.rx.rate ∧
      (p = .field → t.rx.office = s.rx.office) ∧ (p = .office → t.rx.field = s.rx.field) ∧
      t.out.fieldQ = s.out.fieldQ ∧ t.out.held = s.out.held ∧ t.out.images = s.out.images ∧
      t.out.fieldTx = s.out.fieldTx ∧ t.out.officeTx = s.out.officeTx ∧ t.out.runCount = s.out.runCount ∧
      t.out.reserved = s.out.reserved)

/-- The frame of the service reports and of every yard timer: the site, the office port's receiving side, both assemblies and
the rate are as they were. And where a row's premise does not hold the row changes nothing: a field row whose frame is not at
the head, an office row whose kind, code or variant another row takes (the model's choice, log 2), and a timer before its
expiry, COMMIT_COMPLETE from 4 s on and COMMIT_TIMEOUT before (the model's reading, log 4). -/
def Obligations.ReportsFrame : Prop :=
  (∀ (c : Instr) (s t : State),
    (c ∈ [Instr.vehiclePresent, .nozzleLifted, .meterCount, .nozzleHung, .islandClear, .islandReportFault,
        .vehicleInPosition, .stageDone, .laneClear, .washReportFault, .transitTimeout] ∨
      (∃ n, c ∈ [Instr.arrivalTimerExpiry n, .authorisationTimerExpiry n, .flowStallTimerExpiry n, .callTimerExpiry n,
        .stageTimerExpiry n, .pendingTimeout n])) →
    exec c s = .next t →
    t.pending = s.pending ∧ t.site = s.site ∧ t.rx.office = s.rx.office ∧ t.rx.rate = s.rx.rate ∧
    t.rx.field.assembly = s.rx.field.assembly ∧
    (t.rx.field.ingress = s.rx.field.ingress ∨ t.rx.field.ingress = s.rx.field.ingress.tail)) ∧
  (∀ s : State,
    let keeps (c : Instr) : Prop := exec c s = .next s
    let tag := ∃ g rest st, TagHead s g rest st
    let loop := ∃ g rest st, LoopHead s g rest st
    let island (code : Nat) : Prop := ∃ g rest st n i, IslandHead s g rest st n code i
    let wash (code : Nat) : Prop := ∃ g rest st n l, WashHead s g rest st n code l
    (¬tag → keeps .tagRead) ∧ (¬loop → keeps .loopState) ∧
    (∀ c code, (c, code) ∈ [(Instr.vehiclePresent, 1), (.nozzleLifted, 2), (.meterCount, 3), (.nozzleHung, 4),
        (.islandClear, 5), (.islandReportFault, 6)] → ¬island code → keeps c) ∧
    (∀ c code, (c, code) ∈ [(Instr.vehicleInPosition, 1), (.stageDone, 2), (.laneClear, 3), (.washReportFault, 4)] →
      ¬wash code → keeps c) ∧
    (s.rx.field.ingress = [] ∨ tag ∨ loop ∨ (∃ code, 1 ≤ code ∧ code ≤ 6 ∧ island code) ∨
        (∃ code, 1 ≤ code ∧ code ≤ 4 ∧ wash code) → keeps .unprocessedFieldFrame)) ∧
  (∀ s : State,
    let keeps (c : Instr) : Prop := exec c s = .next s
    let k := s.site
    let now := k.now
    (s.out.fieldQ = [] → keeps .fieldEgressSend) ∧
    (s.out.officeQ = [] → keeps .officeEgressSend) ∧
    ((∀ n l, s.out.notices = n :: l → now < n.joined + setting k 22 * 100) → keeps .noticeHoldExpiry) ∧
    (∀ m, (∀ x st t, tget k.mouths m = some x → x.candidate = some (st, t) → now < t + debounceTicks x.entry.debounce) →
      keeps (.debounceExpiry m)) ∧
    (∀ m, (∀ x t, tget k.mouths m = some x → x.stuck = some t → now < t + setting k 7 * 100) →
      keeps (.stuckTimerExpiry m)) ∧
    (∀ a, (∀ c t, tget k.concentrators a = some c → c.timer = some t → now < t) → keeps (.silenceTimerExpiry a)) ∧
    (∀ n, (∀ l p rest, tget s.yard.lanes n = some l → l.pendings = p :: rest → now < p.joined + setting k 9 * 6000) →
      keeps (.pendingTimeout n)) ∧
    ((∀ e rest, s.yard.departing = e :: rest → now < e.started + setting k 10 * 6000) → keeps .transitTimeout) ∧
    (∀ n c state, (c, state) ∈ [(Instr.arrivalTimerExpiry n, IslandState.called),
        (.authorisationTimerExpiry n, .authorized), (.flowStallTimerExpiry n, .dispensing)] →
      (∀ i t, tget s.yard.islands n = some i → i.timer = some t → i.state = state → now < t) → keeps c) ∧
    (∀ n c state, (c, state) ∈ [(Instr.callTimerExpiry n, WashState.called), (.stageTimerExpiry n, .running)] →
      (∀ l t, tget s.yard.washLanes n = some l → l.timer = some t → l.state = state → now < t) → keeps c) ∧
    ((∀ t, k.clock.state = .locked → k.clock.holdover = some t → now < t + setting k 20 * 100) →
      keeps .holdoverTimerExpiry) ∧
    ((∀ c, k.commit = some c → c.started + 400 ≤ now) → keeps .commitComplete) ∧
    ((∀ c, k.commit = some c → now < c.started + 400) → keeps .commitTimeout)) ∧
  (∀ s : State, (∀ f rest, s.rx.office.ingress = f :: rest → f.dest.toNat = ownAddress s.site) →
    exec .officeFrameToField s = .next s) ∧
  (∀ (s : State) (f : Frame) (rest : List Frame) (kind : Byte) (p : List Byte), CommandHead s f rest kind p →
    let keeps (c : Instr) : Prop := exec c s = .next s
    let another (c : Instr) (place code last : Nat) : Prop :=
      1 ≤ u8 p place → u8 p place ≤ last → u8 p place ≠ code → keeps c
    (0x80 ≤ kind.toNat → kind.toNat ≤ 0x8D → keeps .badKindCommand) ∧
    (∀ c code, (c, code) ∈ [(Instr.bankActivateAtRollover, 1), (.bankActivateNow, 2), (.bankActivateCancel, 3)] →
      kind = 0x84 → p.length = 1 → another c 0 code 3) ∧
    (∀ c code, (c, code) ∈ [(Instr.laneSetOpen, 1), (.laneSetClose, 2), (.laneSetDeclareEmpty, 3)] →
      kind = 0x87 → p.length = 2 → another c 1 code 3) ∧
    (∀ c code, (c, code) ∈ [(Instr.vehicleSetOutOfService, 1), (.vehicleSetClearOutOfService, 2),
        (.vehicleSetMarkUnlocated, 3), (.vehicleSetSendToFuel, 4), (.vehicleSetSendToWash, 5)] →
      kind = 0x88 → p.length = 3 → another c 2 code 5) ∧
    (∀ c code, (c, code) ∈ [(Instr.queryVehicle, 1), (.queryLane, 2), (.queryDuty, 3), (.queryIsland, 4), (.queryWash, 5),
        (.queryQueues, 6), (.queryCalls, 7), (.queryStatus, 8)] →
      kind = 0x8C → 1 ≤ p.length → p.length ≤ 4 → another c 0 code 8))

/-- YARD_CLEAR (R161): the held frames are discarded; STOP is made for every AUTHORIZED or DISPENSING island whose stop sent
is clear, and ABORT for every RUNNING wash lane, each in ascending number (the model's choice, log 42), unless its station is
in MANUAL; then the yard's dynamic state is that of power-on (R2, R43, R46, R49, R57, R59, R83, R101, R116, R136), the boards
are brought up to date with an empty call list, the tables with the duty banks' entries, the store, the commit, the banks'
roles and both ports' receiving sides are kept, the notices are gone and the reply is made. That the silence timers take the
limit in force at their start (log 29), and that a board in MANUAL is compared after it has returned to AUTO (log 51), are the
model's choices. The premise that nothing waits to be handed over is part of the invariant of StepKeepsYardBounds. -/
def Obligations.YardClear : Prop :=
  ∀ (s : State) (f : Frame) (rest : List Frame), CommandHead s f rest kindYardClear [] → s.yard.emits = [] →
    ∃ t, exec .yardClear s = .next t ∧ t.rx = { s.rx with office := { s.rx.office with ingress := rest } } ∧
      imageOf t.desk = imageOf s.desk ∧ t.site.store = s.site.store ∧ t.site.commit = s.site.commit ∧
      t.site.clock = { day := 0, second := 0, phase := 0, state := .free, processed := none, holdover := none } ∧
      t.site.cursors = [] ∧ t.site.tagMemory = [] ∧ (∀ p ∈ t.site.stations, p.2.manual = false) ∧
      (∀ p ∈ t.site.mouths, p.2.accepted = .clear ∧ p.2.candidate = none ∧ p.2.stuck = none ∧ p.2.tracker = .idle) ∧
      (∀ a, (namedIn s.site.mouths a = true → tget t.site.concentrators a =
          some { loops := 0, timer := some (s.site.now + setting s.site 8 * 100), silent := false }) ∧
        (namedIn s.site.mouths a = false → tget t.site.concentrators a = none)) ∧
      (∀ p ∈ t.yard.roster, p.2.state = .unlocated ∧ p.2.level = none ∧ p.2.daysSinceWash = 255 ∧ p.2.duty = none ∧
        p.2.fuelSkipped = false ∧ p.2.fuelDone = false ∧ p.2.washIncomplete = false ∧ p.2.washDone = false ∧
        p.2.missedCalls = 0 ∧ p.2.since = { day := 0, second := 0 }) ∧
      (∀ p ∈ t.yard.lanes, p.2.status = .unverified ∧ p.2.doubt = false ∧ p.2.items = [] ∧ p.2.pendings = []) ∧
      t.yard.apron = [] ∧ t.yard.departing = [] ∧ t.yard.fuelQ = [] ∧ t.yard.washQ = [] ∧ t.yard.callList = [] ∧
      (∀ p ∈ t.yard.islands, p.2 =
        { entry := p.2.entry, state := if p.2.entry.heldClosed then .closed else .idle, vehicle := none,
          turnFactor := p.2.entry.meter, limit := 0, lastCount := 0, stopSent := false, timer := none,
          closeAtEnd := false }) ∧
      (∀ p ∈ t.yard.washLanes, p.2 =
        { entry := p.2.entry, state := if p.2.entry.heldClosed then .closed else .idle, stageIndex := none,
          vehicle := none, plan := [], timer := none }) ∧
      (∀ e ∈ t.yard.bankA ++ t.yard.bankB, e.2.state = .opened ∧ e.2.vehicle = none ∧ e.2.reason = none ∧
        e.2.callTime = none ∧ e.2.marks = { late := false, early := false, unconfirmed := false, swapped := false }) ∧
      tmap t.yard.bankA (·.entry) = tmap s.yard.bankA (·.entry) ∧
      tmap t.yard.bankB (·.entry) = tmap s.yard.bankB (·.entry) ∧
      t.yard.active = s.yard.active ∧ t.yard.activation = s.yard.activation ∧
      t.out.notices = [] ∧ t.out.overflow = false ∧ t.out.runCount = s.out.runCount ∧
      (let own (block : Block) (role : Role) (kind : Byte) (payload : List Byte) : List Emission :=
         match stationOfRole s.site role with
         | some st =>
           if inManual s.site st.entry.address then []
           else [.own block { dest := byte st.entry.address, src := byte (ownAddress s.site), kind := kind,
                              payload := payload }]
         | none => []
       let stop (n : Nat) : List Emission := match tget s.yard.islands n with
         | some i =>
           if (i.state = .authorized ∨ i.state = .dispensing) ∧ i.stopSent = false then
             own .fuelTurn (.island n) kindIslandCmd (islandCmdPayload 2 (orZero i.vehicle) 0)
           else []
         | none => []
       let abort (n : Nat) : List Emission := match tget s.yard.washLanes n with
         | some l => if l.state = .running then own .washSequencer (.wash n) kindWashCmd (washCmdPayload 2 0 0 0) else []
         | none => []
       let made := handOverAll s.site ([1, 2, 3, 4].flatMap stop ++ [1, 2].flatMap abort)
         { reserveSlot s.out with held := [] }
       let shown := handOver t.site made (.boards [])
       t.out.fieldQ = shown.fieldQ ∧ t.out.held = shown.held ∧ t.out.images = shown.images) ∧
      t.out.officeQ = s.out.officeQ ++
        [{ cls := .reply, frame := { dest := f.src, src := f.dest, kind := 0x60, payload := [0x8D, 0] } }]
end

