-- ==== Sys2Proof/Laws/State.lean ====
section
/-! SUPPORT. What each field of a record reads after each update: one lemma per field per update, so that no proof unfolds a
record update. -/

namespace Sys2Proof.Machine

/-! ## The yard operations -/

@[simp] theorem raise_roster (kind : NoticeKind) (fleet : Option Nat) (place : Option NoticePlace) (duty : Option Nat) (y : Yard) :
    (raise kind fleet place duty y).roster = y.roster := rfl
@[simp] theorem raise_lanes (kind : NoticeKind) (fleet : Option Nat) (place : Option NoticePlace) (duty : Option Nat) (y : Yard) :
    (raise kind fleet place duty y).lanes = y.lanes := rfl
@[simp] theorem raise_apron (kind : NoticeKind) (fleet : Option Nat) (place : Option NoticePlace) (duty : Option Nat) (y : Yard) :
    (raise kind fleet place duty y).apron = y.apron := rfl
@[simp] theorem raise_departing (kind : NoticeKind) (fleet : Option Nat) (place : Option NoticePlace) (duty : Option Nat) (y : Yard) :
    (raise kind fleet place duty y).departing = y.departing := rfl
@[simp] theorem raise_fuelQ (kind : NoticeKind) (fleet : Option Nat) (place : Option NoticePlace) (duty : Option Nat) (y : Yard) :
    (raise kind fleet place duty y).fuelQ = y.fuelQ := rfl
@[simp] theorem raise_islands (kind : NoticeKind) (fleet : Option Nat) (place : Option NoticePlace) (duty : Option Nat) (y : Yard) :
    (raise kind fleet place duty y).islands = y.islands := rfl
@[simp] theorem raise_washQ (kind : NoticeKind) (fleet : Option Nat) (place : Option NoticePlace) (duty : Option Nat) (y : Yard) :
    (raise kind fleet place duty y).washQ = y.washQ := rfl
@[simp] theorem raise_washLanes (kind : NoticeKind) (fleet : Option Nat) (place : Option NoticePlace) (duty : Option Nat) (y : Yard) :
    (raise kind fleet place duty y).washLanes = y.washLanes := rfl
@[simp] theorem raise_bankA (kind : NoticeKind) (fleet : Option Nat) (place : Option NoticePlace) (duty : Option Nat) (y : Yard) :
    (raise kind fleet place duty y).bankA = y.bankA := rfl
@[simp] theorem raise_bankB (kind : NoticeKind) (fleet : Option Nat) (place : Option NoticePlace) (duty : Option Nat) (y : Yard) :
    (raise kind fleet place duty y).bankB = y.bankB := rfl
@[simp] theorem raise_active (kind : NoticeKind) (fleet : Option Nat) (place : Option NoticePlace) (duty : Option Nat) (y : Yard) :
    (raise kind fleet place duty y).active = y.active := rfl
@[simp] theorem raise_activation (kind : NoticeKind) (fleet : Option Nat) (place : Option NoticePlace) (duty : Option Nat) (y : Yard) :
    (raise kind fleet place duty y).activation = y.activation := rfl
@[simp] theorem raise_callList (kind : NoticeKind) (fleet : Option Nat) (place : Option NoticePlace) (duty : Option Nat) (y : Yard) :
    (raise kind fleet place duty y).callList = y.callList := rfl
@[simp] theorem raise_todo (kind : NoticeKind) (fleet : Option Nat) (place : Option NoticePlace) (duty : Option Nat) (y : Yard) :
    (raise kind fleet place duty y).todo = y.todo := rfl
@[simp] theorem raise_emits (kind : NoticeKind) (fleet : Option Nat) (place : Option NoticePlace) (duty : Option Nat) (y : Yard) :
    (raise kind fleet place duty y).emits = y.emits ++ [.notice kind fleet place duty] := rfl

@[simp] theorem boardsChanged_roster (y : Yard) : (boardsChanged y).roster = y.roster := rfl
@[simp] theorem boardsChanged_lanes (y : Yard) : (boardsChanged y).lanes = y.lanes := rfl
@[simp] theorem boardsChanged_apron (y : Yard) : (boardsChanged y).apron = y.apron := rfl
@[simp] theorem boardsChanged_departing (y : Yard) : (boardsChanged y).departing = y.departing := rfl
@[simp] theorem boardsChanged_fuelQ (y : Yard) : (boardsChanged y).fuelQ = y.fuelQ := rfl
@[simp] theorem boardsChanged_islands (y : Yard) : (boardsChanged y).islands = y.islands := rfl
@[simp] theorem boardsChanged_washQ (y : Yard) : (boardsChanged y).washQ = y.washQ := rfl
@[simp] theorem boardsChanged_washLanes (y : Yard) : (boardsChanged y).washLanes = y.washLanes := rfl
@[simp] theorem boardsChanged_bankA (y : Yard) : (boardsChanged y).bankA = y.bankA := rfl
@[simp] theorem boardsChanged_bankB (y : Yard) : (boardsChanged y).bankB = y.bankB := rfl
@[simp] theorem boardsChanged_active (y : Yard) : (boardsChanged y).active = y.active := rfl
@[simp] theorem boardsChanged_activation (y : Yard) : (boardsChanged y).activation = y.activation := rfl
@[simp] theorem boardsChanged_callList (y : Yard) : (boardsChanged y).callList = y.callList := rfl
@[simp] theorem boardsChanged_todo (y : Yard) : (boardsChanged y).todo = y.todo := rfl
@[simp] theorem boardsChanged_emits (y : Yard) : (boardsChanged y).emits = y.emits ++ [.boards y.callList] := rfl

@[simp] theorem report_roster (y : Yard) : (report y).roster = y.roster := rfl
@[simp] theorem report_lanes (y : Yard) : (report y).lanes = y.lanes := rfl
@[simp] theorem report_apron (y : Yard) : (report y).apron = y.apron := rfl
@[simp] theorem report_departing (y : Yard) : (report y).departing = y.departing := rfl
@[simp] theorem report_fuelQ (y : Yard) : (report y).fuelQ = y.fuelQ := rfl
@[simp] theorem report_islands (y : Yard) : (report y).islands = y.islands := rfl
@[simp] theorem report_washQ (y : Yard) : (report y).washQ = y.washQ := rfl
@[simp] theorem report_washLanes (y : Yard) : (report y).washLanes = y.washLanes := rfl
@[simp] theorem report_bankA (y : Yard) : (report y).bankA = y.bankA := rfl
@[simp] theorem report_bankB (y : Yard) : (report y).bankB = y.bankB := rfl
@[simp] theorem report_active (y : Yard) : (report y).active = y.active := rfl
@[simp] theorem report_activation (y : Yard) : (report y).activation = y.activation := rfl
@[simp] theorem report_callList (y : Yard) : (report y).callList = y.callList := rfl
@[simp] theorem report_todo (y : Yard) : (report y).todo = { y.todo with dutyRounds := y.todo.dutyRounds + 1 } := rfl
@[simp] theorem report_emits (y : Yard) : (report y).emits = y.emits := rfl

@[simp] theorem roomEvent_roster (y : Yard) : (roomEvent y).roster = y.roster := rfl
@[simp] theorem roomEvent_lanes (y : Yard) : (roomEvent y).lanes = y.lanes := rfl
@[simp] theorem roomEvent_apron (y : Yard) : (roomEvent y).apron = y.apron := rfl
@[simp] theorem roomEvent_departing (y : Yard) : (roomEvent y).departing = y.departing := rfl
@[simp] theorem roomEvent_fuelQ (y : Yard) : (roomEvent y).fuelQ = y.fuelQ := rfl
@[simp] theorem roomEvent_islands (y : Yard) : (roomEvent y).islands = y.islands := rfl
@[simp] theorem roomEvent_washQ (y : Yard) : (roomEvent y).washQ = y.washQ := rfl
@[simp] theorem roomEvent_washLanes (y : Yard) : (roomEvent y).washLanes = y.washLanes := rfl
@[simp] theorem roomEvent_bankA (y : Yard) : (roomEvent y).bankA = y.bankA := rfl
@[simp] theorem roomEvent_bankB (y : Yard) : (roomEvent y).bankB = y.bankB := rfl
@[simp] theorem roomEvent_active (y : Yard) : (roomEvent y).active = y.active := rfl
@[simp] theorem roomEvent_activation (y : Yard) : (roomEvent y).activation = y.activation := rfl
@[simp] theorem roomEvent_callList (y : Yard) : (roomEvent y).callList = y.callList := rfl
@[simp] theorem roomEvent_todo (y : Yard) :
    (roomEvent y).todo = { y.todo with roomRounds := y.todo.roomRounds + 1 } := rfl
@[simp] theorem roomEvent_emits (y : Yard) : (roomEvent y).emits = y.emits := rfl

@[simp] theorem updVeh_roster (f : Nat) (g : Vehicle → Vehicle) (y : Yard) :
    (updVeh f g y).roster = tmap y.roster fun v => if v.entry.fleet = f then g v else v := rfl
@[simp] theorem updVeh_lanes (f : Nat) (g : Vehicle → Vehicle) (y : Yard) : (updVeh f g y).lanes = y.lanes := rfl
@[simp] theorem updVeh_apron (f : Nat) (g : Vehicle → Vehicle) (y : Yard) : (updVeh f g y).apron = y.apron := rfl
@[simp] theorem updVeh_departing (f : Nat) (g : Vehicle → Vehicle) (y : Yard) :
    (updVeh f g y).departing = y.departing := rfl
@[simp] theorem updVeh_fuelQ (f : Nat) (g : Vehicle → Vehicle) (y : Yard) : (updVeh f g y).fuelQ = y.fuelQ := rfl
@[simp] theorem updVeh_islands (f : Nat) (g : Vehicle → Vehicle) (y : Yard) :
    (updVeh f g y).islands = y.islands := rfl
@[simp] theorem updVeh_washQ (f : Nat) (g : Vehicle → Vehicle) (y : Yard) : (updVeh f g y).washQ = y.washQ := rfl
@[simp] theorem updVeh_washLanes (f : Nat) (g : Vehicle → Vehicle) (y : Yard) :
    (updVeh f g y).washLanes = y.washLanes := rfl
@[simp] theorem updVeh_bankA (f : Nat) (g : Vehicle → Vehicle) (y : Yard) : (updVeh f g y).bankA = y.bankA := rfl
@[simp] theorem updVeh_bankB (f : Nat) (g : Vehicle → Vehicle) (y : Yard) : (updVeh f g y).bankB = y.bankB := rfl
@[simp] theorem updVeh_active (f : Nat) (g : Vehicle → Vehicle) (y : Yard) : (updVeh f g y).active = y.active := rfl
@[simp] theorem updVeh_activation (f : Nat) (g : Vehicle → Vehicle) (y : Yard) :
    (updVeh f g y).activation = y.activation := rfl
@[simp] theorem updVeh_callList (f : Nat) (g : Vehicle → Vehicle) (y : Yard) :
    (updVeh f g y).callList = y.callList := rfl
@[simp] theorem updVeh_todo (f : Nat) (g : Vehicle → Vehicle) (y : Yard) : (updVeh f g y).todo = y.todo := rfl
@[simp] theorem updVeh_emits (f : Nat) (g : Vehicle → Vehicle) (y : Yard) : (updVeh f g y).emits = y.emits := rfl

@[simp] theorem setState_roster (k : Site) (f : Nat) (st : VehState) (y : Yard) :
    (setState k f st y).roster = tmap y.roster fun v => if v.entry.fleet = f then withState k st v else v := rfl
@[simp] theorem setState_lanes (k : Site) (f : Nat) (st : VehState) (y : Yard) :
    (setState k f st y).lanes = y.lanes := rfl
@[simp] theorem setState_apron (k : Site) (f : Nat) (st : VehState) (y : Yard) :
    (setState k f st y).apron = y.apron := rfl
@[simp] theorem setState_departing (k : Site) (f : Nat) (st : VehState) (y : Yard) :
    (setState k f st y).departing = y.departing := rfl
@[simp] theorem setState_fuelQ (k : Site) (f : Nat) (st : VehState) (y : Yard) :
    (setState k f st y).fuelQ = y.fuelQ := rfl
@[simp] theorem setState_islands (k : Site) (f : Nat) (st : VehState) (y : Yard) :
    (setState k f st y).islands = y.islands := rfl
@[simp] theorem setState_washQ (k : Site) (f : Nat) (st : VehState) (y : Yard) :
    (setState k f st y).washQ = y.washQ := rfl
@[simp] theorem setState_washLanes (k : Site) (f : Nat) (st : VehState) (y : Yard) :
    (setState k f st y).washLanes = y.washLanes := rfl
@[simp] theorem setState_bankA (k : Site) (f : Nat) (st : VehState) (y : Yard) :
    (setState k f st y).bankA = y.bankA := rfl
@[simp] theorem setState_bankB (k : Site) (f : Nat) (st : VehState) (y : Yard) :
    (setState k f st y).bankB = y.bankB := rfl
@[simp] theorem setState_active (k : Site) (f : Nat) (st : VehState) (y : Yard) :
    (setState k f st y).active = y.active := rfl
@[simp] theorem setState_activation (k : Site) (f : Nat) (st : VehState) (y : Yard) :
    (setState k f st y).activation = y.activation := rfl
@[simp] theorem setState_callList (k : Site) (f : Nat) (st : VehState) (y : Yard) :
    (setState k f st y).callList = y.callList := rfl
@[simp] theorem setState_todo (k : Site) (f : Nat) (st : VehState) (y : Yard) :
    (setState k f st y).todo = y.todo := rfl
@[simp] theorem setState_emits (k : Site) (f : Nat) (st : VehState) (y : Yard) :
    (setState k f st y).emits = y.emits := rfl

@[simp] theorem updLane_roster (n : Nat) (g : Lane → Lane) (y : Yard) : (updLane n g y).roster = y.roster := rfl
@[simp] theorem updLane_lanes (n : Nat) (g : Lane → Lane) (y : Yard) : (updLane n g y).lanes = tmod y.lanes n g := rfl
@[simp] theorem updLane_apron (n : Nat) (g : Lane → Lane) (y : Yard) : (updLane n g y).apron = y.apron := rfl
@[simp] theorem updLane_departing (n : Nat) (g : Lane → Lane) (y : Yard) :
    (updLane n g y).departing = y.departing := rfl
@[simp] theorem updLane_fuelQ (n : Nat) (g : Lane → Lane) (y : Yard) : (updLane n g y).fuelQ = y.fuelQ := rfl
@[simp] theorem updLane_islands (n : Nat) (g : Lane → Lane) (y : Yard) : (updLane n g y).islands = y.islands := rfl
@[simp] theorem updLane_washQ (n : Nat) (g : Lane → Lane) (y : Yard) : (updLane n g y).washQ = y.washQ := rfl
@[simp] theorem updLane_washLanes (n : Nat) (g : Lane → Lane) (y : Yard) :
    (updLane n g y).washLanes = y.washLanes := rfl
@[simp] theorem updLane_bankA (n : Nat) (g : Lane → Lane) (y : Yard) : (updLane n g y).bankA = y.bankA := rfl
@[simp] theorem updLane_bankB (n : Nat) (g : Lane → Lane) (y : Yard) : (updLane n g y).bankB = y.bankB := rfl
@[simp] theorem updLane_active (n : Nat) (g : Lane → Lane) (y : Yard) : (updLane n g y).active = y.active := rfl
@[simp] theorem updLane_activation (n : Nat) (g : Lane → Lane) (y : Yard) :
    (updLane n g y).activation = y.activation := rfl
@[simp] theorem updLane_callList (n : Nat) (g : Lane → Lane) (y : Yard) : (updLane n g y).callList = y.callList := rfl
@[simp] theorem updLane_todo (n : Nat) (g : Lane → Lane) (y : Yard) : (updLane n g y).todo = y.todo := rfl
@[simp] theorem updLane_emits (n : Nat) (g : Lane → Lane) (y : Yard) : (updLane n g y).emits = y.emits := rfl

@[simp] theorem updIsland_roster (n : Nat) (g : Island → Island) (y : Yard) :
    (updIsland n g y).roster = y.roster := rfl
@[simp] theorem updIsland_lanes (n : Nat) (g : Island → Island) (y : Yard) : (updIsland n g y).lanes = y.lanes := rfl
@[simp] theorem updIsland_apron (n : Nat) (g : Island → Island) (y : Yard) : (updIsland n g y).apron = y.apron := rfl
@[simp] theorem updIsland_departing (n : Nat) (g : Island → Island) (y : Yard) :
    (updIsland n g y).departing = y.departing := rfl
@[simp] theorem updIsland_fuelQ (n : Nat) (g : Island → Island) (y : Yard) : (updIsland n g y).fuelQ = y.fuelQ := rfl
@[simp] theorem updIsland_islands (n : Nat) (g : Island → Island) (y : Yard) :
    (updIsland n g y).islands = tmod y.islands n g := rfl
@[simp] theorem updIsland_washQ (n : Nat) (g : Island → Island) (y : Yard) : (updIsland n g y).washQ = y.washQ := rfl
@[simp] theorem updIsland_washLanes (n : Nat) (g : Island → Island) (y : Yard) :
    (updIsland n g y).washLanes = y.washLanes := rfl
@[simp] theorem updIsland_bankA (n : Nat) (g : Island → Island) (y : Yard) : (updIsland n g y).bankA = y.bankA := rfl
@[simp] theorem updIsland_bankB (n : Nat) (g : Island → Island) (y : Yard) : (updIsland n g y).bankB = y.bankB := rfl
@[simp] theorem updIsland_active (n : Nat) (g : Island → Island) (y : Yard) :
    (updIsland n g y).active = y.active := rfl
@[simp] theorem updIsland_activation (n : Nat) (g : Island → Island) (y : Yard) :
    (updIsland n g y).activation = y.activation := rfl
@[simp] theorem updIsland_callList (n : Nat) (g : Island → Island) (y : Yard) :
    (updIsland n g y).callList = y.callList := rfl
@[simp] theorem updIsland_todo (n : Nat) (g : Island → Island) (y : Yard) : (updIsland n g y).todo = y.todo := rfl
@[simp] theorem updIsland_emits (n : Nat) (g : Island → Island) (y : Yard) : (updIsland n g y).emits = y.emits := rfl

@[simp] theorem updWash_roster (n : Nat) (g : WashLane → WashLane) (y : Yard) :
    (updWash n g y).roster = y.roster := rfl
@[simp] theorem updWash_lanes (n : Nat) (g : WashLane → WashLane) (y : Yard) : (updWash n g y).lanes = y.lanes := rfl
@[simp] theorem updWash_apron (n : Nat) (g : WashLane → WashLane) (y : Yard) : (updWash n g y).apron = y.apron := rfl
@[simp] theorem updWash_departing (n : Nat) (g : WashLane → WashLane) (y : Yard) :
    (updWash n g y).departing = y.departing := rfl
@[simp] theorem updWash_fuelQ (n : Nat) (g : WashLane → WashLane) (y : Yard) : (updWash n g y).fuelQ = y.fuelQ := rfl
@[simp] theorem updWash_islands (n : Nat) (g : WashLane → WashLane) (y : Yard) :
    (updWash n g y).islands = y.islands := rfl
@[simp] theorem updWash_washQ (n : Nat) (g : WashLane → WashLane) (y : Yard) : (updWash n g y).washQ = y.washQ := rfl
@[simp] theorem updWash_washLanes (n : Nat) (g : WashLane → WashLane) (y : Yard) :
    (updWash n g y).washLanes = tmod y.washLanes n g := rfl
@[simp] theorem updWash_bankA (n : Nat) (g : WashLane → WashLane) (y : Yard) : (updWash n g y).bankA = y.bankA := rfl
@[simp] theorem updWash_bankB (n : Nat) (g : WashLane → WashLane) (y : Yard) : (updWash n g y).bankB = y.bankB := rfl
@[simp] theorem updWash_active (n : Nat) (g : WashLane → WashLane) (y : Yard) :
    (updWash n g y).active = y.active := rfl
@[simp] theorem updWash_activation (n : Nat) (g : WashLane → WashLane) (y : Yard) :
    (updWash n g y).activation = y.activation := rfl
@[simp] theorem updWash_callList (n : Nat) (g : WashLane → WashLane) (y : Yard) :
    (updWash n g y).callList = y.callList := rfl
@[simp] theorem updWash_todo (n : Nat) (g : WashLane → WashLane) (y : Yard) : (updWash n g y).todo = y.todo := rfl
@[simp] theorem updWash_emits (n : Nat) (g : WashLane → WashLane) (y : Yard) : (updWash n g y).emits = y.emits := rfl

@[simp] theorem markDoubt_roster (n : Nat) (y : Yard) : (markDoubt n y).roster = y.roster := rfl
@[simp] theorem markDoubt_lanes (n : Nat) (y : Yard) :
    (markDoubt n y).lanes = tmod y.lanes n fun l => { l with doubt := true } := rfl
@[simp] theorem markDoubt_apron (n : Nat) (y : Yard) : (markDoubt n y).apron = y.apron := rfl
@[simp] theorem markDoubt_departing (n : Nat) (y : Yard) : (markDoubt n y).departing = y.departing := rfl
@[simp] theorem markDoubt_fuelQ (n : Nat) (y : Yard) : (markDoubt n y).fuelQ = y.fuelQ := rfl
@[simp] theorem markDoubt_islands (n : Nat) (y : Yard) : (markDoubt n y).islands = y.islands := rfl
@[simp] theorem markDoubt_washQ (n : Nat) (y : Yard) : (markDoubt n y).washQ = y.washQ := rfl
@[simp] theorem markDoubt_washLanes (n : Nat) (y : Yard) : (markDoubt n y).washLanes = y.washLanes := rfl
@[simp] theorem markDoubt_bankA (n : Nat) (y : Yard) : (markDoubt n y).bankA = y.bankA := rfl
@[simp] theorem markDoubt_bankB (n : Nat) (y : Yard) : (markDoubt n y).bankB = y.bankB := rfl
@[simp] theorem markDoubt_active (n : Nat) (y : Yard) : (markDoubt n y).active = y.active := rfl
@[simp] theorem markDoubt_activation (n : Nat) (y : Yard) : (markDoubt n y).activation = y.activation := rfl
@[simp] theorem markDoubt_callList (n : Nat) (y : Yard) : (markDoubt n y).callList = y.callList := rfl
@[simp] theorem markDoubt_todo (n : Nat) (y : Yard) : (markDoubt n y).todo = y.todo := rfl
@[simp] theorem markDoubt_emits (n : Nat) (y : Yard) : (markDoubt n y).emits = y.emits := rfl

@[simp] theorem leaveApron_roster (f : Nat) (y : Yard) : (leaveApron f y).roster = y.roster := rfl
@[simp] theorem leaveApron_lanes (f : Nat) (y : Yard) : (leaveApron f y).lanes = y.lanes := rfl
@[simp] theorem leaveApron_apron (f : Nat) (y : Yard) : (leaveApron f y).apron = without y.apron f := rfl
@[simp] theorem leaveApron_departing (f : Nat) (y : Yard) : (leaveApron f y).departing = y.departing := rfl
@[simp] theorem leaveApron_fuelQ (f : Nat) (y : Yard) : (leaveApron f y).fuelQ = y.fuelQ := rfl
@[simp] theorem leaveApron_islands (f : Nat) (y : Yard) : (leaveApron f y).islands = y.islands := rfl
@[simp] theorem leaveApron_washQ (f : Nat) (y : Yard) : (leaveApron f y).washQ = y.washQ := rfl
@[simp] theorem leaveApron_washLanes (f : Nat) (y : Yard) : (leaveApron f y).washLanes = y.washLanes := rfl
@[simp] theorem leaveApron_bankA (f : Nat) (y : Yard) : (leaveApron f y).bankA = y.bankA := rfl
@[simp] theorem leaveApron_bankB (f : Nat) (y : Yard) : (leaveApron f y).bankB = y.bankB := rfl
@[simp] theorem leaveApron_active (f : Nat) (y : Yard) : (leaveApron f y).active = y.active := rfl
@[simp] theorem leaveApron_activation (f : Nat) (y : Yard) : (leaveApron f y).activation = y.activation := rfl
@[simp] theorem leaveApron_callList (f : Nat) (y : Yard) : (leaveApron f y).callList = y.callList := rfl
@[simp] theorem leaveApron_todo (f : Nat) (y : Yard) : (leaveApron f y).todo = y.todo := rfl
@[simp] theorem leaveApron_emits (f : Nat) (y : Yard) : (leaveApron f y).emits = y.emits := rfl

@[simp] theorem oweEvaluation_roster (d : Nat) (y : Yard) : (oweEvaluation d y).roster = y.roster := rfl
@[simp] theorem oweEvaluation_lanes (d : Nat) (y : Yard) : (oweEvaluation d y).lanes = y.lanes := rfl
@[simp] theorem oweEvaluation_apron (d : Nat) (y : Yard) : (oweEvaluation d y).apron = y.apron := rfl
@[simp] theorem oweEvaluation_departing (d : Nat) (y : Yard) : (oweEvaluation d y).departing = y.departing := rfl
@[simp] theorem oweEvaluation_fuelQ (d : Nat) (y : Yard) : (oweEvaluation d y).fuelQ = y.fuelQ := rfl
@[simp] theorem oweEvaluation_islands (d : Nat) (y : Yard) : (oweEvaluation d y).islands = y.islands := rfl
@[simp] theorem oweEvaluation_washQ (d : Nat) (y : Yard) : (oweEvaluation d y).washQ = y.washQ := rfl
@[simp] theorem oweEvaluation_washLanes (d : Nat) (y : Yard) : (oweEvaluation d y).washLanes = y.washLanes := rfl
@[simp] theorem oweEvaluation_bankA (d : Nat) (y : Yard) : (oweEvaluation d y).bankA = y.bankA := rfl
@[simp] theorem oweEvaluation_bankB (d : Nat) (y : Yard) : (oweEvaluation d y).bankB = y.bankB := rfl
@[simp] theorem oweEvaluation_active (d : Nat) (y : Yard) : (oweEvaluation d y).active = y.active := rfl
@[simp] theorem oweEvaluation_activation (d : Nat) (y : Yard) : (oweEvaluation d y).activation = y.activation := rfl
@[simp] theorem oweEvaluation_callList (d : Nat) (y : Yard) : (oweEvaluation d y).callList = y.callList := rfl
@[simp] theorem oweEvaluation_todo (d : Nat) (y : Yard) :
    (oweEvaluation d y).todo = { y.todo with lost := y.todo.lost ++ [d] } := rfl
@[simp] theorem oweEvaluation_emits (d : Nat) (y : Yard) : (oweEvaluation d y).emits = y.emits := rfl

/-! ## The duty banks -/

@[simp] theorem setBank_roster (bk : Bank) (t : Table Duty) (y : Yard) : (setBank bk t y).roster = y.roster := by cases bk <;> rfl
@[simp] theorem setBank_lanes (bk : Bank) (t : Table Duty) (y : Yard) : (setBank bk t y).lanes = y.lanes := by cases bk <;> rfl
@[simp] theorem setBank_apron (bk : Bank) (t : Table Duty) (y : Yard) : (setBank bk t y).apron = y.apron := by cases bk <;> rfl
@[simp] theorem setBank_departing (bk : Bank) (t : Table Duty) (y : Yard) : (setBank bk t y).departing = y.departing := by cases bk <;> rfl
@[simp] theorem setBank_fuelQ (bk : Bank) (t : Table Duty) (y : Yard) : (setBank bk t y).fuelQ = y.fuelQ := by cases bk <;> rfl
@[simp] theorem setBank_islands (bk : Bank) (t : Table Duty) (y : Yard) : (setBank bk t y).islands = y.islands := by cases bk <;> rfl
@[simp] theorem setBank_washQ (bk : Bank) (t : Table Duty) (y : Yard) : (setBank bk t y).washQ = y.washQ := by cases bk <;> rfl
@[simp] theorem setBank_washLanes (bk : Bank) (t : Table Duty) (y : Yard) : (setBank bk t y).washLanes = y.washLanes := by cases bk <;> rfl
@[simp] theorem setBank_active (bk : Bank) (t : Table Duty) (y : Yard) : (setBank bk t y).active = y.active := by cases bk <;> rfl
@[simp] theorem setBank_activation (bk : Bank) (t : Table Duty) (y : Yard) : (setBank bk t y).activation = y.activation := by cases bk <;> rfl
@[simp] theorem setBank_callList (bk : Bank) (t : Table Duty) (y : Yard) : (setBank bk t y).callList = y.callList := by cases bk <;> rfl
@[simp] theorem setBank_todo (bk : Bank) (t : Table Duty) (y : Yard) : (setBank bk t y).todo = y.todo := by cases bk <;> rfl
@[simp] theorem setBank_emits (bk : Bank) (t : Table Duty) (y : Yard) : (setBank bk t y).emits = y.emits := by cases bk <;> rfl
@[simp] theorem bankOf_setBank_same (bk : Bank) (t : Table Duty) (y : Yard) : bankOf (setBank bk t y) bk = t := by cases bk <;> rfl
theorem bankOf_setBank_ne {bk c : Bank} (t : Table Duty) (y : Yard) (h : c ≠ bk) : bankOf (setBank bk t y) c = bankOf y c := by
  cases bk <;> cases c <;> simp_all [setBank, bankOf]

@[simp] theorem updDuty_roster (d : Nat) (g : Duty → Duty) (y : Yard) : (updDuty d g y).roster = y.roster := by simp [updDuty]
@[simp] theorem updDuty_lanes (d : Nat) (g : Duty → Duty) (y : Yard) : (updDuty d g y).lanes = y.lanes := by simp [updDuty]
@[simp] theorem updDuty_apron (d : Nat) (g : Duty → Duty) (y : Yard) : (updDuty d g y).apron = y.apron := by simp [updDuty]
@[simp] theorem updDuty_departing (d : Nat) (g : Duty → Duty) (y : Yard) : (updDuty d g y).departing = y.departing := by simp [updDuty]
@[simp] theorem updDuty_fuelQ (d : Nat) (g : Duty → Duty) (y : Yard) : (updDuty d g y).fuelQ = y.fuelQ := by simp [updDuty]
@[simp] theorem updDuty_islands (d : Nat) (g : Duty → Duty) (y : Yard) : (updDuty d g y).islands = y.islands := by simp [updDuty]
@[simp] theorem updDuty_washQ (d : Nat) (g : Duty → Duty) (y : Yard) : (updDuty d g y).washQ = y.washQ := by simp [updDuty]
@[simp] theorem updDuty_washLanes (d : Nat) (g : Duty → Duty) (y : Yard) : (updDuty d g y).washLanes = y.washLanes := by simp [updDuty]
@[simp] theorem updDuty_active (d : Nat) (g : Duty → Duty) (y : Yard) : (updDuty d g y).active = y.active := by simp [updDuty]
@[simp] theorem updDuty_activation (d : Nat) (g : Duty → Duty) (y : Yard) : (updDuty d g y).activation = y.activation := by simp [updDuty]
@[simp] theorem updDuty_callList (d : Nat) (g : Duty → Duty) (y : Yard) : (updDuty d g y).callList = y.callList := by simp [updDuty]
@[simp] theorem updDuty_todo (d : Nat) (g : Duty → Duty) (y : Yard) : (updDuty d g y).todo = y.todo := by simp [updDuty]
@[simp] theorem updDuty_emits (d : Nat) (g : Duty → Duty) (y : Yard) : (updDuty d g y).emits = y.emits := by simp [updDuty]
@[simp] theorem duties_updDuty (d : Nat) (g : Duty → Duty) (y : Yard) :
    duties (updDuty d g y) = tmap (duties y) fun r => if r.entry.number = d then g r else r := by
  simp [duties, updDuty]
theorem bankOf_updDuty_ne (d : Nat) (g : Duty → Duty) (y : Yard) {bk : Bank} (h : bk ≠ y.active) :
    bankOf (updDuty d g y) bk = bankOf y bk := bankOf_setBank_ne _ _ h

/-! ## The desk -/

@[simp] theorem withDesk_pending (s : State) (d : Desk) : (s.withDesk d).pending = s.pending := rfl
@[simp] theorem withDesk_rx (s : State) (d : Desk) : (s.withDesk d).rx = s.rx := rfl
@[simp] theorem withDesk_out (s : State) (d : Desk) : (s.withDesk d).out = d.out := rfl
@[simp] theorem withDesk_site (s : State) (d : Desk) : (s.withDesk d).site = d.site := rfl
@[simp] theorem withDesk_yard (s : State) (d : Desk) : (s.withDesk d).yard = d.yard := rfl
@[simp] theorem desk_out (s : State) : s.desk.out = s.out := rfl
@[simp] theorem desk_site (s : State) : s.desk.site = s.site := rfl
@[simp] theorem desk_yard (s : State) : s.desk.yard = s.yard := rfl
@[simp] theorem withDesk_desk (s : State) : s.withDesk s.desk = s := rfl
@[simp] theorem desk_withDesk (s : State) (d : Desk) : (s.withDesk d).desk = d := rfl
@[simp] theorem withDesk_withDesk (s : State) (d e : Desk) : (s.withDesk d).withDesk e = s.withDesk e := rfl
@[simp] theorem flush_site (d : Desk) : (flush d).site = d.site := rfl
@[simp] theorem flush_out (d : Desk) : (flush d).out = handOverAll d.site d.yard.emits d.out := rfl
@[simp] theorem flush_yard (d : Desk) : (flush d).yard = { d.yard with emits := [] } := rfl
@[simp] theorem settle_site (d : Desk) : (settle d).site = d.site := rfl
@[simp] theorem settle_out (d : Desk) :
    (settle d).out = handOverAll d.site (drain d.site d.yard).emits d.out := rfl
@[simp] theorem settle_yard (d : Desk) : (settle d).yard = { drain d.site d.yard with emits := [] } := rfl
@[simp] theorem onYard_site (g : Site → Yard → Yard) (d : Desk) : (onYard g d).site = d.site := rfl
@[simp] theorem notify_site (kind : NoticeKind) (place : Option NoticePlace) (d : Desk) : (notify kind place d).site = d.site := rfl
@[simp] theorem notify_yard (kind : NoticeKind) (place : Option NoticePlace) (d : Desk) : (notify kind place d).yard = d.yard := rfl
@[simp] theorem notify_out (kind : NoticeKind) (place : Option NoticePlace) (d : Desk) :
    (notify kind place d).out = offerNotice d.site kind none place none d.out := rfl
@[simp] theorem reservedDesk_site (s : State) : (reservedDesk s).site = s.site := rfl
@[simp] theorem reservedDesk_yard (s : State) : (reservedDesk s).yard = s.yard := rfl
@[simp] theorem reservedDesk_out (s : State) : (reservedDesk s).out = reserveSlot s.out := rfl

/-! ## The receiving side -/

@[simp] theorem portOf_setPort_same (p : Port) (r : RxPort) (x : Rx) : portOf (setPort p r x) p = r := by cases p <;> rfl
theorem portOf_setPort_ne {p q : Port} (r : RxPort) (x : Rx) (h : q ≠ p) : portOf (setPort p r x) q = portOf x q := by
  cases p <;> cases q <;> simp_all [setPort, portOf]
@[simp] theorem setPort_rate (p : Port) (r : RxPort) (x : Rx) : (setPort p r x).rate = x.rate := by cases p <;> rfl
@[simp] theorem setPort_portOf (p : Port) (x : Rx) : setPort p (portOf x p) x = x := by cases p <;> rfl
@[simp] theorem setPort_setPort (p : Port) (r q : RxPort) (x : Rx) : setPort p r (setPort p q x) = setPort p r x := by
  cases p <;> rfl

end Sys2Proof.Machine
end

