-- ==== Sys2Proof/Laws/Table.lean ====
section
/-! SUPPORT. The lemmas of the table operations: what is read back after a write, and that every operation keeps the places
in rising index order. -/

namespace Sys2Proof.Machine

variable {α β : Type}

/-! ## Reading back -/

@[simp] theorem tget_nil (k : Nat) : tget ([] : Table α) k = none := rfl

theorem tget_cons (j : Nat) (w : α) (t : Table α) (k : Nat) :
    tget ((j, w) :: t) k = if j = k then some w else tget t k := rfl

@[simp] theorem tget_tset_same (t : Table α) (k : Nat) (v : α) : tget (tset t k v) k = some v := by
  induction t with
  | nil => simp [tset, tget]
  | cons p t ih =>
    obtain ⟨j, w⟩ := p
    unfold tset
    split
    · simp [tget]
    · split
      · simp [tget]
      · have : j ≠ k := by omega
        simp [tget, this, ih]

theorem tget_tset_ne (t : Table α) {k m : Nat} (v : α) (h : m ≠ k) : tget (tset t k v) m = tget t m := by
  induction t with
  | nil => simp [tset, tget, Ne.symm h]
  | cons p t ih =>
    obtain ⟨j, w⟩ := p
    unfold tset
    split
    · rw [tget_cons, if_neg (Ne.symm h)]
    · split
      · next hk => rw [tget_cons, tget_cons, if_neg (Ne.symm h), if_neg (by omega)]
      · rw [tget_cons, tget_cons, ih]

theorem tget_tmod (t : Table α) (k m : Nat) (f : α → α) :
    tget (tmod t k f) m = if m = k then (tget t m).map f else tget t m := by
  induction t with
  | nil => simp [tmod]
  | cons p t ih =>
    obtain ⟨j, w⟩ := p
    simp only [tmod, List.map_cons] at ih ⊢
    by_cases hj : j = k
    · subst hj
      simp only [if_true, tget_cons, ih]
      by_cases hm : m = j
      · subst hm; simp
      · simp [hm, Ne.symm hm]
    · simp only [if_neg hj, tget_cons, ih]
      by_cases hm : m = k
      · subst hm; simp [hj]
      · simp [hm]

@[simp] theorem tget_tmod_same (t : Table α) (k : Nat) (f : α → α) : tget (tmod t k f) k = (tget t k).map f := by
  simp [tget_tmod]

@[simp] theorem tget_tmap (t : Table α) (k : Nat) (f : α → β) : tget (tmap t f) k = (tget t k).map f := by
  induction t with
  | nil => rfl
  | cons p t ih =>
    obtain ⟨j, w⟩ := p
    simp only [tmap, List.map_cons, tget_cons] at ih ⊢
    split <;> simp_all

theorem mem_of_tget {t : Table α} {k : Nat} {v : α} (h : tget t k = some v) : (k, v) ∈ t := by
  induction t with
  | nil => simp at h
  | cons p t ih =>
    obtain ⟨j, w⟩ := p
    rw [tget_cons] at h
    split at h
    · next hj => simp only [Option.some.injEq] at h; subst hj; subst h; exact List.mem_cons_self
    · exact List.mem_cons_of_mem _ (ih h)

theorem tget_of_mem {t : Table α} (wf : tableWf t) {k : Nat} {v : α} (h : (k, v) ∈ t) : tget t k = some v := by
  induction t with
  | nil => simp at h
  | cons p t ih =>
    obtain ⟨j, w⟩ := p
    simp only [tableWf, List.map_cons, List.pairwise_cons] at wf
    rw [tget_cons]
    rcases List.mem_cons.1 h with h | h
    · cases h; simp
    · have hlt : j < k := wf.1 k (List.mem_map.2 ⟨(k, v), h, rfl⟩)
      rw [if_neg (by omega)]
      exact ih wf.2 h

/-! ## Composing -/

@[simp] theorem tmap_tmap {γ : Type} (t : Table α) (f : α → β) (g : β → γ) : tmap (tmap t f) g = tmap t fun a => g (f a) := by
  simp [tmap, Function.comp_def]

@[simp] theorem tmap_id (t : Table α) : tmap t (fun a => a) = t := by simp [tmap]

theorem tmap_congr {t : Table α} {f g : α → β} (h : ∀ p ∈ t, f p.2 = g p.2) : tmap t f = tmap t g := by
  simp only [tmap]
  exact List.map_congr_left fun p hp => by rw [h p hp]

/-- A change of one place that a reading does not see. -/
theorem tmap_tmod (t : Table α) (k : Nat) (f : α → α) (g : α → β) (h : ∀ a, g (f a) = g a) :
    tmap (tmod t k f) g = tmap t g := by
  simp only [tmap, tmod, List.map_map]
  refine List.map_congr_left fun p _ => ?_
  simp only [Function.comp_apply]
  split <;> simp [h]

/-! ## Rising order -/

theorem tableWf_nil : tableWf ([] : Table α) := List.Pairwise.nil

@[simp] theorem tmap_keys (t : Table α) (f : α → β) : (tmap t f).map Prod.fst = t.map Prod.fst := by
  simp [tmap, Function.comp_def]

@[simp] theorem tmod_keys (t : Table α) (k : Nat) (f : α → α) : (tmod t k f).map Prod.fst = t.map Prod.fst := by
  simp only [tmod, List.map_map]
  refine List.map_congr_left fun p _ => ?_
  simp only [Function.comp_apply]
  split <;> rfl

theorem tableWf_tmap {t : Table α} (f : α → β) (h : tableWf t) : tableWf (tmap t f) := by
  simpa only [tableWf, tmap_keys] using h

theorem tableWf_of_tmap {t : Table α} {f : α → β} (h : tableWf (tmap t f)) : tableWf t := by
  simpa only [tableWf, tmap_keys] using h

theorem tableWf_tmod {t : Table α} (k : Nat) (f : α → α) (h : tableWf t) : tableWf (tmod t k f) := by
  simpa only [tableWf, tmod_keys] using h

theorem tableWf_terase {t : Table α} (k : Nat) (h : tableWf t) : tableWf (terase t k) :=
  List.Pairwise.sublist (List.filter_sublist.map _) h

/-- The indexes after a write are the old ones and the one written. -/
theorem mem_tset_keys {t : Table α} {k : Nat} {v : α} {m : Nat} (h : m ∈ (tset t k v).map Prod.fst) :
    m = k ∨ m ∈ t.map Prod.fst := by
  induction t with
  | nil => simpa [tset] using h
  | cons p t ih =>
    obtain ⟨j, w⟩ := p
    unfold tset at h
    split at h
    · simpa using h
    · split at h
      · next hk => subst hk; simpa using h
      · simp only [List.map_cons, List.mem_cons] at h ⊢
        rcases h with h | h
        · exact .inr (.inl h)
        · rcases ih h with h | h
          · exact .inl h
          · exact .inr (.inr h)

theorem tableWf_tset {t : Table α} (k : Nat) (v : α) (h : tableWf t) : tableWf (tset t k v) := by
  induction t with
  | nil => simp [tset, tableWf]
  | cons p t ih =>
    obtain ⟨j, w⟩ := p
    simp only [tableWf, List.map_cons, List.pairwise_cons] at h ih
    unfold tset
    split
    · next hk =>
      simp only [tableWf, List.map_cons, List.pairwise_cons]
      refine ⟨fun m hm => ?_, h⟩
      rcases List.mem_cons.1 hm with hm | hm
      · simpa [hm] using hk
      · exact Nat.lt_trans hk (h.1 m hm)
    · split
      · next hk => subst hk; simpa only [tableWf, List.map_cons, List.pairwise_cons] using h
      · simp only [tableWf, List.map_cons, List.pairwise_cons]
        refine ⟨fun m hm => ?_, ih h.2⟩
        rcases mem_tset_keys hm with hm | hm
        · omega
        · exact h.1 m hm

/-! ## Members -/

theorem mem_tmod {t : Table α} {k : Nat} {f : α → α} {p : Nat × α} (h : p ∈ tmod t k f) :
    (∃ a, (p.1, a) ∈ t ∧ p.1 = k ∧ p.2 = f a) ∨ (p ∈ t ∧ p.1 ≠ k) := by
  simp only [tmod, List.mem_map] at h
  obtain ⟨q, hq, rfl⟩ := h
  by_cases hk : q.1 = k
  · simp only [if_pos hk]
    exact .inl ⟨q.2, hq, hk, rfl⟩
  · simp only [if_neg hk]
    exact .inr ⟨hq, hk⟩

theorem mem_tmap {t : Table α} {f : α → β} {p : Nat × β} (h : p ∈ tmap t f) : ∃ a, (p.1, a) ∈ t ∧ p.2 = f a := by
  simp only [tmap, List.mem_map] at h
  obtain ⟨q, hq, rfl⟩ := h
  exact ⟨q.2, hq, rfl⟩

theorem mem_tset {t : Table α} {k : Nat} {v : α} {p : Nat × α} (h : p ∈ tset t k v) : p = (k, v) ∨ p ∈ t := by
  induction t with
  | nil => simpa [tset] using h
  | cons q t ih =>
    obtain ⟨j, w⟩ := q
    unfold tset at h
    split at h
    · simpa using h
    · split at h
      · rcases List.mem_cons.1 h with h | h
        · exact .inl h
        · exact .inr (List.mem_cons_of_mem _ h)
      · rcases List.mem_cons.1 h with h | h
        · exact .inr (by simp [h])
        · rcases ih h with h | h
          · exact .inl h
          · exact .inr (List.mem_cons_of_mem _ h)

theorem mem_of_tfind {t : Table α} {p : α → Bool} {e : Nat × α} (h : tfind t p = some e) : e ∈ t ∧ p e.2 = true := by
  unfold tfind at h
  exact ⟨List.mem_of_find?_eq_some h, by simpa using List.find?_some h⟩

/-- The record found by a test on the entries alone. -/
theorem tfind_value (t : Table α) (p : α → Bool) :
    (tfind t p).map (·.2) = (t.filter fun e => p e.2).head?.map (·.2) := by
  rw [tfind, List.head?_filter]

theorem tget_terase (t : Table α) (k m : Nat) : tget (terase t k) m = if m = k then none else tget t m := by
  induction t with
  | nil => exact (ite_self _).symm
  | cons e t ih =>
    obtain ⟨j, w⟩ := e
    rw [terase, List.filter_cons]
    by_cases hj : j = k
    · subst hj
      rw [if_neg (by simp)]
      refine ih.trans ?_
      by_cases hm : m = j
      · rw [if_pos hm, if_pos hm]
      · rw [if_neg hm, if_neg hm, tget_cons, if_neg (Ne.symm hm)]
    · rw [if_pos (by simpa using hj), tget_cons, tget_cons]
      by_cases hm : j = m
      · subst hm; rw [if_pos rfl, if_neg hj, if_pos rfl]
      · rw [if_neg hm, if_neg hm]; exact ih

/-- One entry written at every index of a list. -/
theorem tget_foldl_tset (l : List Nat) (t : Table α) (v : α) (k : Nat) :
    tget (l.foldl (fun t a => tset t a v) t) k = if k ∈ l then some v else tget t k := by
  induction l generalizing t with
  | nil => simp
  | cons a l ih =>
    rw [List.foldl_cons, ih]
    by_cases h : k ∈ l
    · simp [h]
    · by_cases ha : k = a
      · subst ha; simp [h]
      · rw [tget_tset_ne _ _ ha]; simp [h, ha]

/-! ## Sorting -/

theorem insertBy_perm (lt : α → α → Bool) (a : α) (l : List α) : (insertBy lt a l).Perm (a :: l) := by
  induction l with
  | nil => exact .refl _
  | cons b l ih =>
    unfold insertBy
    split
    · exact .refl _
    · exact (ih.cons b).trans (.swap ..)

theorem sortBy_perm (lt : α → α → Bool) (l : List α) : (sortBy lt l).Perm l := by
  suffices h : ∀ acc, (l.foldl (fun acc a => insertBy lt a acc) acc).Perm (l ++ acc) by simpa [sortBy] using h []
  induction l with
  | nil => exact fun acc => .refl _
  | cons a l ih =>
    exact fun acc => (ih _).trans (((insertBy_perm lt a acc).append_left l).trans (by simp))

/-- The order in which `sortBy lt2` leaves pairs. -/
abbrev le2 (a b : Nat × Nat) : Prop := a.1 < b.1 ∨ a.1 = b.1 ∧ a.2 ≤ b.2

theorem insertBy_sorted (a : Nat × Nat) (l : List (Nat × Nat)) (h : l.Pairwise le2) :
    (insertBy lt2 a l).Pairwise le2 := by
  induction l with
  | nil => simp [insertBy]
  | cons b l ih =>
    rw [List.pairwise_cons] at h
    unfold insertBy
    split
    · next hl =>
      have hab : le2 a b := by simp [lt2] at hl; unfold le2; omega
      refine List.pairwise_cons.2 ⟨fun c hc => ?_, List.pairwise_cons.2 h⟩
      rcases List.mem_cons.1 hc with rfl | hc
      · exact hab
      · have := h.1 c hc; unfold le2 at *; omega
    · next hl =>
      have hba : le2 b a := by simp [lt2] at hl; unfold le2; omega
      refine List.pairwise_cons.2 ⟨fun c hc => ?_, ih h.2⟩
      rcases List.mem_cons.1 ((insertBy_perm _ _ _).mem_iff.1 hc) with rfl | hc
      · exact hba
      · exact h.1 c hc

theorem sortBy_sorted (l : List (Nat × Nat)) : (sortBy lt2 l).Pairwise le2 := by
  suffices h : ∀ acc : List (Nat × Nat), acc.Pairwise le2 →
      (l.foldl (fun acc a => insertBy lt2 a acc) acc).Pairwise le2 from h [] .nil
  induction l with
  | nil => exact fun acc h => h
  | cons a l ih => exact fun acc h => ih _ (insertBy_sorted a acc h)

end Sys2Proof.Machine
end

