-- ==== Sys2Proof/Laws/Ports.lean ====
section
/-! SUPPORT. What the operations of the sending side keep: the bounds of the office queue, the Notice Queue and the field
queue, and when a frame may be held. -/

namespace Sys2Proof.Machine

-- One theorem at a time: the proofs below, elaborated all at once, would each hold a thread and its stack.
set_option Elab.async false

/-- Everything of OutOk but the condition on held frames. -/
structure SideOk (r : Nat) (o : Out) : Prop where
  fieldQ : o.fieldQ.length ≤ Config.fieldEgressCap
  slots : o.officeQ.length + o.reserved ≤ Config.officeEgressCap
  reserved : o.reserved = r
  batch : batches o.officeQ ≤ 1
  run : o.runCount ≤ Config.runLimit
  notices : o.notices.length ≤ Config.noticeCap
  distinct : noticesDistinct o.notices
  counts : ∀ n ∈ o.notices, 1 ≤ n.count ∧ n.count ≤ 255
  images : ∀ p ∈ o.images, p.2.length = Config.boardLines

/-- A frame is held only when no slot of field egress is free (R28). -/
def HeldOk (o : Out) : Prop := o.held = [] ∨ o.fieldQ.length = Config.fieldEgressCap

theorem OutOk.side {r : Nat} {o : Out} (h : OutOk r o) : SideOk r o :=
  ⟨h.fieldQ, h.slots, h.reserved, h.batch, h.run, h.notices, h.distinct, h.counts, h.images⟩

theorem SideOk.out {r : Nat} {o : Out} (h : SideOk r o) (hh : HeldOk o) : OutOk r o :=
  ⟨h.fieldQ, hh, h.slots, h.reserved, h.batch, h.run, h.notices, h.distinct, h.counts, h.images⟩

/-! ## Office egress -/

theorem batches_append (l m : List OfficeItem) : batches (l ++ m) = batches l + batches m := by
  simp [batches, List.filter_append]

theorem batches_zero {o : Out} (h : batchWaits o = false) : batches o.officeQ = 0 := by
  unfold batchWaits at h
  unfold batches
  rw [List.length_eq_zero_iff, List.filter_eq_nil_iff]
  intro i hi hc
  have := List.any_eq_false.1 h i hi
  exact this hc

theorem noticesDistinct_drop {l : List Notice} (n : Nat) (h : noticesDistinct l) : noticesDistinct (l.drop n) :=
  List.Pairwise.sublist (List.drop_sublist n l) h

theorem SideOk.tryBatch {r : Nat} {o : Out} (k : Site) (h : SideOk r o) : SideOk r (tryBatch k o) := by
  unfold Machine.tryBatch
  split
  · next hc =>
    simp only [Bool.and_eq_true, decide_eq_true_eq, Bool.not_eq_true'] at hc
    obtain ⟨⟨_, hfree⟩, hb⟩ := hc
    have hz := batches_zero hb
    unfold officeFree at hfree
    refine ⟨h.fieldQ, ?_, h.reserved, ?_, h.run, ?_, noticesDistinct_drop _ h.distinct, ?_, h.images⟩
    · simp only [List.length_append, List.length_singleton]; omega
    · simp only [batches_append, hz]; simp [batches]
    · simp only [List.length_drop]; have := h.notices; omega
    · exact fun n hn => h.counts n (List.mem_of_mem_drop hn)
  · exact h

theorem tryBatch_held (k : Site) (o : Out) : (tryBatch k o).held = o.held := by unfold tryBatch; split <;> rfl
theorem tryBatch_fieldQ (k : Site) (o : Out) : (tryBatch k o).fieldQ = o.fieldQ := by unfold tryBatch; split <;> rfl
theorem tryBatch_images (k : Site) (o : Out) : (tryBatch k o).images = o.images := by unfold tryBatch; split <;> rfl
theorem tryBatch_runCount (k : Site) (o : Out) : (tryBatch k o).runCount = o.runCount := by unfold tryBatch; split <;> rfl
theorem tryBatch_reserved (k : Site) (o : Out) : (tryBatch k o).reserved = o.reserved := by unfold tryBatch; split <;> rfl

/-! ## The Notice Queue -/

/-- What R157 compares of a notice. -/
def noticeKey (n : Notice) : NoticeKind × Option Nat × Option NoticePlace × Option Nat := (n.kind, n.fleet, n.place, n.duty)

theorem sameNotice_iff (a b : Notice) : sameNotice a b = true ↔ noticeKey a = noticeKey b := by
  simp only [sameNotice, noticeKey, Bool.and_eq_true, beq_iff_eq, Prod.mk.injEq, and_assoc]

theorem noticesDistinct_iff (l : List Notice) : noticesDistinct l ↔ (l.map noticeKey).Pairwise (· ≠ ·) := by
  unfold noticesDistinct
  rw [List.pairwise_map]
  constructor <;> refine fun h => h.imp fun {a b} hab => ?_
  · intro he; rw [← sameNotice_iff] at he; rw [he] at hab; cases hab
  · rw [← Bool.not_eq_true, sameNotice_iff]; exact hab

theorem coalesce_keys (n : Notice) (l : List Notice) : (coalesce n l).map noticeKey = l.map noticeKey := by
  induction l with
  | nil => rfl
  | cons m l ih => unfold coalesce; split <;> simp_all [noticeKey]

theorem coalesce_length (n : Notice) (l : List Notice) : (coalesce n l).length = l.length := by
  simpa using congrArg List.length (coalesce_keys n l)

theorem coalesce_counts {n : Notice} {l : List Notice} (h : ∀ m ∈ l, 1 ≤ m.count ∧ m.count ≤ 255) :
    ∀ m ∈ coalesce n l, 1 ≤ m.count ∧ m.count ≤ 255 := by
  induction l with
  | nil => exact h
  | cons a l ih =>
    unfold coalesce
    have ha := h a List.mem_cons_self
    split
    · intro m hm
      rcases List.mem_cons.1 hm with rfl | hm
      · simp only [satSucc]; split <;> omega
      · exact h m (List.mem_cons_of_mem _ hm)
    · intro m hm
      rcases List.mem_cons.1 hm with rfl | hm
      · exact ha
      · exact ih (fun m hm => h m (List.mem_cons_of_mem _ hm)) m hm

theorem SideOk.offerNotice {r : Nat} {o : Out} (k : Site) (kind : NoticeKind) (fleet : Option Nat)
    (place : Option NoticePlace) (duty : Option Nat) (h : SideOk r o) : SideOk r (offerNotice k kind fleet place duty o) := by
  unfold Machine.offerNotice
  dsimp only
  split
  · exact { h with
      notices := by rw [coalesce_length]; exact h.notices
      distinct := by rw [noticesDistinct_iff, coalesce_keys, ← noticesDistinct_iff]; exact h.distinct
      counts := coalesce_counts h.counts }
  · next hno =>
    split
    · next hlt =>
      refine SideOk.tryBatch k { h with notices := ?_, distinct := ?_, counts := ?_ }
      · simp only [List.length_append, List.length_singleton]; omega
      · unfold noticesDistinct
        rw [List.pairwise_append]
        refine ⟨h.distinct, List.pairwise_singleton _ _, fun a ha b hb => ?_⟩
        rw [List.mem_singleton] at hb
        subst hb
        rw [← Bool.not_eq_true]
        exact fun he => hno (List.any_eq_true.2 ⟨a, ha, he⟩)
      · intro n hn
        rcases List.mem_append.1 hn with hn | hn
        · exact h.counts n hn
        · rw [List.mem_singleton] at hn; subst hn; exact ⟨Nat.le_refl _, by simp⟩
    · exact { h with }

theorem offerNotice_frame (k : Site) (kind : NoticeKind) (fleet : Option Nat) (place : Option NoticePlace)
    (duty : Option Nat) (o : Out) :
    (offerNotice k kind fleet place duty o).held = o.held ∧ (offerNotice k kind fleet place duty o).fieldQ = o.fieldQ ∧
    (offerNotice k kind fleet place duty o).images = o.images ∧
    (offerNotice k kind fleet place duty o).runCount = o.runCount ∧
    (offerNotice k kind fleet place duty o).reserved = o.reserved ∧
    (offerNotice k kind fleet place duty o).fieldTx = o.fieldTx ∧
    (offerNotice k kind fleet place duty o).officeTx = o.officeTx := by
  unfold offerNotice tryBatch
  dsimp only
  split
  · simp
  · split
    · split <;> simp
    · simp

theorem OutOk.offerNotice {r : Nat} {o : Out} (k : Site) (kind : NoticeKind) (fleet : Option Nat)
    (place : Option NoticePlace) (duty : Option Nat) (h : OutOk r o) : OutOk r (offerNotice k kind fleet place duty o) := by
  refine (h.side.offerNotice k kind fleet place duty).out ?_
  obtain ⟨h1, h2, _⟩ := offerNotice_frame k kind fleet place duty o
  unfold HeldOk
  rw [h1, h2]
  exact h.held

theorem OutOk.tryBatch {r : Nat} {o : Out} (k : Site) (h : OutOk r o) : OutOk r (tryBatch k o) := by
  refine (h.side.tryBatch k).out ?_
  unfold HeldOk
  rw [tryBatch_held, tryBatch_fieldQ]
  exact h.held

/-! ## Office egress -/

theorem OutOk.offerForwarded {r : Nat} {o : Out} (k : Site) (f : Frame) (h : OutOk r o) : OutOk r (offerForwarded k f o) := by
  unfold Machine.offerForwarded
  split
  · next hf =>
    unfold officeFree at hf
    exact { h with
      slots := by simp only [List.length_append, List.length_singleton]; omega
      batch := by simp only [batches_append]; have := h.batch; simp [batches] at this ⊢; omega }
  · exact h.offerNotice ..

theorem OutOk.reserveSlot {r : Nat} {o : Out} (h : OutOk r o) (hf : 0 < officeFree o) : OutOk (r + 1) (reserveSlot o) := by
  unfold officeFree at hf
  have := h.reserved
  exact { h with
    slots := by simp only [Machine.reserveSlot]; omega
    reserved := by simp only [Machine.reserveSlot]; omega }

theorem OutOk.putReply {r : Nat} {o : Out} (f : Frame) (h : OutOk (r + 1) o) : OutOk r (putReply f o) := by
  have h1 := h.reserved
  have h2 := h.slots
  exact { h with
    slots := by simp only [Machine.putReply, List.length_append, List.length_singleton]; omega
    reserved := by simp only [Machine.putReply]; omega
    batch := by simp only [Machine.putReply, batches_append]; have := h.batch; simp [batches] at this ⊢; omega }

/-- The queue after its first frame of a class is taken is a sublist one shorter. -/
theorem takeFirst_sublist {c : OfficeClass} {l : List OfficeItem} {f : Frame} {q : List OfficeItem}
    (h : takeFirst c l = some (f, q)) : q.Sublist l ∧ q.length + 1 = l.length := by
  induction l generalizing f q with
  | nil => cases h
  | cons i l ih =>
    unfold takeFirst at h
    split at h
    · cases h; exact ⟨List.sublist_cons_self _ _, rfl⟩
    · rw [Option.map_eq_some_iff] at h
      obtain ⟨⟨g, m⟩, hm, he⟩ := h
      cases he
      obtain ⟨h1, h2⟩ := ih hm
      exact ⟨h1.cons_cons _, by simp only [List.length_cons]; omega⟩

theorem OutOk.officeSend {r : Nat} {o : Out} (k : Site) (h : OutOk r o) : OutOk r (officeSend k o) := by
  unfold Machine.officeSend
  split
  · exact h
  · next c _ =>
    split
    · exact h
    · next f q hq =>
      obtain ⟨hs, hl⟩ := takeFirst_sublist hq
      refine OutOk.tryBatch k { h with slots := ?_, batch := ?_, run := ?_ }
      · have := h.slots; simp only; omega
      · exact Nat.le_trans (hs.filter _).length_le h.batch
      · cases c <;> simp only [nextRun, satSucc]
        · split <;> omega
        · split <;> omega
        · omega

/-! ## Field egress -/

theorem SideOk.placeFrame {r : Nat} {o : Out} (g : Held) (h : SideOk r o)
    (hl : o.fieldQ.length < Config.fieldEgressCap) : SideOk r (placeFrame g o) :=
  { h with
    fieldQ := by simp only [Machine.placeFrame, List.length_append, List.length_singleton]; omega
    images := by
      simp only [Machine.placeFrame, takeImage]
      split
      · exact h.images
      · intro p hp
        rcases mem_tmod hp with ⟨a, ha, _, hv⟩ | ⟨hp, _⟩
        · rw [hv, List.length_set]; exact h.images _ ha
        · exact h.images p hp }

theorem SideOk.issue {r : Nat} {o : Out} (g : Held) (h : SideOk r o) : SideOk r (issue g o) := by
  unfold Machine.issue
  split
  · next hc => exact h.placeFrame g hc.2
  · exact { h with }

/-- Issuing a frame never shortens field egress, and holds a frame only where one is held already or no slot is free. -/
theorem issue_held (g : Held) (o : Out) (h : o.fieldQ.length ≤ Config.fieldEgressCap) :
    o.fieldQ.length ≤ (issue g o).fieldQ.length ∧ (HeldOk o → HeldOk (issue g o)) := by
  unfold issue
  split
  · next hc =>
    refine ⟨by simp [placeFrame], fun _ => .inl ?_⟩
    simp only [placeFrame, hc.1]
  · next hc =>
    refine ⟨Nat.le_refl _, fun hh => .inr ?_⟩
    rcases hh with hh | hh
    · have : ¬o.fieldQ.length < Config.fieldEgressCap := fun hlt => hc ⟨hh, hlt⟩
      exact Nat.le_antisymm h (Nat.le_of_not_lt this)
    · exact hh

theorem boardRun_keeps {r : Nat} (k : Site) (lines : List BoardLine) (a n : Nat) (o : Out) (h : SideOk r o) :
    SideOk r (boardRun k lines a n o) ∧ o.fieldQ.length ≤ (boardRun k lines a n o).fieldQ.length ∧
    (HeldOk o → HeldOk (boardRun k lines a n o)) := by
  induction n generalizing o with
  | zero => exact ⟨h, Nat.le_refl _, id⟩
  | succ n ih =>
    unfold boardRun
    split
    · exact ⟨h, Nat.le_refl _, id⟩
    · split
      · exact ⟨h, Nat.le_refl _, id⟩
      · next i _ =>
        obtain ⟨g1, g2⟩ := issue_held (boardFrame k lines a i) o h.fieldQ
        obtain ⟨h1, h2, h3⟩ := ih _ (h.issue (boardFrame k lines a i))
        exact ⟨h1, Nat.le_trans g1 h2, fun hh => h3 (g2 hh)⟩

theorem OutOk.compareBoard {r : Nat} {o : Out} (k : Site) (lines : List BoardLine) (a : Nat) (h : OutOk r o) :
    OutOk r (compareBoard k lines o a) := by
  obtain ⟨h1, _, h3⟩ := boardRun_keeps k lines a (Config.boardLines + 1) o h.side
  exact h1.out (h3 h.held)

/-- Enough rounds of release end with nothing held or no slot free. -/
theorem releaseHeld_keeps {r : Nat} (k : Site) (lines : List BoardLine) (n : Nat) (o : Out) (h : SideOk r o)
    (hn : Config.fieldEgressCap ≤ n + o.fieldQ.length) : OutOk r (releaseHeld k lines n o) := by
  induction n generalizing o with
  | zero => exact h.out (.inr (Nat.le_antisymm h.fieldQ (by simpa using hn)))
  | succ n ih =>
    unfold releaseHeld
    split
    · next he => exact h.out (.inl he)
    · next g rest hg =>
      split
      · next hlt =>
        have h1 : SideOk r (Machine.placeFrame g { o with held := rest }) := SideOk.placeFrame g { h with } hlt
        have e1 : (Machine.placeFrame g { o with held := rest }).fieldQ.length = o.fieldQ.length + 1 := by
          simp [placeFrame]
        dsimp only
        split
        · obtain ⟨h2, h3, _⟩ := boardRun_keeps k lines g.frame.dest.toNat (Config.boardLines + 1) _ h1
          exact ih _ h2 (by unfold Machine.compareBoard; omega)
        · exact ih _ h1 (by omega)
      · next hge => exact h.out (.inr (Nat.le_antisymm h.fieldQ (by omega)))

theorem OutOk.fieldSend {r : Nat} {o : Out} (k : Site) (lines : List BoardLine) (h : OutOk r o) :
    OutOk r (fieldSend k lines o) := by
  unfold Machine.fieldSend
  split
  · exact h
  · next i q hq =>
    refine releaseHeld_keeps k lines _ _ { h.side with fieldQ := ?_ } (Nat.le_add_right _ _)
    have := h.fieldQ
    rw [hq, List.length_cons] at this
    exact Nat.le_of_succ_le this

theorem OutOk.offerToField {r : Nat} {o : Out} (k : Site) (f : Frame) (h : OutOk r o) : OutOk r (offerToField k f o) := by
  unfold Machine.offerToField
  split
  · next hc =>
    exact { h with
      fieldQ := by
        have : 0 < Config.forwardReserve := by decide
        simp only [List.length_append, List.length_singleton]; omega
      held := .inl hc.1 }
  · exact h.offerNotice ..

theorem OutOk.dropOwn {r : Nat} {o : Out} (k : Site) (lines : List BoardLine) (a : Nat) (h : OutOk r o) :
    OutOk r (dropOwn k lines a o) :=
  releaseHeld_keeps k lines _ _ { h.side with fieldQ := Nat.le_trans (List.length_filter_le ..) h.fieldQ }
    (Nat.le_add_right _ _)

theorem OutOk.markUnsent {r : Nat} {o : Out} (k : Site) (a : Nat) (h : OutOk r o) : OutOk r (markUnsent k a o) :=
  { h with
    images := by
      intro p hp
      simp only [Machine.markUnsent] at hp
      rcases mem_tmod hp with ⟨b, hb, _, hv⟩ | ⟨hp, _⟩
      · have := h.images _ hb
        rw [hv]
        simp only [List.length_append, List.length_replicate, List.length_drop] at this ⊢
        omega
      · exact h.images p hp }

theorem OutOk.syncImages {r : Nat} {o : Out} (k : Site) (h : OutOk r o) : OutOk r (syncImages k o) :=
  { h with
    images := by
      have key (l : List Nat) (t : Table (List ImageLine)) (ht : ∀ p ∈ t, p.2.length = Config.boardLines) :
          ∀ p ∈ l.foldl (fun t a => tset t a ((tget o.images a).getD (List.replicate Config.boardLines .empty))) t,
            p.2.length = Config.boardLines := by
        induction l generalizing t with
        | nil => exact ht
        | cons a l ih =>
          refine ih _ fun p hp => ?_
          rcases mem_tset hp with rfl | hp
          · dsimp only
            cases ho : tget o.images a with
            | none => simp
            | some v => simpa using h.images _ (mem_of_tget ho)
          · exact ht p hp
      exact key _ [] (by simp) }

theorem OutOk.updateBoards {r : Nat} {o : Out} (k : Site) (lines : List BoardLine) (h : OutOk r o) :
    OutOk r (updateBoards k lines o) := by
  unfold Machine.updateBoards
  generalize boardAddresses k = l
  have h1 := h.syncImages k
  generalize Machine.syncImages k o = o1 at h1 ⊢
  induction l generalizing o1 with
  | nil => exact h1
  | cons a l ih => exact ih _ (h1.compareBoard k lines a)

theorem OutOk.issue {r : Nat} {o : Out} (g : Held) (h : OutOk r o) : OutOk r (issue g o) :=
  (h.side.issue g).out ((issue_held g o h.fieldQ).2 h.held)

/-- A frame held for the same station by the same block is replaced in its place in line (R28). -/
theorem holdFrame_replaces {h g : Held} {before after : List Held}
    (hg : g.block = h.block ∧ g.frame.dest = h.frame.dest)
    (hb : ∀ x ∈ before, ¬(x.block = h.block ∧ x.frame.dest = h.frame.dest)) :
    holdFrame h (before ++ g :: after) = before ++ h :: after := by
  induction before with
  | nil => simp [holdFrame, hg]
  | cons c before ih =>
    simp only [List.cons_append, holdFrame]
    rw [if_neg (hb c (by simp)), ih fun x hx => hb x (by simp [hx])]

/-- With none held for that station by that block, the frame joins the end (R28). -/
theorem holdFrame_joins {h : Held} {l : List Held}
    (hl : ∀ x ∈ l, ¬(x.block = h.block ∧ x.frame.dest = h.frame.dest)) : holdFrame h l = l ++ [h] := by
  induction l with
  | nil => rfl
  | cons c l ih =>
    simp only [List.cons_append, holdFrame]
    rw [if_neg (hl c (by simp)), ih fun x hx => hl x (by simp [hx])]

/-- A frame of a board that must be held joins the end of the held frames, unless one is held for the board (R28, R130). -/
theorem issue_boardFrame_holds {k : Site} {lines : List BoardLine} {a i : Nat} {o : Out} (ha : a < 256)
    (hb : heldForBoard o a = false) (hf : o.held ≠ [] ∨ Config.fieldEgressCap ≤ o.fieldQ.length) :
    issue (boardFrame k lines a i) o = { o with held := o.held ++ [boardFrame k lines a i] } := by
  have hd : (boardFrame k lines a i).frame.dest.toNat = a := by
    simp [boardFrame, byte, Nat.mod_eq_of_lt ha]
  unfold Machine.issue
  rw [if_neg fun hc => hf.elim (fun h => h hc.1) fun h => Nat.not_le_of_lt hc.2 h, holdFrame_joins]
  intro x hx hc
  refine Bool.false_ne_true (hb.symm.trans (List.any_eq_true.2 ⟨x, hx, ?_⟩))
  rw [hc.1, hc.2, hd, beq_self_eq_true]
  rfl

/-- While a frame is held for a board, its comparison makes no other (R130). -/
theorem boardRun_waits (k : Site) (lines : List BoardLine) (a n : Nat) {o : Out} (h : heldForBoard o a = true) :
    boardRun k lines a n o = o := by
  cases n with
  | zero => rfl
  | succ n => unfold boardRun; rw [h, Bool.or_true]; rfl

theorem tget_syncImages (k : Site) (o : Out) (a : Nat) :
    tget (syncImages k o).images a =
      if a ∈ boardAddresses k then some ((tget o.images a).getD (List.replicate Config.boardLines .empty)) else none := by
  have key (l : List Nat) (t : Table (List ImageLine)) :
      tget (l.foldl (fun t a => tset t a ((tget o.images a).getD (List.replicate Config.boardLines .empty))) t) a =
        if a ∈ l then some ((tget o.images a).getD (List.replicate Config.boardLines .empty)) else tget t a := by
    induction l generalizing t with
    | nil => exact (if_neg (by simp)).symm
    | cons b l ih =>
      rw [List.foldl_cons, ih]
      by_cases hb : a = b
      · subst hb; simp
      · rw [tget_tset_ne _ _ hb]; simp [hb]
  exact key _ []

theorem inManual_iff (k : Site) (a : Nat) :
    inManual k a = true ↔ ∃ s, stationAt k a = some s ∧ controllable s.entry.role = true ∧ s.manual = true := by
  unfold inManual
  cases stationAt k a <;> simp

/-! ## What a step hands over -/

theorem OutOk.handOver {r : Nat} {o : Out} (k : Site) (e : Emission) (h : OutOk r o) : OutOk r (handOver k o e) := by
  cases e with
  | notice => exact h.offerNotice ..
  | own b f =>
    simp only [Machine.handOver]
    split
    · exact h
    · exact h.issue _
  | boards => exact h.updateBoards ..

theorem OutOk.handOverAll {r : Nat} {o : Out} (k : Site) (l : List Emission) (h : OutOk r o) :
    OutOk r (handOverAll k l o) := by
  unfold Machine.handOverAll
  induction l generalizing o with
  | nil => exact h
  | cons e l ih => exact ih (h.handOver k e)

theorem OutOk.reset : OutOk 0 Out.reset :=
  ⟨by decide, .inl rfl, by decide, rfl, by decide, by decide, by decide, List.Pairwise.nil, by simp [Out.reset],
    by simp [Out.reset]⟩

/-- The first differing line is the first of the line numbers at which the image differs from what it should show. -/
theorem firstDiff_eq (k : Site) (lines : List BoardLine) (image : List ImageLine) (i : Nat) :
    firstDiff k lines i image =
      ((List.range image.length).find? fun j => image[j]? != some (boardTarget k lines (i + j))).map (i + ·) := by
  induction image generalizing i with
  | nil => rfl
  | cons l image ih =>
    simp only [firstDiff, List.length_cons, List.range_succ_eq_map, List.find?_cons, List.getElem?_cons_zero,
      Nat.add_zero]
    by_cases h : l = boardTarget k lines i
    · rw [if_pos h, ih]
      subst h
      simp only [bne_self_eq_false, List.find?_map, Option.map_map]
      have e : ((fun x => i + x) ∘ Nat.succ : Nat → Nat) = fun x => i + 1 + x := by
        funext x; simp only [Function.comp]; omega
      rw [e]
      congr 2
      funext x
      simp only [Function.comp, Nat.succ_eq_add_one, List.getElem?_cons_succ]
      congr 3
      omega
    · have hb : (some l != some (boardTarget k lines i)) = true := by simpa using h
      rw [if_neg h, hb]
      rfl

end Sys2Proof.Machine
end

