-- ==== Sys2Proof/Laws/Yard.lean ====
section
/-! SUPPORT. `Work`: what every operation on the yard may do to its tables and its collections. One lemma for each shared
operation, in the order of the model's files, in the form "after a yard that Work reaches, Work reaches the operation's". -/

namespace Sys2Proof.Machine

-- One theorem at a time: the proofs below, elaborated all at once, would each hold a thread and its stack.
set_option Elab.async false

/-- The bounds of the yard's collections, with the lanes in order. -/
structure Bounded (y : Yard) : Prop where
  order : tableWf y.lanes
  lanes : ∀ p ∈ y.lanes, laneOk p.2
  apron : y.apron.length ≤ Config.apronCap
  departing : y.departing.length ≤ Config.departingCap
  fuelQ : y.fuelQ.length ≤ Config.queueCap
  washQ : y.washQ.length ≤ Config.queueCap

/-- From `y` to `z` no table field has changed and no place was made or emptied, and the bounds are kept. -/
structure Work (y z : Yard) : Prop where
  roster : tmap z.roster (·.entry) = tmap y.roster (·.entry)
  lanes : tmap z.lanes (·.entry) = tmap y.lanes (·.entry)
  islands : tmap z.islands (·.entry) = tmap y.islands (·.entry)
  washLanes : tmap z.washLanes (·.entry) = tmap y.washLanes (·.entry)
  bankA : tmap z.bankA (·.entry) = tmap y.bankA (·.entry)
  bankB : tmap z.bankB (·.entry) = tmap y.bankB (·.entry)
  bounds : Bounded y → Bounded z

theorem without_le (l : List Nat) (f : Nat) : (without l f).length ≤ l.length := List.length_filter_le ..

theorem without_lt {l : List Nat} {f : Nat} (h : f ∈ l) : (without l f).length < l.length := by
  unfold without
  exact List.length_filter_lt_length_iff_exists.2 ⟨f, h, by simp⟩

@[simp] theorem leaveCallList_departing (d : Nat) (y : Yard) : (leaveCallList d y).departing = y.departing := by
  unfold leaveCallList; split <;> rfl

/-- The oldest departing entry is gone. -/
theorem expireDeparting_departing (k : Site) (y : Yard) : (expireDeparting k y).departing = y.departing.tail := by
  unfold expireDeparting
  split
  · next h => simp [h]
  · next h =>
    dsimp only
    rw [raise_departing, h]
    split
    · rfl
    · split
      · rfl
      · split
        · simp
        · rfl

namespace Work

variable {x y z : Yard}

theorem refl (y : Yard) : Work y y := ⟨rfl, rfl, rfl, rfl, rfl, rfl, id⟩

theorem trans (h : Work x y) (g : Work y z) : Work x z :=
  ⟨g.roster.trans h.roster, g.lanes.trans h.lanes, g.islands.trans h.islands, g.washLanes.trans h.washLanes,
    g.bankA.trans h.bankA, g.bankB.trans h.bankB, fun b => g.bounds (h.bounds b)⟩

/-! ## One field -/

/-- Only the duty queue, the call list, the active bank, what is owed and what is emitted may differ. -/
theorem other (h : Work x y) (h1 : z.roster = y.roster) (h2 : z.lanes = y.lanes) (h3 : z.islands = y.islands)
    (h4 : z.washLanes = y.washLanes) (h5 : z.bankA = y.bankA) (h6 : z.bankB = y.bankB) (h7 : z.apron = y.apron)
    (h8 : z.departing = y.departing) (h9 : z.fuelQ = y.fuelQ) (h10 : z.washQ = y.washQ) : Work x z :=
  h.trans ⟨by rw [h1], by rw [h2], by rw [h3], by rw [h4], by rw [h5], by rw [h6], fun b =>
    ⟨by rw [h2]; exact b.order, by rw [h2]; exact b.lanes, by rw [h7]; exact b.apron, by rw [h8]; exact b.departing,
      by rw [h9]; exact b.fuelQ, by rw [h10]; exact b.washQ⟩⟩

theorem setRoster (h : Work x y) {r : Table Vehicle} (hr : tmap r (·.entry) = tmap y.roster (·.entry)) :
    Work x { y with roster := r } :=
  h.trans ⟨hr, rfl, rfl, rfl, rfl, rfl, fun b => ⟨b.order, b.lanes, b.apron, b.departing, b.fuelQ, b.washQ⟩⟩

theorem setLanes (h : Work x y) {t : Table Lane} (ht : tmap t (·.entry) = tmap y.lanes (·.entry))
    (hb : tableWf y.lanes → (∀ p ∈ y.lanes, laneOk p.2) → ∀ p ∈ t, laneOk p.2) : Work x { y with lanes := t } :=
  h.trans ⟨rfl, ht, rfl, rfl, rfl, rfl, fun b =>
    ⟨tableWf_of_tmap (f := (·.entry)) (by rw [ht]; exact tableWf_tmap _ b.order), hb b.order b.lanes, b.apron, b.departing,
      b.fuelQ, b.washQ⟩⟩

theorem setApron (h : Work x y) {l : List Nat} (hl : y.apron.length ≤ Config.apronCap → l.length ≤ Config.apronCap) :
    Work x { y with apron := l } :=
  h.trans ⟨rfl, rfl, rfl, rfl, rfl, rfl, fun b => ⟨b.order, b.lanes, hl b.apron, b.departing, b.fuelQ, b.washQ⟩⟩

theorem setDeparting (h : Work x y) {l : List DepartingItem}
    (hl : Bounded x → l.length ≤ Config.departingCap) : Work x { y with departing := l } :=
  ⟨h.roster, h.lanes, h.islands, h.washLanes, h.bankA, h.bankB, fun b =>
    let c := h.bounds b; ⟨c.order, c.lanes, c.apron, hl b, c.fuelQ, c.washQ⟩⟩

theorem setFuelQ (h : Work x y) {l : List Nat} (hl : Bounded x → l.length ≤ Config.queueCap) :
    Work x { y with fuelQ := l } :=
  ⟨h.roster, h.lanes, h.islands, h.washLanes, h.bankA, h.bankB, fun b =>
    let c := h.bounds b; ⟨c.order, c.lanes, c.apron, c.departing, hl b, c.washQ⟩⟩

theorem setWashQ (h : Work x y) {l : List Nat} (hl : Bounded x → l.length ≤ Config.queueCap) :
    Work x { y with washQ := l } :=
  ⟨h.roster, h.lanes, h.islands, h.washLanes, h.bankA, h.bankB, fun b =>
    let c := h.bounds b; ⟨c.order, c.lanes, c.apron, c.departing, c.fuelQ, hl b⟩⟩

theorem setBank (h : Work x y) {bk : Bank} {t : Table Duty}
    (ht : tmap t (·.entry) = tmap (bankOf y bk) (·.entry)) : Work x (setBank bk t y) := by
  cases bk
  · exact h.trans ⟨rfl, rfl, rfl, rfl, ht, rfl, fun b => ⟨b.order, b.lanes, b.apron, b.departing, b.fuelQ, b.washQ⟩⟩
  · exact h.trans ⟨rfl, rfl, rfl, rfl, rfl, ht, fun b => ⟨b.order, b.lanes, b.apron, b.departing, b.fuelQ, b.washQ⟩⟩

/-- A fold of operations. -/
theorem foldl {α : Type} (g : Yard → α → Yard) (hg : ∀ {y a}, Work x y → Work x (g y a)) (l : List α) (h : Work x y) :
    Work x (l.foldl g y) := by
  induction l generalizing y with
  | nil => exact h
  | cons a l ih => exact ih (hg h)

/-! ## Ops -/

theorem raise (h : Work x y) (kind : NoticeKind) (fleet : Option Nat) (place : Option NoticePlace) (duty : Option Nat) :
    Work x (raise kind fleet place duty y) := h.other rfl rfl rfl rfl rfl rfl rfl rfl rfl rfl

theorem boardsChanged (h : Work x y) : Work x (boardsChanged y) := h.other rfl rfl rfl rfl rfl rfl rfl rfl rfl rfl
theorem report (h : Work x y) : Work x (report y) := h.other rfl rfl rfl rfl rfl rfl rfl rfl rfl rfl
theorem roomEvent (h : Work x y) : Work x (roomEvent y) := h.other rfl rfl rfl rfl rfl rfl rfl rfl rfl rfl
theorem setTodo (h : Work x y) (t : Todo) : Work x { y with todo := t } := h.other rfl rfl rfl rfl rfl rfl rfl rfl rfl rfl

theorem sendOwn (h : Work x y) (k : Site) (block : Block) (dest : Nat) (kind : Byte) (payload : List Byte) :
    Work x (sendOwn k block dest kind payload y) := by
  unfold Machine.sendOwn
  split
  · exact h
  · exact h.other rfl rfl rfl rfl rfl rfl rfl rfl rfl rfl

theorem showSign (h : Work x y) (k : Site) (sign : Option Nat) (fleet : Nat) (dir : Direction) :
    Work x (showSign k sign fleet dir y) := by
  unfold Machine.showSign
  split
  · exact h
  · exact h.sendOwn ..

theorem updVeh (h : Work x y) {f : Nat} {g : Vehicle → Vehicle} (hg : ∀ v, (g v).entry = v.entry := by intro _; rfl) :
    Work x (updVeh f g y) := by
  refine h.setRoster ?_
  rw [tmap_tmap]
  exact tmap_congr fun p _ => by split <;> simp [hg]

theorem setState (h : Work x y) (k : Site) (f : Nat) (st : VehState) : Work x (setState k f st y) :=
  h.updVeh fun v => by unfold withState; split <;> rfl

theorem updService (h : Work x y) {f : Nat} {g : Vehicle → Vehicle} (hg : ∀ v, (g v).entry = v.entry := by intro _; rfl) :
    Work x (updService f g y) := by
  unfold Machine.updService
  have h' : Work x (Machine.updVeh f g y) := h.updVeh hg
  split
  · exact h
  · dsimp only
    split <;> split
    · exact h'
    · exact h'.report
    · exact h'.report
    · exact h'.report.report

theorem markFuelSkipped (h : Work x y) (f : Nat) : Work x (markFuelSkipped f y) := h.updService
theorem markFuelDone (h : Work x y) (f : Nat) : Work x (markFuelDone f y) := h.updService
theorem markWashIncomplete (h : Work x y) (f : Nat) : Work x (markWashIncomplete f y) := h.updService

theorem updDuty (h : Work x y) {d : Nat} {g : Duty → Duty} (hg : ∀ r, (g r).entry = r.entry := by intro _; rfl) :
    Work x (updDuty d g y) := by
  refine h.setBank ?_
  rw [tmap_tmap]
  exact tmap_congr fun p _ => by split <;> simp [hg]

theorem oweEvaluation (h : Work x y) (d : Nat) : Work x (oweEvaluation d y) :=
  h.other rfl rfl rfl rfl rfl rfl rfl rfl rfl rfl

theorem oweIfWaiting (h : Work x y) (d : Nat) : Work x (oweIfWaiting d y) := by
  unfold Machine.oweIfWaiting
  split
  · split
    · exact h.oweEvaluation d
    · exact h
  · exact h

theorem pair (h : Work x y) (f d : Nat) : Work x (pair f d y) := h.updVeh.updDuty

theorem unpairRecords (h : Work x y) (f : Nat) : Work x (unpairRecords f y) := by
  unfold Machine.unpairRecords
  split
  · exact h
  · exact h.updVeh.updDuty

theorem unpair (h : Work x y) (f : Nat) : Work x (unpair f y) := by
  unfold Machine.unpair
  split
  · exact h
  · exact (h.unpairRecords f).oweIfWaiting _

theorem exchange (h : Work x y) (c d : Nat) (keep : Bool) : Work x (exchange c d keep y) := by
  unfold Machine.exchange
  dsimp only
  have h1 : Work x (match (dutyOf y d).bind (·.vehicle) with
      | some w => Machine.unpairRecords w (Machine.unpairRecords c y)
      | none => Machine.unpairRecords c y) := by
    split
    · exact (h.unpairRecords c).unpairRecords _
    · exact h.unpairRecords c
  split
  · split
    · exact (h1.pair c d).pair _ _
    · exact h1.pair c d
  · exact h1.pair c d

/-- A lane's change that keeps its entry, and its bounds wherever the lane stood at its number. -/
theorem updLane (h : Work x y) {n : Nat} {g : Lane → Lane} (hg : ∀ l, (g l).entry = l.entry := by intro _; rfl)
    (hb : ∀ l, tget y.lanes n = some l → laneOk l → laneOk (g l)) : Work x (updLane n g y) := by
  refine h.setLanes ?_ ?_
  · exact tmap_tmod _ _ _ _ hg
  · intro wf hl p hp
    rcases mem_tmod hp with ⟨a, ha, hk, hv⟩ | ⟨hp, _⟩
    · rw [hv]
      exact hb a (hk ▸ tget_of_mem wf ha) (hl _ ha)
    · exact hl p hp

/-- A lane's change that only shortens its lists. -/
theorem shortenLane (h : Work x y) {n : Nat} {g : Lane → Lane} (hg : ∀ l, (g l).entry = l.entry := by intro _; rfl)
    (hi : ∀ l, (g l).items.length ≤ l.items.length := by intro _; simp)
    (hp : ∀ l, (g l).pendings.length ≤ l.pendings.length := by intro _; simp) : Work x (Machine.updLane n g y) :=
  h.updLane hg fun l _ ⟨h1, h2⟩ => ⟨by have := hi l; have := hp l; omega, by have := hp l; omega⟩

theorem markDoubt (h : Work x y) (n : Nat) : Work x (markDoubt n y) := h.shortenLane

theorem updIsland (h : Work x y) {n : Nat} {g : Island → Island} (hg : ∀ i, (g i).entry = i.entry := by intro _; rfl) :
    Work x (updIsland n g y) :=
  h.trans ⟨rfl, rfl, tmap_tmod _ _ _ _ hg, rfl, rfl, rfl, fun b =>
    ⟨b.order, b.lanes, b.apron, b.departing, b.fuelQ, b.washQ⟩⟩

theorem updWash (h : Work x y) {n : Nat} {g : WashLane → WashLane} (hg : ∀ l, (g l).entry = l.entry := by intro _; rfl) :
    Work x (updWash n g y) :=
  h.trans ⟨rfl, rfl, rfl, tmap_tmod _ _ _ _ hg, rfl, rfl, fun b =>
    ⟨b.order, b.lanes, b.apron, b.departing, b.fuelQ, b.washQ⟩⟩

theorem leaveApron (h : Work x y) (f : Nat) : Work x (leaveApron f y) :=
  h.setApron fun hl => Nat.le_trans (List.length_filter_le ..) hl

theorem leaveCallList (h : Work x y) (d : Nat) : Work x (leaveCallList d y) := by
  unfold Machine.leaveCallList
  split
  · exact h.other rfl rfl rfl rfl rfl rfl rfl rfl rfl rfl
  · exact h

theorem withdrawCall (h : Work x y) (f : Nat) : Work x (withdrawCall f y) := by
  unfold Machine.withdrawCall
  split
  · exact h
  · split
    · exact (((h.raise ..).updDuty).leaveCallList _).setTodo _
    · exact h

theorem standDown (h : Work x y) (k : Site) (f : Nat) : Work x (standDown k f y) := by
  unfold Machine.standDown
  split
  · exact (h.setState ..).report
  · exact h

theorem settleDuty (h : Work x y) (d : Nat) : Work x (settleDuty d y) := by
  unfold Machine.settleDuty
  split
  · exact h
  · split
    · exact h.updDuty.leaveCallList d
    · split
      · exact h.updDuty
      · exact h

theorem expireDeparting (h : Work x y) (k : Site) : Work x (expireDeparting k y) := by
  unfold Machine.expireDeparting
  split
  · exact h
  · next e rest he =>
    have h1 : Work x { y with departing := rest } :=
      h.setDeparting fun b => by
        have hl := (h.bounds b).departing
        rw [he] at hl; simp only [List.length_cons] at hl; omega
    dsimp only
    refine Work.raise ?_ _ _ _ _
    split
    · exact h1
    · split
      · exact h1.setState ..
      · split
        · exact (h1.setState ..).updDuty.leaveCallList _
        · exact h1.setState ..

theorem joinDeparting (h : Work x y) (k : Site) (vehicle lane : Option Nat) : Work x (joinDeparting k vehicle lane y) := by
  unfold Machine.joinDeparting
  dsimp only
  split
  · next hc =>
    refine (h.expireDeparting k).setDeparting fun b => ?_
    have hl := (h.bounds b).departing
    simp only [expireDeparting_departing, List.length_append, List.length_tail, List.length_singleton]
    have : 0 < Config.departingCap := by decide
    omega
  · refine h.setDeparting fun _ => ?_
    simp only [List.length_append, List.length_singleton]
    omega

theorem enterCallList (h : Work x y) (k : Site) (d f : Nat) (stand : Stand) (verify : Bool) :
    Work x (enterCallList k d f stand verify y) :=
  (h.updDuty (d := d)).other rfl rfl rfl rfl rfl rfl rfl rfl rfl rfl

theorem callVehicle (h : Work x y) (k : Site) (d f : Nat) (stand : Stand) : Work x (callVehicle k d f stand y) := by
  unfold Machine.callVehicle
  dsimp only
  refine Work.boardsChanged ?_
  split
  · exact (h.enterCallList ..).setState ..
  · exact ((h.enterCallList ..).setState ..).sendOwn ..

theorem callInPlace (h : Work x y) (k : Site) (d f : Nat) : Work x (callInPlace k d f y) :=
  (h.enterCallList ..).boardsChanged

theorem directRelease (h : Work x y) (k : Site) (d f : Nat) : Work x (directRelease k d f y) :=
  (((h.enterCallList ..).joinDeparting ..).setState ..).boardsChanged

/-! ## Service -/

theorem islandCmd (h : Work x y) (k : Site) (n command fleet limit : Nat) : Work x (islandCmd k n command fleet limit y) := by
  unfold Machine.islandCmd
  split
  · exact h
  · exact h.sendOwn ..

theorem stopOnce (h : Work x y) (k : Site) (n : Nat) : Work x (stopOnce k n y) := by
  unfold Machine.stopOnce
  split
  · exact h
  · split
    · exact h
    · exact h.updIsland.islandCmd ..

theorem callIsland (h : Work x y) (k : Site) (n : Nat) : Work x (callIsland k y n) := by
  unfold Machine.callIsland
  split
  · exact h
  · split
    · split
      · exact h
      · exact (((h.setFuelQ fun b => Nat.le_trans (without_le _ _) (h.bounds b).fuelQ).setState ..).report.updIsland).showSign ..
    · exact h

theorem fuelCalls (h : Work x y) (k : Site) : Work x (fuelCalls k y) :=
  Work.foldl (Machine.callIsland k) (fun h => h.callIsland k _) _ h

theorem withdrawIsland (h : Work x y) (k : Site) (n : Nat) : Work x (withdrawIsland k n y) := by
  unfold Machine.withdrawIsland
  split
  · exact h
  · refine Work.fuelCalls (Work.report (Work.updIsland ?_)) k
    split
    · exact h.stopOnce k n
    · exact h

theorem returnToFuel (h : Work x y) (k : Site) (f : Nat) (hl : Bounded x → y.fuelQ.length < Config.queueCap) :
    Work x (returnToFuel k f y) :=
  ((h.setFuelQ fun b => by
    have := hl b; have := without_le y.fuelQ f
    simp only [List.length_cons]; omega).setState ..).report

theorem fuelUrgent (h : Work x y) (f : Nat) : Work x (fuelUrgent f y) := by
  unfold Machine.fuelUrgent
  split
  · next hc =>
    refine h.setFuelQ fun b => ?_
    have := (h.bounds b).fuelQ
    have := without_lt (List.contains_iff_mem.1 hc)
    simp only [List.length_cons]; omega
  · exact h

theorem joinFuel (h : Work x y) (k : Site) (f : Nat) (hl : Bounded x → y.fuelQ.length < Config.queueCap) :
    Work x (joinFuel k f y) := by
  unfold Machine.joinFuel
  refine ((h.setFuelQ fun b => ?_).updVeh).setState ..
  have := hl b
  simp only [List.length_append, List.length_singleton]; omega

theorem washCmd (h : Work x y) (k : Site) (n command stage kind time : Nat) :
    Work x (washCmd k n command stage kind time y) := by
  unfold Machine.washCmd
  split
  · exact h
  · exact h.sendOwn ..

theorem abortWash (h : Work x y) (k : Site) (n : Nat) : Work x (abortWash k n y) := h.washCmd ..

theorem callWash (h : Work x y) (k : Site) (n : Nat) : Work x (callWash k y n) := by
  unfold Machine.callWash
  split
  · exact h
  · split
    · split
      · exact h
      · exact (((h.setWashQ fun b => Nat.le_trans (without_le _ _) (h.bounds b).washQ).setState ..).report.updWash).showSign ..
    · exact h

theorem washCalls (h : Work x y) (k : Site) : Work x (washCalls k y) :=
  Work.foldl (Machine.callWash k) (fun h => h.callWash k _) _ h

theorem withdrawWash (h : Work x y) (k : Site) (n : Nat) : Work x (withdrawWash k n y) := by
  unfold Machine.withdrawWash
  split
  · exact h
  · refine Work.washCalls (Work.report (Work.updWash ?_)) k
    split
    · exact h.abortWash k n
    · exact h

theorem returnToWash (h : Work x y) (k : Site) (f : Nat) (hl : Bounded x → y.washQ.length < Config.queueCap) :
    Work x (returnToWash k f y) :=
  ((h.setWashQ fun b => by
    have := hl b; have := without_le y.washQ f
    simp only [List.length_cons]; omega).setState ..).report

theorem washUrgent (h : Work x y) (f : Nat) : Work x (washUrgent f y) := by
  unfold Machine.washUrgent
  split
  · next hc =>
    refine h.setWashQ fun b => ?_
    have := (h.bounds b).washQ
    have := without_lt (List.contains_iff_mem.1 hc)
    simp only [List.length_cons]; omega
  · exact h

theorem joinWash (h : Work x y) (k : Site) (f : Nat) (hl : Bounded x → y.washQ.length < Config.queueCap) :
    Work x (joinWash k f y) := by
  unfold Machine.joinWash
  refine ((h.setWashQ fun b => ?_).updVeh).setState ..
  have := hl b
  simp only [List.length_append, List.length_singleton]; omega

/-! ## Stow -/

theorem requestLane (h : Work x y) {k : Site} {f n : Nat} {tail : Option Nat}
    (hr : requestLane k f n tail y = some z) : Work x z := by
  unfold Machine.requestLane at hr
  split at hr
  · next v l _ hl =>
    split at hr
    · next he =>
      cases hr
      refine Work.setState (h.updLane (g := fun l => { l with pendings := l.pendings ++ [{ fleet := f, joined := k.now }] })
        (fun _ => rfl) fun l' hl' ⟨h1, h2⟩ => ?_) ..
      rw [hl] at hl'; cases hl'
      simp only [eligible, Bool.and_eq_true, decide_eq_true_eq] at he
      exact ⟨by simp only [List.length_append, List.length_singleton]; omega,
        by simp only [List.length_append, List.length_singleton]; omega⟩
    · cases hr
  · cases hr

theorem toLane (h : Work x y) {k : Site} {f n : Nat} {forced : Bool} (hr : toLane k f forced y = some (z, n)) :
    Work x z := by
  unfold Machine.toLane at hr
  split at hr
  · cases hr
  · split at hr
    · cases hr
    · rw [Option.map_eq_some_iff] at hr
      obtain ⟨w, hw, he⟩ := hr
      cases he
      exact h.requestLane hw

theorem joinApron (h : Work x y) (k : Site) (f : Nat) (hl : y.apron.length < Config.apronCap) :
    Work x (joinApron k f y) :=
  ((h.setApron fun _ => by simp only [List.length_append, List.length_singleton]; omega).setState ..).report

theorem wait (h : Work x y) (k : Site) (f : Nat) : Work x (wait k f y) := (h.setState ..).raise ..

theorem placement (h : Work x y) (k : Site) (f : Nat) : Work x (placement k f y).1 := by
  unfold Machine.placement
  split
  · next hr => exact h.toLane hr
  · split
    · next hl => exact h.joinApron k f hl
    · split
      · next hr => exact h.toLane hr
      · exact h.wait k f

theorem waitingPlacement (h : Work x y) {k : Site} {f : Nat} {dir : Direction}
    (hr : waitingPlacement k f y = some (z, dir)) : Work x z := by
  unfold Machine.waitingPlacement at hr
  split at hr
  · next ht => cases hr; exact (h.toLane ht).report
  · split at hr
    · next hl => cases hr; exact h.joinApron k f hl
    · rw [Option.map_eq_some_iff] at hr
      obtain ⟨⟨w, n⟩, hw, he⟩ := hr
      cases he
      exact (h.toLane hw).report

/-! ## Route -/

theorem outOfLane (h : Work x y) (n f : Nat) : Work x (outOfLane n f y) := by
  unfold Machine.outOfLane
  dsimp only
  have h1 : Work x (Machine.roomEvent (Machine.updLane n
      (fun l => { l with items := l.items.filter fun i => i.vehicle != some f, doubt := true }) y)) :=
    (h.shortenLane (hi := fun l => List.length_filter_le ..)).roomEvent
  split
  · exact h1.report
  · exact h1

theorem outOfPending (h : Work x y) (n f : Nat) : Work x (outOfPending n f y) :=
  (h.shortenLane (hp := fun l => List.length_filter_le ..)).roomEvent

theorem takeOut (h : Work x y) (k : Site) (f : Nat) : Work x (takeOut k f y) := by
  unfold Machine.takeOut
  split
  · exact h.outOfLane ..
  · split
    · exact h.outOfPending ..
    · split
      · exact h.withdrawIsland ..
      · split
        · exact h.withdrawWash ..
        · split
          · exact (h.leaveApron f).roomEvent
          · exact ((h.setDeparting fun b => Nat.le_trans (List.length_filter_le ..) (h.bounds b).departing).setFuelQ
              fun b => Nat.le_trans (without_le _ _) (h.bounds b).fuelQ).setWashQ
              fun b => Nat.le_trans (without_le _ _) (h.bounds b).washQ

theorem fuelJoined (h : Work x y) (k : Site) (collect : Bool) (f : Nat) : Work x (fuelJoined k collect f y) := by
  unfold Machine.fuelJoined
  refine Work.fuelCalls ?_ k
  split
  · split
    · exact h.setTodo _
    · exact h.fuelUrgent f
  · exact h

theorem skipFuel (h : Work x y) (f : Nat) : Work x (skipFuel f y) := (h.markFuelSkipped f).raise ..
theorem skipWash (h : Work x y) (f : Nat) : Work x (skipWash f y) := (h.markWashIncomplete f).raise ..

theorem washOrPlace (h : Work x y) (k : Site) (f : Nat) : Work x (washOrPlace k f y).1 := by
  unfold Machine.washOrPlace
  split
  · exact h
  · split
    · split
      · next hj =>
        simp only [washJoinable, Bool.and_eq_true, decide_eq_true_eq] at hj
        exact h.joinWash k f fun _ => hj.1
      · exact (h.skipWash f).placement k f
    · exact h.placement k f

theorem routeCases (h : Work x y) (k : Site) {onward : Nat → Yard → Yard × Direction} (f : Nat)
    (ho : ∀ {z}, Work x z → Work x (onward f z).1) : Work x (routeCases k onward f y).1 := by
  unfold Machine.routeCases
  split
  · exact h
  · split
    · exact h.placement k f
    · split
      · exact h.directRelease ..
      · split
        · split
          · next hj =>
            simp only [fuelJoinable, Bool.and_eq_true, decide_eq_true_eq] at hj
            exact h.joinFuel k f fun _ => hj.1
          · exact ho (h.skipFuel f)
        · exact ho h

theorem defer (h : Work x y) (k : Site) (collect : Bool) (f : Nat) : Work x (defer k collect f y) := by
  unfold Machine.defer
  split
  · have h1 := ((h.setWashQ (l := without y.washQ f) fun b => Nat.le_trans (without_le _ _) (h.bounds b).washQ).markWashIncomplete f).routeCases
      k (onward := Machine.placement k) f fun hz => hz.placement k f
    split
    · next he => rw [he] at h1; exact h1.fuelJoined k collect f
    · next he => rw [he] at h1; exact h1
  · exact h

theorem washJoined (h : Work x y) (k : Site) (f : Nat) : Work x (washJoined k f y) := by
  unfold Machine.washJoined
  split
  · refine Work.washCalls ?_ k
    split
    · split
      · exact h.washUrgent f
      · exact h.defer k false f
    · exact h
  · exact h.washCalls k

theorem route (h : Work x y) (k : Site) (sign : Option Nat) (f : Nat) : Work x (route k sign f y).1 := by
  unfold Machine.route
  have h1 := (h.routeCases k (onward := Machine.washOrPlace k) f fun hz => hz.washOrPlace k f)
  rcases hr : Machine.routeCases k (Machine.washOrPlace k) f y with ⟨w, dir⟩
  rw [hr] at h1
  have h2 := h1.showSign k sign f dir
  cases dir
  case fuelRoad => exact h2.fuelJoined k false f
  case washRoad => exact h2.washJoined k f
  all_goals exact h2

/-! ## Departure -/

theorem pairArrival (h : Work x y) (f : Nat) : Work x (pairArrival f y) := by
  unfold Machine.pairArrival
  split
  · exact h
  · split
    · exact h
    · split
      · exact h.pair ..
      · split
        · exact h.pair ..
        · exact h

theorem callFromFront (h : Work x y) (k : Site) (d f : Nat) : Work x (callFromFront k d f y) := by
  unfold Machine.callFromFront
  split
  · exact h.callVehicle ..
  · exact h

theorem block (h : Work x y) (d : Nat) (r : Duty) (reason : BlockedReason) : Work x (block d r reason y) := by
  unfold Machine.block
  split
  · exact h
  · exact h.updDuty.raise ..

theorem substitute (h : Work x y) (k : Site) (r : Duty) (reason : BlockedReason) : Work x (substitute k r reason y) := by
  unfold Machine.substitute
  dsimp only
  split
  · exact h.block ..
  · exact (((h.exchange ..).updDuty).raise ..).callFromFront ..

theorem hold (h : Work x y) (k : Site) (r : Duty) (v : Vehicle) (collect : Bool) : Work x (hold k r v collect y) := by
  unfold Machine.hold
  split
  · exact h
  · dsimp only
    have h1 : Work x (Machine.updDuty r.entry.number (fun r => { r with state := .held, reason := none }) y) := h.updDuty
    split
    · split
      · exact h1.setTodo _
      · exact (h1.fuelUrgent _).fuelCalls k
    · split
      · split
        · exact h1.setTodo _
        · exact (h1.washUrgent _).washCalls k
      · exact (h1.defer k collect _).washCalls k
    · exact h1

theorem evaluateFor (h : Work x y) (k : Site) (r : Duty) (v : Vehicle) (collect : Bool) :
    Work x (evaluateFor k r v collect y) := by
  unfold Machine.evaluateFor
  split
  · split
    · exact h.callVehicle ..
    · exact h.substitute ..
  · split
    · exact h.callInPlace ..
    all_goals first | exact h.hold .. | exact h.substitute ..

theorem evaluate (h : Work x y) (k : Site) (collect : Bool) (d : Nat) : Work x (evaluate k collect d y) := by
  unfold Machine.evaluate
  split
  · exact h
  · split
    · exact h
    · split
      · split
        · exact h.evaluateFor ..
        · exact h.substitute ..
      · exact h

theorem dutyRound (h : Work x y) (k : Site) : Work x (dutyRound k y) := by
  unfold Machine.dutyRound
  refine Work.foldl _ (fun {w d} h => ?_) _ h
  split
  · split
    · exact h.evaluate ..
    · exact h
  · exact h

theorem drainDuty (h : Work x y) (k : Site) (n : Nat) : Work x (drainDuty k n y) := by
  induction n generalizing y with
  | zero => exact h
  | succ n ih =>
    unfold Machine.drainDuty
    split
    · exact ih ((h.setTodo _).evaluate ..)
    · split
      · exact h
      · exact ih ((h.setTodo _).dutyRound k)

theorem afterMove (h : Work x y) (k : Site) (f : Nat) (dir : Direction) : Work x (afterMove k f dir y) :=
  (h.showSign ..).drainDuty ..

theorem apronTurn (h : Work x y) (k : Site) (f : Nat) : Work x (apronTurn k f y) := by
  unfold Machine.apronTurn
  split
  · exact h
  · split
    · next hr => exact ((h.toLane hr).leaveApron f).report.afterMove ..
    · exact h

theorem apronPass (h : Work x y) (k : Site) (n : Nat) (served : List Nat) : Work x (apronPass k n served y) := by
  induction n generalizing y served with
  | zero => exact h
  | succ n ih =>
    unfold Machine.apronPass
    split
    · exact h
    · exact ih (h.apronTurn ..) _

theorem waitTurn (h : Work x y) (k : Site) (f : Nat) : Work x (waitTurn k f y) := by
  unfold Machine.waitTurn
  split
  · next hr => exact (h.waitingPlacement hr).afterMove ..
  · exact h

theorem waitingPass (h : Work x y) (k : Site) (n : Nat) (served : List Nat) : Work x (waitingPass k n served y) := by
  induction n generalizing y served with
  | zero => exact h
  | succ n ih =>
    unfold Machine.waitingPass
    split
    · exact h
    · exact ih (h.waitTurn ..) _

theorem retryRound (h : Work x y) (k : Site) : Work x (retryRound k y) := (h.apronPass ..).waitingPass ..

theorem takeReturned (h : Work x y) (k : Site) : Work x (takeReturned k y) := h.setTodo _

theorem drainFor (h : Work x y) (k : Site) (n : Nat) : Work x (drainFor k n y) := by
  induction n generalizing y with
  | zero => exact h
  | succ n ih =>
    unfold Machine.drainFor
    dsimp only
    have h1 := (h.takeReturned k).drainDuty k Config.roundBound
    split
    · exact h1
    · exact ih ((h1.setTodo _).retryRound k)

theorem drain (h : Work x y) (k : Site) : Work x (drain k y) := h.drainFor ..

theorem issueUrgent (h : Work x y) (k : Site) : Work x (issueUrgent k y) := by
  unfold Machine.issueUrgent
  refine Work.foldl _ (fun {w u} h => ?_) _ (h.setTodo _)
  split
  · exact (h.fuelUrgent _).fuelCalls k
  · exact (h.washUrgent _).washCalls k

theorem markLate (h : Work x y) (d : Nat) (r : Duty) : Work x (markLate d r y) := h.updDuty.raise ..

theorem lateEvent (h : Work x y) (d : Nat) : Work x (lateEvent d y) := by
  unfold Machine.lateEvent
  split
  · exact h
  · split
    · exact h.markLate ..
    · split
      · exact h.raise ..
      · exact h

theorem dueEvent (h : Work x y) (k : Site) (collect : Bool) (d : Nat) : Work x (dueEvent k collect y d) := by
  unfold Machine.dueEvent
  split
  · exact (h.evaluate ..).drain k
  · exact h

theorem minuteEvent (h : Work x y) (k : Site) (m : Nat) : Work x (minuteEvent k y m) := by
  unfold Machine.minuteEvent
  exact Work.foldl _ (fun h => h.lateEvent _) _
    (((Work.foldl _ (fun h => h.dueEvent k true _) _ h).issueUrgent k).drain k)

theorem deliver (h : Work x y) (k : Site) (first last : Nat) : Work x (deliver k first last y) :=
  Work.foldl _ (fun h => h.minuteEvent k _) _ h

theorem catchUp (h : Work x y) (k : Site) : Work x (catchUp k y) := by
  unfold Machine.catchUp
  refine Work.foldl _ (fun {w d} h => ?_) _ (Work.foldl _ (fun h => h.dueEvent k false _) _ h)
  split
  · exact h
  · exact h.lateEvent _

theorem resetBanks (h : Work x y) : Work x (resetBanks y) :=
  h.trans ⟨rfl, rfl, rfl, rfl, by simp [Machine.resetBanks, freshDuty], by simp [Machine.resetBanks, freshDuty], fun b =>
    ⟨b.order, b.lanes, b.apron, b.departing, b.fuelQ, b.washQ⟩⟩

theorem endCall (h : Work x y) (k : Site) (l : BoardLine) : Work x (endCall k y l) := (h.raise ..).standDown ..

theorem bankStep (h : Work x y) (k : Site) (swap : Bool) : Work x (bankStep k swap y) := by
  unfold Machine.bankStep
  refine Work.foldl _ (fun h => h.pairArrival _) _ (Work.boardsChanged (Work.other (Work.foldl _ (fun h => h.endCall k _) _
    (Work.setRoster (Work.resetBanks ?_) (by rw [tmap_tmap])))
    rfl rfl rfl rfl rfl rfl rfl rfl rfl rfl))
  split
  · exact h.other rfl rfl rfl rfl rfl rfl rfl rfl rfl rfl
  · exact h

theorem ageWashes (h : Work x y) : Work x (ageWashes y) :=
  (h.setRoster (r := tmap y.roster fun v => { v with daysSinceWash := satSucc 255 v.daysSinceWash })
    (by rw [tmap_tmap])).setTodo _

theorem rollover (h : Work x y) (k : Site) : Work x (rollover k y) := (h.ageWashes.bankStep ..).raise ..

theorem deliverAfterRollover (h : Work x y) (k : Site) (first last : Nat) : Work x (deliverAfterRollover k first last y) :=
  (((h.setTodo .none).deliver ..).setTodo _).drain k

theorem settleDeparture (h : Work x y) (k : Site) (f : Nat) : Work x (settleDeparture k f y) := by
  unfold Machine.settleDeparture
  dsimp only
  split
  · exact (h.setState ..).raise ..
  · split
    · exact (h.setState ..).settleDuty _
    · exact ((h.setState ..).settleDuty _).raise ..

end Work
end Sys2Proof.Machine
end

