-- ==== Sys2Proof/Laws/Turns.lean ====
section
/-! SUPPORT. `Work` for the operations of the Custody Unit, the service turns and the orders; and what taking a vehicle out
of its holder cannot lengthen. -/

namespace Sys2Proof.Machine

-- One theorem at a time: the proofs below, elaborated all at once, would each hold a thread and its stack.
set_option Elab.async false

theorem tmod_tmod {α : Type} (t : Table α) (n : Nat) (f g : α → α) : tmod (tmod t n f) n g = tmod t n fun a => g (f a) := by
  simp only [tmod, List.map_map]
  refine List.map_congr_left fun p _ => ?_
  simp only [Function.comp_apply]
  split <;> simp_all

/-! ## What a removal cannot lengthen -/

/-- From `y` to `z` no pending list and neither service queue has become longer. -/
structure Removal (y z : Yard) : Prop where
  pendings : ∀ n l', tget z.lanes n = some l' → ∃ l, tget y.lanes n = some l ∧ l'.pendings.length ≤ l.pendings.length
  fuelQ : z.fuelQ.length ≤ y.fuelQ.length
  washQ : z.washQ.length ≤ y.washQ.length

namespace Removal

variable {x y z : Yard}

theorem refl (y : Yard) : Removal y y := ⟨fun _ l h => ⟨l, h, Nat.le_refl _⟩, Nat.le_refl _, Nat.le_refl _⟩

theorem trans (h : Removal x y) (g : Removal y z) : Removal x z :=
  ⟨fun n l' hl => by
      obtain ⟨m, hm, h1⟩ := g.pendings n l' hl
      obtain ⟨l, hl, h2⟩ := h.pendings n m hm
      exact ⟨l, hl, Nat.le_trans h1 h2⟩,
    Nat.le_trans g.fuelQ h.fuelQ, Nat.le_trans g.washQ h.washQ⟩

theorem other (h : Removal x y) (h1 : z.lanes = y.lanes) (h2 : z.fuelQ = y.fuelQ) (h3 : z.washQ = y.washQ) :
    Removal x z :=
  h.trans ⟨fun _ l hl => ⟨l, h1 ▸ hl, Nat.le_refl _⟩, Nat.le_of_eq (by rw [h2]), Nat.le_of_eq (by rw [h3])⟩

theorem updLane (h : Removal x y) {n : Nat} {g : Lane → Lane}
    (hg : ∀ l, (g l).pendings.length ≤ l.pendings.length := by intro _; simp) : Removal x (Machine.updLane n g y) := by
  refine h.trans ⟨fun m l' hl => ?_, Nat.le_refl _, Nat.le_refl _⟩
  rw [updLane_lanes, tget_tmod] at hl
  split at hl
  · rw [Option.map_eq_some_iff] at hl
    obtain ⟨l, hl, rfl⟩ := hl
    exact ⟨l, hl, hg l⟩
  · exact ⟨l', hl, Nat.le_refl _⟩

theorem shortenFuelQ (h : Removal x y) {l : List Nat} (hl : l.length ≤ y.fuelQ.length) : Removal x { y with fuelQ := l } :=
  h.trans ⟨fun _ l h => ⟨l, h, Nat.le_refl _⟩, hl, Nat.le_refl _⟩

theorem shortenWashQ (h : Removal x y) {l : List Nat} (hl : l.length ≤ y.washQ.length) : Removal x { y with washQ := l } :=
  h.trans ⟨fun _ l h => ⟨l, h, Nat.le_refl _⟩, Nat.le_refl _, hl⟩

theorem foldl {α : Type} (g : Yard → α → Yard) (hg : ∀ {y a}, Removal x y → Removal x (g y a)) (l : List α)
    (h : Removal x y) : Removal x (l.foldl g y) := by
  induction l generalizing y with
  | nil => exact h
  | cons a l ih => exact ih (hg h)

theorem raise (h : Removal x y) (kind : NoticeKind) (fleet : Option Nat) (place : Option NoticePlace) (duty : Option Nat) :
    Removal x (raise kind fleet place duty y) := h.other rfl rfl rfl

theorem report (h : Removal x y) : Removal x (report y) := h.other rfl rfl rfl
theorem roomEvent (h : Removal x y) : Removal x (roomEvent y) := h.other rfl rfl rfl
theorem updVeh (h : Removal x y) (f : Nat) (g : Vehicle → Vehicle) : Removal x (updVeh f g y) := h.other rfl rfl rfl
theorem setState (h : Removal x y) (k : Site) (f : Nat) (st : VehState) : Removal x (setState k f st y) :=
  h.other rfl rfl rfl
theorem updIsland (h : Removal x y) (n : Nat) (g : Island → Island) : Removal x (updIsland n g y) := h.other rfl rfl rfl
theorem updWash (h : Removal x y) (n : Nat) (g : WashLane → WashLane) : Removal x (updWash n g y) := h.other rfl rfl rfl
theorem updDuty (h : Removal x y) (d : Nat) (g : Duty → Duty) : Removal x (updDuty d g y) :=
  h.other (by simp) (by simp) (by simp)

theorem updService (h : Removal x y) (f : Nat) (g : Vehicle → Vehicle) : Removal x (updService f g y) := by
  unfold Machine.updService
  split
  · exact h
  · dsimp only
    split <;> split <;> exact h.other rfl rfl rfl

theorem leaveCallList (h : Removal x y) (d : Nat) : Removal x (leaveCallList d y) := by
  unfold Machine.leaveCallList
  split
  · exact h.other rfl rfl rfl
  · exact h

theorem withdrawCall (h : Removal x y) (f : Nat) : Removal x (withdrawCall f y) := by
  unfold Machine.withdrawCall
  split
  · exact h
  · split
    · exact (((h.raise ..).updDuty ..).leaveCallList _).other rfl rfl rfl
    · exact h

theorem sendOwn (h : Removal x y) (k : Site) (block : Block) (dest : Nat) (kind : Byte) (payload : List Byte) :
    Removal x (sendOwn k block dest kind payload y) := by
  unfold Machine.sendOwn
  split
  · exact h
  · exact h.other rfl rfl rfl

theorem showSign (h : Removal x y) (k : Site) (sign : Option Nat) (fleet : Nat) (dir : Direction) :
    Removal x (showSign k sign fleet dir y) := by
  unfold Machine.showSign
  split
  · exact h
  · exact h.sendOwn ..

theorem stopOnce (h : Removal x y) (k : Site) (n : Nat) : Removal x (stopOnce k n y) := by
  unfold Machine.stopOnce
  split
  · exact h
  · split
    · exact h
    · unfold Machine.islandCmd
      split
      · exact h.updIsland ..
      · exact (h.updIsland ..).sendOwn ..

theorem fuelCalls (h : Removal x y) (k : Site) : Removal x (fuelCalls k y) := by
  refine Removal.foldl (Machine.callIsland k) (fun {w n} h => ?_) _ h
  unfold Machine.callIsland
  split
  · exact h
  · split
    · split
      · exact h
      · exact (((h.shortenFuelQ (without_le _ _)).setState ..).report.updIsland ..).showSign ..
    · exact h

theorem abortWash (h : Removal x y) (k : Site) (n : Nat) : Removal x (abortWash k n y) := by
  unfold Machine.abortWash Machine.washCmd
  split
  · exact h
  · exact h.sendOwn ..

theorem washCalls (h : Removal x y) (k : Site) : Removal x (washCalls k y) := by
  refine Removal.foldl (Machine.callWash k) (fun {w n} h => ?_) _ h
  unfold Machine.callWash
  split
  · exact h
  · split
    · split
      · exact h
      · exact (((h.shortenWashQ (without_le _ _)).setState ..).report.updWash ..).showSign ..
    · exact h

theorem outOfLane (h : Removal x y) (n f : Nat) : Removal x (outOfLane n f y) := by
  unfold Machine.outOfLane
  dsimp only
  have h1 : Removal x (Machine.updLane n
      (fun l => { l with items := l.items.filter fun i => i.vehicle != some f, doubt := true }) y) :=
    h.updLane (hg := fun _ => Nat.le_refl _)
  split
  · exact h1.other rfl rfl rfl
  · exact h1.other rfl rfl rfl

theorem takeOut (h : Removal x y) (k : Site) (f : Nat) : Removal x (takeOut k f y) := by
  unfold Machine.takeOut
  split
  · exact h.outOfLane ..
  · split
    · exact (h.updLane (hg := fun l => List.length_filter_le ..)).roomEvent
    · split
      · unfold Machine.withdrawIsland
        split
        · exact h
        · refine Removal.fuelCalls (Removal.report (Removal.updIsland ?_ _ _)) k
          split
          · exact h.stopOnce ..
          · exact h
      · split
        · unfold Machine.withdrawWash
          split
          · exact h
          · refine Removal.washCalls (Removal.report (Removal.updWash ?_ _ _)) k
            split
            · exact h.abortWash ..
            · exact h
        · split
          · exact h.other rfl rfl rfl
          · exact ((h.shortenFuelQ (without_le y.fuelQ f)).shortenWashQ (without_le y.washQ f)).other rfl rfl rfl

theorem loseEntry (h : Removal x y) (k : Site) (i : LaneItem) : Removal x (loseEntry k y i) := by
  unfold Machine.loseEntry
  split
  · exact h
  · exact (h.withdrawCall _).setState ..

theorem nameEntry (h : Removal x y) (k : Site) (f : Nat) : Removal x (nameEntry k y f) :=
  (((h.withdrawCall f).takeOut k f).setState ..).report

end Removal

namespace Work

variable {x y z : Yard}

/-! ## Custody -/

theorem overflow (h : Work x y) (n : Nat) (p : Option NoticePlace) : Work x (overflow n p y) := (h.raise ..).markDoubt n
theorem underrun (h : Work x y) (n : Nat) : Work x (underrun n y) := (h.raise ..).markDoubt n
theorem park (h : Work x y) (k : Site) (f : Nat) : Work x (park k f y) := (h.setState ..).report

/-- A report where a condition holds. -/
theorem reportIf (h : Work x y) (c : Prop) [Decidable c] : Work x (if c then Machine.report y else y) := by
  split
  · exact h.report
  · exact h

theorem pushBack (h : Work x y) (k : Site) (n : Nat) : Work x (pushBack k n y) := by
  unfold Machine.pushBack
  split
  · exact h
  · next l hl =>
    dsimp only
    split
    · next p rest hp =>
      refine Work.reportIf (Work.park (h.updLane (hb := fun l' hl' ⟨h1, h2⟩ => ?_)) k _) _
      rw [hl] at hl'; cases hl'
      rw [hp, List.length_cons] at h1 h2
      exact ⟨by simp only [List.length_append, List.length_singleton]; omega, by dsimp only; omega⟩
    · next hp =>
      split
      · next hc =>
        refine Work.reportIf (Work.raise (Work.markDoubt (h.updLane (hb := fun l' hl' ⟨h1, h2⟩ => ?_)) n) _ _ _ _) _
        rw [hl] at hl'; cases hl'
        exact ⟨by simp only [List.length_append, List.length_singleton, hp, List.length_nil]; omega, by simp [hp]⟩
      · exact h.overflow n _

theorem moveBack (h : Work x y) (k : Site) (former : Option Nat) : Work x (moveBack k former y) := by
  unfold Machine.moveBack
  split
  · exact h
  · split
    · exact (h.withdrawCall _).park ..
    · exact h

theorem pushFront (h : Work x y) (k : Site) (n : Nat) : Work x (pushFront k n y) := by
  unfold Machine.pushFront
  split
  · exact h
  · next l hl =>
    split
    · next hc =>
      dsimp only
      refine (Work.moveBack ?_ k _).report
      have e : Machine.markDoubt n (Machine.updLane n (fun l => { l with items := unidentified k l :: l.items }) y) =
          Machine.updLane n (fun l => { l with items := unidentified k l :: l.items, doubt := true }) y := by
        simp only [Machine.markDoubt, Machine.updLane, tmod_tmod]
      rw [e]
      generalize hw : Machine.raise .unexpectedEntry none (some (.lane n)) none (Machine.updLane n
        (fun l => { l with items := unidentified k l :: l.items, doubt := true }) y) = w
      have hwl : tget w.lanes n = some { l with items := unidentified k l :: l.items, doubt := true } := by
        rw [← hw]; simp [hl]
      unfold Machine.displace
      rw [hwl]
      dsimp only
      split
      · next hover =>
        simp only [List.length_cons] at hover
        split
        · next hnone =>
          rw [List.getLast?_eq_none_iff] at hnone
          simp only [hnone, List.length_nil] at hover
          omega
        · next p hp =>
          refine ((Work.setState ?_ ..).raise ..).roomEvent
          have e2 : Machine.updLane n (fun l => { l with pendings := l.pendings.dropLast }) w =
              Machine.raise .unexpectedEntry none (some (.lane n)) none (Machine.updLane n (fun l =>
                { l with items := unidentified k l :: l.items, doubt := true, pendings := l.pendings.dropLast }) y) := by
            rw [← hw]
            simp only [Machine.updLane, Machine.raise, tmod_tmod]
          rw [e2]
          refine Work.raise (h.updLane (hb := fun l' hl' ⟨h1, h2⟩ => ?_)) _ _ _ _
          rw [hl] at hl'; cases hl'
          have hne : l.pendings ≠ [] := by rintro hp0; simp [hp0] at hp
          have := List.length_pos_iff.2 hne
          exact ⟨by simp only [List.length_cons, List.length_dropLast]; omega,
            by simp only [List.length_dropLast]; omega⟩
      · next hfit =>
        rw [← hw]
        refine Work.raise (h.updLane (hb := fun l' hl' ⟨h1, h2⟩ => ?_)) _ _ _ _
        rw [hl] at hl'; cases hl'
        simp only [List.length_cons] at hfit
        exact ⟨by simp only [List.length_cons]; omega, h2⟩
    · exact h.overflow n _

theorem popBack (h : Work x y) (k : Site) (n : Nat) : Work x (popBack k n y) := by
  unfold Machine.popBack
  split
  · exact h
  · split
    · exact h.underrun n
    · have h1 : Work x (Machine.roomEvent (Machine.updLane n (fun l => { l with items := l.items.dropLast }) y)) :=
        h.shortenLane.roomEvent
      dsimp only
      refine Work.reportIf ?_ _
      split
      · exact h1
      · split
        · exact (h1.withdrawCall _).setState ..
        · exact h1.setState ..

theorem popFront (h : Work x y) (k : Site) (n : Nat) : Work x (popFront k n y) := by
  unfold Machine.popFront
  split
  · exact h
  · next l hl =>
    split
    · exact h.underrun n
    · next i rest hi =>
      have h1 : Work x (Machine.updLane n (fun l => { l with items := rest }) y) := by
        refine h.updLane (hb := fun l' hl' ⟨h1, h2⟩ => ?_)
        rw [hl] at hl'; cases hl'
        rw [hi, List.length_cons] at h1
        exact ⟨by dsimp only; omega, h2⟩
      dsimp only
      refine Work.report ?_
      split
      · exact h1.roomEvent.joinDeparting ..
      · exact (h1.roomEvent.joinDeparting ..).setState ..

theorem passage (h : Work x y) (k : Site) (m : Nat) (p : Passage) : Work x (passage k m p y) := by
  unfold Machine.passage
  split
  · exact h
  · split
    · exact h.pushBack ..
    · exact h.popBack ..
    · exact h.popFront ..
    · exact h.pushFront ..

theorem mouthFault (h : Work x y) (m : Nat) : Work x (mouthFault m y) := by
  unfold Machine.mouthFault
  dsimp only
  split
  · exact (h.raise ..).markDoubt _
  · exact h.raise ..

theorem apronStep (h : Work x y) (k : Site) (f : Nat) : Work x (apronStep k f y) := by
  unfold Machine.apronStep
  split
  · exact ((h.leaveApron f).roomEvent.joinDeparting ..).setState ..
  · exact h

theorem replaceEntry (h : Work x y) (k : Site) (n f v : Nat) : Work x (replaceEntry k n f v y) := by
  unfold Machine.replaceEntry
  dsimp only
  have h1 := ((h.shortenLane (n := n) (g := fun l => { l with
      items := l.items.map fun i => if i.vehicle = some f then { i with vehicle := some v, length := lengthOf y v } else i })
      (hi := fun l => by simp)).markDoubt n).park k v
  split
  · exact h1.report
  · exact h1

theorem pushAtFront (h : Work x y) {k : Site} {n v : Nat} (hr : pushAtFront k n v y = some z) : Work x z := by
  unfold Machine.pushAtFront at hr
  split at hr
  · cases hr
  · next l hl =>
    split at hr
    · next hc =>
      simp only [Bool.and_eq_true, decide_eq_true_eq] at hc
      cases hr
      refine Work.report (Work.moveBack (Work.park (Work.markDoubt (h.updLane (hb := fun l' hl' ⟨h1, h2⟩ => ?_)) n) k v) k _)
      rw [hl] at hl'; cases hl'
      exact ⟨by simp only [List.length_cons]; omega, h2⟩
    · cases hr

theorem swapDuties (h : Work x y) (f v : Nat) : Work x (swapDuties f v y) := by
  unfold Machine.swapDuties
  dsimp only
  generalize pairedNumber (Machine.withdrawCall f y) f = dx
  generalize pairedNumber (Machine.withdrawCall f y) v = dv
  have h1 := ((h.withdrawCall f).unpairRecords f).unpairRecords v
  have h2 : Work x (match dv with
      | some d => Machine.updDuty d (fun r => { r with marks := { r.marks with swapped := true } })
          (Machine.pair f d (Machine.unpairRecords v (Machine.unpairRecords f (Machine.withdrawCall f y))))
      | none => Machine.unpairRecords v (Machine.unpairRecords f (Machine.withdrawCall f y))) := by
    cases dv
    · exact h1
    · exact (h1.pair ..).updDuty
  cases dx
  · exact h2
  · refine Work.oweIfWaiting ?_ _
    cases dv <;> dsimp only at h2 ⊢
    all_goals
      split
      · exact h2
      · exact h2.pair ..

theorem mismatch (h : Work x y) (k : Site) (f v : Nat) (lane : Option Nat) : Work x (mismatch k f v lane y) := by
  unfold Machine.mismatch
  dsimp only
  refine Work.raise (Work.settleDeparture (Work.swapDuties ?_ f v) k f) _ _ _ _
  have h1 : Work x { y with departing := y.departing.drop 1 } :=
    h.setDeparting fun b => Nat.le_trans (by simp) (h.bounds b).departing
  split
  · exact h1.replaceEntry ..
  · split
    · next he =>
      rw [Option.bind_eq_some_iff] at he
      obtain ⟨n, _, he⟩ := he
      rw [Option.map_eq_some_iff] at he
      obtain ⟨w, hw, he⟩ := he
      cases he
      exact (h1.takeOut k f).pushAtFront hw
    · exact (h1.takeOut k f).setState ..

theorem unexpectedExit (h : Work x y) (k : Site) (f : Nat) : Work x (unexpectedExit k f y) := by
  unfold Machine.unexpectedExit
  dsimp only
  split
  · exact h.raise ..
  · split
    · exact ((((h.takeOut k f).setState ..).raise ..)).settleDuty _
    · exact ((h.takeOut k f).setState ..).raise ..

theorem dropDeparting_le (v : Option Nat) (l : List DepartingItem) : (dropDeparting v l).length ≤ l.length := by
  induction l with
  | nil => exact Nat.le_refl _
  | cons e l ih => unfold dropDeparting; split <;> simp only [List.length_cons] <;> omega

theorem exitRead (h : Work x y) (k : Site) (f : Nat) : Work x (exitRead k f y) := by
  unfold Machine.exitRead
  dsimp only
  have h1 := h.apronStep k f
  split
  · exact Work.settleDeparture (h1.setDeparting fun b => Nat.le_trans (dropDeparting_le ..) (h1.bounds b).departing) k f
  · split
    · exact Work.settleDeparture (Work.takeOut
        (h1.setDeparting fun b => Nat.le_trans (dropDeparting_le ..) (h1.bounds b).departing) k f) k f
    · split
      · exact h1.unexpectedExit ..
      · split
        · exact h1.mismatch ..
        · exact h1

theorem settleKeeping (h : Work x y) (k : Site) : Work x (settleKeeping k y) := ((h.setTodo _).drain k).setTodo _

theorem relocate (h : Work x y) (k : Site) (station f : Nat) : Work x (relocate k station f y) := by
  unfold Machine.relocate
  split
  · exact h
  · exact (((h.withdrawCall f).takeOut k f).settleKeeping k).raise ..

theorem newNight (h : Work x y) (k : Site) (f : Nat) : Work x (newNight k f y) := h.updService.updVeh

theorem readPercent (h : Work x y) (k : Site) (f percent : Nat) : Work x (readPercent k f percent y) := h.updService

theorem arrive (h : Work x y) (k : Site) (station f percent : Nat) (sign : Option Nat) :
    Work x (arrive k station f percent sign y).1 :=
  ((((((h.relocate k station f).unpair f).settleKeeping k).newNight k f).readPercent k f percent).pairArrival f).route ..

theorem yardRead (h : Work x y) (k : Site) (f : Nat) (sign : Option Nat) : Work x (yardRead k f sign y).1 := by
  unfold Machine.yardRead
  split
  · exact ((h.setState k f .stowWait).placement k f).showSign k sign f _
  · exact h

theorem stowMissed (h : Work x y) (k : Site) (n : Nat) : Work x (stowMissed k n y) := by
  unfold Machine.stowMissed
  split
  · exact h
  · next l hl =>
    split
    · exact h
    · next p rest hp =>
      dsimp only
      refine ((Work.setState (h.updLane (hb := fun l' hl' ⟨h1, h2⟩ => ?_)) ..).raise ..).roomEvent
      rw [hl] at hl'; cases hl'
      rw [hp, List.length_cons] at h1 h2
      exact ⟨by dsimp only; omega, by dsimp only; omega⟩

theorem loseEntry (h : Work x y) (k : Site) (i : LaneItem) : Work x (loseEntry k y i) := by
  unfold Machine.loseEntry
  split
  · exact h
  · exact (h.withdrawCall _).setState ..

theorem nameEntry (h : Work x y) (k : Site) (f : Nat) : Work x (nameEntry k y f) :=
  ((h.withdrawCall f).takeOut k f).park ..

/-- A census of at most 16 entries on a lane without pending vehicles (R64). -/
theorem takeCensus (h : Work x y) (k : Site) (n : Nat) (status : LaneStatus) (entries : List CensusEntry)
    (hn : entries.length ≤ Config.laneCap) (hp : ∀ l, tget y.lanes n = some l → l.pendings = []) :
    Work x (takeCensus k n status entries y) := by
  unfold Machine.takeCensus
  split
  · exact h
  · next l0 _ =>
    dsimp only
    refine Work.report (Work.roomEvent (Work.updLane (Work.foldl _ (fun h => h.nameEntry k _) _
      (Work.foldl _ (fun h => h.loseEntry k _) _ h.shortenLane)) (hb := fun l' hl' _ => ?_)))
    have hr := Removal.foldl (Machine.nameEntry k) (fun h => h.nameEntry k _) (entries.filterMap (·.1))
      (Removal.foldl (Machine.loseEntry k) (fun h => h.loseEntry k _)
        (l0.items.filter fun i => match i.vehicle with
          | some f => !(entries.filterMap (·.1)).contains f
          | none => false)
        ((Removal.refl y).updLane (n := n) (g := fun l => { l with items := [] }) (hg := fun _ => Nat.le_refl _)))
    obtain ⟨l, hl, hle⟩ := hr.pendings n l' hl'
    rw [hp l hl, List.length_nil] at hle
    have := Nat.le_antisymm hle (Nat.zero_le _)
    exact ⟨by simp only [List.length_map]; omega, by simp only; omega⟩

theorem declareEmpty (h : Work x y) (k : Site) (n : Nat) : Work x (declareEmpty k n y) := by
  unfold Machine.declareEmpty
  split
  · exact h
  · next l _ =>
    have h1 := Work.foldl (Machine.loseEntry k) (fun h => h.loseEntry k _) l.items h
    dsimp only
    split
    · exact h1.shortenLane.roomEvent
    · exact h1.shortenLane.roomEvent.report

/-! ## YARD_CLEAR -/

theorem stopAll (h : Work x y) (k : Site) : Work x (stopAll k y) := by
  unfold Machine.stopAll
  refine Work.foldl _ (fun {w n} h => ?_) _ h
  split
  · split
    · exact h.stopOnce ..
    · exact h
  · exact h

theorem abortAll (h : Work x y) (k : Site) : Work x (abortAll k y) := by
  unfold Machine.abortAll
  refine Work.foldl _ (fun {w n} h => ?_) _ h
  split
  · split
    · exact h.abortWash ..
    · exact h
  · exact h

theorem clearYard (h : Work x y) : Work x (clearYard y) := by
  refine h.resetBanks.trans ⟨?_, ?_, ?_, ?_, rfl, rfl, fun b => ⟨?_, ?_, ?_, ?_, ?_, ?_⟩⟩
  · simp [Machine.clearYard, freshVehicle, Machine.resetBanks]
  · simp [Machine.clearYard, freshLane, Machine.resetBanks]
  · simp [Machine.clearYard, freshIsland, Machine.resetBanks]
  · simp [Machine.clearYard, freshWash, Machine.resetBanks]
  · exact tableWf_tmap (fun l : Lane => freshLane l.entry) b.order
  · intro p hp
    change p ∈ tmap (Machine.resetBanks y).lanes (fun l => freshLane l.entry) at hp
    obtain ⟨a, _, ha⟩ := mem_tmap hp
    rw [ha]
    exact ⟨by simp [freshLane], by simp [freshLane]⟩
  all_goals simp [Machine.clearYard]

/-! ## Fuel -/

theorem leaveIsland (h : Work x y) (k : Site) (n f : Nat) : Work x (leaveIsland k n f y).1 := h.report.route ..

theorem credit (h : Work x y) (k : Site) (i : Island) : Work x (credit k i y) := by
  unfold Machine.credit
  split
  · exact h
  · exact h.updService

theorem completeTurn (h : Work x y) (k : Site) (n f : Nat) : Work x (completeTurn k n f y).1 :=
  (Work.leaveIsland ((h.markFuelDone f).updIsland) k n f).fuelCalls k

theorem authorise (h : Work x y) (k : Site) (n f : Nat) : Work x (authorise k n f y).1 := by
  unfold Machine.authorise
  split
  · dsimp only
    split
    · exact h.completeTurn k n f
    · exact h.updIsland.islandCmd ..
  · exact h

theorem startTurn (h : Work x y) (k : Site) (n f percent : Nat) : Work x (startTurn k n f percent y).1 :=
  (h.updIsland.readPercent ..).authorise ..

theorem returnOrSkip (h : Work x y) (k : Site) (n c : Nat) : Work x (returnOrSkip k n c y).1 := by
  unfold Machine.returnOrSkip
  split
  · next hj =>
    simp only [fuelJoinable, Bool.and_eq_true, decide_eq_true_eq] at hj
    exact h.returnToFuel k c fun _ => hj.1
  · exact (h.skipFuel c).leaveIsland ..

theorem impostorTurn (h : Work x y) (k : Site) (n f percent : Nat) (i : Island) :
    Work x (impostorTurn k n f percent i y).1 := by
  unfold Machine.impostorTurn
  dsimp only
  have h1 : Work x (Machine.report (Machine.setState k f .fuelling { y with fuelQ := without y.fuelQ f })) :=
    ((h.setFuelQ fun b => Nat.le_trans (List.length_filter_le ..) (h.bounds b).fuelQ).setState ..).report
  refine Work.fuelCalls (Work.startTurn (Work.updIsland ?_) k n f percent) k
  split
  · exact h1.returnOrSkip ..
  · exact h1

/-- Whatever an owner makes of a report keeps `Work`. -/
def Taken (x : Yard) (a : Acted) : Prop := ∀ r, a = some r → Work x r.1

theorem Taken.none {x : Yard} : Taken x none := fun _ h => nomatch h
theorem Taken.some {x : Yard} {r : Yard × Option Direction} (h : Work x r.1) : Taken x (some r) := fun _ he => by
  cases he; exact h

theorem Taken.directed {x : Yard} {r : Yard × Direction} (h : Work x r.1) : Taken x (directed r) := fun _ he => by
  cases he; exact h

theorem vehiclePresent (h : Work x y) (k : Site) (n : Nat) (i : Island) (f value : Nat) :
    Taken x (vehiclePresent k n i f value y) := by
  unfold Machine.vehiclePresent
  split
  · exact Taken.none
  · exact Taken.none
  · exact Taken.some (h.raise ..)
  · split
    · exact Taken.some (h.startTurn ..)
    · split
      · exact Taken.some (h.impostorTurn ..)
      · exact Taken.some (h.raise ..)
  · split
    · exact Taken.none
    · exact Taken.some (h.raise ..)

theorem liftNozzle (h : Work x y) (k : Site) (n : Nat) : Work x (liftNozzle k n y) := h.updIsland

theorem nozzleLifted (h : Work x y) (k : Site) (n : Nat) (i : Island) (f value : Nat) :
    Taken x (nozzleLifted k n i f value y) := by
  unfold Machine.nozzleLifted
  split
  · exact Taken.some (h.liftNozzle ..)
  · exact Taken.none

theorem count (h : Work x y) (k : Site) (n c : Nat) : Work x (count k n c y) := by
  unfold Machine.count
  split
  · exact h
  · split
    · dsimp only
      split
      · exact (h.updIsland.stopOnce ..).updIsland
      · exact h.updIsland
    · exact h

theorem meterCount (h : Work x y) (k : Site) (n : Nat) (i : Island) (f value : Nat) :
    Taken x (meterCount k n i f value y) := by
  unfold Machine.meterCount
  split
  · refine Taken.some (r := (_, _)) ?_
    dsimp only
    split
    · exact h
    · exact (h.liftNozzle ..).count ..
  · split
    · exact Taken.none
    · exact Taken.some (h.count ..)
  · exact Taken.none

theorem hangNozzle (h : Work x y) (k : Site) (n : Nat) : Work x (hangNozzle k n y) := by
  unfold Machine.hangNozzle
  split
  · exact h
  · exact h.updIsland.credit ..

theorem nozzleHung (h : Work x y) (k : Site) (n : Nat) (i : Island) (f value : Nat) :
    Taken x (nozzleHung k n i f value y) := by
  unfold Machine.nozzleHung
  split
  · exact Taken.some ((h.count ..).hangNozzle ..)
  · exact Taken.none

theorem islandClear (h : Work x y) (k : Site) (n : Nat) (i : Island) (f value : Nat) :
    Taken x (islandClear k n i f value y) := by
  have stopped : Work x (Machine.hangNozzle k n (Machine.stopOnce k n y)) := (h.stopOnce k n).hangNozzle k n
  unfold Machine.islandClear
  split
  · exact Taken.none
  · split
    · exact Taken.directed (h.completeTurn k n _)
    · exact Taken.directed (stopped.completeTurn k n _)
    · exact Taken.directed (stopped.completeTurn k n _)
    · exact Taken.none

theorem islandFault (h : Work x y) (k : Site) (n : Nat) (i : Island) (f value : Nat) :
    Taken x (islandFault k n i f value y) := by
  unfold Machine.islandFault
  split
  · exact Taken.none
  · exact Taken.none
  · dsimp only
    have h1 : Work x (if authorised i = true then Machine.stopOnce k n y else y) := by
      split
      · exact h.stopOnce ..
      · exact h
    generalize (if authorised i = true then Machine.stopOnce k n y else y) = y1 at h1 ⊢
    have h2 : Work x (if i.state = .dispensing then Machine.credit k i y1 else y1) := by
      split
      · exact h1.credit ..
      · exact h1
    split
    · exact Taken.some (h2.updIsland.raise ..)
    · exact Taken.some (((h2.updIsland.raise ..).markFuelSkipped _).leaveIsland ..)

theorem missCall (h : Work x y) (f : Nat) : Work x (missCall f y) := h.updVeh

theorem missIslandCall (h : Work x y) (k : Site) (n f : Nat) : Work x (missIslandCall k n f y) := by
  unfold Machine.missIslandCall
  dsimp only
  have h1 : Work x (Machine.updIsland n endTurn (Machine.missCall f y)) := (h.missCall f).updIsland
  split
  · exact ((h1.markFuelSkipped f).raise ..).leaveIsland ..
  · exact h1.returnOrSkip ..

theorem authorisationEnds (h : Work x y) (k : Site) (n f : Nat) : Work x (authorisationEnds k n f y) :=
  ((((h.stopOnce k n).markFuelSkipped f).updIsland).leaveIsland ..).fuelCalls k

theorem stall (h : Work x y) (k : Site) (n : Nat) (i : Island) : Work x (stall k n i y) :=
  ((h.stopOnce k n).updIsland).raise ..

theorem yieldIsland (h : Work x y) (k : Site) (n : Nat) : Work x (yieldIsland k n y) := by
  unfold Machine.yieldIsland
  split
  · exact h
  · split
    · exact h
    · dsimp only
      split
      · exact h.updIsland
      · exact h.updIsland.updService.leaveIsland ..

theorem resumeIsland (h : Work x y) (k : Site) (n : Nat) : Work x (resumeIsland k n y) := h.updIsland.fuelCalls k

/-! ## Wash -/

theorem leaveWash (h : Work x y) (k : Site) (n f : Nat) : Work x (leaveWash k n f y).1 := h.report.route ..

theorem orderStage (h : Work x y) (k : Site) (n i : Nat) (s : PlanStage) : Work x (orderStage k n i s y) :=
  h.updWash.washCmd ..

theorem skipAtLane (h : Work x y) (n f : Nat) : Work x (skipAtLane n f y) := (h.markWashIncomplete f).raise ..

theorem startWash (h : Work x y) (k : Site) (n f : Nat) : Work x (startWash k n f y).1 := by
  unfold Machine.startWash
  split
  · split
    · exact h.updWash.orderStage ..
    · exact ((h.updWash.skipAtLane ..).leaveWash ..).washCalls k
  · exact h

theorem impostorWash (h : Work x y) (k : Site) (n f : Nat) (l : WashLane) (hf : f ∈ y.washQ) :
    Work x (impostorWash k n f l y).1 := by
  unfold Machine.impostorWash
  dsimp only
  have hlt : Bounded x → (without y.washQ f).length < Config.queueCap := fun b =>
    Nat.lt_of_lt_of_le (without_lt hf) (h.bounds b).washQ
  have h1 : Work x (Machine.report (Machine.setState k f .washing { y with washQ := without y.washQ f })) :=
    ((h.setWashQ fun b => Nat.le_of_lt (hlt b)).setState ..).report
  refine Work.washCalls (Work.startWash (Work.updWash ?_) k n f) k
  split
  · exact h1.returnToWash k _ hlt
  · exact h1

theorem vehicleInPosition (h : Work x y) (k : Site) (n : Nat) (l : WashLane) (f stage : Nat) :
    Taken x (vehicleInPosition k n l f stage y) := by
  unfold Machine.vehicleInPosition
  split
  · exact Taken.some (h.raise ..)
  · split
    · exact Taken.some (h.startWash ..)
    · split
      · next hc =>
        rw [Bool.and_eq_true] at hc
        exact Taken.some (h.impostorWash _ _ _ _ (List.contains_iff_mem.1 hc.1))
      · exact Taken.some (h.raise ..)
  · split
    · exact Taken.none
    · exact Taken.some (h.raise ..)
  · split
    · exact Taken.none
    · exact Taken.some (h.raise ..)
  all_goals exact Taken.none

theorem stageDone (h : Work x y) (k : Site) (n : Nat) (l : WashLane) (f stage : Nat) :
    Taken x (stageDone k n l f stage y) := by
  unfold Machine.stageDone
  split
  · split
    · exact Taken.some (h.orderStage ..)
    · exact Taken.some (r := (_, _)) h.updWash
  · exact Taken.none

theorem faultWash (h : Work x y) (k : Site) (n : Nat) (l : WashLane) : Work x (faultWash k n l y).1 := by
  unfold Machine.faultWash
  dsimp only
  split
  · exact h.updWash.raise ..
  · exact ((h.updWash.raise ..).markWashIncomplete _).leaveWash ..

theorem laneClear (h : Work x y) (k : Site) (n : Nat) (l : WashLane) (f stage : Nat) :
    Taken x (laneClear k n l f stage y) := by
  unfold Machine.laneClear
  split
  · exact Taken.some (r := (_, _)) ((Work.leaveWash (Work.updWash (Work.updService h)) k n _).washCalls k)
  · exact Taken.some ((h.abortWash ..).faultWash ..)
  · exact Taken.none

theorem washFault (h : Work x y) (k : Site) (n : Nat) (l : WashLane) (f stage : Nat) :
    Taken x (washFault k n l f stage y) := by
  unfold Machine.washFault
  split
  · exact Taken.none
  · exact Taken.none
  · exact Taken.none
  · exact Taken.some (h.faultWash ..)

theorem missWashCall (h : Work x y) (k : Site) (n f : Nat) : Work x (missWashCall k n f y) := by
  unfold Machine.missWashCall
  dsimp only
  have h1 : Work x (Machine.updWash n endWash (Machine.missCall f y)) := (h.missCall f).updWash
  split
  · exact (h1.skipAtLane ..).leaveWash ..
  · split
    · next hl => exact h1.returnToWash k f fun _ => hl
    · exact (h1.skipWash f).leaveWash ..

theorem yieldWash (h : Work x y) (k : Site) (n : Nat) : Work x (yieldWash k n y) := by
  unfold Machine.yieldWash
  split
  · exact h
  · split
    · exact h
    · dsimp only
      split
      · exact h.updWash
      · exact (h.updWash.markWashIncomplete _).leaveWash ..

theorem resumeWash (h : Work x y) (k : Site) (n : Nat) : Work x (resumeWash k n y) := h.updWash.washCalls k

/-! ## Orders -/

theorem orderUnlocated (h : Work x y) (k : Site) (v : Vehicle) : Work x (orderUnlocated k v y).1 := by
  unfold Machine.orderUnlocated
  dsimp only
  split
  · exact h
  · exact ((h.withdrawCall _).takeOut ..).setState ..

theorem fuelQ_updService (f : Nat) (g : Vehicle → Vehicle) (y : Yard) : (Machine.updService f g y).fuelQ = y.fuelQ := by
  unfold Machine.updService
  split
  · rfl
  · dsimp only; split <;> split <;> rfl

theorem washQ_updService (f : Nat) (g : Vehicle → Vehicle) (y : Yard) : (Machine.updService f g y).washQ = y.washQ := by
  unfold Machine.updService
  split
  · rfl
  · dsimp only; split <;> split <;> rfl

theorem orderToFuel (h : Work x y) (k : Site) (v : Vehicle) : Work x (orderToFuel k v y).1 := by
  unfold Machine.orderToFuel
  dsimp only
  split
  · next hj =>
    simp only [fuelJoinable, Bool.and_eq_true, decide_eq_true_eq] at hj
    refine Work.fuelJoined (Work.joinFuel (Work.updService (h.takeOut ..)) k _ fun _ => ?_) k false _
    rw [fuelQ_updService]
    exact Nat.lt_of_le_of_lt ((Removal.refl y).takeOut k _).fuelQ hj.2.1
  · exact h

theorem orderToWash (h : Work x y) (k : Site) (v : Vehicle) : Work x (orderToWash k v y).1 := by
  unfold Machine.orderToWash
  dsimp only
  split
  · next hj =>
    simp only [washJoinable, Bool.and_eq_true, decide_eq_true_eq] at hj
    refine Work.washJoined (Work.joinWash (Work.updService (h.takeOut ..)) k _ fun _ => ?_) k _
    rw [washQ_updService]
    exact Nat.lt_of_le_of_lt ((Removal.refl y).takeOut k _).washQ hj.2.1
  · exact h

theorem cancelDuty (h : Work x y) (k : Site) (r : Duty) : Work x (cancelDuty k r y) := by
  unfold Machine.cancelDuty
  dsimp only
  refine Work.leaveCallList (Work.updDuty ?_) _
  split
  · exact (h.unpairRecords _).standDown ..
  · exact h

theorem takeDuty (h : Work x y) (k : Site) (f : Nat) (r : Duty) : Work x (takeDuty k f r y) := by
  unfold Machine.takeDuty
  dsimp only
  split
  · exact h
  · have h1 := ((h.exchange f r.entry.number (passesOn y r.vehicle (pairedDuty y f))).updDuty
      (d := r.entry.number) (g := fun r => { r with marks := { r.marks with swapped := true } })).raise .swap none none none
    split
    · split
      · exact h1.evaluate ..
      · exact h1
    · exact h1

theorem activateNow (h : Work x y) (k : Site) : Work x (activateNow k y).1 := by
  unfold Machine.activateNow
  split
  · exact h
  · dsimp only
    split
    · exact h.bankStep ..
    · exact (h.bankStep ..).catchUp k

end Work
/-! ## Where vehicles stand -/

/-- From `y` to `z` the lanes, the apron and every record's table fields and state are as they were, so every vehicle that
stands at a front stands at the same one. -/
structure SameStands (y z : Yard) : Prop where
  lanes : z.lanes = y.lanes
  apron : z.apron = y.apron
  roster : tmap z.roster (fun v => (v.entry, v.state)) = tmap y.roster (fun v => (v.entry, v.state))

namespace SameStands

variable {x y z : Yard}

theorem refl (y : Yard) : SameStands y y := ⟨rfl, rfl, rfl⟩

theorem trans (h : SameStands x y) (g : SameStands y z) : SameStands x z :=
  ⟨g.lanes.trans h.lanes, g.apron.trans h.apron, g.roster.trans h.roster⟩

theorem updVeh (f : Nat) (g : Vehicle → Vehicle) (y : Yard) (hg : ∀ v, (g v).entry = v.entry ∧ (g v).state = v.state) :
    SameStands y (updVeh f g y) := by
  refine ⟨rfl, rfl, ?_⟩
  simp only [Machine.updVeh, tmap, List.map_map]
  apply List.map_congr_left
  rintro ⟨i, v⟩ -
  simp only [Function.comp]
  split <;> simp [hg]

theorem updDuty (d : Nat) (g : Duty → Duty) (y : Yard) : SameStands y (updDuty d g y) := by
  simp only [Machine.updDuty, setBank]
  cases y.active <;> exact ⟨rfl, rfl, rfl⟩

theorem unpairRecords (f : Nat) (y : Yard) : SameStands y (unpairRecords f y) := by
  simp only [Machine.unpairRecords]
  split
  · exact .refl _
  · exact (SameStands.updVeh f (fun v => { v with duty := none }) y fun _ => ⟨rfl, rfl⟩).trans (.updDuty ..)

theorem pair (f d : Nat) (y : Yard) : SameStands y (pair f d y) :=
  (SameStands.updVeh f (fun v => { v with duty := some d }) y fun _ => ⟨rfl, rfl⟩).trans (.updDuty ..)

theorem exchange (c d : Nat) (keep : Bool) (y : Yard) : SameStands y (exchange c d keep y) := by
  have h1 : SameStands y (match (dutyOf y d).bind (·.vehicle) with
      | some w => Machine.unpairRecords w (Machine.unpairRecords c y)
      | none => Machine.unpairRecords c y) := by
    split
    · exact (SameStands.unpairRecords ..).trans (.unpairRecords ..)
    · exact .unpairRecords ..
  have h2 := h1.trans (SameStands.pair c d _)
  simp only [Machine.exchange]
  split
  · next w e hw he =>
    simp only [hw] at h2 ⊢
    split
    · exact h2.trans (.pair ..)
    · exact h2
  · exact h2

/-- The front at which a vehicle stands. -/
theorem atFront_eq (h : SameStands y z) (g : Nat) : (vehOf z g).bind (atFront z) = (vehOf y g).bind (atFront y) := by
  obtain ⟨hl, ha, hr⟩ := h
  have key : (vehOf z g).map (fun v => (v.entry, v.state)) = (vehOf y g).map (fun v => (v.entry, v.state)) := by
    simp only [vehOf, tfind]
    generalize z.roster = a at *
    generalize y.roster = b at *
    induction a generalizing b with
    | nil => cases b with
      | nil => rfl
      | cons => simp [tmap] at hr
    | cons p a ih => cases b with
      | nil => simp [tmap] at hr
      | cons q b =>
        simp only [tmap, List.map_cons, List.cons.injEq, Prod.mk.injEq] at hr ih
        simp only [List.find?_cons, hr.1.2.1]
        split
        · simp [hr.1]
        · exact ih b hr.2
  have at_ (v w : Vehicle) (h1 : v.entry = w.entry) (h2 : v.state = w.state) : atFront z v = atFront y w := by
    simp only [atFront, h1, h2, ha, frontLane, hl]
  rcases hv : vehOf z g with _ | v <;> rcases hw : vehOf y g with _ | w <;> rw [hv, hw] at key <;> simp at key
  · rfl
  · exact at_ v w key.1 key.2

end SameStands

end Sys2Proof.Machine
end

