-- ==== Sys2Proof/Laws/Dispatcher.lean ====
section
/-! SUPPORT. The Frame Dispatcher: when a row takes the frame at the head of its queue, what it then answers, and what it
leaves alone; the classification of the frames that Safety.lean's premises describe. -/

namespace Sys2Proof.Machine

-- One theorem at a time: the proofs below, elaborated all at once, would each hold a thread and its stack.
set_option Elab.async false

/-! ## Field rows -/

theorem fieldStep_empty {wants : FieldRow → Bool} {take : FieldRow → Frame → Desk → Desk} {s : State}
    (h : s.rx.field.ingress = []) : fieldStep wants take s = .next s := by
  unfold fieldStep; rw [h]

theorem fieldStep_take {wants : FieldRow → Bool} {take : FieldRow → Frame → Desk → Desk} {s : State} {f : Frame}
    {rest : List Frame} (h : s.rx.field.ingress = f :: rest) (hw : wants (classify s.site s.yard f) = true) :
    fieldStep wants take s =
      next { s with rx.field.ingress := rest } (take (classify s.site s.yard f) f s.desk) := by
  unfold fieldStep; rw [h]; exact if_pos hw

theorem fieldStep_leave {wants : FieldRow → Bool} {take : FieldRow → Frame → Desk → Desk} {s : State} {f : Frame}
    {rest : List Frame} (h : s.rx.field.ingress = f :: rest) (hw : wants (classify s.site s.yard f) = false) :
    fieldStep wants take s = .next s := by
  unfold fieldStep; rw [h]; exact if_neg (by simp [hw])

/-- With no frame it wants at the head, a field row changes nothing (log 2). -/
theorem fieldStep_unwanted {wants : FieldRow → Bool} {take : FieldRow → Frame → Desk → Desk} {s : State}
    (h : ∀ f rest, s.rx.field.ingress = f :: rest → wants (classify s.site s.yard f) = false) :
    fieldStep wants take s = .next s := by
  cases hi : s.rx.field.ingress with
  | nil => exact fieldStep_empty hi
  | cons f rest => exact fieldStep_leave hi (h f rest hi)

/-- A field row answers the state as it was, or takes the frame at the head. -/
theorem fieldStep_cases (wants : FieldRow → Bool) (take : FieldRow → Frame → Desk → Desk) (s : State) :
    fieldStep wants take s = .next s ∨
    ∃ f rest, s.rx.field.ingress = f :: rest ∧ wants (classify s.site s.yard f) = true ∧
      fieldStep wants take s =
        next { s with rx.field.ingress := rest } (take (classify s.site s.yard f) f s.desk) := by
  rcases h : s.rx.field.ingress with _ | ⟨f, rest⟩
  · exact .inl (fieldStep_empty h)
  · rcases hw : wants (classify s.site s.yard f) with _ | _
    · exact .inl (fieldStep_leave h hw)
    · exact .inr ⟨f, rest, rfl, hw, fieldStep_take h hw⟩

/-- The end of a taken frame, when the owner's work is known. -/
theorem fieldStep_after {wants : FieldRow → Bool} {act : FieldAct} {s : State} {f : Frame} {rest : List Frame}
    {r : FieldRow} {k : Site} {y : Yard} {n : Note} (h : s.rx.field.ingress = f :: rest)
    (hc : classify s.site s.yard f = r) (hw : wants r = true) (ha : act r f s.site s.yard = (k, y, n)) :
    fieldStep wants (takeFieldFrame act) s = .next (afterField s f rest k y n) := by
  rw [fieldStep_take h (by rw [hc]; exact hw), hc]
  simp only [takeFieldFrame, next, afterField, State.desk, ha]

/-! ## Classification -/

variable {s : State} {f : Frame} {rest : List Frame} {st : Station} {n code : Nat}

theorem TagHead.classify (h : TagHead s f rest st) :
    classify s.site s.yard f = .tagRead st.entry.role st.entry.sign := by
  have hr := h.reader
  unfold Machine.classify
  rw [h.station]
  dsimp only
  have e : (if f.kind = kindTagRead ∧ f.payload.length = 3 then FieldRow.tagRead st.entry.role st.entry.sign else .other) =
      .tagRead st.entry.role st.entry.sign := if_pos ⟨h.kind, h.length⟩
  cases hrole : st.entry.role <;> rw [hrole] at hr e <;> first | (cases hr; done) | exact e

theorem LoopHead.classify (h : LoopHead s f rest st) : classify s.site s.yard f = .loopState := by
  unfold Machine.classify
  rw [h.station]
  dsimp only
  rw [h.role]
  exact if_pos ⟨h.kind, h.length⟩

theorem IslandHead.classify {i : Island} (h : IslandHead s f rest st n code i) :
    classify s.site s.yard f = .island n code := by
  unfold Machine.classify
  rw [h.station]
  dsimp only
  rw [h.role]
  dsimp only
  rw [if_pos ⟨h.kind, h.length, h.auto, by rw [h.loaded]; rfl⟩, h.code]

theorem WashHead.classify {l : WashLane} (h : WashHead s f rest st n code l) :
    classify s.site s.yard f = .wash n code := by
  unfold Machine.classify
  rw [h.station]
  dsimp only
  rw [h.role]
  dsimp only
  rw [if_pos ⟨h.kind, h.length, h.auto, by rw [h.loaded]; rfl⟩, h.code]

theorem TagHead.of_classify (hi : s.rx.field.ingress = f :: rest) {role : Role} {sign : Option Nat}
    (h : Machine.classify s.site s.yard f = .tagRead role sign) : ∃ st, TagHead s f rest st := by
  unfold Machine.classify at h
  split at h
  · cases h
  · next st hs =>
    refine ⟨st, ?_⟩
    dsimp only at h
    split at h <;> (try split at h) <;> (try cases h)
    all_goals
      rename_i hr hc
      exact ⟨hi, hs, by rw [hr]; rfl, hc.1, hc.2⟩

theorem LoopHead.of_classify (hi : s.rx.field.ingress = f :: rest)
    (h : Machine.classify s.site s.yard f = .loopState) : ∃ st, LoopHead s f rest st := by
  unfold Machine.classify at h
  split at h
  · cases h
  · next st hs =>
    dsimp only at h
    split at h <;> (try split at h) <;> (try cases h)
    rename_i hr hc
    exact ⟨st, hi, hs, hr, hc.1, hc.2⟩

theorem IslandHead.of_classify (hi : s.rx.field.ingress = f :: rest)
    (h : Machine.classify s.site s.yard f = .island n code) : ∃ st i, IslandHead s f rest st n code i := by
  unfold Machine.classify at h
  split at h
  · cases h
  · next st hs =>
    dsimp only at h
    split at h <;> (try split at h) <;> (try cases h)
    rename_i hr hc
    obtain ⟨i, hl⟩ := Option.isSome_iff_exists.1 hc.2.2.2
    exact ⟨st, i, hi, hs, hr, hc.2.2.1, hl, hc.1, hc.2.1, rfl⟩

theorem WashHead.of_classify (hi : s.rx.field.ingress = f :: rest)
    (h : Machine.classify s.site s.yard f = .wash n code) : ∃ st l, WashHead s f rest st n code l := by
  unfold Machine.classify at h
  split at h
  · cases h
  · next st hs =>
    dsimp only at h
    split at h <;> (try split at h) <;> (try cases h)
    rename_i hr hc
    obtain ⟨l, hl⟩ := Option.isSome_iff_exists.1 hc.2.2.2
    exact ⟨st, l, hi, hs, hr, hc.2.2.1, hl, hc.1, hc.2.1, rfl⟩

/-- A report of an island that is acted on. -/
theorem islandStep_after {i : Island} {g : IslandAct} {y : Yard} {dir : Option Direction}
    (h : IslandHead s f rest st n code i)
    (hg : g s.site n i (u16 f.payload 1) (u16 f.payload 3) s.yard = some (y, dir)) :
    islandStep code g s = .next (afterField s f rest s.site y
      (processed (reportVehicle i.vehicle code (u16 f.payload 1)) dir)) := by
  refine fieldStep_after h.head h.classify (by simp [isIslandRow]) ?_
  simp only [islandReport, takenReport, h.loaded, hg, processed]

/-- A report of an island that is ignored. -/
theorem islandStep_ignored {i : Island} {g : IslandAct} (h : IslandHead s f rest st n code i)
    (hg : g s.site n i (u16 f.payload 1) (u16 f.payload 3) s.yard = none) :
    islandStep code g s = .next (afterField s f rest s.site s.yard
      (ignored (reportVehicle i.vehicle code (u16 f.payload 1)))) := by
  refine fieldStep_after h.head h.classify (by simp [isIslandRow]) ?_
  simp only [islandReport, takenReport, h.loaded, hg, ignored]

/-- A report of a wash lane that is acted on. -/
theorem washStep_after {l : WashLane} {g : WashAct} {y : Yard} {dir : Option Direction}
    (h : WashHead s f rest st n code l)
    (hg : g s.site n l (u16 f.payload 1) (u8 f.payload 3) s.yard = some (y, dir)) :
    washStep code g s = .next (afterField s f rest s.site y
      (processed (reportVehicle l.vehicle code (u16 f.payload 1)) dir)) := by
  refine fieldStep_after h.head h.classify (by simp [isWashRow]) ?_
  simp only [washReport, takenReport, h.loaded, hg, processed]

/-- A report of a wash lane that is ignored. -/
theorem washStep_ignored {l : WashLane} {g : WashAct} (h : WashHead s f rest st n code l)
    (hg : g s.site n l (u16 f.payload 1) (u8 f.payload 3) s.yard = none) :
    washStep code g s = .next (afterField s f rest s.site s.yard
      (ignored (reportVehicle l.vehicle code (u16 f.payload 1)))) := by
  refine fieldStep_after h.head h.classify (by simp [isWashRow]) ?_
  simp only [washReport, takenReport, h.loaded, hg, ignored]

/-! ## Forwarding -/

@[simp] theorem forward_site (f : Frame) (n : Note) (d : Desk) : (forward f n d).site = d.site := by
  unfold forward
  split
  · rfl
  · split
    · rfl
    · rfl
    · split <;> rfl

@[simp] theorem forward_yard (f : Frame) (n : Note) (d : Desk) : (forward f n d).yard = d.yard := by
  unfold forward
  split
  · rfl
  · split
    · rfl
    · rfl
    · split <;> rfl

theorem OutOk.forward {r : Nat} (f : Frame) (n : Note) {d : Desk} (h : OutOk r d.out) : OutOk r (forward f n d).out := by
  unfold Machine.forward
  split
  · exact h.offerForwarded ..
  · split
    · exact h.offerForwarded ..
    · exact h
    · split
      · exact h.offerForwarded ..
      · exact h.offerForwarded ..

/-! ## Office rows -/

theorem officeStep_take {wants : Frame → Bool} {lengthOk : Nat → Bool} {hd : Handler} {kind : Byte} {p : List Byte}
    (h : CommandHead s f rest kind p) (hw : wants f = true) :
    officeStep wants lengthOk hd s = next { s with rx.office.ingress := rest } (takeCommand lengthOk hd f s.desk) := by
  unfold officeStep
  rw [h.head]
  exact if_pos (by simp [toPart, h.dest, hw, h.slot])

/-- An office row answers the state as it was, or takes the frame at the head with a slot free for its reply. -/
theorem officeStep_cases (wants : Frame → Bool) (lengthOk : Nat → Bool) (hd : Handler) (s : State) :
    officeStep wants lengthOk hd s = .next s ∨
    ∃ f rest, s.rx.office.ingress = f :: rest ∧ 0 < officeFree s.out ∧
      officeStep wants lengthOk hd s =
        next { s with rx.office.ingress := rest } (takeCommand lengthOk hd f s.desk) := by
  unfold officeStep
  split
  · exact .inl rfl
  · next f rest h =>
    split
    · next hc =>
      simp only [Bool.and_eq_true, decide_eq_true_eq] at hc
      exact .inr ⟨f, rest, h, hc.2, rfl⟩
    · exact .inl rfl

/-- With no free slot, or with no command it wants at the head, an office row changes nothing (R29, log 2). -/
theorem officeStep_leave {wants : Frame → Bool} {lengthOk : Nat → Bool} {hd : Handler}
    (h : officeFree s.out = 0 ∨ ∀ f rest, s.rx.office.ingress = f :: rest → toPart s.site f = true → wants f = false) :
    officeStep wants lengthOk hd s = .next s := by
  unfold officeStep
  split
  · rfl
  · next f rest e =>
    rw [if_neg]
    intro hc
    simp only [Bool.and_eq_true, decide_eq_true_eq] at hc
    rcases h with h | h
    · omega
    · rw [h f rest e hc.1.1] at hc; simp at hc

/-- A command of a wrong length (R40). -/
theorem officeStep_badLength {wants : Frame → Bool} {lengthOk : Nat → Bool} {hd : Handler} {kind : Byte} {p : List Byte}
    (h : CommandHead s f rest kind p) (hw : wants f = true) (hl : lengthOk p.length = false) :
    officeStep wants lengthOk hd s = .next (afterRefusal s f rest .badLength) := by
  rw [officeStep_take h hw]
  unfold takeCommand
  rw [h.payload, if_neg (by simp [hl])]
  rfl

/-- A command whose handler answers at once. -/
theorem officeStep_answer {wants : Frame → Bool} {lengthOk : Nat → Bool} {hd : Handler} {kind : Byte} {p : List Byte}
    {d : Desk} {r : Result} {data : List Byte} (h : CommandHead s f rest kind p) (hw : wants f = true)
    (hl : lengthOk p.length = true) (hh : hd p f (reservedDesk s) = (d, some (r, data))) :
    officeStep wants lengthOk hd s = .next (afterCommand s f rest d r data) := by
  rw [officeStep_take h hw]
  unfold takeCommand
  have e : hd f.payload f { s.desk with out := reserveSlot s.desk.out } = (d, some (r, data)) := by
    rw [h.payload]; exact hh
  rw [h.payload, if_pos hl]
  rw [h.payload] at e
  simp only [e]
  rfl

/-- An order on the yard that is carried out. -/
theorem officeStep_order {wants : Frame → Bool} {lengthOk : Nat → Bool} {g : List Byte → Site → Yard → Yard × Result}
    {kind : Byte} {p : List Byte} {y : Yard} {r : Result} (h : CommandHead s f rest kind p) (hw : wants f = true)
    (hl : lengthOk p.length = true) (hg : g p s.site s.yard = (y, r)) (hr : r = .ok ∨ r = .okClamped) :
    officeStep wants lengthOk (yardHandler g) s = .next (afterOrder s f rest y r) := by
  refine officeStep_answer h hw hl ?_
  unfold yardHandler
  rw [reservedDesk_site, reservedDesk_yard, hg]
  rcases hr with rfl | rfl <;> rfl

/-- An order on the yard that is refused: nothing has changed. -/
theorem officeStep_refusal {wants : Frame → Bool} {lengthOk : Nat → Bool} {g : List Byte → Site → Yard → Yard × Result}
    {kind : Byte} {p : List Byte} {y : Yard} {r : Result} (h : CommandHead s f rest kind p) (hw : wants f = true)
    (hl : lengthOk p.length = true) (hg : g p s.site s.yard = (y, r)) (h1 : r ≠ .ok) (h2 : r ≠ .okClamped) :
    officeStep wants lengthOk (yardHandler g) s = .next (afterRefusal s f rest r) := by
  refine officeStep_answer h hw hl ?_
  unfold yardHandler
  rw [reservedDesk_site, reservedDesk_yard, hg]
  cases r <;> first | exact absurd rfl h1 | exact absurd rfl h2 | rfl

/-! ## Settling -/

theorem OutOk.flush {r : Nat} {d : Desk} (h : OutOk r d.out) : OutOk r (flush d).out := h.handOverAll ..
theorem OutOk.settle {r : Nat} {d : Desk} (h : OutOk r d.out) : OutOk r (settle d).out := h.handOverAll ..

/-- What settling does to the yard, beside taking what it emitted. -/
theorem Work.settle {x : Yard} {d : Desk} (h : Work x d.yard) : Work x (settle d).yard :=
  (h.drain d.site).other rfl rfl rfl rfl rfl rfl rfl rfl rfl rfl

theorem Work.flush {x : Yard} {d : Desk} (h : Work x d.yard) : Work x (flush d).yard :=
  h.other rfl rfl rfl rfl rfl rfl rfl rfl rfl rfl

/-! ## Orders and entries -/

theorem sortBy_inOrder (keys : List (Nat × Nat)) : InOrder keys ((sortBy lt2 keys).map (·.2)) :=
  ⟨_, sortBy_perm .., sortBy_sorted _, rfl⟩

theorem InOrder.unique {keys : List (Nat × Nat)} {l m : List Nat} (h : InOrder keys l) (g : InOrder keys m) : l = m := by
  obtain ⟨s, p, o, rfl⟩ := h
  obtain ⟨t, q, r, rfl⟩ := g
  have e : s = t := List.Perm.eq_of_pairwise (le := le2)
    (by rintro ⟨a, b⟩ ⟨c, d⟩ _ _ h1 h2; simp only [le2] at *; ext <;> simp <;> omega) o r (p.trans q.symm)
  rw [e]

/-- The entries of a payload by their offsets. -/
theorem entriesOf_eq (size n : Nat) (p : List Byte) :
    entriesOf size p n = (List.range n).map fun j => (p.drop (size * j)).take size := by
  induction n generalizing p with
  | zero => rfl
  | succ n ih =>
    rw [entriesOf, ih, List.range_succ_eq_map, List.map_cons, List.map_map]
    simp only [Nat.mul_zero, List.drop_zero]
    congr 1
    apply List.map_congr_left
    intro j _
    simp only [Function.comp, List.drop_drop]
    congr 2
    simp [Nat.mul_succ, Nat.add_comm]

/-- The first departing entry with a vehicle field leaves the list. -/
theorem dropDeparting_append {v : Option Nat} {before after : List DepartingItem} {e : DepartingItem}
    (he : e.vehicle = v) (hb : ∀ i ∈ before, i.vehicle ≠ v) :
    dropDeparting v (before ++ e :: after) = before ++ after := by
  induction before with
  | nil => simp [dropDeparting, he]
  | cons c before ih =>
    simp only [List.cons_append, dropDeparting]
    rw [if_neg (hb c (by simp)), ih fun i hi => hb i (by simp [hi])]

end Sys2Proof.Machine
end

