-- ==== Sys2Proof/Laws/Layouts.lean ====
section
/-! SUPPORT. What the fields of a layout are as bytes, and lists of pieces of one width padded with zeros: the lemmas by
which the layouts of replies and table entries are read. -/

namespace Sys2Proof.Machine

@[simp] theorem byte_toNat (b : Byte) : byte b.toNat = b := by simp [byte]

@[simp] theorem sent_nil : sent [] = [] := rfl

@[simp] theorem sent_one (v : Nat) (l : List (Nat × Nat)) : sent ((1, v) :: l) = byte v :: sent l := by
  simp [sent, byte]

@[simp] theorem sent_two (v : Nat) (l : List (Nat × Nat)) : sent ((2, v) :: l) = bytes2 v ++ sent l := by
  simp [sent, bytes2, byte, List.range_succ]

@[simp] theorem sent_three (v : Nat) (l : List (Nat × Nat)) : sent ((3, v) :: l) = bytes3 v ++ sent l := by
  simp [sent, bytes3, byte, List.range_succ]

/-- The payload of a SIGN_SHOW is its fields. -/
theorem signPayload_eq_sent (fleet target duty : Nat) (code : Byte) (verify holdover : Bool) :
    signPayload fleet code target duty verify holdover =
      sent [(2, fleet), (1, code.toNat), (1, target), (2, duty), (1, bit verify 0 + bit holdover 1)] := by
  simp [signPayload]

/-- A field of zeros of any width. -/
theorem sent_zeros (w : Nat) (l : List (Nat × Nat)) : sent ((w, 0) :: l) = List.replicate w 0 ++ sent l := by
  have h : (List.range w).map (fun i => BitVec.ofNat 8 (0 / 256 ^ (w - 1 - i))) = List.replicate w 0 := by
    refine List.eq_replicate_iff.2 ⟨by rw [List.length_map, List.length_range], fun b hb => ?_⟩
    obtain ⟨i, _, rfl⟩ := List.mem_map.1 hb
    rw [Nat.zero_div]
    rfl
  exact (List.flatMap_cons ..).trans (congrArg (· ++ sent l) h)

theorem sent_append (a b : List (Nat × Nat)) : sent (a ++ b) = sent a ++ sent b := by simp [sent]

theorem sent_flatMap {α : Type} (l : List α) (g : α → List (Nat × Nat)) :
    sent (l.flatMap g) = l.flatMap fun x => sent (g x) := by
  induction l with
  | nil => rfl
  | cons a l ih => simp [sent_append, ih]

/-- The bytes of a board line or an image line are its fields. -/
theorem boardLineBytes_eq_sent (l : BoardLine) : boardLineBytes l = sent (boardLineFields l) := by
  cases h : l.stand <;> simp [boardLineBytes, boardLineFields, standCode, standNumber, h]

theorem imageLineBytes_eq_sent (l : ImageLine) : imageLineBytes l = sent (imageLineFields l) := by
  cases l <;> simp [imageLineBytes, imageLineFields, boardLineBytes_eq_sent, emptyLineBytes, sent_zeros]

/-- Padding passes over a first piece of known width. -/
theorem padded_append (w n : Nat) (p l : List Byte) (h : p.length = w) : padded (w + n) (p ++ l) = p ++ padded n l := by
  unfold padded
  rw [List.append_assoc, List.take_append, h, List.take_of_length_le (by omega), Nat.add_sub_cancel_left]
  congr 1
  rw [List.take_append, List.take_append, List.take_replicate, List.take_replicate]
  congr 2
  omega

/-- A list written piece by piece, each of width w, and padded to m pieces. -/
theorem padded_pieces {α : Type} (w : Nat) (g : Nat → α → List Byte) (hw : ∀ i a, (g i a).length = w)
    (q : Nat → List α → List Byte) (h0 : ∀ i, q i [] = []) (h1 : ∀ i a l, q i (a :: l) = g i a ++ q (i + 1) l) :
    ∀ (m i : Nat) (l : List α), padded (w * m) (q i l) =
      (List.range m).flatMap fun j => (l[j]?.map (g (i + j))).getD (List.replicate w 0) := by
  intro m
  induction m with
  | zero => intro i l; simp [padded]
  | succ m ih =>
    intro i l
    rw [List.range_succ_eq_map, List.flatMap_cons, List.flatMap_map]
    cases l with
    | nil =>
      have := ih i []
      simp only [h0, padded, List.nil_append, List.take_replicate, Nat.min_self, List.getElem?_nil, Option.map_none,
        Option.getD_none] at this ⊢
      rw [← this, Nat.mul_succ, Nat.add_comm, List.replicate_append_replicate]
    | cons a l =>
      simp only [h1, List.getElem?_cons_zero, List.getElem?_cons_succ, Nat.add_zero, Nat.succ_eq_add_one,
        Option.map_some, Option.getD_some]
      rw [Nat.mul_succ, Nat.add_comm (w * m), padded_append _ _ _ _ (hw i a), ih (i + 1) l]
      congr 2
      funext j
      rw [show i + (j + 1) = i + 1 + j by omega]

/-- The same for pieces that do not depend on their position. -/
theorem padded_flatMap {α : Type} (w m : Nat) (g : α → List Byte) (hw : ∀ a, (g a).length = w) (l : List α) :
    padded (w * m) (l.flatMap g) = (List.range m).flatMap fun j => (l[j]?.map g).getD (List.replicate w 0) :=
  padded_pieces w (fun _ => g) (fun _ => hw) (fun _ l => l.flatMap g) (fun _ => rfl) (fun _ _ _ => rfl) m 0 l

/-! ## The tests of the queues, as the rules say them (R16, R31, R85, R87, R103, R105) -/

theorem islandAccepts_iff (y : Yard) (i : Island) (f : Nat) :
    islandAccepts y i f = true ↔ ∃ v, vehOf y f = some v ∧ inMask i.entry.mask v.entry.cls = true := by
  unfold islandAccepts
  cases vehOf y f <;> simp

theorem fuelJoinable_iff (y : Yard) (f : Nat) :
    fuelJoinable y f = true ↔ y.fuelQ.length < 16 ∧ ∃ v, vehOf y f = some v ∧
      ∃ p ∈ y.islands, inMask p.2.entry.mask v.entry.cls = true := by
  have swap : (∃ p ∈ y.islands, ∃ v, vehOf y f = some v ∧ inMask p.2.entry.mask v.entry.cls = true) ↔
      ∃ v, vehOf y f = some v ∧ ∃ p ∈ y.islands, inMask p.2.entry.mask v.entry.cls = true :=
    ⟨fun ⟨p, hp, v, hv, hm⟩ => ⟨v, hv, p, hp, hm⟩, fun ⟨v, hv, p, hp, hm⟩ => ⟨p, hp, v, hv, hm⟩⟩
  rw [← swap]
  simp only [fuelJoinable, tany, Bool.and_eq_true, List.any_eq_true, islandAccepts_iff]
  exact and_congr_left' decide_eq_true_iff

theorem washAccepts_iff (y : Yard) (l : WashLane) (f : Nat) :
    washAccepts y l f = true ↔ ∃ v, vehOf y f = some v ∧ inMask l.entry.mask v.entry.cls = true ∧
      v.entry.length ≤ l.entry.maxLength := by
  unfold washAccepts
  cases vehOf y f <;> simp

theorem roleInAuto_iff (k : Site) (r : Role) :
    roleInAuto k r = true ↔ ∃ s, stationOfRole k r = some s ∧ s.manual = false := by
  unfold roleInAuto
  cases stationOfRole k r <;> simp

theorem missedTwice_iff (y : Yard) (f : Nat) :
    missedTwice y f = true ↔ ∃ v, vehOf y f = some v ∧ 2 ≤ v.missedCalls := by
  unfold missedTwice
  cases vehOf y f <;> simp

theorem satSucc_eq_min (limit n : Nat) : satSucc limit n = min limit (n + 1) := by
  unfold satSucc
  split <;> omega

theorem dutyHeld_iff (y : Yard) (f : Nat) : dutyHeld y f = true ↔ ∃ r, pairedDuty y f = some r ∧ r.state = .held := by
  unfold dutyHeld
  cases pairedDuty y f <;> simp

end Sys2Proof.Machine
end

