-- ==== Sys2Proof/WellFormed.lean ====
section
/-! DEFINITION. The commands whose operand names a thing the part can have (00_scope 4.4). An ill-formed command names
nothing and changes nothing. -/

namespace Sys2Proof

/-- The number an operand names and the greatest number of its kind: mouth 48, lane 24, island 4, wash lane 2, station
239 (00_scope 4.4). -/
def Instr.operand : Instr → Option (Nat × Nat)
  | .powerOnReset _ _ => none
  | .rxByte _ _ => none
  | .receiveGapTimeout _ => none
  | .tagRead => none
  | .loopState => none
  | .debounceExpiry n => some (n, 48)
  | .stuckTimerExpiry n => some (n, 48)
  | .silenceTimerExpiry n => some (n, 239)
  | .pendingTimeout n => some (n, 24)
  | .transitTimeout => none
  | .vehiclePresent => none
  | .nozzleLifted => none
  | .meterCount => none
  | .nozzleHung => none
  | .islandClear => none
  | .islandReportFault => none
  | .arrivalTimerExpiry n => some (n, 4)
  | .authorisationTimerExpiry n => some (n, 4)
  | .flowStallTimerExpiry n => some (n, 4)
  | .vehicleInPosition => none
  | .stageDone => none
  | .laneClear => none
  | .washReportFault => none
  | .callTimerExpiry n => some (n, 2)
  | .stageTimerExpiry n => some (n, 2)
  | .unprocessedFieldFrame => none
  | .officeFrameToField => none
  | .badKindCommand => none
  | .tableOpen => none
  | .tableData => none
  | .tableRead => none
  | .commit => none
  | .commitComplete => none
  | .commitTimeout => none
  | .bankActivateAtRollover => none
  | .bankActivateNow => none
  | .bankActivateCancel => none
  | .time => none
  | .census => none
  | .laneSetOpen => none
  | .laneSetClose => none
  | .laneSetDeclareEmpty => none
  | .vehicleSetOutOfService => none
  | .vehicleSetClearOutOfService => none
  | .vehicleSetMarkUnlocated => none
  | .vehicleSetSendToFuel => none
  | .vehicleSetSendToWash => none
  | .dutyCancel => none
  | .dutyCall => none
  | .stationResume => none
  | .queryVehicle => none
  | .queryLane => none
  | .queryDuty => none
  | .queryIsland => none
  | .queryWash => none
  | .queryQueues => none
  | .queryCalls => none
  | .queryStatus => none
  | .yardClear => none
  | .fieldEgressSend => none
  | .officeEgressSend => none
  | .noticeHoldExpiry => none
  | .yardSecondAdvance => none
  | .holdoverTimerExpiry => none

/-- The operand lies in the range of its kind, 1 to the greatest number. -/
def Instr.wellFormed (i : Instr) : Bool :=
  match i.operand with
  | none => true
  | some (n, greatest) => decide (1 ≤ n) && decide (n ≤ greatest)

end Sys2Proof
end

