-- ==== Sys2Proof/Laws/PerInstr.lean ====
section
/-! SUPPORT. The statement about every command as syntax: a well-formed command's operand, where it has one, is at least 1
and at most the greatest number of its kind, which no kind of the part sets above 239. -/

namespace Sys2Proof.Laws

/-- A well-formed command names a thing the part can have. -/
def OperandBound.Statement (i : Instr) : Prop :=
  i.wellFormed = true → ∀ n greatest, i.operand = some (n, greatest) → 1 ≤ n ∧ n ≤ greatest ∧ greatest ≤ 239

/-- A command without an operand. -/
theorem OperandBound.ofNone {i : Instr} (h : i.operand = none) : OperandBound.Statement i := by
  intro _ n greatest e; rw [h] at e; cases e

/-- A command with an operand of a kind whose greatest number is at most 239. -/
theorem OperandBound.ofSome {i : Instr} {m limit : Nat} (h : i.operand = some (m, limit)) (hl : limit ≤ 239) :
    OperandBound.Statement i := by
  intro w n greatest e
  unfold Instr.wellFormed at w
  rw [h] at w e
  cases e
  simp only [Bool.and_eq_true, decide_eq_true_eq] at w
  exact ⟨w.1, w.2, hl⟩

theorem OperandBound.powerOnReset (rate1 rate0 : Bool) : Statement (Instr.powerOnReset rate1 rate0) := ofNone rfl
theorem OperandBound.rxByte (port : Port) (byte : Byte) : Statement (Instr.rxByte port byte) := ofNone rfl
theorem OperandBound.receiveGapTimeout (port : Port) : Statement (Instr.receiveGapTimeout port) := ofNone rfl
theorem OperandBound.tagRead : Statement Instr.tagRead := ofNone rfl
theorem OperandBound.loopState : Statement Instr.loopState := ofNone rfl
theorem OperandBound.debounceExpiry (mouth : Nat) : Statement (Instr.debounceExpiry mouth) := ofSome rfl (by decide)
theorem OperandBound.stuckTimerExpiry (mouth : Nat) : Statement (Instr.stuckTimerExpiry mouth) := ofSome rfl (by decide)
theorem OperandBound.silenceTimerExpiry (station : Nat) : Statement (Instr.silenceTimerExpiry station) := ofSome rfl (by decide)
theorem OperandBound.pendingTimeout (lane : Nat) : Statement (Instr.pendingTimeout lane) := ofSome rfl (by decide)
theorem OperandBound.transitTimeout : Statement Instr.transitTimeout := ofNone rfl
theorem OperandBound.vehiclePresent : Statement Instr.vehiclePresent := ofNone rfl
theorem OperandBound.nozzleLifted : Statement Instr.nozzleLifted := ofNone rfl
theorem OperandBound.meterCount : Statement Instr.meterCount := ofNone rfl
theorem OperandBound.nozzleHung : Statement Instr.nozzleHung := ofNone rfl
theorem OperandBound.islandClear : Statement Instr.islandClear := ofNone rfl
theorem OperandBound.islandReportFault : Statement Instr.islandReportFault := ofNone rfl
theorem OperandBound.arrivalTimerExpiry (island : Nat) : Statement (Instr.arrivalTimerExpiry island) := ofSome rfl (by decide)
theorem OperandBound.authorisationTimerExpiry (island : Nat) : Statement (Instr.authorisationTimerExpiry island) := ofSome rfl (by decide)
theorem OperandBound.flowStallTimerExpiry (island : Nat) : Statement (Instr.flowStallTimerExpiry island) := ofSome rfl (by decide)
theorem OperandBound.vehicleInPosition : Statement Instr.vehicleInPosition := ofNone rfl
theorem OperandBound.stageDone : Statement Instr.stageDone := ofNone rfl
theorem OperandBound.laneClear : Statement Instr.laneClear := ofNone rfl
theorem OperandBound.washReportFault : Statement Instr.washReportFault := ofNone rfl
theorem OperandBound.callTimerExpiry (washLane : Nat) : Statement (Instr.callTimerExpiry washLane) := ofSome rfl (by decide)
theorem OperandBound.stageTimerExpiry (washLane : Nat) : Statement (Instr.stageTimerExpiry washLane) := ofSome rfl (by decide)
theorem OperandBound.unprocessedFieldFrame : Statement Instr.unprocessedFieldFrame := ofNone rfl
theorem OperandBound.officeFrameToField : Statement Instr.officeFrameToField := ofNone rfl
theorem OperandBound.badKindCommand : Statement Instr.badKindCommand := ofNone rfl
theorem OperandBound.tableOpen : Statement Instr.tableOpen := ofNone rfl
theorem OperandBound.tableData : Statement Instr.tableData := ofNone rfl
theorem OperandBound.tableRead : Statement Instr.tableRead := ofNone rfl
theorem OperandBound.commit : Statement Instr.commit := ofNone rfl
theorem OperandBound.commitComplete : Statement Instr.commitComplete := ofNone rfl
theorem OperandBound.commitTimeout : Statement Instr.commitTimeout := ofNone rfl
theorem OperandBound.bankActivateAtRollover : Statement Instr.bankActivateAtRollover := ofNone rfl
theorem OperandBound.bankActivateNow : Statement Instr.bankActivateNow := ofNone rfl
theorem OperandBound.bankActivateCancel : Statement Instr.bankActivateCancel := ofNone rfl
theorem OperandBound.time : Statement Instr.time := ofNone rfl
theorem OperandBound.census : Statement Instr.census := ofNone rfl
theorem OperandBound.laneSetOpen : Statement Instr.laneSetOpen := ofNone rfl
theorem OperandBound.laneSetClose : Statement Instr.laneSetClose := ofNone rfl
theorem OperandBound.laneSetDeclareEmpty : Statement Instr.laneSetDeclareEmpty := ofNone rfl
theorem OperandBound.vehicleSetOutOfService : Statement Instr.vehicleSetOutOfService := ofNone rfl
theorem OperandBound.vehicleSetClearOutOfService : Statement Instr.vehicleSetClearOutOfService := ofNone rfl
theorem OperandBound.vehicleSetMarkUnlocated : Statement Instr.vehicleSetMarkUnlocated := ofNone rfl
theorem OperandBound.vehicleSetSendToFuel : Statement Instr.vehicleSetSendToFuel := ofNone rfl
theorem OperandBound.vehicleSetSendToWash : Statement Instr.vehicleSetSendToWash := ofNone rfl
theorem OperandBound.dutyCancel : Statement Instr.dutyCancel := ofNone rfl
theorem OperandBound.dutyCall : Statement Instr.dutyCall := ofNone rfl
theorem OperandBound.stationResume : Statement Instr.stationResume := ofNone rfl
theorem OperandBound.queryVehicle : Statement Instr.queryVehicle := ofNone rfl
theorem OperandBound.queryLane : Statement Instr.queryLane := ofNone rfl
theorem OperandBound.queryDuty : Statement Instr.queryDuty := ofNone rfl
theorem OperandBound.queryIsland : Statement Instr.queryIsland := ofNone rfl
theorem OperandBound.queryWash : Statement Instr.queryWash := ofNone rfl
theorem OperandBound.queryQueues : Statement Instr.queryQueues := ofNone rfl
theorem OperandBound.queryCalls : Statement Instr.queryCalls := ofNone rfl
theorem OperandBound.queryStatus : Statement Instr.queryStatus := ofNone rfl
theorem OperandBound.yardClear : Statement Instr.yardClear := ofNone rfl
theorem OperandBound.fieldEgressSend : Statement Instr.fieldEgressSend := ofNone rfl
theorem OperandBound.officeEgressSend : Statement Instr.officeEgressSend := ofNone rfl
theorem OperandBound.noticeHoldExpiry : Statement Instr.noticeHoldExpiry := ofNone rfl
theorem OperandBound.yardSecondAdvance : Statement Instr.yardSecondAdvance := ofNone rfl
theorem OperandBound.holdoverTimerExpiry : Statement Instr.holdoverTimerExpiry := ofNone rfl

end Sys2Proof.Laws
end

