-- ==== Sys2Proof/Tests/Slice0.lean ====
section
/-! SUPPORT. Own tests: the ill-formed commands, worked values of the manual, small commands on a small yard, and for every
obligation with premises a state that meets them. -/

namespace Sys2Proof.Tests

open Sys2Proof.Machine

-- One theorem at a time: the proofs below, elaborated all at once, would each hold a thread and its stack.
set_option Elab.async false

/-! ## Ill-formed commands: one for each check of WellFormed -/

theorem test_mouth_zero_illformed : (Instr.debounceExpiry 0).wellFormed = false := by decide
theorem test_mouth_49_illformed : (Instr.stuckTimerExpiry 49).wellFormed = false := by decide
theorem test_station_240_illformed : (Instr.silenceTimerExpiry 240).wellFormed = false := by decide
theorem test_lane_25_illformed : (Instr.pendingTimeout 25).wellFormed = false := by decide
theorem test_island_5_illformed : (Instr.arrivalTimerExpiry 5).wellFormed = false := by decide
theorem test_island_zero_illformed : (Instr.authorisationTimerExpiry 0).wellFormed = false := by decide
theorem test_wash_lane_3_illformed : (Instr.callTimerExpiry 3).wellFormed = false := by decide
theorem test_wellformed_limits :
    (Instr.debounceExpiry 48).wellFormed = true ∧ (Instr.silenceTimerExpiry 239).wellFormed = true ∧
    (Instr.pendingTimeout 24).wellFormed = true ∧ (Instr.flowStallTimerExpiry 4).wellFormed = true ∧
    (Instr.stageTimerExpiry 2).wellFormed = true := by decide

/-- No row of the table has bits, so no word spells a command. -/
theorem test_no_word_spells_a_command : decodeTableWord 8 0xA5 = none := rfl

/-! ## A small yard -/

def busClass : ClassEntry := { tank := 300, reserve := 20, spareFuel := 100, washInterval := 3, washProgram := 1 }

/-- A bus of class 0, 12.0 m, level 200 L, washed today. -/
def bus (f : Nat) (st : VehState) : Vehicle :=
  { freshVehicle { day := 0, second := 0 } { fleet := f, cls := 0, length := 120, outOfService := false } with
    state := st, level := some 200, daysSinceWash := 0 }

def station (a : Nat) (r : Role) : Station :=
  freshStation { address := a, role := r, sign := none, policy := .yields }

def loopEntry (i : Nat) : LoopEntry :=
  { stationA := 4, indexA := i, stationB := 4, indexB := i + 1, debounce := .ms200 }

/-- Lane 1: capacity 100.0 m, entry mouth 1, exit mouth 2. -/
def lane (status : LaneStatus) (items : List LaneItem) (pendings : List PendingItem) : Lane :=
  { entry := { capacity := 1000, mask := 0xFF, unknownLength := 180, entryMouth := 1, exitMouth := 2, frontSign := none }
    status := status, doubt := false, items := items, pendings := pendings }

def item (f : Option Nat) : LaneItem := { vehicle := f, length := 120, entered := { day := 1, second := 0 } }

def island (st : IslandState) (v : Option Nat) : Island :=
  { freshIsland { mask := 0xFF, meter := 10, sign := none, heldClosed := false } with
    state := st, vehicle := v, limit := 500, lastCount := 100, timer := some 0 }

def washLane (st : WashState) (v : Option Nat) (i : Option Nat) : WashLane :=
  { entry := { mask := 0xFF, maxLength := 200, lref := 120, sign := none, heldClosed := false }
    state := st, stageIndex := i, vehicle := v
    plan := [{ kind := .preRinse, time := 30 }, { kind := .brush, time := 40 }], timer := some 0 }

def duty (n departure : Nat) (st : DutyState) (v : Option Nat) : Duty :=
  { freshDuty { number := n, mask := 0xFF, departure := departure, fuel := 100, wash := false, lead := none } with
    state := st, vehicle := v }

/-- The clock is LOCKED at 10:00 of day 1, and every timer that started at tick 0 has run out. -/
def site : Site :=
  { Site.reset with
    now := 1000000
    clock := { day := 1, second := 36000, phase := 0, state := .locked, processed := some 600, holdover := some 1000000 }
    classes := [(0, busClass)]
    mouths := [(1, resetMouth (loopEntry 0)), (2, resetMouth (loopEntry 2))]
    concentrators := [(4, { loops := 0, timer := some 0, silent := false })]
    stations := [(0, station 1 .gateIn), (1, station 2 .gateOut), (2, station 3 .yard), (3, station 4 .loops),
      (4, station 5 .sign), (5, station 6 .board), (6, station 11 (.island 1)), (7, station 21 (.wash 1))]
    programs := [(1, [{ kind := .brush, base := 40, scales := true }])] }

/-- Vehicle 7 stands at the front of lane 1, 8 behind it, 9 on the apron, 10 is away; duties 1 to 3. -/
def yard : Yard :=
  { Yard.reset with
    roster := [(0, { bus 7 .parked with duty := some 1 }), (1, bus 8 .parked), (2, bus 9 .apron), (3, bus 10 .absent)]
    lanes := [(1, lane .opened [item (some 7), item (some 8)] [])]
    apron := [9]
    islands := [(1, island .idle none)]
    washLanes := [(1, washLane .idle none none)]
    bankA := [(0, duty 1 700 .opened (some 7)), (1, duty 2 800 .opened none)] }

def start : State :=
  { pending := [], rx := { field := .reset, office := .reset, rate := { rate1 := false, rate0 := false } }
    out := { Out.reset with images := [(6, List.replicate 12 .empty)] }, site := site, yard := yard }

/-- A field frame from a station waits. -/
def fieldFrame (a : Nat) (kind : Byte) (p : List Byte) : Frame := { dest := 250, src := byte a, kind := kind, payload := p }

def withField (f : Frame) (s : State) : State := { s with rx.field.ingress := [f] }

/-- An office command to the part waits. -/
def command (kind : Byte) (p : List Byte) : Frame := { dest := 250, src := 240, kind := kind, payload := p }

def withOffice (f : Frame) (s : State) : State := { s with rx.office.ingress := [f] }

def withCommand (kind : Byte) (p : List Byte) (s : State) : State := withOffice (command kind p) s

def withIsland (i : Island) (s : State) : State := { s with yard.islands := [(1, i)] }
def withWash (l : WashLane) (s : State) : State := { s with yard.washLanes := [(1, l)] }
def withLane (l : Lane) (s : State) : State := { s with yard.lanes := [(1, l)] }

/-- What a command answers, when it is a next state. -/
def after (c : Instr) (s : State) : Option State :=
  match exec c s with
  | .next t => some t
  | .fault _ => none
  | .refused _ => none

/-- The reply a command leaves last in office egress: its payload. -/
def replied (c : Instr) (s : State) : Option (List Byte) :=
  (after c s).bind fun t => t.out.officeQ.getLast?.map (·.frame.payload)

/-- What a command leaves of a state, when it answers a next state. -/
def leaves {α : Type} (c : Instr) (s : State) (g : State → α) : Option α := (after c s).map g

/-! ## Worked values of the manual -/

/-- The check value of the CRC (R25). -/
theorem test_crc_check_value :
    crcOf [0x31, 0x32, 0x33, 0x34, 0x35, 0x36, 0x37, 0x38, 0x39] = 0x29B1 := by decide +kernel

/-- The scores of lanes 3, 5, 7, 8 and 11 (section 4.9) and of lane 14 at the default room weight (section 4.10). -/
theorem test_scores_of_section_4_9 :
    score Site.reset 1050 (some 1035) 465 = 73 ∧ score Site.reset 1050 none 805 = 700 ∧
    score Site.reset 1050 (some 1040) 330 = 51 ∧ score Site.reset 1050 (some 1062) 600 = 41227 ∧
    score Site.reset 1050 (some 1058) 705 = 41176 ∧ score Site.reset 150 (some 1440) 2230 = 61878 := by decide

/-- The saturated scores of section 4.10. -/
theorem test_scores_of_section_4_10 :
    let k : Site := { Site.reset with settings := [(4, 255)] }
    score k 150 (some 1440) 2230 = 65535 ∧ score k 150 (some 1400) 1795 = 65535 ∧ score k 150 (some 1100) 255 = 57176 := by
  decide

/-- The credits of R94. -/
theorem test_dispensed_litres :
    dispensed 1904 10 = 190 ∧ dispensed 1905 10 = 191 ∧ dispensed 1806 12 = 151 ∧ dispensed 37 1 = 37 ∧
    dispensed 35 72 = 0 := by decide

/-- The stage times of R107. -/
theorem test_stage_times :
    let t (lb lref base : Nat) (scales : Bool) : Nat := stageTime lb lref { kind := .brush, base := base, scales := scales }
    t 180 120 40 true = 60 ∧ t 105 120 45 true = 40 ∧ t 80 120 4 true = 5 ∧ t 200 60 600 true = 900 ∧
    t 180 120 2 false = 5 ∧ t 120 120 75 true = 75 := by decide

/-- The levels of R5. -/
theorem test_levels_from_percent :
    levelFromPercent 300 37 none = some 111 ∧ levelFromPercent 300 99 none = some 297 ∧
    levelFromPercent 300 180 none = some 300 ∧ levelFromPercent 250 33 none = some 82 ∧
    levelFromPercent 250 255 (some 4) = some 4 := by decide

/-! ## Small commands -/

theorem test_status_reply :
    replied .queryStatus (withCommand kindQuery [8] start) = some [0x8C, 0, 1, 0, 1, 0, 0x8C, 0xA0, 0] := by
  decide +kernel

theorem test_queues_reply :
    replied .queryQueues (withCommand kindQuery [6, 3] start) = some [0x8C, 0, 3, 1, 0, 9] := by decide +kernel

theorem test_bad_kind_reply : replied .badKindCommand (withCommand 0x8E [] start) = some [0x8E, 0x17] := by decide +kernel

theorem test_bad_length_reply : replied .time (withCommand kindTime [0] start) = some [0x85, 0x16] := by decide +kernel

theorem test_lane_close :
    leaves .laneSetClose (withCommand kindLaneSet [1, 2] start) (fun t => t.yard.lanes.map (·.2.status)) =
      some [.closed] := by decide +kernel

/-- An arrival pairs vehicle 10 with duty 2; it needs nothing, and lane 1 would block it behind the spare 8, so it joins
the apron. -/
theorem test_arrival_is_placed :
    leaves .tagRead (withField (fieldFrame 1 kindTagRead [0, 10, 50]) start)
      (fun t => ((vehOf t.yard 10).map fun v => (v.state, v.level, v.duty), t.yard.apron)) =
      some (some (.apron, some 150, some 2), [9, 10]) := by decide +kernel

/-- The same arrival with 9 percent: 27 L is below the threshold, so the vehicle is called to island 1 at once. -/
theorem test_arrival_needs_fuel :
    leaves .tagRead (withField (fieldFrame 1 kindTagRead [0, 10, 9]) start)
      (fun t => ((vehOf t.yard 10).map (·.state), (tget t.yard.islands 1).map fun i => (i.state, i.vehicle))) =
      some (some .fuelling, some (.called, some 10)) := by decide +kernel

/-- A vehicle present with 50 percent is authorised for 150 L, 1500 pulses. -/
theorem test_vehicle_present_authorises :
    leaves .vehiclePresent
      (withField (fieldFrame 11 kindIslandReport [1, 0, 9, 0, 50]) (withIsland (island .called (some 9)) start))
      (fun t => ((tget t.yard.islands 1).map fun i => (i.state, i.limit), t.out.fieldQ.map (·.frame.payload))) =
      some (some (.authorized, 1500), [[1, 0, 9, 0x05, 0xDC]]) := by decide +kernel

/-- A count at the limit sends STOP. -/
theorem test_meter_count_stops :
    leaves .meterCount
      (withField (fieldFrame 11 kindIslandReport [3, 0, 9, 1, 0xF4]) (withIsland (island .dispensing (some 9)) start))
      (fun t => ((tget t.yard.islands 1).map fun i => (i.lastCount, i.stopSent, i.timer),
        t.out.fieldQ.map (·.frame.payload))) = some (some (500, true, none), [[2, 0, 9, 0, 0]]) := by decide +kernel

/-- Stage 2 is ordered when stage 1 is done. -/
theorem test_stage_done_orders_next :
    leaves .stageDone (withField (fieldFrame 21 kindWashReport [2, 0, 9, 1]) (withWash (washLane .running (some 9) (some 1)) start))
      (fun t => ((tget t.yard.washLanes 1).map (·.stageIndex), t.out.fieldQ.map (·.frame.payload))) =
      some (some (some 2), [[1, 2, 3, 0, 40]]) := by decide +kernel

/-- DUTY_CALL of its own vehicle: duty 1 is CALLED from lane 1 and the board shows it. -/
theorem test_duty_call :
    leaves .dutyCall (withCommand kindDutyCall [0, 1, 0, 7] start)
      (fun t => ((dutyOf t.yard 1).map (·.state), (vehOf t.yard 7).map (·.state), t.yard.callList.map (·.fleet),
        t.out.fieldQ.map (·.frame.payload))) =
      some (some .called, some .called, [7], [[1, 0, 1, 0, 7, 2, 0xBC, 1, 1]]) := by decide +kernel

/-- The minute at which a duty falls due evaluates it: duty 1 is called 10 minutes before its departure. -/
theorem test_due_minute_calls :
    leaves .yardSecondAdvance { start with site.clock.second := 41399, site.clock.processed := some 689 }
      (fun t => (t.site.clock.second, t.site.clock.processed, (dutyOf t.yard 1).map (·.state))) =
      some (41400, some 690, some .called) := by decide +kernel

/-- One forwarding entry is loaded and the cursor advances. -/
theorem test_table_data :
    leaves .tableData { withCommand kindTableData [6, 1, 2] start with site.cursors := [(6, 31)] }
      (fun t => (t.site.forwarding, t.site.cursors, t.out.officeQ.map (·.frame.payload))) =
      some ([(31, .absorb)], [(6, 32)], [[0x81, 0, 1, 0, 32]]) := by decide +kernel

/-- A read of a class entry at the end of the table: fewer entries than asked for. -/
theorem test_table_read_at_end : replied .tableRead (withCommand kindTableRead [2, 0, 8, 1] start) = some [0x82, 0, 0] := by
  decide +kernel

/-- COMMIT reserves its slot and keeps the image; COMMIT_COMPLETE answers it. -/
theorem test_commit_then_complete :
    (after .commit (withCommand kindCommit [] start)).bind (fun t => leaves .commitComplete t
      (fun u => (t.out.reserved, t.site.store.isSome, u.site.store.map (·.classes.length), u.out.officeQ.map (·.frame.payload)))) =
      some (1, false, some 1, [[0x83, 0]]) := by decide +kernel

/-- A tick of the empty queue. -/
theorem test_tick : (match step start with
    | .next t => (t.site.now, t.site.clock.phase)
    | .fault _ => (0, 0)
    | .refused _ => (0, 0)) = (1000001, 1) := by decide +kernel

/-- A debounced AB takes the tracker from F1 to F2. -/
theorem test_debounce_expiry :
    leaves (.debounceExpiry 1) { start with
        site.mouths := [(1, { resetMouth (loopEntry 0) with
          accepted := .a, tracker := .f1, candidate := some (.ab, 0) })] }
      (fun t => t.site.mouths.map fun p => (p.2.accepted, p.2.tracker)) = some [(.ab, .f2)] := by decide +kernel

/-! ## States that meet the premises of the statements -/

theorem commandHead (kind : Byte) (p : List Byte) (s : State) (hd : ownAddress s.site = 250)
    (hs : 0 < officeFree s.out) : CommandHead (withCommand kind p s) (command kind p) [] kind p :=
  ⟨rfl, hd.symm, rfl, rfl, hs⟩

theorem islandHead (code : Nat) (p : List Byte) (i : Island) (hl : p.length = 4) (hc : code < 256) :
    IslandHead (withField (fieldFrame 11 kindIslandReport (byte code :: p)) (withIsland i start))
      (fieldFrame 11 kindIslandReport (byte code :: p)) [] (station 11 (.island 1)) 1 code i :=
  ⟨rfl, rfl, rfl, rfl, rfl, rfl, by simp [fieldFrame, hl],
    by simp [u8, fieldFrame, byte, BitVec.toNat_ofNat]; omega⟩

theorem washHead (code : Nat) (p : List Byte) (l : WashLane) (hl : p.length = 3) (hc : code < 256) :
    WashHead (withField (fieldFrame 21 kindWashReport (byte code :: p)) (withWash l start))
      (fieldFrame 21 kindWashReport (byte code :: p)) [] (station 21 (.wash 1)) 1 code l :=
  ⟨rfl, rfl, rfl, rfl, rfl, rfl, by simp [fieldFrame, hl],
    by simp [u8, fieldFrame, byte, BitVec.toNat_ofNat]; omega⟩

theorem free_start : 0 < officeFree start.out := by decide

theorem test_witness_EmptyQueueTicks :
    start.pending = [] ∧ ({ start with site.clock.phase := 98 } : State).site.clock.phase + 1 < 100 ∧
    ({ start with site.clock.phase := 99 } : State).site.clock.phase = 99 := by decide

theorem linkOk_start : LinkOk start :=
  ⟨by decide, by decide,
    { fieldQ := by decide, held := .inl rfl, slots := by decide, reserved := rfl, batch := by decide, run := by decide
      notices := by decide, distinct := List.Pairwise.nil, counts := (fun _ h => nomatch h)
      images := by decide }⟩

theorem tablesOk_start : TablesOk start :=
  ⟨⟨by decide, by decide, by decide, by decide, by decide, by decide, by decide, by decide, by decide, by decide⟩,
    by decide, by decide, (fun _ h => nomatch h), fun _ h => nomatch h⟩

theorem yardOk_start : YardOk start.yard :=
  ⟨by intro p h; simp [start, yard] at h; subst h; unfold laneOk; decide, by decide, by decide, by decide, by decide, rfl⟩

theorem test_witness_StepKeepsLinkBounds : LinkOk start ∧ ∃ t, step start = .next t := ⟨linkOk_start, _, rfl⟩

theorem test_witness_StepKeepsYardBounds : TablesOk start ∧ YardOk start.yard ∧ ∃ t, step start = .next t :=
  ⟨tablesOk_start, yardOk_start, _, rfl⟩

theorem test_witness_StepKeepsTableOrder : TablesOk start ∧ ∃ t, step start = .next t := ⟨tablesOk_start, _, rfl⟩

theorem test_witness_OtherCommandsKeepTables :
    TablesOk start ∧ (∀ r1 r0, Instr.census ≠ .powerOnReset r1 r0) ∧ Instr.census ≠ .tableData ∧
    Instr.census ≠ .vehicleSetOutOfService ∧ Instr.census ≠ .vehicleSetClearOutOfService ∧
    ∃ t, exec .census (withCommand kindCensus [1, 2] (withLane (lane .closed [] []) start)) = .next t :=
  ⟨tablesOk_start, (fun _ _ h => nomatch h), by decide, by decide, by decide, _, rfl⟩

theorem test_witness_PowerOnReset :
    start.site.store = none ∧
    ({ start with site.store := some (imageOf start.desk) } : State).site.store = some (imageOf start.desk) := ⟨rfl, rfl⟩

/-- A port in a state of its assembly, with n frames waiting. -/
def assembling (p : Port) (a : Assembly) (n : Nat) : State :=
  { start with rx := setPort p { assembly := a, ingress := List.replicate n (command 0 []) } start.rx }

theorem portOf_assembling (p : Port) (a : Assembly) (n : Nat) : portOf (assembling p a n).rx p =
    { assembly := a, ingress := List.replicate n (command 0 []) } := by cases p <;> rfl

theorem test_witness_RxByteAssembles :
    (∀ p a, (portOf (assembling p a 0).rx p).assembly = a) ∧ (0xA4 : Byte) ≠ 0xA5 ∧ [(1 : Byte), 2].length < 3 ∧
    56 < (57 : Byte).toNat ∧ (56 : Byte).toNat ≤ 56 ∧ 1 ≤ (1 : Byte).toNat ∧ (0 : Byte).toNat = 0 ∧
    (let h : Header := { dest := 1, src := 2, kind := 3, length := 2 }
     ([] : List Byte).length + 1 < h.length.toNat ∧ [(9 : Byte)].length + 1 = h.length.toNat) ∧
    Assembly.header [] ≠ .hunt :=
  ⟨fun p a => by rw [portOf_assembling], by decide⟩

theorem test_witness_RxLastByte :
    let h : Header := { dest := 250, src := 240, kind := 0x8C, length := 1 }
    (∀ p high n, (portOf (assembling p (.check h [8] (some high)) n).rx p).assembly = .check h [8] (some high) ∧
      (portOf (assembling p (.check h [8] (some high)) n).rx p).ingress.length = n) ∧
    (∃ high b, crcBytes (crcOf ([h.dest, h.src, h.kind, h.length] ++ [8])) = [high, b]) ∧
    crcBytes (crcOf ([h.dest, h.src, h.kind, h.length] ++ [8])) ≠ [0, 0] ∧ 7 < 8 ∧ 8 ≤ 8 :=
  ⟨fun p high n => by simp [portOf_assembling], ⟨_, _, rfl⟩, by decide +kernel, by decide, by decide⟩

theorem test_witness_WireRoundTrip (p : Port) :
    (command 0x86 (List.replicate 56 0)).payload.length ≤ 56 ∧ (portOf (assembling p .hunt 7).rx p).assembly = .hunt ∧
    (portOf (assembling p .hunt 7).rx p).ingress.length < 8 := by
  simp [portOf_assembling, command]

def waiting_ (n : Nat) (held : List Held) : State :=
  { start with out.fieldQ := List.replicate n { frame := command 0 [], own := true }, out.held := held }

theorem test_witness_FieldEgressSend :
    (∃ i q, (waiting_ 1 []).out.fieldQ = i :: q ∧ (waiting_ 1 []).out.held = []) ∧
    (∃ i q h rest, (waiting_ 16 [{ block := .departure, frame := command 0 [], image := none }]).out.fieldQ = i :: q ∧
      (waiting_ 16 [{ block := .departure, frame := command 0 [], image := none }]).out.held = h :: rest ∧
      q.length < 16) :=
  ⟨⟨_, _, rfl, rfl⟩, ⟨_, _, _, _, rfl, rfl, by decide⟩⟩

def office (run : Nat) (l : List OfficeClass) : State :=
  { start with out.officeQ := l.map (fun c => { cls := c, frame := command 0 [] }), out.runCount := run }

/-- One queue for each of the arbiter's four rules. -/
theorem test_witness_OfficeArbiter :
    ∀ e ∈ [(4, [OfficeClass.forwarded, .reply], OfficeClass.forwarded), (4, [.batch, .reply], .reply),
        (3, [.forwarded, .batch, .reply], .reply), (0, [.forwarded, .batch], .batch), (0, [.forwarded], .forwarded)],
      ∃ before after : List OfficeItem,
        (office e.1 e.2.1).out.officeQ = before ++ { cls := e.2.2, frame := command 0 [] } :: after ∧
        (∀ i ∈ before, i.cls ≠ e.2.2) ∧
        (if (office e.1 e.2.1).out.runCount = 4 ∧ ∃ i ∈ (office e.1 e.2.1).out.officeQ, i.cls = .forwarded then
           e.2.2 = OfficeClass.forwarded
         else if ∃ i ∈ (office e.1 e.2.1).out.officeQ, i.cls = .reply then e.2.2 = .reply
         else if ∃ i ∈ (office e.1 e.2.1).out.officeQ, i.cls = .batch then e.2.2 = .batch
         else e.2.2 = .forwarded) := by
  let w (c : OfficeClass) : OfficeItem := { cls := c, frame := command 0 [] }
  intro e he
  simp only [List.mem_cons, List.not_mem_nil, or_false] at he
  rcases he with rfl | rfl | rfl | rfl | rfl
  · exact ⟨[], [w .reply], rfl, by decide, by decide⟩
  · exact ⟨[w .batch], [], rfl, by decide, by decide⟩
  · exact ⟨[w .forwarded, w .batch], [], rfl, by decide, by decide⟩
  · exact ⟨[w .forwarded], [], rfl, by decide, by decide⟩
  · exact ⟨[], [], rfl, by decide, by decide⟩

/-- n queued notices of different duties. -/
def noticed (n : Nat) : State :=
  { start with
    out.notices := (List.range n).map fun d =>
      { kind := .dutyLate, fleet := none, place := none, duty := some d, second := 0, count := 1, joined := 0 } }

theorem test_witness_NoticeQueue :
    (∃ m after, (noticed 32).out.notices = [] ++ m :: after ∧ m.kind = .dutyLate ∧ m.fleet = none ∧ m.place = none ∧
      m.duty = some 0) ∧
    (∀ x ∈ (noticed 31).out.notices, ¬(x.kind = .dutyLate ∧ x.fleet = none ∧ x.place = none ∧ x.duty = some 32)) ∧
    (noticed 31).out.notices.length < 32 ∧ 32 ≤ (noticed 32).out.notices.length ∧
    (∀ x ∈ (noticed 32).out.notices, ¬(x.kind = .dutyLate ∧ x.fleet = none ∧ x.place = none ∧ x.duty = some 32)) ∧
    (∃ n l, (noticed 32).out.notices = n :: l ∧ n.joined + setting (noticed 32).site 22 * 100 ≤ (noticed 32).site.now) ∧
    0 < officeFree (noticed 32).out ∧ ∀ i ∈ (noticed 32).out.officeQ, i.cls ≠ .batch :=
  ⟨⟨_, _, rfl, rfl, rfl, rfl, rfl⟩, by decide, by decide, by decide, by decide, ⟨_, _, rfl, by decide⟩, by decide,
    by decide⟩
/-! ### Tags, service needs, routes -/

def tagFrame (a f : Nat) : Frame := fieldFrame a kindTagRead [byte (f / 256), byte f, 50]

/-- Reader 2 read vehicle 8 one tick within the repeat window, and reader 3 exactly its length ago. -/
def tagged (f : Frame) : State :=
  withField f { start with
    site.tagMemory := [(2, { fleet := 8, at_ := 997001 }), (3, { fleet := 8, at_ := 997000 })] }

theorem test_witness_TagRead :
    (TagHead (tagged (tagFrame 1 10)) (tagFrame 1 10) [] (station 1 .gateIn) ∧
      TagHead (tagged (tagFrame 2 8)) (tagFrame 2 8) [] (station 2 .gateOut) ∧
      TagHead (tagged (tagFrame 3 8)) (tagFrame 3 8) [] (station 3 .yard)) ∧
    u16 (tagFrame 2 8).payload 0 = 8 ∧ 1000000 < 997001 + setting site 11 * 100 ∧
    ¬1000000 < 997000 + setting site 11 * 100 ∧ vehOf yard 11 = none ∧ (vehOf yard 10).isSome = true ∧
    (vehOf yard 8).map (·.state) = some .parked ∧
    (vehOf (updVeh 8 (fun v => { v with state := .unlocated }) yard) 8).map (·.state) = some .unlocated :=
  ⟨⟨⟨rfl, rfl, rfl, rfl, rfl⟩, ⟨rfl, rfl, rfl, rfl, rfl⟩, ⟨rfl, rfl, rfl, rfl, rfl⟩⟩, by decide⟩

theorem test_witness_NeedForService :
    (bus 7 .parked).entry.outOfService = false ∧
    ({ bus 7 .parked with entry.outOfService := true } : Vehicle).entry.outOfService = true ∧
    (classOf { site with classes := [(0, { busClass with washInterval := 0 })] } (bus 7 .parked)).washInterval = 0 ∧
    ({ bus 7 .parked with daysSinceWash := 255 } : Vehicle).daysSinceWash = 255 ∧
    (classOf { site with classes := [(0, { busClass with washInterval := 7 })] } (bus 7 .parked)).washInterval ≤ 7 := by
  decide

/-- Vehicle 7 alone on the roster, with the duty 1 in a state. -/
def lone (v : Vehicle) (st : DutyState) : Yard :=
  { yard with roster := [(0, { v with duty := some 1 })], bankA := [(0, duty 1 700 st (some 7))] }

/-- The service queue is full. -/
def fullQueues (y : Yard) : Yard := { y with fuelQ := List.range 16, washQ := List.range 16 }

theorem test_witness_RouteDecision :
    let low : Vehicle := { bus 7 .unlocated with level := some 119, duty := some 1 }
    let dirty : Vehicle := { bus 7 .unlocated with daysSinceWash := 3, duty := some 1 }
    let fit : Vehicle := { bus 7 .unlocated with duty := some 1 }
    let d (v : Vehicle) (st : DutyState) : Option Duty := v.duty.bind (dutyOf (lone v st))
    (vehOf (lone low .opened) 7 = some low ∧ vehOf (lone dirty .opened) 7 = some dirty ∧
      vehOf (lone fit .held) 7 = some fit ∧ low.entry.outOfService = false) ∧
    (d fit .held).map (·.state) = some .held ∧ ready fit (duty 1 700 .held (some 7)) = true ∧
    (d fit .opened).map (·.state) = some .opened ∧
    (needsFuel site low (d low .opened) = true ∧ low.fuelDone = false ∧ low.fuelSkipped = false) ∧
    fuelJoinable (lone low .opened) 7 = true ∧ fuelJoinable (fullQueues (lone low .opened)) 7 = false ∧
    (needsWash site dirty (d dirty .opened) = true ∧ dirty.washDone = false ∧ dirty.washIncomplete = false ∧
      needsFuel site dirty (d dirty .opened) = false) ∧
    washJoinable (lone dirty .opened) 7 = true ∧ washJoinable (fullQueues (lone dirty .opened)) 7 = false ∧
    needsFuel site fit (d fit .opened) = false ∧ needsWash site fit (d fit .opened) = false := by
  decide +kernel

/-! ### Placement -/

/-- Lane 1 empty, and vehicle 9 paired with duty 2. -/
def emptyLane : Yard :=
  { yard with
    lanes := [(1, lane .opened [] [])]
    roster := [(2, { bus 9 .apron with duty := some 2 })] }

/-- Lane 1 holds the spare 8, and 9 departs before it. -/
def blockedLane (apron : Nat) : Yard :=
  { emptyLane with lanes := [(1, lane .opened [item (some 8)] [])], apron := List.range apron }

theorem test_witness_LaneChoice :
    tableWf emptyLane.lanes ∧ chooseLane site emptyLane { bus 9 .apron with duty := some 2 } false = some 1 ∧
    chooseLane site (blockedLane 0) { bus 9 .apron with duty := some 2 } false = none ∧
    chooseLane site (blockedLane 0) { bus 9 .apron with duty := some 2 } true = some 1 := by decide +kernel

/-- A site whose placement settings stand at their greatest values, and one at the default room weight. -/
def greatest : Site := { Site.reset with settings := [(2, 4095), (3, 255), (4, 255)] }

theorem test_witness_Score :
    setting greatest 2 ≤ 4095 ∧ setting greatest 3 ≤ 255 ∧ setting greatest 4 ≤ 255 ∧ setting Site.reset 4 = 8 ∧
    (1440 : Nat) ≤ 1440 ∧ (0 : Nat) < 1440 ∧ 1440 - 1185 ≤ 255 ∧ 2420 ≤ 2420 ∧
    eligible site emptyLane { bus 9 .apron with duty := some 2 } (lane .opened [] []) = true ∧
    score greatest 1440 (some 0) 2420 = 32592 ∧ score greatest 0 (some 1440) 2420 = 65535 ∧
    score greatest 0 none 2420 = 13737 ∧ timeTerm greatest 1185 (some 1440) = 45040 := by decide +kernel

theorem test_witness_DeparturesAndTails :
    (vehOf yard 7).map (·.duty) = some (some 1) ∧ (vehOf yard 8).map (·.duty) = some none ∧
    (vehOf yard 7).map (·.entry.outOfService) = some false ∧ (dutyOf yard 1).map (·.state) = some .opened ∧
    (dutyOf (lone (bus 7 .parked) .departed) 1).map (·.state) = some .departed ∧
    (vehOf (lone { bus 7 .parked with entry.outOfService := true } .opened) 7).map (·.entry.outOfService) = some true ∧
    (lane .opened [] []).items = [] ∧
    (lane .opened [] [{ fleet := 9, joined := 0 }]).pendings = [] ++ [{ fleet := 9, joined := 0 }] ∧
    (lane .opened [item (some 7), item none] []).items = [item (some 7)] ++ [item none] ∧
    (lane .opened [item none, item (some 7)] []).items = [item none] ++ [item (some 7)] ∧
    (item none).vehicle = none := by decide +kernel

theorem test_witness_PlacementStages :
    (toLane site 9 false emptyLane).isSome = true ∧
    (toLane site 9 false (blockedLane 15) = none ∧ (blockedLane 15).apron.length < 16) ∧
    (toLane site 9 false (blockedLane 16) = none ∧ 16 ≤ (blockedLane 16).apron.length ∧
      (toLane site 9 true (blockedLane 16)).isSome = true) ∧
    (let y : Yard := { blockedLane 16 with lanes := [] }
     toLane site 9 false y = none ∧ 16 ≤ y.apron.length ∧ toLane site 9 true y = none) := by decide +kernel

/-! ### Loops, lanes, departing list -/

theorem test_witness_LoopStateStored :
    LoopHead (withField (fieldFrame 4 kindLoopState [0, 1]) start) (fieldFrame 4 kindLoopState [0, 1]) []
      (station 4 .loops) := ⟨rfl, rfl, rfl, rfl, rfl⟩

/-- A mouth with its tracker in a state and a candidate. -/
def mouth (t : Tracker) (c : Option PairState) : Mouth :=
  { resetMouth (loopEntry 0) with tracker := t, candidate := c.map fun p => (p, 999980), stuck := some 0 }

theorem test_witness_LoopTimers :
    (tget site.mouths 1 = some (resetMouth (loopEntry 0)) ∧
      (mouth .f2 (some .clear)).candidate = some (.clear, 999980) ∧
      999980 + debounceTicks (mouth .f2 (some .clear)).entry.debounce ≤ site.now) ∧
    (track .f1 .ab).2 = .nothing ∧ (track .f2 .clear).2 = .fault ∧ (track .f3 .clear).2 = .passed .forward ∧
    ((mouth .idle none).stuck = some 0 ∧ 0 + setting site 7 * 100 ≤ site.now) ∧
    (tget site.concentrators 4 = some { loops := 0, timer := some 0, silent := false } ∧ 0 ≤ site.now) := by decide

theorem test_witness_EntryPush :
    tget { yard with lanes := [(1, lane .opened [] [{ fleet := 9, joined := 0 }])] }.lanes 1 =
      some (lane .opened [] [{ fleet := 9, joined := 0 }]) ∧
    (lane .opened (List.replicate 15 (item none)) []).items.length < 16 ∧
    16 ≤ (lane .opened (List.replicate 16 (item none)) []).items.length ∧
    (lane .opened (List.replicate 16 (item none)) []).pendings = [] := by decide

theorem test_witness_CustodyTimeouts :
    (tget (withLane (lane .opened [] [{ fleet := 9, joined := 940000 }]) start).yard.lanes 1 =
        some (lane .opened [] [{ fleet := 9, joined := 940000 }]) ∧
      940000 + setting site 9 * 6000 ≤ site.now) ∧
    (940000 + setting site 10 * 6000 ≤ site.now) ∧
    (let e (v : Option Nat) : DepartingItem := { vehicle := v, lane := some 1, popTime := presentTime site, started := 940000 }
     let y (v : Option Nat) (st : DutyState) : Yard :=
       { lone (bus 7 .departing) st with departing := [e v] }
     (y none .called).departing = [e none] ∧ (y (some 7) .called).departing = [e (some 7)] ∧
     (pairedDuty (setState site 7 .unlocated (y (some 7) .called)) 7).map (·.state) = some .called ∧
     (pairedDuty (setState site 7 .unlocated (y (some 7) .departed)) 7).map (·.state) = some .departed) := by decide +kernel
/-! ### Census and lane orders -/

theorem test_witness_Census :
    (∀ p l, CommandHead (withCommand kindCensus p (withLane l start)) (command kindCensus p) [] kindCensus p) ∧
    (u8 [0, 1] 0 < 1 ∧ 24 < u8 [25, 1] 0 ∧ (1 ≤ u8 [24, 1] 0 ∧ u8 [24, 1] 0 ≤ 24 ∧ tget yard.lanes 24 = none)) ∧
    ((u8 [1, 0] 1 ≠ 1 ∧ u8 [1, 0] 1 ≠ 2) ∧ (u8 [1, 3] 1 ≠ 1 ∧ u8 [1, 3] 1 ≠ 2) ∧
      ¬((censusEntries [0, 7, 120, 0, 7, 120]).filterMap (·.1)).Nodup) ∧
    ((censusEntries [0, 99, 120]).filterMap (·.1) = [99] ∧ [99].Nodup ∧ vehOf yard 99 = none) ∧
    ((censusEntries [0, 7, 80, 0, 0, 200]).filterMap (·.1) = [7] ∧ (∀ g ∈ [7], vehOf yard g ≠ none) ∧
      (lane .opened [] []).status = .opened ∧ (lane .closed [] [{ fleet := 9, joined := 0 }]).pendings ≠ [] ∧
      (lane .unverified [] []).status ≠ .opened ∧ (lane .unverified [] []).pendings = [] ∧
      (∀ e ∈ censusEntries [0, 7, 80, 0, 0, 200], 80 ≤ e.2 ∧ e.2 ≤ 200) ∧
      ¬∀ e ∈ censusEntries [0, 7, 79], 80 ≤ e.2 ∧ e.2 ≤ 200) ∧
    ([1, 1] : List Byte).length = 2 ∧ (50 - 2) % 3 = 0 :=
  ⟨fun p l => commandHead _ p _ rfl free_start, by decide, by decide, by decide, by decide, by decide⟩

theorem test_witness_LaneSet :
    (∀ p l, CommandHead (withCommand kindLaneSet p (withLane l start)) (command kindLaneSet p) [] kindLaneSet p) ∧
    (∀ l, tget (withLane l start).yard.lanes 1 = some l) ∧ tget yard.lanes 24 = none ∧
    (∀ order ∈ [1, 2, 3], u8 [0, byte order] 1 = order ∧ u8 [0, 1] 0 < 1 ∧ 24 < u8 [25, 1] 0 ∧ u8 [1, byte order] 0 = 1) ∧
    u8 [1, 0] 1 < 1 ∧ 3 < u8 [1, 4] 1 ∧
    [LaneStatus.opened, .closed, .unverified].map (fun st => (lane st [] []).status) = [.opened, .closed, .unverified] :=
  ⟨fun p l => commandHead _ p _ rfl free_start, fun _ => rfl, by decide, by decide, by decide, by decide, by decide⟩

/-! ### Islands -/

/-- Vehicle 9 waits in the fuel queue, and vehicle 7 is at island 1. -/
def queued : Yard :=
  { (withIsland (island .called (some 7)) start).yard with
    roster := [(0, { bus 7 .fuelling with duty := some 1 }), (2, bus 9 .fuelWait)], apron := [], fuelQ := [9] }

/-- Island 1, with vehicle 7, takes class 1 alone. -/
def onlyClass1 (st : IslandState) : Island := { island st (some 7) with entry.mask := 0x02 }

/-- As `queued`, with 9 of class 1 and an island that takes class 1 alone. -/
def passedOver : Yard :=
  { queued with
    islands := [(1, onlyClass1 .called)]
    roster := [(0, bus 7 .fuelling), (2, { bus 9 .fuelWait with entry.cls := 1 })]
    lanes := [(1, lane .opened [] [])] }

theorem test_witness_VehiclePresent :
    (∀ st v g (hi lo : Byte), IslandHead
      (withField (fieldFrame 11 kindIslandReport [1, 0, g, hi, lo]) (withIsland (island st v) start))
      (fieldFrame 11 kindIslandReport [1, 0, g, hi, lo]) [] (station 11 (.island 1)) 1 1 (island st v)) ∧
    (∀ st v, (island st v).state = st ∧ (island st v).vehicle = v) ∧
    (u16 [1, 0, 9, 0, 50] 1 = 9 ∧ percentOf (u16 [1, 0, 9, 0, 255] 3) = 255) ∧
    (9 ∈ queued.fuelQ ∧ islandAccepts queued (island .called (some 7)) 9 = true ∧ ¬8 ∈ queued.fuelQ) ∧
    fuelJoinable { queued with fuelQ := without queued.fuelQ 9 } 7 = true ∧
    (9 ∈ passedOver.fuelQ ∧ islandAccepts passedOver (onlyClass1 .called) 9 = true ∧
      (vehOf passedOver 7).map (·.entry.cls) = some 0 ∧ passedOver.islands.map (fun p => inMask p.2.entry.mask 0) = [false]) ∧
    (let y (percent : Nat) : Yard := readPercent site 7 percent (updIsland 1 (fun i => { i with timer := none }) queued)
     let litres (percent : Nat) : Option Nat := (vehOf (y percent) 7).map fun v =>
       min ((classOf site v).tank - v.level.getD 0) (65535 / (island .called (some 7)).entry.meter)
     litres 100 = some 0 ∧ litres 99 = some 3) :=
  ⟨fun _ _ g hi lo => islandHead 1 [0, g, hi, lo] _ rfl (by decide), fun _ _ => ⟨rfl, rfl⟩, by decide, by decide,
    by decide, by decide, by decide +kernel⟩

theorem test_witness_NozzleAndMeter :
    (∀ st v, IslandHead (withField (fieldFrame 11 kindIslandReport [2, 0, 9, 0, 0]) (withIsland (island st v) start))
      (fieldFrame 11 kindIslandReport [2, 0, 9, 0, 0]) [] (station 11 (.island 1)) 1 2 (island st v)) ∧
    (∀ st v (hi lo : Byte), IslandHead
      (withField (fieldFrame 11 kindIslandReport [3, 0, 9, hi, lo]) (withIsland (island st v) start))
      (fieldFrame 11 kindIslandReport [3, 0, 9, hi, lo]) [] (station 11 (.island 1)) 1 3 (island st v)) ∧
    (let i := island .dispensing (some 9)
     u16 [3, 0, 9, 0, 100] 3 ≤ i.lastCount ∧ i.lastCount < u16 [3, 0, 9, 0, 101] 3 ∧ u16 [3, 0, 9, 1, 0xF3] 3 < i.limit ∧
     i.limit ≤ u16 [3, 0, 9, 1, 0xF4] 3 ∧ i.stopSent = false ∧ ({ i with stopSent := true } : Island).stopSent = true) ∧
    (island .authorized none).state = .authorized ∧ u16 [3, 0, 9, 0, 0] 3 = 0 ∧ 0 < u16 [3, 0, 9, 0, 1] 3 ∧
    (island .ending none).state ≠ .authorized ∧ (island .ending none).state ≠ .dispensing :=
  ⟨fun _ _ => islandHead 2 [0, 9, 0, 0] _ rfl (by decide), fun _ _ hi lo => islandHead 3 [0, 9, hi, lo] _ rfl (by decide),
    by decide, by decide, by decide, by decide, by decide, by decide⟩

theorem test_witness_NozzleHung :
    (∀ st v (hi lo : Byte), IslandHead
      (withField (fieldFrame 11 kindIslandReport [4, 0, 9, hi, lo]) (withIsland (island st v) start))
      (fieldFrame 11 kindIslandReport [4, 0, 9, hi, lo]) [] (station 11 (.island 1)) 1 4 (island st v)) ∧
    (∀ st, (island st (some 9)).vehicle = some 9 ∧ (island st (some 9)).state = st ∧
      (island st (some 9)).lastCount = 100) ∧
    u16 [4, 0, 9, 0, 100] 3 ≤ 100 ∧ 100 < u16 [4, 0, 9, 0, 101] 3 ∧
    ¬((island .called none).state = .authorized ∨ (island .called none).state = .dispensing) :=
  ⟨fun _ _ hi lo => islandHead 4 [0, 9, hi, lo] _ rfl (by decide), fun _ => ⟨rfl, rfl, rfl⟩, by decide, by decide,
    by decide⟩

theorem test_witness_IslandClear :
    (∀ st v, IslandHead (withField (fieldFrame 11 kindIslandReport [5, 0, 9, 0, 0]) (withIsland (island st v) start))
      (fieldFrame 11 kindIslandReport [5, 0, 9, 0, 0]) [] (station 11 (.island 1)) 1 5 (island st v)) ∧
    (∀ st v, (island st v).vehicle = v ∧ (island st v).state = st) ∧
    (island .idle none).state ≠ .ending ∧ (island .idle none).state ≠ .authorized ∧
    (island .idle none).state ≠ .dispensing :=
  ⟨fun _ _ => islandHead 5 [0, 9, 0, 0] _ rfl (by decide), fun _ _ => ⟨rfl, rfl⟩, by decide, by decide, by decide⟩

theorem test_witness_IslandReportFault :
    (∀ st v, IslandHead (withField (fieldFrame 11 kindIslandReport [6, 0, 9, 0, 0]) (withIsland (island st v) start))
      (fieldFrame 11 kindIslandReport [6, 0, 9, 0, 0]) [] (station 11 (.island 1)) 1 6 (island st v)) ∧
    ∀ st v, (island st v).vehicle = v ∧ (island st v).state = st :=
  ⟨fun _ _ => islandHead 6 [0, 9, 0, 0] _ rfl (by decide), fun _ _ => ⟨rfl, rfl⟩⟩

/-- Vehicle 7 called to island 1 and wash lane 1 has missed n calls, with a queue of a length. -/
def missing (n len : Nat) : State :=
  { withWash (washLane .called (some 7) none) (withIsland (island .called (some 7)) start) with
    yard.roster := [(0, { bus 7 .fuelling with missedCalls := n })], yard.fuelQ := List.range len,
    yard.washQ := List.range len }

theorem test_witness_IslandTimers :
    let missed (n len : Nat) : Yard := updIsland 1 endTurn
      (updVeh 7 (fun v => { v with missedCalls := min 2 (v.missedCalls + 1) }) (missing n len).yard)
    (∀ st, tget (withIsland (island st (some 7)) start).yard.islands 1 = some (island st (some 7)) ∧
      (island st (some 7)).timer = some 0 ∧ (island st (some 7)).state = st ∧
      (island st (some 7)).vehicle = some 7) ∧ 0 ≤ site.now ∧
    ((vehOf (missed 0 15) 7).map (·.missedCalls) = some 1 ∧ fuelJoinable (missed 0 15) 7 = true ∧
      (missed 0 15).fuelQ.length < 16) ∧
    ((vehOf (missed 0 16) 7).map (·.missedCalls) = some 1 ∧ 16 ≤ (missed 0 16).fuelQ.length) ∧
    (let y := { missed 0 15 with islands := [(1, onlyClass1 .called)] }
     ((vehOf y 7).map (·.entry.cls), y.islands.map fun p => inMask p.2.entry.mask 0) = (some 0, [false])) ∧
    (vehOf (missed 1 15) 7).map (·.missedCalls) = some 2 :=
  ⟨fun _ => ⟨rfl, rfl, rfl, rfl⟩, by decide, by decide, by decide, by decide, by decide⟩

/-- No mask holds the class of 7 any more, so its return is refused after a missed call (R85, log 60). -/
theorem test_refused_return_is_skipped :
    leaves (.arrivalTimerExpiry 1) { missing 0 0 with yard.islands := [(1, onlyClass1 .called)] }
      (fun t => (stateOf t.yard 7, (vehOf t.yard 7).map (·.fuelSkipped), t.yard.fuelQ)) =
      some (some .stowPending, some true, []) := by decide +kernel

/-- And where 9 takes its turn. -/
theorem test_passed_over_is_skipped :
    leaves .vehiclePresent
      (withField (fieldFrame 11 kindIslandReport [1, 0, 9, 0, 50])
        { start with yard := passedOver, site.classes := [(0, busClass), (1, busClass)] })
      (fun t => (stateOf t.yard 7, t.yard.fuelQ, (tget t.yard.islands 1).map fun i => (i.state, i.vehicle))) =
      some (some .stowPending, [], some (.authorized, some 9)) := by decide +kernel

/-! ### Wash lanes -/

theorem test_witness_StageTime :
    (80 : Nat) ≤ 80 ∧ 80 ≤ 200 ∧ (200 : Nat) ≤ 200 ∧ (60 : Nat) ≤ 60 ∧ lengthFactor 80 200 = 409 ∧
    lengthFactor 200 60 = 3413 ∧ lengthFactor 120 120 = 1024 := by decide

/-- Vehicle 9 waits in the wash queue, and vehicle 7 is at wash lane 1. -/
def washQueued : Yard :=
  { (withWash (washLane .called (some 7) none) start).yard with
    roster := [(0, { bus 7 .washing with duty := some 1 }), (2, bus 9 .washWait)], apron := [], washQ := [9] }

theorem test_witness_VehicleInPosition :
    (∀ st v i g, WashHead (withField (fieldFrame 21 kindWashReport [1, 0, g, 0]) (withWash (washLane st v i) start))
      (fieldFrame 21 kindWashReport [1, 0, g, 0]) [] (station 21 (.wash 1)) 1 1 (washLane st v i)) ∧
    (∀ st v i, (washLane st v i).state = st ∧ (washLane st v i).vehicle = v) ∧ u16 [1, 0, 9, 0] 1 = 9 ∧
    (9 ∈ washQueued.washQ ∧ washAccepts washQueued (washLane .called (some 7) none) 9 = true ∧ ¬8 ∈ washQueued.washQ) ∧
    ((vehOf washQueued 7).map fun v => tget site.programs (classOf site v).washProgram) =
      some (some [{ kind := .brush, base := 40, scales := true }]) ∧
    ((vehOf washQueued 7).map fun v => tget Site.reset.programs (classOf site v).washProgram) = some none :=
  ⟨fun _ _ _ g => washHead 1 [0, g, 0] _ rfl (by decide), fun _ _ _ => ⟨rfl, rfl⟩, by decide, by decide, by decide,
    by decide⟩

theorem test_witness_StageDone :
    (∀ st i j, WashHead (withField (fieldFrame 21 kindWashReport [2, 0, 9, j]) (withWash (washLane st (some 9) i) start))
      (fieldFrame 21 kindWashReport [2, 0, 9, j]) [] (station 21 (.wash 1)) 1 2 (washLane st (some 9) i)) ∧
    (let l (i : Nat) : WashLane := washLane .running (some 9) (some i)
     (l 1).stageIndex = some (u8 [2, 0, 9, 1] 3) ∧ (l 1).plan[1]? = some { kind := .brush, time := 40 } ∧
     (l 2).stageIndex = some (u8 [2, 0, 9, 2] 3) ∧ (l 2).plan[2]? = none ∧ (l 2).stageIndex ≠ some (u8 [2, 0, 9, 1] 3)) ∧
    (washLane .draining (some 9) none).state ≠ .running :=
  ⟨fun _ _ j => washHead 2 [0, 9, j] _ rfl (by decide), by decide, by decide⟩

theorem test_witness_LaneClear :
    (∀ st v i, WashHead (withField (fieldFrame 21 kindWashReport [3, 0, 9, 0]) (withWash (washLane st v i) start))
      (fieldFrame 21 kindWashReport [3, 0, 9, 0]) [] (station 21 (.wash 1)) 1 3 (washLane st v i)) ∧
    (∀ st v i, (washLane st v i).state = st ∧ (washLane st v i).vehicle = v) ∧
    (washLane .idle none none).state ≠ .draining ∧ (washLane .idle none none).state ≠ .running :=
  ⟨fun _ _ _ => washHead 3 [0, 9, 0] _ rfl (by decide), fun _ _ _ => ⟨rfl, rfl⟩, by decide, by decide⟩

theorem test_witness_WashStops :
    let missed (n len : Nat) : Yard := updWash 1 endWash
      (updVeh 7 (fun v => { v with missedCalls := min 2 (v.missedCalls + 1) }) (missing n len).yard)
    (∀ st v i, WashHead (withField (fieldFrame 21 kindWashReport [4, 0, 9, 0]) (withWash (washLane st v i) start))
      (fieldFrame 21 kindWashReport [4, 0, 9, 0]) [] (station 21 (.wash 1)) 1 4 (washLane st v i)) ∧
    (∀ st v i, tget (withWash (washLane st v i) start).yard.washLanes 1 = some (washLane st v i) ∧
      (washLane st v i).state = st ∧ (washLane st v i).vehicle = v ∧ (washLane st v i).timer = some 0) ∧ 0 ≤ site.now ∧
    ((vehOf (missed 0 15) 7).map (·.missedCalls) = some 1 ∧ (missed 0 15).washQ.length < 16) ∧
    ((vehOf (missed 0 16) 7).map (·.missedCalls) = some 1 ∧ 16 ≤ (missed 0 16).washQ.length) ∧
    (vehOf (missed 1 15) 7).map (·.missedCalls) = some 2 :=
  ⟨fun _ _ _ => washHead 4 [0, 9, 0] _ rfl (by decide), fun _ _ _ => ⟨rfl, rfl, rfl, rfl⟩, by decide, by decide,
    by decide, by decide⟩
/-! ### Forwarding, office frames -/

/-- ANNOTATE for tag reads, ABSORB for loop reports. -/
def forwarding : State := { start with site.forwarding := [(1, .annotate), (2, .absorb)] }

theorem test_witness_UnprocessedFieldFrame :
    ([fieldFrame 200 1 [], fieldFrame 1 32 [], fieldFrame 1 31 [], fieldFrame 1 2 [], fieldFrame 1 1 (List.replicate 48 0),
        fieldFrame 1 1 (List.replicate 49 0)].map fun f =>
      (classify forwarding.site forwarding.yard f, (stationAt forwarding.site f.src.toNat).isSome,
        decide (f.kind.toNat < 32), actionFor forwarding.site f.kind.toNat, decide (f.payload.length ≤ 48))) =
      [(.other, false, true, .annotate, true), (.other, true, false, .pass, true), (.other, true, true, .pass, true),
       (.other, true, true, .absorb, true), (.other, true, true, .annotate, true),
       (.other, true, true, .annotate, false)] := by decide +kernel

/-- Station 11 guards, station 5 is in MANUAL. -/
def guarding : State :=
  { start with
    site.stations := [(0, { station 11 (.island 1) with entry.policy := .guards }), (1, station 21 (.wash 1)),
      (2, { station 5 .sign with manual := true }), (3, station 1 .gateIn)] }

theorem test_witness_OfficeFrames :
    ([200, 11, 21, 5, 1].map fun a =>
      (decide (a ≠ ownAddress guarding.site),
        (stationAt guarding.site a).map fun st => (controllable st.entry.role, st.manual, st.entry.policy))) =
      [(true, none), (true, some (true, false, .guards)), (true, some (true, false, .yields)),
       (true, some (true, true, .yields)), (true, some (false, false, .yields))] ∧
    (∀ kind, CommandHead (withCommand kind [] start) (command kind []) [] kind []) ∧
    (0x7F : Byte).toNat < 0x80 ∧ 0x8D < (0x8E : Byte).toNat :=
  ⟨by decide +kernel, fun kind => commandHead kind [] _ rfl free_start, by decide, by decide⟩

/-! ### Tables -/

theorem commandHead_start (kind : Byte) (p : List Byte) : CommandHead (withCommand kind p start) (command kind p) [] kind p :=
  commandHead kind p start rfl free_start

theorem test_witness_TableOpen :
    (∀ p, CommandHead (withCommand kindTableOpen p start) (command kindTableOpen p) [] kindTableOpen p) ∧
    tableOf (u8 [13, 0, 0] 0) = none ∧ tableOf (u8 [3, 0, 0] 0) = some .lanes ∧
    u16 [3, 0, 0] 1 < firstIndex .lanes ∧ endIndex .lanes < u16 [3, 0, 26] 1 ∧ firstIndex .lanes ≤ u16 [3, 0, 1] 1 ∧
    u16 [3, 0, 25] 1 ≤ endIndex .lanes := ⟨commandHead_start _, by decide⟩

theorem test_witness_TableData :
    (∀ p, CommandHead (withCommand kindTableData p start) (command kindTableData p) [] kindTableData p) ∧
    site.commit = none ∧
    ({ site with commit := some { started := 0, from_ := 240, own := 250, image := Tables.none } } : Site).commit ≠ none ∧
    tableOf (u8 [0] 0) = none ∧ tableOf (u8 [6] 0) = some .forwarding ∧ [(6 : Byte)].length = 1 ∧
    ([(6 : Byte), 1].length - 1) % entrySize .forwarding ≠ 0 ∧ ([(6 : Byte), 1, 2].length - 1) % entrySize .forwarding = 0 ∧
    tget site.cursors (u8 [6] 0) = none ∧ tget [(6, 32)] (u8 [6] 0) = some (endIndex .forwarding) ∧
    actionOf (2 : Byte).toNat = some .absorb ∧ tget [(6, 31)] 6 = some 31 ∧ 31 < 32 ∧ 22 < 23 ∧ 22 ≠ 6 ∧
    u8 [1, 0, 11] 0 = 1 := ⟨commandHead_start _, by decide⟩

theorem test_witness_TableRead :
    (∀ p, CommandHead (withCommand kindTableRead p start) (command kindTableRead p) [] kindTableRead p) ∧
    tableOf (u8 [13, 0, 0, 1] 0) = none ∧ tableOf (u8 [3, 0, 0, 1] 0) = some .lanes ∧
    u16 [3, 0, 0, 1] 1 < firstIndex .lanes ∧ endIndex .lanes < u16 [3, 0, 26, 1] 1 ∧ u8 [3, 0, 1, 0] 3 < 1 ∧
    53 / entrySize .lanes < u8 [3, 0, 1, 7] 3 ∧ firstIndex .lanes ≤ u16 [3, 0, 1, 6] 1 ∧
    u16 [3, 0, 25, 6] 1 ≤ endIndex .lanes ∧ 1 ≤ u8 [3, 0, 1, 1] 3 ∧ u8 [3, 0, 1, 6] 3 ≤ 53 / entrySize .lanes :=
  ⟨commandHead_start _, by decide⟩

def commitAt (t : Nat) : Machine.Commit := { started := t, from_ := 240, own := 250, image := Tables.none }

theorem test_witness_CommitCycle :
    CommandHead (withCommand kindCommit [] start) (command kindCommit []) [] kindCommit [] ∧ start.site.commit = none ∧
    (∀ t, ({ start with site.commit := some (commitAt t) } : State).site.commit = some (commitAt t)) ∧
    site.now < (commitAt 999601).started + 400 ∧ (commitAt 999600).started + 400 ≤ site.now :=
  ⟨commandHead_start _ _, rfl, fun _ => rfl, by decide, by decide⟩

/-! ### Duties -/

/-- Vehicle 7, paired with duty 1, in a state; it stands at a front when that state is one of a front. -/
def evaluated (st : VehState) (d : DutyState) (wash : Bool) : Yard :=
  { lone (bus 7 st) d with
    bankA := [(0, { duty 1 700 d (some 7) with entry.wash := wash })]
    lanes := [(1, lane .opened [item (some 7)] [])], apron := [7] }

/-- A lane's front, OPEN and CLOSED but not UNVERIFIED, the apron, and a vehicle in APRON that its list does not hold. -/
theorem test_witness_ReadyAndAtFront :
    let y (st : LaneStatus) : Yard := { yard with
      lanes := [(1, lane .opened [item (some 8)] []), (2, lane st [item (some 7)] []), (3, lane .opened [] [])] }
    ([LaneStatus.opened, .closed, .unverified].map fun st => atFront (y st) (bus 7 .parked)) =
      [some (.lane 2), some (.lane 2), none] ∧
    (∀ st, (y st).lanes = [(1, lane .opened [item (some 8)] [])] ++ (2, lane st [item (some 7)] []) ::
      [(3, lane .opened [] [])]) ∧
    (atFront yard (bus 9 .apron), atFront yard (bus 8 .apron), atFront yard (bus 7 .called)) =
      (some .apron, none, none) := ⟨by decide, fun _ => rfl, by decide⟩

theorem test_witness_Evaluation :
    (∀ st d w, (dutyOf (evaluated st d w) 1).map (fun r => (r.state, r.vehicle, r.entry.wash)) = some (d, some 7, w) ∧
      (vehOf (evaluated st d w) 7).map (·.state) = some st) ∧
    (dutyOf yard 2).map (·.vehicle) = some none ∧ Site.reset.clock.state = .free ∧ site.clock.state ≠ .free ∧
    (vehOf (evaluated .parked .opened false) 7).bind (atFront (evaluated .parked .opened false)) = some (.lane 1) ∧
    ready (bus 7 .parked) (duty 1 700 .opened (some 7)) = true ∧
    ready { bus 7 .parked with level := some 99 } (duty 1 700 .opened (some 7)) = false ∧
    atFront yard (bus 8 .parked) = none := by
  refine ⟨fun st d w => ⟨?_, ?_⟩, by decide⟩ <;> rfl

theorem test_witness_BankActivate :
    (∀ p, CommandHead (withCommand kindBankActivate p start) (command kindBankActivate p) [] kindBankActivate p) ∧
    u8 [1] 0 = 1 ∧ u8 [2] 0 = 2 ∧ u8 [3] 0 = 3 ∧ u8 [0] 0 < 1 ∧ 3 < u8 [4] 0 ∧
    (∃ e ∈ duties (lone (bus 7 .called) .called), e.2.state = .called) ∧ (¬∃ e ∈ duties yard, e.2.state = .called) ∧
    Site.reset.clock.state = .free ∧ site.clock.state ≠ .free := ⟨commandHead_start _, by decide⟩

theorem test_witness_DutyCancel :
    (∀ p, CommandHead (withCommand kindDutyCancel p start) (command kindDutyCancel p) [] kindDutyCancel p) ∧
    u16 [0, 0] 0 < 1 ∧ 9999 < u16 [0x27, 0x10] 0 ∧ u16 [0x27, 0x0F] 0 = 9999 ∧ dutyOf yard 9999 = none ∧
    u16 [0, 1] 0 = 1 ∧ (dutyOf yard 1).map (·.state) = some .opened ∧
    (dutyOf (lone (bus 7 .parked) .departed) 1).map (·.state) = some .departed ∧
    (dutyOf (lone (bus 7 .parked) .cancelled) 1).map (·.state) = some .cancelled := ⟨commandHead_start _, by decide⟩

theorem test_witness_DutyCall :
    (∀ p, CommandHead (withCommand kindDutyCall p start) (command kindDutyCall p) [] kindDutyCall p) ∧
    u16 [0, 0, 0, 7] 0 < 1 ∧ 9999 < u16 [0x27, 0x10, 0, 7] 0 ∧ (u16 [0x27, 0x0F, 0, 7] 0 = 9999 ∧ dutyOf yard 9999 = none) ∧
    vehOf yard 99 = none ∧ ((dutyOf yard 1).map fun r => (r.state, r.vehicle)) = some (.opened, some 7) ∧
    (vehOf yard 7).map (fun v => (atFront yard v, v.entry.outOfService, inMask 0xFF v.entry.cls)) =
      some (some (.lane 1), false, true) ∧
    (vehOf yard 9).map (fun v => (atFront yard v, v.entry.outOfService, inMask 0xFF v.entry.cls)) =
      some (some .apron, false, true) ∧
    Site.reset.clock.state = .free ∧ site.clock.state ≠ .free ∧ atFront yard (bus 8 .parked) = none :=
  ⟨commandHead_start _, by decide⟩

/-! ### Clock -/

theorem test_witness_Time :
    (∀ p, CommandHead (withCommand kindTime p start) (command kindTime p) [] kindTime p) ∧
    86399 < u24 [0, 1, 0x01, 0x51, 0x80] 2 ∧ u24 [0, 1, 0x01, 0x51, 0x7F] 2 = 86399 ∧
    (site.clock.state ≠ .free ∧ u16 [0, 0, 0, 0, 0] 0 < site.clock.day) ∧
    (u16 [0, 1, 0, 0x8C, 0xDB] 0 = site.clock.day ∧ site.clock.processed = some 600 ∧
      u24 [0, 1, 0, 0x8C, 0xDB] 2 / 60 ≤ 600) ∧
    ¬u24 [0, 1, 0, 0x8C, 0xDC] 2 / 60 ≤ 600 := ⟨commandHead_start _, by decide⟩

theorem test_witness_ClockRuns :
    site.clock.phase < 100 ∧ (86398 : Nat) < 86399 ∧ Site.reset.clock.state = .free ∧ site.clock.state ≠ .free ∧
    (36000 + 1) / 60 ≤ 600 ∧ 600 < (36059 + 1) / 60 ∧ Site.reset.clock.processed = none ∧
    ({ site with clock.holdover := some 988000 } : Site).clock.holdover = some 988000 ∧
    988000 + setting site 20 * 100 ≤ site.now ∧ site.clock.state = .locked ∧
    ({ site with clock.state := .holdover } : Site).clock.state = .holdover := by decide

/-! ### Orders on vehicles and stations -/

theorem test_witness_VehicleSet :
    (∀ p, CommandHead (withCommand kindVehicleSet p start) (command kindVehicleSet p) [] kindVehicleSet p) ∧
    u8 [0, 7, 0] 2 < 1 ∧ 5 < u8 [0, 7, 6] 2 ∧ u8 [0, 7, 1] 2 = 1 ∧ u16 [0, 99, 1] 0 = 99 ∧ vehOf yard 99 = none ∧
    u16 [0, 7, 5] 0 = 7 ∧ (vehOf yard 7).map (fun v => (v.state, v.entry.outOfService)) = some (.parked, false) ∧
    (vehOf (lone (bus 7 .departing) .called) 7).map (·.state) = some .departing ∧
    (vehOf (lone { bus 7 .unlocated with entry.outOfService := true } .opened) 7).map
      (fun v => (v.state, v.entry.outOfService)) = some (.unlocated, true) ∧
    fuelJoinable yard 7 = true ∧ washJoinable yard 7 = true ∧ fuelJoinable (fullQueues yard) 7 = false ∧
    washJoinable (fullQueues yard) 7 = false ∧ (vehOf yard 10).map (·.state) = some .absent :=
  ⟨commandHead_start _, by decide⟩

theorem test_witness_StationResume :
    (∀ p, CommandHead (withCommand kindStationResume p start) (command kindStationResume p) [] kindStationResume p) ∧
    stationAt site (u8 [99] 0) = none ∧
    ([1, 11, 21, 5, 6].map fun a => (stationAt site a).map fun st => (controllable st.entry.role, st.manual)) =
      [some (false, false), some (true, false), some (true, false), some (true, false), some (true, false)] ∧
    (∀ st : Station, ({ st with manual := true } : Station).manual = true) ∧
    (∀ st, (tget (withIsland (island st none) start).yard.islands 1).map (·.state) = some st) ∧
    ∀ st, (tget (withWash (washLane st none none) start).yard.washLanes 1).map (·.state) = some st :=
  ⟨commandHead_start _, by decide, by decide, fun _ => rfl, fun _ => rfl, fun _ => rfl⟩

/-! ### Queries, frames, yard clear -/

theorem test_witness_QueriesAnswer :
    (∀ p, CommandHead (withCommand kindQuery p start) (command kindQuery p) [] kindQuery p) ∧
    (u8 [0] 0 < 1 ∧ 8 < u8 [9] 0) ∧
    (u16 [1, 0, 0] 1 < 1 ∧ 65534 < u16 [1, 0xFF, 0xFF] 1 ∧ u16 [1, 0xFF, 0xFE] 1 = 65534 ∧ vehOf yard 65534 = none ∧
      (vehOf yard (u16 [1, 0, 7] 1)).isSome = true) ∧
    (u8 [2, 0, 1] 1 < 1 ∧ 24 < u8 [2, 25, 1] 1 ∧ u8 [2, 1, 0] 2 < 1 ∧ 2 < u8 [2, 1, 3] 2 ∧ tget yard.lanes 24 = none ∧
      (tget yard.lanes (u8 [2, 1, 2] 1)).isSome = true) ∧
    (u8 [3, 0, 0, 1] 1 < 1 ∧ 2 < u8 [3, 3, 0, 1] 1 ∧ u16 [3, 1, 0, 0] 2 < 1 ∧ 9999 < u16 [3, 1, 0x27, 0x10] 2 ∧
      dutyIn yard.bankA 9999 = none ∧ dutyIn yard.bankB 1 = none ∧ (dutyIn yard.bankA 1).isSome = true) ∧
    (u8 [4, 0] 1 < 1 ∧ 4 < u8 [4, 5] 1 ∧ tget yard.islands 4 = none ∧ (tget yard.islands 1).isSome = true) ∧
    (u8 [5, 0] 1 < 1 ∧ 2 < u8 [5, 3] 1 ∧ tget yard.washLanes 2 = none ∧ (tget yard.washLanes 1).isSome = true) ∧
    (u8 [6, 0] 1 < 1 ∧ 3 < u8 [6, 4] 1 ∧ u8 [6, 1] 1 = 1 ∧ u8 [6, 2] 1 = 2 ∧ u8 [6, 3] 1 = 3) ∧
    (u8 [7, 0] 1 < 1 ∧ 2 < u8 [7, 3] 1 ∧ u8 [7, 1] 1 = 1 ∧ u8 [7, 2] 1 = 2) ∧ u8 [8] 0 = 8 :=
  ⟨commandHead_start _, by decide⟩

theorem test_witness_SiteAndYardKept :
    (∃ t, exec .tableRead start = .next t) ∧ (∃ t, exec .officeEgressSend (office 0 [.reply]) = .next t) ∧
    ∃ t, exec (.rxByte .field 0xA5) start = .next t := ⟨⟨_, rfl⟩, ⟨_, rfl⟩, ⟨_, rfl⟩⟩

theorem test_witness_ReportsFrame :
    (∃ t, exec .nozzleLifted (withField (fieldFrame 11 kindIslandReport [2, 0, 9, 0, 0])
      (withIsland (island .authorized (some 9)) start)) = .next t) ∧
    ∃ t, exec (.stageTimerExpiry 1) (withWash (washLane .running (some 9) (some 1)) start) = .next t :=
  ⟨⟨_, rfl⟩, ⟨_, rfl⟩⟩

theorem test_witness_YardClear :
    CommandHead (withCommand kindYardClear [] start) (command kindYardClear []) [] kindYardClear [] ∧
    (withCommand kindYardClear [] start).yard.emits = [] := ⟨commandHead_start _ _, rfl⟩

/-! ### Further clauses: passages, arrivals and exits -/

theorem test_witness_TagRead_Pairing :
    (vehOf yard 8).map (·.entry.outOfService) = some false ∧
    (let y : Yard := { yard with
       bankA := [(0, duty 1 700 .opened none), (1, { duty 2 800 .blocked none with reason := some .noVehicle })] }
     dutyOrder y = [1] ++ 2 :: [] ∧ takesBlocked (bus 8 .parked) (duty 1 700 .opened none) = false ∧
     takesBlocked (bus 8 .parked) { duty 2 800 .blocked none with reason := some .noVehicle } = true) ∧
    (dutyOrder yard = [1] ++ 2 :: [] ∧ takesOpen (bus 8 .parked) (duty 1 700 .opened (some 7)) = false ∧
     takesOpen (bus 8 .parked) (duty 2 800 .opened none) = true) ∧
    dutyOrder { yard with bankA := [] } = [] := by decide +kernel

/-- Departing entries with the given vehicles, of lane 1. -/
def leaving (l : List (Option Nat)) (y : Yard) : Yard :=
  { y with departing := l.map fun v => { vehicle := v, lane := some 1, popTime := presentTime site, started := 0 } }

/-- Lane 1 with n entries, and vehicles 7, CALLED, 8 and 11 of no holder. -/
def exits (n : Nat) (st : VehState) : Yard :=
  { yard with
    roster := [(0, { bus 7 st with duty := some 1 }), (1, bus 8 .unlocated), (2, bus 11 .departing)]
    bankA := [(0, duty 1 700 .called (some 7))], apron := []
    lanes := [(1, lane .opened (item (some 7) :: List.replicate n (item none)) [])] }

theorem test_witness_TagRead_Exits :
    (9 ∈ yard.apron ∧ 8 ∉ yard.apron) ∧
    (leaving [none, some 8] yard).departing.map (·.vehicle) = [none] ++ some 8 :: [] ∧
    (leaving [some 11, none] yard).departing.map (·.vehicle) = [some 11] ++ none :: [] ∧
    (let y := leaving [some 11] (exits 0 .called)
     laneHolding y 7 = some 1 ∧ laneHolding y 8 = none ∧ (tget y.lanes 1).bind frontVehicle = some 7 ∧
     stateOf y 7 = some .called ∧ 15 + 0 < 16) ∧
    (let y (n : Nat) := takeOut site 8 { leaving [some 11] (exits n .called) with departing := [] }
     (tget (y 14).lanes 1).map (·.items.length) = some 15 ∧ (tget (y 15).lanes 1).map (·.items.length) = some 16) ∧
    (yard.departing = [] ∧ stateOf yard 10 = some .absent ∧ stateOf yard 8 ≠ some .absent ∧
      pairedNumber yard 8 = none ∧ pairedNumber yard 7 = some 1) := by decide +kernel

theorem test_witness_TagRead_Duties :
    pairedNumber (withdrawCall 8 yard) 8 = none ∧ pairedNumber (withdrawCall 7 yard) 7 = some 1 ∧
    (vehOf (unpairRecords 8 (unpairRecords 7 (withdrawCall 7 yard))) 8).isSome = true ∧
    pairedDuty (setState site 8 .absent yard) 8 = none ∧
    (pairedDuty (setState site 7 .absent (exits 0 .called)) 7).map (·.state) = some .called ∧
    (pairedDuty (setState site 7 .absent yard) 7).map (·.state) = some .opened := by decide +kernel

/-- What a mouth of a tracker and candidate makes of raw state A, or of CLEAR when no loop is occupied. -/
def reported (occupied silent : Bool) (debounce : Debounce) (m : Mouth) : Site :=
  { site with
    mouths := [(1, { m with entry.debounce := debounce })]
    concentrators := [(4, { loops := if occupied then 1 else 0, timer := none, silent := silent })] }

theorem test_witness_LoopStateStored_Table :
    (∀ silent, (tget (reported true silent .ms200 (mouth .f2 none)).mouths 1).isSome = true ∧
      silentAt (reported true silent .ms200 (mouth .f2 none)) 4 = silent) ∧
    mouthOn 4 (loopEntry 0) = true ∧ mouthOn 3 (loopEntry 0) = false ∧
    (∀ o, rawState (reported o false .none (mouth .uncertain none)) (loopEntry 0) = if o then .a else .clear) ∧
    (mouth .uncertain none).accepted = .clear ∧ (mouth .uncertain none).tracker = .uncertain ∧
    (mouth .idle none).tracker ≠ .uncertain ∧ (mouth .idle (some .a)).candidate.map (·.1) = some .a ∧
    (mouth .idle (some .ab)).candidate.map (·.1) ≠ some .a ∧ (mouth .idle none).entry.debounce ≠ .none ∧
    laneOfMouth yard 3 = none ∧ (laneOfMouth yard 1).map (·.1) = some 1 := by decide +kernel

/-- The table of R47, by what becomes of the candidate: made, replaced, kept, discarded; or accepted at once. -/
theorem test_debounce_table :
    let after (o : Bool) (d : Debounce) (c : Option PairState) : Option (PairState × Option (PairState × Nat)) :=
      (tget (mouthReport 4 false (reported o false d (mouth .idle c), yard) 1).1.mouths 1).map
        fun m => (m.accepted, m.candidate)
    after true .ms200 none = some (.clear, some (.a, 1000000)) ∧
    after true .ms200 (some .b) = some (.clear, some (.a, 1000000)) ∧
    after true .ms200 (some .a) = some (.clear, some (.a, 999980)) ∧
    after false .ms200 (some .a) = some (.clear, none) ∧ after true .none (some .b) = some (.a, none) := by
  decide +kernel

theorem test_witness_EntryPush_Passages :
    (laneOfMouth yard 1).map (fun p => p.2.entry.entryMouth) = some 1 ∧
    (laneOfMouth yard 2).map (fun p => decide (p.2.entry.entryMouth = 2)) = some false ∧
    (let pend : List PendingItem := List.replicate 4 { fleet := 9, joined := 0 }
     (List.replicate 11 (item none)).length + 1 + pend.length ≤ 16 ∧
     16 < (List.replicate 12 (item none)).length + 1 + pend.length ∧
     pend.getLast? = some { fleet := 9, joined := 0 }) ∧
    (frontVehicle (lane .opened [item (some 7)] []) = some 7 ∧ stateOf (exits 0 .called) 7 = some .called ∧
      stateOf yard 7 ≠ some .called ∧ frontVehicle (lane .opened [item none] []) = none) ∧
    (lane .opened [] []).items = [] ∧ [item none, item (some 7)].getLast? = some (item (some 7)) ∧
    [item (some 7)].length = 1 ∧ [item (some 7), item none] = item (some 7) :: [item none] ∧
    (leaving (List.replicate 7 none) yard).departing.length < 8 ∧
    8 ≤ (leaving (List.replicate 8 none) yard).departing.length := by decide +kernel

/-- A CALLED vehicle moved back from position 1 loses its call. -/
theorem test_push_front_ends_call :
    let y := pushFront site 1 (exits 0 .called)
    ((vehOf y 7).map (·.state), (dutyOf y 1).map (·.state), (tget y.lanes 1).map (·.items.map (·.vehicle))) =
      (some .parked, some .opened, some [none, some 7]) := by decide +kernel

/-- A census that names 8 alone drops 7 and parks 8. -/
theorem test_census_effect :
    let y := takeCensus site 1 .closed [(some 8, 79), (none, 201)] (exits 0 .parked)
    ((vehOf y 7).map (·.state), (vehOf y 8).map (·.state), (tget y.lanes 1).map (·.items.map (·.length))) =
      (some .unlocated, some .parked, some [80, 200]) := by decide +kernel

theorem test_witness_Census_Effect : (tget (exits 0 .parked).lanes 1).isSome = true := by decide

/-! ### Further clauses: lanes and rounds -/

theorem test_witness_LaneChoice_Tests :
    (laneTail (blockedLane 0) (lane .opened [item (some 8)] [])).isSome = true ∧
    occupied site yard (lane .opened [item (some 7), item (some 8)] []) = 2 * (120 + setting site 1) := by decide +kernel

theorem test_witness_PlacementStages_Join :
    (vehOf emptyLane 9).map (eligible site emptyLane · (lane .opened [] [])) = some true ∧
    (vehOf emptyLane 9).map (eligible site emptyLane · (lane .closed [] [])) = some false ∧
    laneTail emptyLane (lane .opened [] []) = none ∧ laneTail (blockedLane 0) (lane .opened [item (some 8)] []) ≠ none :=
  by decide +kernel

/-- Vehicles 8 and 9 wait, 9 the longer. -/
def waitingYard : Yard :=
  { emptyLane with
    roster := [(1, { bus 8 .stowWait with since := { day := 1, second := 5 } }), (2, { bus 9 .stowWait with duty := some 2 })]
    apron := [] }

theorem test_witness_PlacementStages_Rounds :
    (stateOf emptyLane 9 = some .apron ∧ emptyLane.apron = [] ++ 9 :: [] ∧ 9 ∉ [8] ∧ ¬9 ∉ [9]) ∧
    InOrder [(86405, 8), (0, 9)] [9, 8] ∧
    ((waitingYard.roster.filter fun p => p.2.state = .stowWait ∧ p.2.entry.fleet ∉ ([] : List Nat)).map fun p =>
      (p.2.since.day * 86400 + p.2.since.second, p.2.entry.fleet)) = [(86405, 8), (0, 9)] ∧
    (yard.roster.filter fun p => p.2.state = .stowWait) = [] ∧
    (pairedDuty yard 7).map (·.state) = some .opened ∧
    (let y : Yard := { blockedLane 15 with bankA := [(1, duty 2 800 .blocked (some 9))] }
     (pairedDuty y 9).map (·.state) = some .blocked) :=
  ⟨by decide +kernel, ⟨[(0, 9), (86405, 8)], List.Perm.swap .., by decide, rfl⟩, by decide +kernel, by decide +kernel,
    by decide +kernel, by decide +kernel⟩

/-- The waiting pass takes the vehicle that waits longest first. -/
theorem test_waiting_pass_order :
    let y := retryRound site waitingYard
    (tget y.lanes 1).map (·.pendings.map (·.fleet)) = some [9, 8] ∧ y.apron = [] := by decide +kernel

/-! ### Further clauses: reports -/

theorem test_witness_NozzleAndMeter_Counts :
    (let i := island .dispensing (some 9)
     u16 [3, 0, 9, 0, 99] 3 < i.lastCount ∧ u16 [3, 0, 9, 0, 100] 3 = i.lastCount) := by decide

theorem test_witness_UnprocessedFieldFrame_Codes :
    (∀ code ∈ [0, 7], (IslandHead (withField (fieldFrame 11 kindIslandReport [byte code, 0, 9, 0, 0])
        (withIsland (island .called (some 9)) start)) (fieldFrame 11 kindIslandReport [byte code, 0, 9, 0, 0]) []
        (station 11 (.island 1)) 1 code (island .called (some 9))) ∧ (code < 1 ∨ 6 < code)) ∧
    (∀ code ∈ [0, 5], (WashHead (withField (fieldFrame 21 kindWashReport [byte code, 0, 9, 0])
        (withWash (washLane .called (some 9) none) start)) (fieldFrame 21 kindWashReport [byte code, 0, 9, 0]) []
        (station 21 (.wash 1)) 1 code (washLane .called (some 9) none)) ∧ (code < 1 ∨ 4 < code)) := by
  constructor <;> intro code h <;> simp only [List.mem_cons, List.not_mem_nil, or_false] at h <;> rcases h with rfl | rfl
  · exact ⟨islandHead 0 [0, 9, 0, 0] _ rfl (by decide), by decide⟩
  · exact ⟨islandHead 7 [0, 9, 0, 0] _ rfl (by decide), by decide⟩
  · exact ⟨washHead 0 [0, 9, 0] _ rfl (by decide), by decide⟩
  · exact ⟨washHead 5 [0, 9, 0] _ rfl (by decide), by decide⟩

/-- A report ignored in its state is annotated as not processed, with the vehicle of the report (R35). -/
theorem test_ignored_report_annotation :
    leaves .nozzleLifted
      (withField (fieldFrame 11 kindIslandReport [2, 0, 9, 0, 0])
        { withIsland (island .ending (some 9)) start with site.forwarding := [(3, .annotate)] })
      (fun t => t.out.officeQ.map fun i => i.frame.payload.drop 5) = some [[0, 9, 9, 0, 0, 0, 0, 2]] := by decide +kernel

/-- An authorisation that expires leaves stop sent as it was (R91). -/
theorem test_expiry_keeps_stop_sent :
    leaves (.authorisationTimerExpiry 1) (withIsland { island .authorized (some 9) with stopSent := true } start)
      (fun t => (tget t.yard.islands 1).map fun i => (i.state, i.vehicle, i.stopSent)) =
      some (some (.idle, none, true)) := by decide +kernel

/-! ### Further clauses: yields, tables -/

theorem test_witness_OfficeFrames_Yields :
    (∀ st v, tget (withIsland (island st v) start).yard.islands 1 = some (island st v) ∧ (island st v).state = st ∧
      (island st v).vehicle = v) ∧
    (∀ st v, tget (withWash (washLane st v none) start).yard.washLanes 1 = some (washLane st v none) ∧
      (washLane st v none).state = st ∧ (washLane st v none).vehicle = v) ∧
    IslandState.idle ≠ .manual ∧ WashState.idle ≠ .manual :=
  ⟨fun _ _ => ⟨rfl, rfl, rfl⟩, fun _ _ => ⟨rfl, rfl, rfl⟩, by decide, by decide⟩

/-- What one entry answers: a refusal, or whether it was clamped. -/
def entryResult (t : TableId) (i : Nat) (p : List Byte) (y : Yard) : Result :=
  match writeEntry t i p { out := start.out, site := site, yard := y } with
  | .refused r => r
  | .wrote _ c => if c then .okClamped else .ok

/-- The cases of RosterWrites. -/
theorem test_witness_RosterWrites :
    ([([0, 0, 0, 0, 0, 0], 9), ([0, 0, 0, 0, 0, 0], 0), ([0, 0, 0, 0, 0, 0], 3), ([1, 0, 0, 0, 120, 0], 9),
      ([1, 0xFF, 0xFF, 0, 120, 0], 9), ([1, 0, 11, 0, 120, 2], 9), ([1, 0, 11, 1, 120, 0], 9), ([1, 0, 7, 0, 120, 0], 9),
      ([1, 0xFF, 0xFE, 0, 79, 0], 9), ([1, 0, 11, 0, 201, 0], 0), ([1, 0, 7, 0, 120, 1], 0), ([1, 0, 7, 0, 121, 1], 0),
      ([1, 0, 10, 0, 200, 0], 3), ([1, 0, 11, 0, 200, 0], 3)].map fun e => entryResult .roster e.2 e.1 yard) =
      [.ok, .inUse, .ok, .range, .range, .range, .notFound, .inUse, .okClamped, .inUse, .ok, .inUse, .ok, .ok] ∧
    entryResult .roster 0 [1, 0, 7, 0, 120, 1] (lone (bus 7 .departing) .called) = .inUse ∧
    (({ bus 7 .absent with entry.cls := 2 } : Vehicle).entry.cls ≠ 0) := by decide +kernel

/-- The cases of ClassWrites, LaneWrites and LoopWrites. -/
theorem test_witness_PlaceWrites :
    (entryResult .classes 0 (List.replicate 8 0) yard = .inUse ∧ entryResult .classes 1 (List.replicate 8 0) yard = .ok ∧
      entryResult .classes 1 [1, 0, 50, 200, 3, 0x84, 7, 8] yard = .ok ∧
      entryResult .classes 1 [1, 0, 49, 0, 0, 0, 0, 1] yard = .okClamped) ∧
    (entryResult .lanes 2 (List.replicate 8 0) yard = .ok ∧ entryResult .lanes 1 (List.replicate 8 0) yard = .inUse ∧
      entryResult .lanes 1 (List.replicate 8 0) emptyLane = .ok ∧
      entryResult .lanes 2 [1, 0, 100, 1, 0, 0, 4, 0] yard = .range ∧
      entryResult .lanes 2 [1, 0, 100, 1, 0, 3, 49, 0] yard = .range ∧
      entryResult .lanes 2 [1, 0, 100, 1, 0, 3, 3, 0] yard = .inUse ∧
      entryResult .lanes 2 [1, 0, 100, 1, 0, 2, 48, 0] yard = .inUse ∧
      entryResult .lanes 2 [1, 0, 100, 1, 0, 3, 48, 0] yard = .ok ∧
      entryResult .lanes 1 [1, 9, 0xC5, 0xFF, 79, 3, 48, 0] yard = .okClamped) ∧
    (entryResult .loopMap 1 (List.replicate 6 0) yard = .ok ∧ entryResult .loopMap 1 [1, 4, 0, 4, 1, 4] yard = .range ∧
      entryResult .loopMap 1 [1, 4, 0, 5, 1, 3] yard = .notFound ∧ entryResult .loopMap 1 [1, 4, 15, 4, 15, 0] yard = .ok ∧
      entryResult .loopMap 1 [1, 4, 0, 4, 16, 0] yard = .okClamped) ∧
    (namedIn site.mouths 4 = true ∧ namedIn site.mouths 3 = false ∧ namedIn ([] : Table Mouth) 4 = false) := by
  decide +kernel

/-- A ninth concentrator in the loop map is refused. -/
theorem test_witness_LoopWrites_Ninth :
    let mouthOf (a b : Nat) : Mouth := resetMouth { stationA := a, indexA := 0, stationB := b, indexB := 0, debounce := .none }
    let d : Desk := { start.desk with
      site.stations := (List.range 9).map fun i => (i, station (i + 1) .loops)
      site.mouths := [(1, mouthOf 1 2), (2, mouthOf 3 4), (3, mouthOf 5 6), (4, mouthOf 7 8)] }
    (match writeEntry .loopMap 5 [1, 8, 0, 9, 0, 0] d with
     | .refused r => some r
     | .wrote _ _ => none) = some .inUse ∧
    (match writeEntry .loopMap 5 [1, 8, 0, 8, 0, 0] d with
     | .refused r => some r
     | .wrote _ _ => none) = none := by decide +kernel

/-- The cases of StationWrites: places 3 (concentrator of the map), 5 (board), 6 (island) and 7 (wash). -/
theorem test_witness_StationWrites :
    ([([0, 0, 0, 0, 0], 9), ([0, 0, 0, 0, 0], 3), ([0, 0, 0, 0, 0], 6), ([0, 0, 0, 0, 0], 5), ([1, 99, 1, 0, 0], 9),
      ([1, 0, 1, 0, 1], 9), ([1, 240, 1, 0, 1], 9), ([1, 6, 1, 0, 1], 9), ([1, 239, 1, 0, 1], 9), ([1, 1, 3, 0, 1], 0),
      ([1, 3, 3, 0, 2], 2), ([1, 8, 3, 0, 1], 2), ([1, 9, 4, 0, 1], 3)].map fun e =>
        entryResult .stations e.2 e.1 (withIsland (island .called (some 7)) start).yard) =
      [.ok, .inUse, .inUse, .ok, .range, .range, .range, .inUse, .ok, .ok, .ok, .ok, .inUse] := by decide +kernel

/-- The cases of ForwardingAndProgramWrites. -/
theorem test_witness_ForwardingAndProgramWrites :
    entryResult .forwarding 31 [0, 0] yard = .ok ∧ entryResult .forwarding 31 [1, 4] yard = .range ∧
    entryResult .forwarding 31 [1, 2] yard = .ok ∧ entryResult .programs 8 (List.replicate 26 0) yard = .ok ∧
    entryResult .programs 8 ([1, 0] ++ List.replicate 24 0) yard = .range ∧
    entryResult .programs 8 ([1, 7] ++ List.replicate 24 0) yard = .range ∧
    entryResult .programs 8 ([1, 1, 1, 0, 5, 2] ++ List.replicate 20 0) yard = .range ∧
    entryResult .programs 8 ([1, 1, 1, 2, 0x58, 1] ++ List.replicate 20 0) yard = .ok ∧
    entryResult .programs 8 ([1, 1, 1, 2, 0x59, 1] ++ List.replicate 20 0) yard = .okClamped := by decide +kernel

/-- The cases of IslandWrites and WashLaneWrites. -/
theorem test_witness_ServicePlaceWrites :
    (entryResult .islands 2 [0, 0, 0, 0, 0] yard = .ok ∧ entryResult .islands 1 [0, 0, 0, 0, 0] yard = .ok ∧
      entryResult .islands 1 [0, 0, 0, 0, 0] (withIsland (island .called (some 7)) start).yard = .inUse ∧
      entryResult .islands 1 [1, 0xFF, 10, 0, 2] yard = .range ∧ entryResult .islands 2 [1, 0xFF, 72, 0, 0] yard = .ok ∧
      entryResult .islands 1 [1, 0xFF, 73, 0, 1] yard = .okClamped ∧
      (∀ st ∈ [IslandState.idle, .closed, .manual, .ending],
        entryResult .islands 1 [1, 0xFF, 10, 0, 1] (withIsland (island st none) start).yard = .ok)) ∧
    (entryResult .washLanes 2 (List.replicate 6 0) yard = .ok ∧ entryResult .washLanes 1 (List.replicate 6 0) yard = .ok ∧
      entryResult .washLanes 1 (List.replicate 6 0) (withWash (washLane .called (some 7) none) start).yard = .inUse ∧
      entryResult .washLanes 1 [1, 0xFF, 200, 120, 0, 2] yard = .range ∧
      entryResult .washLanes 1 [1, 0xFF, 200, 0, 0, 1] yard = .ok ∧
      entryResult .washLanes 2 [1, 0xFF, 80, 200, 0, 0] yard = .ok ∧
      entryResult .washLanes 1 [1, 1, 79, 59, 0, 0] yard = .okClamped) ∧
    (9 ∈ queued.fuelQ ∧ ¬8 ∈ queued.fuelQ ∧ islandAccepts queued (island .called (some 7)) 9 = true) := by decide +kernel

/-- A new reference length alone does not retest the wash queue: 9, longer than the lane takes, stays in it (R114). -/
theorem test_wash_rewrite_retests_on_mask_or_length :
    let y (maxLength : Nat) : Yard := { washQueued with
      washLanes := [(1, { washLane .called (some 7) none with entry.maxLength := maxLength })] }
    let queue (maxLength : Nat) (p : List Byte) : Option (List Nat) :=
      match writeEntry .washLanes 1 p { start.desk with yard := y maxLength } with
      | .refused _ => none
      | .wrote d _ => some d.yard.washQ
    queue 100 [1, 0xFF, 100, 60, 0, 0] = some [9] ∧ queue 200 [1, 0xFF, 100, 120, 0, 0] = some [] := by decide +kernel

/-- The cases of SettingWrites. -/
theorem test_witness_SettingWrites :
    ([([1, 0, 240], 6), ([1, 0, 239], 6), ([0, 0, 0], 6), ([1, 0xFF, 0xFF], 22), ([1, 0, 1], 1), ([1, 0, 1], 17),
      ([1, 0, 1], 18), ([1, 0, 1], 19), ([1, 0, 1], 20), ([1, 0, 1], 21), ([0, 0, 0], 0)].map fun e =>
        entryResult .settings e.2 e.1 yard) =
      [.range, .ok, .ok, .okClamped, .ok, .ok, .ok, .ok, .okClamped, .ok, .ok] ∧
    (∀ n ∈ List.range 23, (settingRange n).1 ≤ (settingRange n).2) ∧
    (setting site 1 ≠ 1 ∧ setting site 17 ≠ 1 ∧ setting site 18 ≠ 1 ∧ setting site 19 ≠ 1) := by decide +kernel

/-- The cases of DutyWrites: place 0 is duty 1, place 2 is empty. -/
theorem test_witness_DutyWrites :
    ([([0, 0, 0, 0, 0, 0, 0, 0, 0, 0], 2), ([0, 0, 0, 0, 0, 0, 0, 0, 0, 0], 0), ([1, 0, 0, 1, 0, 0, 0, 0, 0, 0], 2),
      ([1, 0x27, 0x10, 1, 0, 0, 0, 0, 0, 0], 2), ([1, 0, 3, 1, 0, 0, 0, 0, 2, 0], 2), ([1, 0, 1, 1, 0, 0, 0, 0, 0, 0], 2),
      ([1, 0, 3, 1, 5, 0x9F, 3, 0x84, 1, 60], 2), ([1, 0, 1, 1, 5, 0xA0, 0, 0, 0, 0], 0),
      ([1, 0, 3, 1, 0, 0, 0, 0, 0, 61], 0)].map fun e => entryResult .bankA e.2 e.1 yard) =
      [.ok, .ok, .range, .range, .range, .inUse, .ok, .okClamped, .okClamped] ∧
    (∀ st ∈ [DutyState.called, .departed, .cancelled],
      entryResult .bankA 0 [0, 0, 0, 0, 0, 0, 0, 0, 0, 0] (lone (bus 7 .parked) st) = .inUse ∧
      entryResult .bankA 0 [1, 0, 1, 1, 0, 0, 0, 0, 0, 0] (lone (bus 7 .parked) st) = .inUse) ∧
    (presentMinute site = 600 ∧ dueMinute site (duty 1 610 .opened none).entry ≤ 600 ∧
      ¬dueMinute site (duty 1 611 .opened none).entry ≤ 600 ∧ lateMinute site (duty 1 595 .opened none).entry ≤ 600) := by
  decide +kernel

theorem test_witness_TableData_Load :
    tget [(6, 30)] (u8 [6, 1, 2, 1, 4] 0) = some 30 ∧ 1 < [(6 : Byte), 1, 2, 1, 4].length ∧
    ([(6 : Byte), 1, 2, 1, 4].length - 1) % entrySize .forwarding = 0 ∧ 1 < u8 [2, 0] 0 := by decide

/-- Two entries of a frame: the second is refused, the first stays written. -/
theorem test_table_data_stops :
    leaves .tableData { withCommand kindTableData [6, 1, 2, 1, 4] start with site.cursors := [(6, 30)] }
      (fun t => (t.site.forwarding, t.site.cursors, t.out.officeQ.map (·.frame.payload))) =
      some ([(30, .absorb)], [(6, 31)], [[0x81, 0x10, 1, 0, 31]]) := by decide +kernel

/-! ### Further clauses: duties and the clock -/

/-- A BLOCKED duty 1 without a vehicle; vehicle 7 at the front of lane 1, 8 behind it, 9 on the apron. -/
def lacking (v : Vehicle) : Yard :=
  { yard with
    roster := [(0, v), (1, bus 8 .parked), (2, { bus 9 .apron with level := none })]
    bankA := [(0, { duty 1 700 .blocked none with reason := some .noVehicle }), (1, duty 2 800 .opened (some 7))] }

theorem test_witness_Evaluation_Substitution :
    (frontOrder (lacking (bus 7 .parked)) = [9] ++ 7 :: [] ∧
      candidacy (lacking (bus 7 .parked)) (duty 1 700 .blocked none) 9 = none ∧
      candidacy (lacking (bus 7 .parked)) (duty 1 700 .blocked none) 7 = some 1440 ∧
      candidacy (lacking { bus 7 .parked with duty := some 2 }) (duty 1 700 .blocked none) 7 = some 800 ∧
      candidacy (lacking { bus 7 .parked with level := none }) (duty 1 700 .blocked none) 7 = none) ∧
    (dutyOf (lacking (bus 7 .parked)) 1).map (fun r => (r.state, r.reason)) = some (.blocked, some .noVehicle) ∧
    stateOf yard 7 ≠ some .absent ∧ stateOf yard 10 = some .absent ∧
    InOrder [(800, 2), (700, 1)] [1, 2] :=
  ⟨by decide +kernel, by decide +kernel, by decide, by decide, [(700, 1), (800, 2)], List.Perm.swap .., by decide, rfl⟩

theorem test_witness_Evaluation_Drain :
    (yard.todo.lost = [] ∧ yard.todo.dutyRounds = 0) ∧ (report yard).todo.dutyRounds = 0 + 1 ∧
    (oweEvaluation 1 yard).todo.lost = 1 :: [] ∧ (roomEvent yard).todo.roomRounds = 0 + 1 := by decide

theorem test_witness_DutyCall_Exchange :
    (pairedDuty yard 8 = none ∧ (pairedDuty yard 7).map (·.state) = some .opened ∧
      (dutyOf yard 1).bind (·.vehicle) = some 7 ∧ (dutyOf yard 2).bind (·.vehicle) = none) ∧
    (tget yard.lanes 1).isSome = true ∧ (dutyOf yard 1).isSome = true ∧
    ((pairedDuty (lone (bus 7 .called) .called) 7).map (·.state) = some .called ∧
      stateOf (lone (bus 7 .called) .called) 7 = some .called ∧ stateOf yard 7 ≠ some .called) ∧
    (let l : BoardLine := { duty := 1, fleet := 7, departure := 700, stand := .lane 1, verify := false }
     (∃ m ∈ ({ yard with callList := [l] } : Yard).callList, m.duty = 1) ∧ ¬∃ m ∈ yard.callList, m.duty = 1) ∧
    ([DutyState.called, .opened, .departed].map fun st => (dutyOf (lone (bus 7 .parked) st) 1).map (·.state)) =
      [some .called, some .opened, some .departed] := by decide +kernel

/-- 9 on the apron has duty 2, due and BLOCKED; duty 1 belongs to w, and 7 is ready only as that vehicle. -/
def taking (departure : Nat) (w : Option Nat) : Yard :=
  { yard with
    roster := [(0, { bus 7 .parked with duty := w.map fun _ => 1, level := w.map fun _ => 200 }), (2, { bus 9 .apron with duty := some 2 })]
    bankA := [(0, duty 1 700 .opened w), (1, duty 2 departure .blocked (some 9))] }

/-- 7 takes the BLOCKED duty 2 of 9 and is called for it before 9 is called for duty 1 (R132); and the evaluation of duty 2,
left unpaired, may call 9 itself back for it, which is then not called for duty 1 (log 61). -/
theorem test_former_duty_is_evaluated_before_the_call :
    let run (departure : Nat) (w : Option Nat) := leaves .dutyCall
      (withCommand kindDutyCall [0, 1, 0, 9] { start with yard := taking departure w })
      (fun t => (t.yard.callList.map fun l => (l.duty, l.fleet), t.out.officeQ.getLast?.map (·.frame.payload)))
    run 600 (some 7) = some ([(2, 7), (1, 9)], some [0x8A, 0]) ∧ run 600 none = some ([(2, 9)], some [0x8A, 0]) := by
  decide +kernel

theorem test_witness_DutyCall_Order :
    (pairedDuty (taking 600 (some 7)) 9).map (·.state) = some .blocked ∧
    (let z := takeDuty site 9 (duty 1 700 .opened (some 7)) (taking 600 (some 7))
     (vehOf z 9).bind (atFront z) = some .apron) ∧
    (let z := takeDuty site 9 (duty 1 700 .opened none) (taking 600 none)
     (vehOf z 9).bind (atFront z) = none) := by decide +kernel

/-- A board in AUTO with three lines to show: an image, room for them, and none. -/
theorem test_witness_DutyCall_Boards :
    tget start.out.images 6 = some (List.replicate 12 .empty) ∧ (List.replicate 12 ImageLine.empty).length = 12 ∧ 6 < 256 ∧
    inManual site 6 = false ∧ start.out.held = [] ∧ start.out.fieldQ.length + 3 ≤ 16 ∧
    16 ≤ (waiting_ 16 []).out.fieldQ.length ∧ (waiting_ 16 []).out.held = [] ∧
    inManual { site with stations := [(5, { station 6 .board with manual := true })] } 6 = true := by decide

/-- Three calls and one slot: the first line is sent and the second is held. -/
theorem test_board_lines_wait_for_slots :
    let l (d : Nat) : BoardLine := { duty := d, fleet := 7, departure := 700, stand := .lane 1, verify := false }
    let o := handOver site (waiting_ 15 []).out (.boards [l 1, l 2, l 3])
    (o.fieldQ.length, o.fieldQ.getLast?.map (·.frame.payload.head?), o.held.map (·.frame.payload.head?)) =
      (16, some (some 1), [some 2]) := by decide +kernel

theorem test_witness_ClockRuns_Events :
    dutyStateOf yard 1 = some .opened ∧ dutyStateOf (lone (bus 7 .called) .called) 1 ≠ some .opened ∧
    dutyOf yard 3 = none ∧
    (stateOf (lone (bus 7 .called) .called) 7 = some .called ∧ stateOf (lone (bus 7 .departing) .called) 7 ≠ some .called) ∧
    (dutyOf (lone (bus 7 .parked) .cancelled) 1).map (·.state) = some .cancelled ∧
    (lateMinute site (duty 1 1439 .opened none).entry = 1439 ∧ dueMinute site (duty 1 0 .opened none).entry = 0) := by
  decide +kernel

/-! ### Further clauses: resume, queries, clear -/

theorem test_witness_StationResume_Manual :
    ([5, 6, 11, 21].map fun a => (stationAt (setMode a true site) a).map fun st => (controllable st.entry.role, st.manual)) =
      [some (true, true), some (true, true), some (true, true), some (true, true)] := by decide +kernel

theorem test_witness_QueriesAnswer_Lengths :
    ([] : List Byte).length < 1 ∧ 4 < (List.replicate 5 (8 : Byte)).length ∧
    (∀ v ∈ [1, 2, 3, 4, 5, 6, 7, 8], u8 [byte v, 0, 0, 0] 0 = v ∧ u8 [byte v] 0 = v) ∧
    ∀ len ∈ [3, 2, 1], (List.replicate 4 (0 : Byte)).length ≠ len := by decide

theorem test_witness_SiteAndYardKept_All :
    (∀ c ∈ [Instr.queryVehicle, .queryLane, .queryDuty, .queryIsland, .queryWash, .queryQueues, .queryCalls, .queryStatus,
      .tableRead, .fieldEgressSend, .officeEgressSend, .noticeHoldExpiry], ∃ t, exec c start = .next t) ∧
    ∃ t, exec (.receiveGapTimeout .office) start = .next t := by
  refine ⟨fun c h => ?_, _, rfl⟩
  simp only [List.mem_cons, List.not_mem_nil, or_false] at h
  rcases h with rfl | rfl | rfl | rfl | rfl | rfl | rfl | rfl | rfl | rfl | rfl | rfl <;> exact ⟨_, rfl⟩

/-- YARD_CLEAR stops island 1 and aborts wash lane 1, and clears the held frames. -/
theorem test_yard_clear_stops :
    leaves .yardClear (withCommand kindYardClear []
        { withWash (washLane .running (some 7) (some 1)) (withIsland (island .dispensing (some 9)) start) with
          out.held := [{ block := .departure, frame := command 0 [], image := none }] })
      (fun t => (t.out.fieldQ.map (·.frame.payload), t.out.held.length,
        (tget t.yard.islands 1).map (·.state), (tget t.site.concentrators 4).map (·.timer))) =
      some ([[2, 0, 9, 0, 0], [2, 0, 0, 0, 0]], 0, some .idle, some (some (1000000 + setting site 8 * 100))) := by
  decide +kernel

/-! ### Further clauses: starts, held lines, signs, calls, holders -/

theorem test_witness_PowerOnReset_Start :
    let saved : State := { start with site.store := some (imageOf start.desk) }
    ((after (.powerOnReset false true) saved).map fun t =>
      (t.site.mouths.map fun p => (p.2.entry.stationA, p.2.entry.stationB), t.out.images.map (·.1),
        t.yard.islands.map (·.2.entry.heldClosed), t.yard.washLanes.length)) =
      some ([(4, 4), (4, 4)], [6], [false], 1) := by decide +kernel

/-- A held BOARD_LINE for line 1 of board 6. -/
def heldLine : Held :=
  { block := .departure, frame := { dest := 6, src := 250, kind := kindBoardLine, payload := [] }, image := some (0, .empty) }

theorem test_witness_FieldEgressSend_Held :
    (∃ i q, (waiting_ 16 [heldLine, heldLine]).out.fieldQ = i :: q ∧ q.length = 15) ∧
    (∃ p ∈ site.stations, p.2.entry.role = .board ∧ p.2.entry.address = 6) ∧
    (¬∃ p ∈ site.stations, p.2.entry.role = .board ∧ p.2.entry.address = 11) ∧
    (∃ g ∈ [heldLine], g.block = .departure ∧ g.frame.dest.toNat = 6) ∧ inManual site 6 = false ∧
    tget (tmod start.out.images 6 fun l => l.set 0 .empty) 6 = some (List.replicate 12 .empty) ∧
    ImageLine.unsent ≠ .empty ∧ yard.callList = [] :=
  ⟨⟨_, _, rfl, rfl⟩, by decide, by decide, by decide, by decide, by decide, by decide, rfl⟩

/-- The placed line enters the image, and line 3, which differs, is the next to be held. -/
theorem test_held_line_resumes :
    leaves .fieldEgressSend
      { waiting_ 16 [heldLine] with out.images := [(6, (List.replicate 12 ImageLine.empty).set 2 .unsent)] }
      (fun t => (t.out.fieldQ.length, t.out.held.map fun h => (h.frame.payload.head?, h.image))) =
      some (16, [(some 3, some (2, .empty))]) := by decide +kernel

theorem test_witness_RouteDecision_Signs :
    inManual site 5 = false ∧ inManual { site with stations := [(4, { station 5 .sign with manual := true })] } 5 = true ∧
    (let low : Vehicle := { bus 7 .unlocated with level := some 79 }
     let dirty (level : Nat) : Vehicle := { bus 7 .unlocated with level := some level, daysSinceWash := 3, fuelSkipped := true }
     let washes (b : Bool) : Yard :=
       { lone (dirty 79) .held with bankA := [(0, { duty 1 700 .held (some 7) with entry.wash := b })] }
     ([lone low .held, lone low .opened, washes true, washes false, lone (dirty 200) .opened, lone (bus 7 .unlocated) .held].map
       fun y => let a := routeCases site (washOrPlace site) 7 y
         (a.2, (pairedDuty (showSign site (some 5) 7 a.2 a.1) 7).map fun r => (r.state, r.entry.wash))) =
       [(.fuelRoad, some (.held, false)), (.fuelRoad, some (.opened, false)), (.washRoad, some (.held, true)),
        (.washRoad, some (.held, false)), (.washRoad, some (.opened, false)), (.exit, some (.called, false))]) := by
  decide +kernel

theorem test_witness_LaneSet_DeclareEmpty :
    (∀ l, tget (withLane l start).yard.lanes 1 = some l) ∧ (lane .unverified [] []).items = [] ∧
    (lane .unverified [item (some 7)] []).items ≠ [] := ⟨fun _ => rfl, rfl, by decide⟩

/-- Declared empty, the lane's CALLED vehicle is UNLOCATED and its call is withdrawn. -/
theorem test_declare_empty :
    let y := declareEmpty site 1 (exits 0 .called)
    ((vehOf y 7).map (·.state), (dutyOf y 1).map (·.state), (tget y.lanes 1).map fun l => (l.status, l.items)) =
      (some .unlocated, some .opened, some (.opened, [])) := by decide +kernel

/-- Site whose stations are all in MANUAL. -/
def manualSite : Site := { site with stations := tmap site.stations fun st => { st with manual := true } }

theorem test_witness_Calls :
    (tget yard.islands 1 = some (island .idle none) ∧ tget yard.islands 2 = none ∧
      tget yard.washLanes 1 = some (washLane .idle none none) ∧ tget yard.washLanes 2 = none) ∧
    ((stationOfRole site (.island 1)).map (·.manual), (stationOfRole manualSite (.island 1)).map (·.manual),
      (stationOfRole site (.island 2)).map (·.manual), (stationOfRole site (.wash 1)).map (·.manual),
      (stationOfRole manualSite (.wash 1)).map (·.manual), (stationOfRole site (.wash 2)).map (·.manual)) =
      (some false, some true, none, some false, some true, none) ∧
    (inManual site 11 = false ∧ inManual manualSite 11 = true ∧ inManual site 21 = false ∧ inManual manualSite 21 = true) ∧
    (∀ st v, (island st v).state = st) ∧ (∀ st v, (washLane st v none).state = st) ∧
    (([99, 9, 8].map (islandAccepts yard (island .idle none)), [99, 9, 8].map (washAccepts yard (washLane .idle none none))) =
      ([false, true, true], [false, true, true])) ∧
    ((island .dispensing (some 9)).stopSent = false ∧ (island .dispensing (some 9)).vehicle = some 9) := by
  exact ⟨by decide, by decide +kernel, by decide +kernel, fun _ _ => rfl, fun _ _ => rfl, by decide, by decide⟩

/-- The first accepted vehicle is called, from within the queue, and the sign and the timer are set. -/
theorem test_calls_take_the_first_accepted :
    let y : Yard := { yard with fuelQ := [99, 9, 8], washQ := [99, 8, 9] }
    let called := fuelCalls site y
    let washed := washCalls site y
    (called.fuelQ, (tget called.islands 1).map fun i => (i.state, i.vehicle, i.limit, i.timer)) =
      ([99, 8], some (.called, some 9, 0, some (1000000 + setting site 12 * 6000))) ∧
    (washed.washQ, (tget washed.washLanes 1).map fun l => (l.state, l.vehicle, l.timer)) =
      ([99, 9], some (.called, some 8, some (1000000 + setting site 15 * 6000))) ∧
    fuelCalls manualSite y = y ∧ washCalls manualSite y = y := by decide +kernel

theorem test_witness_Evaluation_Deferral :
    (9 ∈ queued.fuelQ ∧ 8 ∉ queued.fuelQ ∧ 9 ∈ washQueued.washQ ∧ 8 ∉ washQueued.washQ) ∧
    (let y (v : Vehicle) (st : DutyState) : Yard := { lone v st with washQ := [7] }
     let low : Vehicle := { bus 7 .washWait with level := some 79 }
     ([y (bus 7 .washWait) .opened, y low .opened, y low .held].map fun y =>
       let a := routeCases site (placement site) 7
         (updService 7 (fun v => { v with washIncomplete := true }) { y with washQ := without y.washQ 7 })
       (decide (7 ∈ y.washQ), decide (a.2 = .fuelRoad), (pairedDuty a.1 7).map (·.state))) =
       [(true, false, some .opened), (true, true, some .opened), (true, true, some .held)]) := by decide +kernel

theorem test_witness_Time_Steps :
    let at_ (c : ClockState) (p : Option Nat) : Clock := { site.clock with state := c, processed := p }
    (at_ .free none).state = .free ∧ (at_ .holdover none).state ≠ .free ∧ (at_ .holdover none).processed = none ∧
    (at_ .locked (some 600)).processed = some 600 ∧ (1 : Nat) ≤ site.clock.day ∧ site.clock.day < 2 ∧
    600 < 36060 / 60 ∧ 36059 / 60 ≤ 600 := by decide

/-- A step to the next day runs the rollover and the minutes from 0: duty 1 of the new day is called at its due minute. -/
theorem test_time_crosses_the_day :
    let d := takeTime 2 60 { start.desk with yard.bankA := [(0, duty 1 11 .opened (some 7))] }
    (d.site.clock.day, d.site.clock.processed, (dutyOf d.yard 1).map (·.state), (vehOf d.yard 7).map (·.daysSinceWash)) =
      (2, some 1, some .called, some 1) := by decide +kernel

theorem test_witness_VehicleSet_Holders :
    let on (i : Island) (l : WashLane) : Yard :=
      { yard with
        roster := [(0, bus 7 .fuelling), (1, bus 8 .washing)], apron := [], lanes := []
        islands := [(1, i)], washLanes := [(1, l)] }
    let y (st : IslandState) (w : WashState) : Yard := on (island st (some 7)) (washLane w (some 8) none)
    let pend : Yard := { yard with lanes := [(1, lane .opened [] [{ fleet := 7, joined := 0 }])] }
    (laneHolding yard 7 = some 1 ∧ (tget yard.lanes 1).map frontVehicle = some (some 7) ∧ laneHolding yard 8 = some 1) ∧
    (laneHolding pend 7 = none ∧ pendingHolding pend 7 = some 1) ∧
    (∀ st w, laneHolding (y st w) 7 = none ∧ pendingHolding (y st w) 7 = none ∧ islandHolding (y st w) 7 = some 1 ∧
      laneHolding (y st w) 8 = none ∧ pendingHolding (y st w) 8 = none ∧ islandHolding (y st w) 8 = none ∧
      washHolding (y st w) 8 = some 1 ∧ tget (y st w).islands 1 = some (island st (some 7)) ∧
      tget (y st w).washLanes 1 = some (washLane w (some 8) none)) ∧
    (laneHolding yard 9 = none ∧ pendingHolding yard 9 = none ∧ islandHolding yard 9 = none ∧ washHolding yard 9 = none ∧
      9 ∈ yard.apron ∧ 10 ∉ yard.apron ∧ laneHolding yard 10 = none ∧ pendingHolding yard 10 = none ∧
      islandHolding yard 10 = none ∧ washHolding yard 10 = none) := by
  exact ⟨by decide, by decide, fun _ _ => ⟨rfl, rfl, rfl, rfl, rfl, rfl, rfl, rfl, rfl⟩, by decide⟩

/-- Taken out of a running wash and out of a turn under way, the vehicle leaves an ABORT and a STOP behind. -/
theorem test_take_out_stops_services :
    let y : Yard := { yard with
      roster := [(0, bus 7 .fuelling), (1, bus 8 .washing)], apron := [], lanes := []
      islands := [(1, island .dispensing (some 7))], washLanes := [(1, washLane .running (some 8) (some 1))] }
    let z := takeOut site 8 (takeOut site 7 y)
    ((tget z.islands 1).map (·.state), (tget z.washLanes 1).map (·.state), z.emits.map fun e => match e with
      | .own _ f => f.payload
      | _ => []) = (some .idle, some .idle, [[2, 0, 7, 0, 0], [2, 0, 0, 0, 0]]) := by decide +kernel

/-- SWAP is raised without fields (R132, R155). -/
theorem test_swap_names_no_field :
    let y := takeDuty site 8 (duty 1 700 .opened (some 7)) yard
    y.emits = [.notice .swap none none none] ∧ pairedNumber y 8 = some 1 := by decide +kernel

/-! ### Further clauses: what a step has made, forwarding, batches, lengths and slots -/

theorem test_witness_FieldEgressSend_HandOver :
    (stationAt manualSite 11).map (fun st => (controllable st.entry.role, st.manual)) = some (true, true) ∧
    (stationAt site 11).map (fun st => (controllable st.entry.role, st.manual)) = some (true, false) ∧
    (stationAt manualSite 1).map (fun st => controllable st.entry.role) = some false ∧ stationAt site 200 = none ∧
    (waiting_ 15 []).out.fieldQ.length < 16 ∧ (waiting_ 15 []).out.held = [] ∧ 16 ≤ (waiting_ 16 []).out.fieldQ.length ∧
    (waiting_ 15 [heldLine]).out.held ≠ [] ∧
    (heldLine.block = .departure ∧ heldLine.frame.dest = 6 ∧ heldLine.block ≠ .fuelTurn) := by decide +kernel

/-- Handed over with two frames held: its block's frame to the station is replaced in place, another block's joins the end, and
one to a station in MANUAL is discarded. -/
theorem test_own_frame_is_held :
    let f (b : Byte) : Frame := { dest := 6, src := 250, kind := b, payload := [] }
    let o := (waiting_ 15 [heldLine, { heldLine with frame.dest := 5 }]).out
    let kinds (o : Out) : List (Byte × Byte) := o.held.map fun h => (h.frame.dest, h.frame.kind)
    kinds (handOver site o (.own .departure (f 1))) = [(6, 1), (5, kindBoardLine)] ∧
    kinds (handOver site o (.own .vehicleTable (f 2))) = [(6, kindBoardLine), (5, kindBoardLine), (6, 2)] ∧
    handOver manualSite o (.own .departure (f 1)) = o := by decide +kernel

theorem test_witness_NoticeQueue_Batches :
    let k (threshold : Nat) : Site := { site with settings := [(21, threshold)] }
    let o (joined : Nat) : Out := { start.out with
      notices := [{ kind := .swap, fleet := none, place := none, duty := none, second := 0, count := 1, joined := joined }] }
    (setting (k 1) 21 ≤ (o 1000000).notices.length ∧ ¬setting (k 2) 21 ≤ (o 1000000).notices.length) ∧
    (999800 + setting (k 2) 22 * 100 ≤ 1000000 ∧ ¬999801 + setting (k 2) 22 * 100 ≤ 1000000) ∧ start.out.notices = [] ∧
    (start.out.officeQ.length + start.out.reserved < 16 ∧ ∀ i ∈ start.out.officeQ, i.cls ≠ .batch) ∧
    (¬(office 0 (List.replicate 16 .reply)).out.officeQ.length < 16 ∧
      ¬∀ i ∈ (office 0 [.batch]).out.officeQ, i.cls ≠ .batch) := by decide +kernel

/-- An EGRESS_FULL of the office port and a LINK_ERROR of the field port, at second 70000. -/
theorem test_notice_entries :
    let n (kind : NoticeKind) (p : Port) (r : Option LinkReason) : Notice :=
      { kind := kind, fleet := none, place := some (.port p r), duty := none, second := 70000, count := 2, joined := 0 }
    batchBytes 0 0 [n .egressFull .office none, n .linkError .field (some .gap)] =
      [30, 0x71, 4, 0, 0, 0, 0, 0x11, 0x70, 2, 28, 0x71, 3, 0, 0, 0, 0, 0x11, 0x70, 2] := by decide +kernel

theorem test_witness_UnprocessedFieldFrame_Forwarding :
    (stationAt forwarding.site 1 ≠ none ∧ stationAt forwarding.site 200 = none ∧ (31 : Byte).toNat < 32 ∧
      ¬(32 : Byte).toNat < 32) ∧
    ([1, 2, 3].map fun kind => (tget forwarding.site.forwarding kind).getD .pass) = [.annotate, .absorb, .pass] ∧
    ((List.replicate 48 (0 : Byte)).length ≤ 48 ∧ 48 < (List.replicate 49 (0 : Byte)).length) ∧
    ((office 0 (List.replicate 15 .reply)).out.officeQ.length + (office 0 []).out.reserved < 16 ∧
      16 ≤ (office 0 (List.replicate 16 .reply)).out.officeQ.length + (office 0 []).out.reserved) := by decide +kernel

/-- The annotation of an arrival that joins the apron, of a repeat read, and of a direction with a target. -/
theorem test_annotations_of_taken_frames :
    leaves .tagRead { withField (fieldFrame 1 kindTagRead [0, 10, 50]) start with site.forwarding := [(1, .annotate)] }
      (fun t => t.out.officeQ.map (·.frame.payload)) = some [[0, 10, 50, 0, 10, 9, 6, 0, 0, 2, 0]] ∧
    leaves .tagRead
      { tagged (tagFrame 2 8) with site.forwarding := [(1, .annotate)], site.tagMemory := [(2, { fleet := 8, at_ := 999999 })] }
      (fun t => t.out.officeQ.map (·.frame.payload)) = some [[0, 8, 50, 0, 8, 10, 0, 0, 0, 0, 1]] ∧
    annotation yard (processed (some 7) (some (.lane 24))) = [0, 7, 10, 5, 24, 0, 1, 0] := by decide +kernel

theorem test_witness_OfficeFrames_Slots :
    ((waiting_ 12 []).out.fieldQ.length ≤ 12 ∧ (waiting_ 12 []).out.held = [] ∧ 12 < (waiting_ 13 []).out.fieldQ.length ∧
      (waiting_ 12 [heldLine]).out.held ≠ []) ∧
    (CommandHead (withCommand kindTime [0] start) (command kindTime [0]) [] 0x85 [0] ∧ [(0 : Byte)].length ∉ [5]) ∧
    (CommandHead (withCommand kindCensus (List.replicate 6 0) start) (command kindCensus (List.replicate 6 0)) [] 0x86
      (List.replicate 6 0) ∧ (List.replicate 6 (0 : Byte)).length ∉ (List.range 17).map fun n => 2 + 3 * n) ∧
    CommandHead (withCommand kindTableData [] start) (command kindTableData []) [] 0x81 [] ∧
    16 ≤ (office 0 (List.replicate 16 .reply)).out.officeQ.length + (office 0 []).out.reserved ∧
    ¬∃ f rest, start.rx.office.ingress = f :: rest ∧ f.dest.toNat = ownAddress start.site ∧ f.kind = 0x85 :=
  ⟨by decide, ⟨commandHead_start _ _, by decide⟩, ⟨commandHead_start _ _, by decide⟩, commandHead_start _ _, by decide,
    fun ⟨_, _, h, _⟩ => by simp [start, RxPort.reset] at h⟩

/-- A forwarded frame with three free slots is dropped, and EGRESS_FULL names the field port. -/
theorem test_forward_reserve :
    let o := offerToField { site with settings := [(21, 5)] } (command 1 []) (waiting_ 13 []).out
    (o.fieldQ.length, o.notices.map fun n => (n.kind, n.place)) = (13, [(.egressFull, some (.port .field none))]) := by
  decide +kernel

theorem test_witness_VehiclePresent_Levels :
    (100 ≤ 100 ∧ 101 ≤ 101 ∧ 254 ≤ 254 ∧ 255 ≤ 255) ∧ vehOf yard 11 = none ∧ vehOf yard 8 = some (bus 8 .parked) := by
  decide

theorem test_witness_DutyCall_Pairing :
    pairedNumber yard 8 = none ∧ pairedNumber yard 7 = some 1 ∧
    ([DutyState.held, .blocked, .opened].map fun st => (dutyOf (lone (bus 7 .parked) st) 1).map (·.state)) =
      [some .held, some .blocked, some .opened] ∧
    (unpair 7 (lone (bus 7 .parked) .held)).todo.lost = [1] ∧ (unpair 7 (lone (bus 7 .parked) .opened)).todo.lost = [] := by
  decide +kernel

/-- DUTY_LATE of a write is raised without fields (R133, R155), and that of a minute event names the duty and its vehicle
(R128). -/
theorem test_late_notices :
    let y := { yard with bankA := [(0, duty 1 590 .opened (some 7))] }
    (lateAfterWrite site 1 y).emits = [.notice .dutyLate none none none] ∧
    (lateEvent 1 y).emits = [.notice .dutyLate (some 7) none (some 1)] ∧
    (dutyOf (lateAfterWrite site 1 y) 1).map (·.marks.late) = some true := by decide +kernel

/-! ### Further clauses: what rows leave alone, classification, boards, tables -/

/-- Each frame that no block takes, and beside it one that differs in that alone. -/
theorem test_witness_UnprocessedFieldFrame_Classes :
    let other (k : Site) (y : Yard) (a : Nat) (kind : Byte) (n : Nat) : Bool :=
      classify k y (fieldFrame a kind (List.replicate n 0)) == .other
    ([(200, kindTagRead, 3), (1, kindTagRead, 2), (1, kindLoopState, 3), (2, kindTagRead, 4), (3, kindTagRead, 0),
        (4, kindLoopState, 3), (4, kindTagRead, 2), (5, kindTagRead, 3), (6, kindTagRead, 3), (11, kindIslandReport, 4),
        (11, kindWashReport, 5), (21, kindWashReport, 5), (21, kindIslandReport, 4)].all fun c =>
      other site yard c.1 c.2.1 c.2.2) = true ∧
    ([(1, kindTagRead, 3), (4, kindLoopState, 2), (11, kindIslandReport, 5), (21, kindWashReport, 4)].any fun c =>
      other site yard c.1 c.2.1 c.2.2) = false ∧
    other (setMode 11 true site) yard 11 kindIslandReport 5 = true ∧
    other (setMode 21 true site) yard 21 kindWashReport 4 = true ∧
    other site { yard with islands := [] } 11 kindIslandReport 5 = true ∧
    other site { yard with washLanes := [] } 21 kindWashReport 4 = true := by decide +kernel

/-- The premises under which a row keeps the state, at their boundary values. -/
theorem test_witness_ReportsFrame_Kept :
    (start.rx.field.ingress = [] ∧ start.out.fieldQ = [] ∧ start.out.officeQ = [] ∧ start.out.notices = []) ∧
    (∃ rest st, TagHead (tagged (tagFrame 1 7)) (tagFrame 1 7) rest st) ∧
    (CommandHead (withCommand kindBankActivate [2] start) (command kindBankActivate [2]) [] 0x84 [2] ∧ u8 [2] 0 ≠ 1) ∧
    (CommandHead (withCommand kindLaneSet [1, 3] start) (command kindLaneSet [1, 3]) [] 0x87 [1, 3] ∧ u8 [1, 3] 1 ≠ 1) ∧
    (CommandHead (withCommand kindVehicleSet [0, 7, 5] start) (command kindVehicleSet [0, 7, 5]) [] 0x88 [0, 7, 5] ∧
      u8 [0, 7, 5] 2 ≠ 1) ∧
    (CommandHead (withCommand kindQuery [8] start) (command kindQuery [8]) [] 0x8C [8] ∧ u8 [8] 0 ≠ 1) ∧
    (site.now < (commitAt 999601).started + 400 ∧ (commitAt 999600).started + 400 ≤ site.now) ∧
    (site.now < 999801 + setting site 22 * 100 ∧ site.now < 940001 + setting site 10 * 6000 ∧
      site.now < 988001 + setting site 20 * 100 ∧ site.now < 999981 + debounceTicks .ms200) :=
  ⟨by decide, ⟨_, _, rfl, rfl, rfl, rfl, rfl⟩, ⟨commandHead_start _ _, by decide⟩, ⟨commandHead_start _ _, by decide⟩,
    ⟨commandHead_start _ _, by decide⟩, ⟨commandHead_start _ _, by decide⟩, by decide, by decide⟩

/-- A commit completes until one tick before 4 s and times out from 4 s on; outside, neither row does anything. -/
theorem test_commit_rows_share_the_time :
    let at_ (t : Nat) : State := { start with site.commit := some (commitAt t) }
    after .commitTimeout (at_ 999601) = some (at_ 999601) ∧ after .commitComplete (at_ 999600) = some (at_ 999600) ∧
    leaves .commitComplete (at_ 999601) (·.site.commit) = some none ∧
    leaves .commitTimeout (at_ 999600) (·.site.commit) = some none := by decide +kernel

/-- A board of which every line differs: a slot for the first line alone; other frames held; a frame of its own held. -/
theorem test_witness_DutyCall_SomeLines :
    let unsent : Out := { (waiting_ 15 []).out with images := [(6, List.replicate 12 .unsent)] }
    let elsewhere : Held := { heldLine with frame := { heldLine.frame with dest := 11 } }
    ((List.range 12).filter fun i => (List.replicate 12 ImageLine.unsent)[i]? ≠ some .empty) =
      [0] ++ 1 :: (List.range 10).map (2 + ·) ∧
    unsent.held = [] ∧ unsent.fieldQ.length + [0].length = 16 ∧
    (waiting_ 16 []).out.fieldQ.length + ([] : List Nat).length = 16 ∧
    (∃ h ∈ [heldLine], h.block = .departure ∧ h.frame.dest.toNat = 6) ∧
    (¬∃ h ∈ [elsewhere], h.block = .departure ∧ h.frame.dest.toNat = 6) ∧
    ((compareBoard site [] unsent 6).held.map (·.image), (compareBoard site [] unsent 6).fieldQ.length,
      (tget (compareBoard site [] unsent 6).images 6).map (·.take 2)) = ([some (1, .empty)], 16, some [.empty, .unsent]) ∧
    (compareBoard site [] { unsent with held := [elsewhere] } 6).held.map (·.frame.dest) = [11, 6] := by decide +kernel

/-- The lines of an image marked unsent, up to board lines N; the images a change of the boards leaves. -/
theorem test_witness_StationResume_Images :
    let o : Out := { start.out with images := [(6, List.replicate 12 .empty), (9, [])] }
    (tget o.images 6 = some (List.replicate 12 .empty) ∧ tget o.images 7 = none) ∧
    tget (markUnsent { site with settings := [(19, 2)] } 6 o).images 6 =
      some (.unsent :: .unsent :: List.replicate 10 .empty) ∧
    (syncImages site o).images = [(6, List.replicate 12 .empty)] ∧
    (∃ p ∈ site.stations, p.2.entry.role = .board ∧ p.2.entry.address = 6) := by decide +kernel

/-- The numbers beside the codes and the tables, the last percent the manual states, and a class with no place. -/
theorem test_witness_TableOpen_Shapes :
    ([0, 13].map tableOf = [none, none] ∧ [0, 7, 16, 0x15, 0x20, 0x23].map roleOf = List.replicate 6 none ∧
      [0, 3].map policyOf = [none, none] ∧ [0, 4].map actionOf = [none, none] ∧ debounceOf 4 = none ∧
      [0, 7].map stageKindOf = [none, none] ∧ flagOf 2 = none) ∧
    [0, 6, 22].map (setting site) = [250, 0, 2] ∧ percentOf 255 = 255 ∧
    ([7, 8].map fun c => entryResult .roster 9 [1, 0, 20, c, 120, 0] yard) = [.notFound, .notFound] := by decide +kernel

/-- What a new state, a notice, a report, a room event and a change of the call list leave. -/
theorem test_yard_operations :
    (vehOf (setState site 8 .apron yard) 8).map (fun v => (v.state, v.since)) = some (.apron, { day := 1, second := 36000 }) ∧
    setState site 8 .parked yard = yard ∧
    (raise .swap (some 1) none (some 2) yard).emits = [.notice .swap (some 1) none (some 2)] ∧
    (report yard).todo = { yard.todo with dutyRounds := 1 } ∧ (roomEvent yard).todo = { yard.todo with roomRounds := 1 } ∧
    (boardsChanged yard).emits = [.boards []] ∧ presentMinute site = 600 := by decide +kernel

/-- A program of one stage is sent with its five unused stage slots as zeros (R164, R165). -/
theorem test_unused_stage_slots_are_zeros :
    replied .tableRead (withCommand kindTableRead [9, 0, 1, 1] start) =
      some ([0x82, 0, 1, 1, 1, 3, 0, 40, 1] ++ List.replicate 20 0) := by decide +kernel

/-- An unloaded lane is answered before an order outside the three (log 57). -/
theorem test_lane_set_tests_the_lane_first :
    replied .laneSetOpen (withCommand kindLaneSet [2, 4] start) = some [0x87, 0x11] ∧
    replied .laneSetOpen (withCommand kindLaneSet [1, 4] start) = some [0x87, 0x10] := by decide +kernel

/-- A vehicle in APRON that is off the apron list: a duty BLOCKED as NOT_READY becomes NO_VEHICLE, with its notice (log 58). -/
theorem test_evaluation_off_the_apron :
    let y := { yard with
      apron := [], lanes := [], bankA := [(0, { duty 1 600 .blocked (some 9) with reason := some .notReady })] }
    (vehOf y 9).map (·.state) = some .apron ∧ (vehOf y 9).bind (atFront y) = none ∧
    (dutyOf (evaluate site false 1 y) 1).map (fun r => (r.state, r.reason)) = some (.blocked, some .noVehicle) ∧
    (evaluate site false 1 y).emits.length = 1 := by decide +kernel

/-- The reply to a change of the own address leaves from the old one; what is made after it, from the new one (log 59). -/
theorem test_own_address_changes_at_once :
    leaves .tableData
      { withCommand kindTableData [10, 1, 0, 245] start with site.cursors := [(10, 0)] }
      (fun t => (t.out.officeQ.map (·.frame.src), (sendOwn t.site .departure 6 0x43 [] t.yard).emits)) =
      some ([250], [.own .departure { dest := 6, src := 245, kind := 0x43, payload := [] }]) := by decide +kernel

end Sys2Proof.Tests
end

