-- ==== Sys2Proof/Proofs/NeedForService.lean ====
section
/-! The need for fuel and for a wash (R14): one lemma for each, and what follows for the extreme wash figures. -/

namespace Sys2Proof.Machine

section Need

variable {k : Site} {v : Vehicle} {d : Option Duty}

/-- The fuel threshold of a vehicle in service (R14): the litres of its duty, or its class's spare fuel, and the reserve. -/
def fuelThreshold (k : Site) (v : Vehicle) : Option Duty → Nat
  | some r => r.entry.fuel + (classOf k v).reserve
  | none => (classOf k v).spareFuel + (classOf k v).reserve

theorem needsFuel_of_outOfService (h : v.entry.outOfService = true) : needsFuel k v d = false := if_pos h

theorem needsWash_of_outOfService (h : v.entry.outOfService = true) : needsWash k v d = false := if_pos h

/-- In service, an unknown level is a need, and a known one is a need below the threshold. -/
theorem needsFuel_iff (h : v.entry.outOfService = false) :
    needsFuel k v d = true ↔ v.level = none ∨ ∃ l, v.level = some l ∧ l < fuelThreshold k v d := by
  cases hl : v.level with
  | none => simp [needsFuel, h, hl]
  | some l => cases d <;> simp [needsFuel, fuelThreshold, h, hl]

/-- In service, the need for a wash comes from the duty's wash flag or from the class's wash interval. -/
theorem needsWash_iff (h : v.entry.outOfService = false) :
    needsWash k v d = true ↔
      (∃ r, d = some r ∧ r.entry.wash = true) ∨ (classOf k v).washInterval ≤ v.daysSinceWash := by
  cases d <;> simp [needsWash, h]

theorem needsWash_of_interval_le (h : v.entry.outOfService = false)
    (hi : (classOf k v).washInterval ≤ v.daysSinceWash) : needsWash k v d = true :=
  (needsWash_iff h).mpr (.inr hi)

end Need

/-- Settles O17: the two needs by their lemmas, the threshold by the case of a paired vehicle and that of a spare; a wash
interval of 0, and 255 days since the wash, both put the interval at or below the days. -/
theorem needForService : Obligations.NeedForService := by
  intro k v d
  refine ⟨fun out => ⟨needsFuel_of_outOfService out, needsWash_of_outOfService out⟩,
    fun inService => ⟨?fuel, needsWash_iff inService, fun zero => ?nightly, fun unwashed bounded => ?unwashed⟩⟩
  case fuel =>
    cases d with
    | some r => exact needsFuel_iff inService
    | none => exact needsFuel_iff inService
  case nightly => exact needsWash_of_interval_le inService (zero ▸ Nat.zero_le _)
  case unwashed => exact needsWash_of_interval_le inService (by omega)

end Sys2Proof.Machine
end

/-! Office egress (R29, R30): the class the arbiter chooses, the frame that is sent and the batch test that follows; and
the run count, which nothing handed to the ports changes. -/

namespace Sys2Proof.Machine

/-! ## The arbiter's choice -/

theorem officeHas_iff (o : Out) (c : OfficeClass) : officeHas o c = true ↔ ∃ i ∈ o.officeQ, i.cls = c := by
  simp [officeHas]

/-- The four rules of R30 in their order, for a class with a frame waiting. -/
theorem arbitrate_eq_some {o : Out} {c : OfficeClass} (waits : ∃ i ∈ o.officeQ, i.cls = c)
    (rules : if o.runCount = 4 ∧ ∃ i ∈ o.officeQ, i.cls = .forwarded then c = .forwarded
      else if ∃ i ∈ o.officeQ, i.cls = .reply then c = .reply
      else if ∃ i ∈ o.officeQ, i.cls = .batch then c = .batch
      else c = .forwarded) : arbitrate o = some c := by
  simp only [arbitrate, Bool.and_eq_true, beq_iff_eq, officeHas_iff, Config.runLimit]
  split at rules
  · next limit => rw [if_pos limit, rules]
  · next noLimit =>
    rw [if_neg noLimit]
    split at rules
    · next reply => rw [if_pos reply, rules]
    · next noReply =>
      rw [if_neg noReply]
      split at rules
      · next batch => rw [if_pos batch, rules]
      · next noBatch => rw [if_neg noBatch, if_pos (rules ▸ waits), rules]

theorem takeFirst_append {c : OfficeClass} {f : Frame} {before after : List OfficeItem}
    (first : ∀ i ∈ before, i.cls ≠ c) :
    takeFirst c (before ++ { cls := c, frame := f } :: after) = some (f, before ++ after) := by
  induction before with
  | nil => exact if_pos rfl
  | cons i before ih =>
    rw [List.cons_append, takeFirst, if_neg (first i List.mem_cons_self),
      ih fun j hj => first j (List.mem_cons_of_mem _ hj)]
    rfl

theorem nextRun_eq (c : OfficeClass) (n : Nat) :
    nextRun c n = if c = .forwarded then 0 else if n < 4 then n + 1 else 4 := by
  cases c <;> rfl

/-- The first frame of the chosen class is sent, and the batch test is made on what it leaves. -/
theorem officeSend_eq {o : Out} {c : OfficeClass} {f : Frame} {before after : List OfficeItem} (k : Site)
    (chosen : arbitrate o = some c) (queue : o.officeQ = before ++ { cls := c, frame := f } :: after)
    (first : ∀ i ∈ before, i.cls ≠ c) :
    officeSend k o =
      tryBatch k { o with officeQ := before ++ after, runCount := nextRun c o.runCount, officeTx := wire f } := by
  simp only [officeSend, chosen, queue, takeFirst_append first]

/-! ## What the batch test adds and leaves -/

theorem tryBatch_officeTx (k : Site) (o : Out) : (tryBatch k o).officeTx = o.officeTx := by
  unfold tryBatch; split <;> rfl

/-- The batch test only appends, and only frames of the class batch. -/
theorem tryBatch_officeQ (k : Site) (o : Out) :
    ∃ batch, (tryBatch k o).officeQ = o.officeQ ++ batch ∧ ∀ i ∈ batch, i.cls = .batch := by
  unfold tryBatch
  split
  · exact ⟨_, rfl, by simp⟩
  · exact ⟨[], (List.append_nil _).symm, by simp⟩

/-! ## The run count under what a step hands over -/

theorem offerNotice_runCount (k : Site) (kind : NoticeKind) (fleet : Option Nat) (place : Option NoticePlace)
    (duty : Option Nat) (o : Out) : (offerNotice k kind fleet place duty o).runCount = o.runCount := by
  obtain ⟨_, _, _, run, _⟩ := offerNotice_frame k kind fleet place duty o
  exact run

theorem issue_runCount (g : Held) (o : Out) : (issue g o).runCount = o.runCount := by
  unfold issue; split <;> rfl

theorem boardRun_runCount (k : Site) (lines : List BoardLine) (a n : Nat) (o : Out) :
    (boardRun k lines a n o).runCount = o.runCount := by
  induction n generalizing o with
  | zero => rfl
  | succ n ih =>
    unfold boardRun
    split
    · rfl
    · split
      · rfl
      · rw [ih, issue_runCount]

theorem updateBoards_runCount (k : Site) (lines : List BoardLine) (o : Out) :
    (updateBoards k lines o).runCount = o.runCount :=
  List.foldlRecOn (motive := fun p : Out => p.runCount = o.runCount) _ _ rfl
    fun p same a _ => (boardRun_runCount k lines a _ p).trans same

theorem handOver_runCount (k : Site) (o : Out) (e : Emission) : (handOver k o e).runCount = o.runCount := by
  cases e with
  | notice kind fleet place duty => exact offerNotice_runCount ..
  | own block frame =>
    simp only [handOver]
    split
    · rfl
    · exact issue_runCount ..
  | boards lines => exact updateBoards_runCount ..

theorem handOverAll_runCount (k : Site) (l : List Emission) (o : Out) :
    (handOverAll k l o).runCount = o.runCount :=
  List.foldlRecOn (motive := fun p : Out => p.runCount = o.runCount) _ _ rfl
    fun p same e _ => (handOver_runCount k p e).trans same

/-! ## The run count under a reset and under YARD_CLEAR -/

theorem powerOnDesk_runCount (store : Option Tables) (n : Nat) : (powerOnDesk store n).out.runCount = 0 := by
  cases store with
  | none => exact offerNotice_runCount ..
  | some _ => rfl

theorem clearDesk_runCount (d : Desk) : (clearDesk d).out.runCount = d.out.runCount := by
  simp only [clearDesk, flush_out, handOverAll_runCount]

/-- A command whose handler keeps the run count keeps it: the reserved slot and the reply do not touch it. -/
theorem takeCommand_runCount {lengthOk : Nat → Bool} {h : Handler}
    (keeps : ∀ p f d, (h p f d).1.out.runCount = d.out.runCount) (f : Frame) (d : Desk) :
    (takeCommand lengthOk h f d).out.runCount = d.out.runCount := by
  have reply_keeps (a : Answer) (e : Desk) : (reply f a e).out.runCount = e.out.runCount := by
    cases a <;> rfl
  unfold takeCommand
  dsimp only
  split
  · rw [reply_keeps, keeps]; rfl
  · rw [reply_keeps]; rfl

theorem execYardClear_runCount {s t : State} (h : execYardClear s = .next t) : t.out.runCount = s.out.runCount := by
  unfold execYardClear at h
  rcases officeStep_cases (ofKind kindYardClear) (· == 0) (fun _ _ d => (clearDesk d, plain .ok)) s with
    idle | ⟨f, rest, _, _, taken⟩
  · cases idle.symm.trans h; rfl
  · cases taken.symm.trans h
    exact takeCommand_runCount (fun _ _ d => clearDesk_runCount d) f s.desk

/-- Settles O14: the arbiter chooses the class the rules name, the first frame of it leaves, and the batch test made on
the rest keeps the run count, the bytes sent and field egress; the other two parts are the run count's lemmas. -/
theorem officeArbiter : Obligations.OfficeArbiter := by
  refine ⟨fun s c f before after queue first rules => ?send, fun r1 r0 s t h => ?reset, fun s t h => ?clear⟩
  case send =>
    have chosen : arbitrate s.out = some c := arbitrate_eq_some ⟨_, queue ▸ List.mem_append_cons_self, rfl⟩ rules
    have sent := officeSend_eq s.site chosen queue first
    rw [nextRun_eq] at sent
    obtain ⟨batch, rest, only⟩ : ∃ batch,
        (officeSend s.site s.out).officeQ = before ++ after ++ batch ∧ ∀ i ∈ batch, i.cls = .batch := by
      rw [sent]
      exact tryBatch_officeQ s.site _
    refine ⟨{ s with out := officeSend s.site s.out }, batch, rfl, ?_, rest, only, ?_, sent, ?_, rfl, rfl, rfl⟩
    · rw [sent, tryBatch_officeTx]
    · rw [sent, tryBatch_runCount]
    · rw [sent, tryBatch_fieldQ]
  case reset =>
    cases h
    exact powerOnDesk_runCount ..
  case clear => exact execYardClear_runCount h

end Sys2Proof.Machine

/-! The placement score (R70 to R72): the three cases of the time term, the room term, and the greatest and least values
of both and of their sum. -/

namespace Sys2Proof.Machine

section Score

variable {k : Site} {departure t spare : Nat} {tail : Option Nat}

/-! ## The time term -/

@[simp] theorem timeTerm_none : timeTerm k departure none = setting k 2 := rfl

/-- The term of a lane with slack. -/
theorem timeTerm_of_le (slack : t ≤ departure) :
    timeTerm k departure (some t) = (departure - t) * setting k 3 / 16 := if_pos slack

/-- The term of a blocking lane. -/
theorem timeTerm_of_lt (blocking : departure < t) :
    timeTerm k departure (some t) = 40960 + (t - departure) * 16 := if_neg (Nat.not_le_of_lt blocking)

theorem timeTerm_le_of_le (slack : t ≤ departure) (weight : setting k 3 ≤ 255) (day : departure ≤ 1440) :
    timeTerm k departure (some t) ≤ 22950 := by
  have product : (departure - t) * setting k 3 ≤ 1440 * 255 :=
    Nat.mul_le_mul (Nat.le_trans (Nat.sub_le ..) day) weight
  rw [timeTerm_of_le slack]
  omega

theorem le_timeTerm_of_lt (blocking : departure < t) : 40976 ≤ timeTerm k departure (some t) := by
  rw [timeTerm_of_lt blocking]
  omega

/-- At most `minutes` overtaken minutes, the day's 1440 or a tolerance of 255, bound the blocking term. -/
theorem timeTerm_le_of_lt {minutes : Nat} (blocking : departure < t) (late : t - departure ≤ minutes) :
    timeTerm k departure (some t) ≤ 40960 + minutes * 16 := by
  rw [timeTerm_of_lt blocking]
  omega

/-! ## The room term and the score -/

theorem roomTerm_le {room weight : Nat} (hs : spare ≤ room) (hw : setting k 4 ≤ weight) :
    roomTerm k spare ≤ room * weight / 64 := Nat.div_le_div_right (Nat.mul_le_mul hs hw)

theorem score_le_max : score k departure tail spare ≤ 65535 := Nat.min_le_left ..

theorem score_le_add {a b : Nat} (time : timeTerm k departure tail ≤ a) (room : roomTerm k spare ≤ b) :
    score k departure tail spare ≤ a + b := Nat.le_trans (Nat.min_le_right ..) (Nat.add_le_add time room)

/-- Saturation does not take the score below a bound of the time term. -/
theorem le_score {a : Nat} (word : a ≤ 65535) (time : a ≤ timeTerm k departure tail) :
    a ≤ score k departure tail spare := Nat.le_min.mpr ⟨word, Nat.le_add_right_of_le time⟩

/-! ## The score of a lane -/

/-- An eligible lane has the room of the vehicle and its gap left (R68). -/
theorem eligible_room {y : Yard} {v : Vehicle} {l : Lane} (h : eligible k y v l = true) :
    occupied k y l + (v.entry.length + gap k) ≤ l.entry.capacity := by
  simp only [eligible, Bool.and_eq_true, decide_eq_true_eq] at h
  obtain ⟨_, room⟩ := h
  rwa [← Nat.add_assoc]

/-- The spare room of R72: what remains of the capacity, less the vehicle and its gap. -/
theorem laneScore_eq (y : Yard) (v : Vehicle) (l : Lane) :
    laneScore k y v l = score k (departureOf y v.entry.fleet) (laneTail y l)
      (l.entry.capacity - occupied k y l - (v.entry.length + gap k)) := by
  rw [laneScore, Nat.sub_sub, Nat.add_assoc]

end Score

/-- Settles O20: the terms by their equations; each greatest score is the greatest time term of its case and the greatest
room term, added. -/
theorem placementScore : Obligations.Score := by
  intro k departure tail spare
  refine ⟨?empty, ?slack, ?blocking, rfl, rfl, fun y v l fits => ⟨eligible_room fits, laneScore_eq y v l⟩, ?bounds⟩
  case empty => rintro rfl; exact timeTerm_none
  case slack => rintro t rfl le; exact timeTerm_of_le le
  case blocking => rintro t rfl lt; exact timeTerm_of_lt lt
  case bounds =>
    intro emptyWeight slackWeight roomWeight departureDay tailDay spareRoom
    have room : roomTerm k spare ≤ 9642 := roomTerm_le spareRoom roomWeight
    refine ⟨room, ?ofEmpty, ?ofSlack, ?ofBlocking⟩
    case ofEmpty => rintro rfl; exact score_le_add emptyWeight room
    case ofSlack =>
      rintro t rfl le
      have time := timeTerm_le_of_le le slackWeight departureDay
      exact ⟨time, score_le_add time room⟩
    case ofBlocking =>
      rintro t rfl lt
      have least : 40976 ≤ timeTerm k departure (some t) := le_timeTerm_of_lt lt
      have greatest : timeTerm k departure (some t) ≤ 64000 :=
        timeTerm_le_of_lt lt (Nat.le_trans (Nat.sub_le ..) (tailDay t rfl))
      exact ⟨least, greatest, timeTerm_le_of_lt lt, le_score (by decide) least, score_le_max,
        fun standard => score_le_add greatest (roomTerm_le spareRoom (Nat.le_of_eq standard))⟩

end Sys2Proof.Machine

/-! The stage time of a wash (R107): the length factor and its extremes, the seconds of a stage before the clamp, and the
growth of each with the length of the bus. -/

namespace Sys2Proof.Machine

/-! ## The clamp -/

theorem clampTo_eq {lo hi : Nat} (order : lo ≤ hi) (n : Nat) : clampTo lo hi n = max lo (min hi n) := by
  unfold clampTo
  split
  case isTrue below => omega
  case isFalse =>
    split
    case isTrue above => omega
    case isFalse => omega

section WashTime

variable {lb lb' lref lref' : Nat} {st : Stage}

/-! ## The length factor -/

/-- The factor grows with the length of the bus and falls with the reference length. -/
theorem lengthFactor_le (longer : lb ≤ lb') (shorterRef : lref' ≤ lref) (positive : lref' ≠ 0) :
    lengthFactor lb lref ≤ lengthFactor lb' lref' :=
  Nat.div_le_div (Nat.mul_le_mul_left 1024 longer) shorterRef positive

/-- At the reference length the factor is the 1024 that the stage time divides by. -/
theorem lengthFactor_self (positive : 0 < lref) : lengthFactor lref lref = 1024 := Nat.mul_div_left 1024 positive

/-- The least factor is that of the shortest bus and the greatest reference length. -/
theorem le_lengthFactor (bus : 80 ≤ lb) (positive : lref ≠ 0) (ref : lref ≤ 200) : 409 ≤ lengthFactor lb lref :=
  calc 409 = lengthFactor 80 200 := rfl
    _ ≤ lengthFactor lb lref := lengthFactor_le bus ref positive

/-- The greatest factor is that of the longest bus and the least reference length. -/
theorem lengthFactor_le_greatest (bus : lb ≤ 200) (ref : 60 ≤ lref) : lengthFactor lb lref ≤ 3413 :=
  calc lengthFactor lb lref ≤ lengthFactor 200 60 := lengthFactor_le bus ref (by decide)
    _ = 3413 := rfl

/-! ## The stage time -/

/-- The seconds of a stage before the clamp (R107), at the length factor `f`. -/
def unclampedTime (f : Nat) (st : Stage) : Nat := if st.scales then (st.base * f + 1023) / 1024 else st.base

theorem stageTime_eq (lb lref : Nat) (st : Stage) :
    stageTime lb lref st = max 5 (min 900 (unclampedTime (lengthFactor lb lref) st)) := clampTo_eq (by decide) _

theorem unclampedTime_of_not_scales (f : Nat) (fixed : st.scales = false) : unclampedTime f st = st.base := by
  simp [unclampedTime, fixed]

/-- The time of a stage that scales is the quotient rounded up: the least number of seconds that reaches the product. -/
theorem unclampedTime_of_scales (f : Nat) (scaled : st.scales = true) :
    1024 * unclampedTime f st < st.base * f + 1024 ∧ st.base * f ≤ 1024 * unclampedTime f st := by
  have rounded : unclampedTime f st = (st.base * f + 1023) / 1024 := if_pos scaled
  omega

theorem unclampedTime_le {f f' : Nat} (le : f ≤ f') (st : Stage) : unclampedTime f st ≤ unclampedTime f' st := by
  unfold unclampedTime
  split
  case isTrue scaled =>
    exact Nat.div_le_div_right (Nat.add_le_add_right (Nat.mul_le_mul_left st.base le) 1023)
  case isFalse fixed => exact Nat.le_refl _

theorem five_le_stageTime (lb lref : Nat) (st : Stage) : 5 ≤ stageTime lb lref st :=
  stageTime_eq lb lref st ▸ Nat.le_max_left ..

theorem stageTime_le_900 (lb lref : Nat) (st : Stage) : stageTime lb lref st ≤ 900 :=
  stageTime_eq lb lref st ▸ Nat.max_le.mpr ⟨by decide, Nat.min_le_left ..⟩

/-- A longer bus is never washed for less: the factor, the rounded quotient and the clamp all keep the order. -/
theorem stageTime_le (longer : lb ≤ lb') (positive : lref ≠ 0) (st : Stage) :
    stageTime lb lref st ≤ stageTime lb' lref st := by
  have seconds := unclampedTime_le (lengthFactor_le longer (Nat.le_refl lref) positive) st
  rw [stageTime_eq, stageTime_eq]
  omega

end WashTime

/-- Settles O36: the factor's bounds are its values at the two extremes of the table ranges, the time of either kind of
stage is the clamp of its unclamped time, and each step of the computation grows with the length. -/
theorem stageTime_spec : Obligations.StageTime := by
  intro lb lref st busLeast busGreatest refLeast refGreatest
  have positive : 0 < lref := Nat.lt_of_lt_of_le (by decide) refLeast
  refine ⟨rfl, le_lengthFactor busLeast (Nat.ne_of_gt positive) refGreatest, lengthFactor_le_greatest busGreatest refLeast,
    ?reference, ?scales, ?fixed, five_le_stageTime lb lref st, stageTime_le_900 lb lref st,
    fun lb' longer => stageTime_le longer (Nat.ne_of_gt positive) st⟩
  case reference => rintro rfl; exact lengthFactor_self positive
  case scales =>
    intro scaled
    obtain ⟨least, reaches⟩ := unclampedTime_of_scales (lengthFactor lb lref) scaled
    exact ⟨_, least, reaches, stageTime_eq lb lref st⟩
  case fixed =>
    intro fixed
    rw [stageTime_eq, unclampedTime_of_not_scales _ fixed]

end Sys2Proof.Machine

/-! The two tests of R120: when a vehicle is ready for a duty; at which front it stands, a lane's or the apron. -/

namespace Sys2Proof.Machine

/-! ## Ready for a duty -/

/-- The four conditions of R120, in the order of its table; an unknown fuel level is never enough. -/
theorem ready_iff {v : Vehicle} {d : Duty} : ready v d = true ↔
    v.entry.outOfService = false ∧ inMask d.entry.mask v.entry.cls = true ∧
    (∃ l, v.level = some l ∧ d.entry.fuel ≤ l) ∧ (d.entry.wash = false ∨ v.daysSinceWash = 0) := by
  cases level : v.level with
  | none => simp [ready, level]
  | some l => simp [ready, level, and_assoc]

/-! ## The front of a lane -/

section Front

variable {y : Yard} {v : Vehicle} {l : Lane} {f n : Nat}

theorem frontVehicle_eq_some_iff :
    frontVehicle l = some f ↔ ∃ i rest, l.items = i :: rest ∧ i.vehicle = some f := by
  cases items : l.items with
  | nil => simp [frontVehicle, items]
  | cons i rest => simp [frontVehicle, items]

/-- A lane whose list is trusted, being OPEN or CLOSED, has the vehicle at position 1 (R120). -/
def HasAtFront (f : Nat) (l : Lane) : Prop :=
  (l.status = .opened ∨ l.status = .closed) ∧ frontVehicle l = some f

theorem hasAtFront_iff : HasAtFront f l ↔
    (l.status = .opened ∨ l.status = .closed) ∧ ∃ i rest, l.items = i :: rest ∧ i.vehicle = some f :=
  and_congr_right' frontVehicle_eq_some_iff

/-- A status that is not UNVERIFIED is one of the other two, so the model's test on a lane is `HasAtFront`. -/
theorem frontTest_iff : (l.status != .unverified && frontVehicle l == some f) = true ↔ HasAtFront f l := by
  cases status : l.status <;> simp [HasAtFront, status]

theorem frontLane_isSome_iff : (frontLane y f).isSome = true ↔ ∃ p ∈ y.lanes, HasAtFront f p.2 := by
  simp only [frontLane, tfind, Option.isSome_map, List.find?_isSome, frontTest_iff]

theorem exists_mem_of_frontLane (found : frontLane y f = some n) : ∃ l, (n, l) ∈ y.lanes ∧ HasAtFront f l := by
  obtain ⟨⟨_, l⟩, first, rfl⟩ := Option.map_eq_some_iff.mp found
  obtain ⟨mem, test⟩ := mem_of_tfind first
  exact ⟨l, mem, frontTest_iff.mp test⟩

/-- The first lane that has the vehicle at its front is the lane found. -/
theorem frontLane_eq_of_first {before after : Table Lane} (lanes : y.lanes = before ++ (n, l) :: after)
    (has : HasAtFront f l) (first : ∀ p ∈ before, ¬HasAtFront f p.2) : frontLane y f = some n := by
  have found : tfind y.lanes (fun l => l.status != .unverified && frontVehicle l == some f) = some (n, l) :=
    List.find?_eq_some_iff_append.mpr ⟨frontTest_iff.mpr has, before, after, lanes, fun p mem => by
      simpa only [← frontTest_iff, Bool.not_eq_true, Bool.not_eq_true'] using first p mem⟩
  rw [frontLane, found, Option.map_some]

/-! ## The front of a vehicle -/

/-- The two ways to be at a front, and the stand of each: only PARKED and APRON have one (R120). -/
theorem atFront_eq_some_iff {stand : Stand} : atFront y v = some stand ↔
    (v.state = .parked ∧ ∃ n, frontLane y v.entry.fleet = some n ∧ stand = .lane n) ∨
    (v.state = .apron ∧ v.entry.fleet ∈ y.apron ∧ stand = .apron) := by
  unfold atFront
  split
  next parked =>
    constructor
    · intro front
      obtain ⟨n, lane, rfl⟩ := Option.map_eq_some_iff.mp front
      exact .inl ⟨parked, n, lane, rfl⟩
    · rintro (⟨-, n, lane, rfl⟩ | ⟨apron, -⟩)
      · exact Option.map_eq_some_iff.mpr ⟨n, lane, rfl⟩
      · exact absurd (parked.symm.trans apron) (by decide)
  next apron =>
    constructor
    · intro front
      obtain ⟨listed, stands⟩ := Option.ite_none_right_eq_some.mp front
      exact .inr ⟨apron, List.contains_iff_mem.mp listed, (Option.some.inj stands).symm⟩
    · rintro (⟨parked, -⟩ | ⟨-, listed, rfl⟩)
      · exact absurd (apron.symm.trans parked) (by decide)
      · exact if_pos (List.contains_iff_mem.mpr listed)
  next notParked notApron =>
    constructor
    · exact nofun
    · rintro (⟨parked, -⟩ | ⟨apron, -⟩)
      · exact absurd parked notParked
      · exact absurd apron notApron

theorem atFront_eq_lane_iff :
    atFront y v = some (.lane n) ↔ v.state = .parked ∧ frontLane y v.entry.fleet = some n := by
  simp [atFront_eq_some_iff]

theorem atFront_eq_apron_iff : atFront y v = some .apron ↔ v.state = .apron ∧ v.entry.fleet ∈ y.apron := by
  simp [atFront_eq_some_iff]

theorem atFront_ne_exit : atFront y v ≠ some .exit := by
  simp [atFront_eq_some_iff]

theorem atFront_isSome_iff : (atFront y v).isSome = true ↔
    (v.state = .parked ∧ ∃ p ∈ y.lanes, HasAtFront v.entry.fleet p.2) ∨
    (v.state = .apron ∧ v.entry.fleet ∈ y.apron) := by
  rw [← frontLane_isSome_iff, Option.isSome_iff_exists, Option.isSome_iff_exists]
  constructor
  · rintro ⟨stand, front⟩
    obtain ⟨parked, n, lane, -⟩ | ⟨apron, listed, -⟩ := atFront_eq_some_iff.mp front
    · exact .inl ⟨parked, n, lane⟩
    · exact .inr ⟨apron, listed⟩
  · rintro (⟨parked, n, lane⟩ | apron)
    · exact ⟨.lane n, atFront_eq_lane_iff.mpr ⟨parked, lane⟩⟩
    · exact ⟨.apron, atFront_eq_apron_iff.mpr apron⟩

end Front

/-- Settles O47: readiness by its four conditions; the front by the ways to be at one, a lane's being the only lane that has
the vehicle at position 1, which is then the first. -/
theorem readyAndAtFront : Obligations.ReadyAndAtFront := by
  refine ⟨fun v d => ready_iff, fun y v => ⟨atFront_isSome_iff, ?lane, ?only, atFront_eq_apron_iff, atFront_ne_exit⟩⟩
  case lane =>
    intro n front
    obtain ⟨parked, found⟩ := atFront_eq_lane_iff.mp front
    obtain ⟨l, mem, has⟩ := exists_mem_of_frontLane found
    exact ⟨parked, l, mem, hasAtFront_iff.mp has⟩
  case only =>
    intro before n l after parked lanes stands alone
    have first : ∀ p ∈ before, ¬HasAtFront v.entry.fleet p.2 := fun p mem has =>
      alone p (List.mem_append_left after mem) (hasAtFront_iff.mp has)
    exact atFront_eq_lane_iff.mpr ⟨parked, frontLane_eq_of_first lanes (hasAtFront_iff.mpr stands) first⟩

end Sys2Proof.Machine

/-! What a command may do to the part: one relation for the site, one for the yard and the sending side, and one step lemma for
every form a command takes (a field row, an office row, a timer, the clock). The invariants of the step follow from it. -/

namespace Sys2Proof.Machine

/-! ## Conditionals and lists -/

/-- Two conditionals with equivalent tests and the same branches. -/
theorem ite_congr_iff {α : Type} {c d : Prop} [Decidable c] [Decidable d] (tests : c ↔ d) (a b : α) :
    (if c then a else b) = if d then a else b :=
  ite_congr (propext tests) (fun _ => rfl) fun _ => rfl

theorem flatMap_congr_mem {α β : Type} {l : List α} {f g : α → List β} (same : ∀ a ∈ l, f a = g a) :
    l.flatMap f = l.flatMap g := by
  rw [List.flatMap_def, List.flatMap_def, List.map_congr_left same]

theorem filterMap_congr_mem {α β : Type} {l : List α} {f g : α → Option β} (same : ∀ a ∈ l, f a = g a) :
    l.filterMap f = l.filterMap g := by
  induction l with
  | nil => rfl
  | cons a l ih =>
    rw [List.filterMap_cons, List.filterMap_cons, same a List.mem_cons_self, ih fun b mem => same b (List.mem_cons_of_mem a mem)]

/-- A list without repeats is no longer than one that holds its members. -/
theorem length_le_of_nodup {l m : List Nat} (nodup : l.Nodup) (holds : ∀ a ∈ l, a ∈ m) : l.length ≤ m.length := by
  induction l generalizing m with
  | nil => exact Nat.zero_le _
  | cons a l ih =>
    obtain ⟨fresh, nodup⟩ := List.nodup_cons.mp nodup
    have here : a ∈ m := holds a List.mem_cons_self
    have others : l.length ≤ (m.erase a).length := ih nodup fun b mem =>
      (List.mem_erase_of_ne (by rintro rfl; exact fresh mem)).mpr (holds b (List.mem_cons_of_mem a mem))
    have shorter : (m.erase a).length = m.length - 1 := List.length_erase_of_mem here
    have filled : 0 < m.length := List.length_pos_of_mem here
    rw [List.length_cons]
    omega

/-! ## The site -/

/-- The table fields of the site, its store and its commit are the same. -/
structure SameSite (k l : Site) : Prop where
  classes : l.classes = k.classes
  mouths : tableWf k.mouths → tmap l.mouths (·.entry) = tmap k.mouths (·.entry)
  stations : tmap l.stations (·.entry) = tmap k.stations (·.entry)
  forwarding : l.forwarding = k.forwarding
  programs : l.programs = k.programs
  settings : l.settings = k.settings
  store : l.store = k.store
  commit : l.commit = k.commit

/-- A full place rewritten without a change of what `g` reads. -/
theorem tmap_tset_of_tget {α β : Type} {g : α → β} {t : Table α} {n : Nat} {a b : α} (wf : tableWf t)
    (ha : tget t n = some a) (hb : g b = g a) : tmap (tset t n b) g = tmap t g := by
  induction t with
  | nil => simp at ha
  | cons p t ih =>
    obtain ⟨j, w⟩ := p
    have above : ∀ q ∈ t, j < q.1 := fun q hq => (List.pairwise_cons.mp wf).1 q.1 (List.mem_map_of_mem hq)
    rw [tget_cons] at ha
    unfold tset
    split at ha
    · next same =>
      cases ha
      simp [same, tmap, hb]
    · next other =>
      have later : j < n := above _ (mem_of_tget ha)
      rw [if_neg (by omega), if_neg (by omega)]
      exact congrArg ((j, g w) :: ·) (ih (List.pairwise_cons.mp wf).2 ha)

namespace SameSite

theorem refl (k : Site) : SameSite k k := ⟨rfl, fun _ => rfl, rfl, rfl, rfl, rfl, rfl, rfl⟩

theorem mouths_wf {k l : Site} (h : SameSite k l) (wf : tableWf k.mouths) : tableWf l.mouths :=
  tableWf_of_tmap (f := (·.entry)) (h.mouths wf ▸ tableWf_tmap _ wf)

theorem trans {k l m : Site} (h : SameSite k l) (g : SameSite l m) : SameSite k m :=
  ⟨g.classes.trans h.classes, fun wf => (g.mouths (h.mouths_wf wf)).trans (h.mouths wf), g.stations.trans h.stations,
    g.forwarding.trans h.forwarding, g.programs.trans h.programs, g.settings.trans h.settings, g.store.trans h.store,
    g.commit.trans h.commit⟩

/-- The clock, the timebase, the concentrators, the tag memory and the cursors are no table field. -/
theorem other {k l : Site} (h1 : l.classes = k.classes) (h2 : l.mouths = k.mouths) (h3 : l.stations = k.stations)
    (h4 : l.forwarding = k.forwarding) (h5 : l.programs = k.programs) (h6 : l.settings = k.settings)
    (h7 : l.store = k.store) (h8 : l.commit = k.commit) : SameSite k l :=
  ⟨h1, fun _ => by rw [h2], by rw [h3], h4, h5, h6, h7, h8⟩

/-- A full mouth is rewritten under its own entry. -/
theorem setMouth {k : Site} {n : Nat} {m m' : Mouth} (hm : tget k.mouths n = some m) (he : m'.entry = m.entry) :
    SameSite k { k with mouths := tset k.mouths n m' } :=
  ⟨rfl, fun wf => tmap_tset_of_tget wf hm he, rfl, rfl, rfl, rfl, rfl, rfl⟩

theorem mapMouths (k : Site) {g : Mouth → Mouth} (hg : ∀ m, (g m).entry = m.entry) (c : Table Concentrator) :
    SameSite k { k with concentrators := c, mouths := tmap k.mouths g } :=
  ⟨rfl, fun _ => by simp [hg], rfl, rfl, rfl, rfl, rfl, rfl⟩

theorem setMode (a : Nat) (manual : Bool) (k : Site) : SameSite k (setMode a manual k) := by
  refine ⟨rfl, fun _ => rfl, ?_, rfl, rfl, rfl, rfl, rfl⟩
  unfold Machine.setMode
  rw [tmap_tmap]
  exact tmap_congr fun p _ => by split <;> rfl

theorem clearSite (k : Site) : SameSite k (clearSite k) :=
  ⟨rfl, fun _ => by simp [Machine.clearSite, resetMouth], by simp [Machine.clearSite], rfl, rfl, rfl, rfl, rfl⟩

end SameSite

/-! ## The site and the yard -/

/-- No table field has changed, the bounds of the yard's collections are kept, and nothing is left to hand over. -/
structure Same (a b : Site × Yard) : Prop where
  site : SameSite a.1 b.1
  yard : Work a.2 b.2
  emits : a.2.emits = [] → b.2.emits = []

/-- The image of the retained tables is made of table fields. -/
theorem imageOf_same {k l : Site} {y z : Yard} (hk : SameSite k l) (hy : Work y z) (wf : tableWf k.mouths) (o p : Out) :
    imageOf { out := p, site := l, yard := z } = imageOf { out := o, site := k, yard := y } := by
  simp only [imageOf, hy.roster, hy.lanes, hy.islands, hy.washLanes, hk.classes, hk.mouths wf, hk.stations,
    hk.forwarding, hk.programs, hk.settings]

/-- The tables that are not retained in the store, and those that are, are in order. -/
structure LiveOk (k : Site) (y : Yard) : Prop where
  live : ImageOk (imageOf { out := .reset, site := k, yard := y })
  bankA : tableWf y.bankA
  bankB : tableWf y.bankB

/-- The tables stay in order and the collections within their bounds; the store and a commit in flight stay as they are. -/
structure Keeps (a b : Site × Yard) : Prop where
  tables : LiveOk a.1 a.2 → LiveOk b.1 b.2
  yard : LiveOk a.1 a.2 → YardOk a.2 → YardOk b.2
  store : b.1.store = a.1.store
  commit : b.1.commit = a.1.commit

namespace LiveOk

variable {k l : Site} {y z : Yard}

theorem mouths (ok : LiveOk k y) : tableWf k.mouths := tableWf_of_tmap ok.live.loopMap

theorem bounded (ok : LiveOk k y) (h : YardOk y) : Bounded y :=
  ⟨tableWf_of_tmap ok.live.lanes, h.lanes, h.apron, h.departing, h.fuelQ, h.washQ⟩

/-- The table fields alone decide whether the tables are in order. -/
theorem work (ok : LiveOk k y) (hk : SameSite k l) (hy : Work y z) : LiveOk l z :=
  ⟨imageOf_same hk hy ok.mouths .reset .reset ▸ ok.live,
    tableWf_of_tmap (f := (·.entry)) (hy.bankA ▸ tableWf_tmap _ ok.bankA),
    tableWf_of_tmap (f := (·.entry)) (hy.bankB ▸ tableWf_tmap _ ok.bankB)⟩

end LiveOk

namespace Same

variable {a b c : Site × Yard}

theorem refl (a : Site × Yard) : Same a a := ⟨.refl _, .refl _, id⟩

theorem trans (h : Same a b) (g : Same b c) : Same a c :=
  ⟨h.site.trans g.site, h.yard.trans g.yard, fun e => g.emits (h.emits e)⟩

theorem keeps (h : Same a b) : Keeps a b where
  tables ok := ok.work h.site h.yard
  yard ok y :=
    have bounds := h.yard.bounds (ok.bounded y)
    ⟨bounds.lanes, bounds.apron, bounds.departing, bounds.fuelQ, bounds.washQ, h.emits y.emits⟩
  store := h.site.store
  commit := h.site.commit

end Same

namespace Keeps

variable {a b c : Site × Yard}

theorem refl (a : Site × Yard) : Keeps a a := (Same.refl a).keeps

theorem trans (h : Keeps a b) (g : Keeps b c) : Keeps a c :=
  ⟨fun ok => g.tables (h.tables ok), fun ok y => g.yard (h.tables ok) (h.yard ok y), g.store.trans h.store,
    g.commit.trans h.commit⟩

end Keeps

/-! ## The desk -/

/-- The site and the yard of a desk. -/
def Desk.ground (d : Desk) : Site × Yard := (d.site, d.yard)

/-- The bounds of the sending side are kept, and the site and the yard are related by `R`. -/
structure DeskStep (R : Site × Yard → Site × Yard → Prop) (d e : Desk) : Prop where
  out : ∀ r, OutOk r d.out → OutOk r e.out
  ground : R d.ground e.ground

namespace DeskStep

variable {d e f : Desk}

theorem refl (d : Desk) : DeskStep Same d d := ⟨fun _ h => h, .refl _⟩

theorem trans (h : DeskStep Same d e) (g : DeskStep Same e f) : DeskStep Same d f :=
  ⟨fun r o => g.out r (h.out r o), h.ground.trans g.ground⟩

theorem keeps (h : DeskStep Same d e) : DeskStep Keeps d e := ⟨h.out, h.ground.keeps⟩

theorem reflKeeps (d : Desk) : DeskStep Keeps d d := (refl d).keeps

theorem transKeeps (h : DeskStep Keeps d e) (g : DeskStep Keeps e f) : DeskStep Keeps d f :=
  ⟨fun r o => g.out r (h.out r o), h.ground.trans g.ground⟩

/-- Only the sending side has changed. -/
theorem setOut {o : Out} (h : ∀ r, OutOk r d.out → OutOk r o) : DeskStep Same d { d with out := o } := ⟨h, .refl _⟩

theorem setSite {k : Site} (h : SameSite d.site k) : DeskStep Same d { d with site := k } :=
  ⟨fun _ o => o, h, .refl _, id⟩

/-- A step on the site and the yard, settled. -/
theorem settle {k : Site} {y : Yard} (hk : SameSite d.site k) (hy : Work d.yard y) :
    DeskStep Same d (settle { d with site := k, yard := y }) :=
  ⟨fun _ o => OutOk.settle (d := { d with site := k, yard := y }) o,
    hk, Work.settle (d := { d with site := k, yard := y }) hy, fun _ => rfl⟩

theorem settleYard {y : Yard} (hy : Work d.yard y) : DeskStep Same d (Machine.settle { d with yard := y }) :=
  settle (.refl _) hy

/-- A step on the site and the yard, handed over. -/
theorem flush {k : Site} {y : Yard} (hk : SameSite d.site k) (hy : Work d.yard y) :
    DeskStep Same d (flush { d with site := k, yard := y }) :=
  ⟨fun _ o => OutOk.flush (d := { d with site := k, yard := y }) o,
    hk, Work.flush (d := { d with site := k, yard := y }) hy, fun _ => rfl⟩

theorem onYard {g : Site → Yard → Yard} (hg : ∀ k y, Work y (g k y)) (d : Desk) : DeskStep Same d (onYard g d) :=
  settleYard (hg d.site d.yard)

theorem notify (kind : NoticeKind) (place : Option NoticePlace) (d : Desk) : DeskStep Same d (notify kind place d) :=
  setOut fun _ o => o.offerNotice ..

theorem forward (f : Frame) (n : Note) (d : Desk) : DeskStep Same d (forward f n d) :=
  ⟨fun _ o => OutOk.forward f n o, by
    rw [Desk.ground, Desk.ground, forward_site, forward_yard]
    exact .refl _⟩

end DeskStep

/-! ## A command -/

/-- Both ingress queues are within their bounds. -/
def RxOk (x : Rx) : Prop := x.field.ingress.length ≤ Config.ingressCap ∧ x.office.ingress.length ≤ Config.ingressCap

/-- The queue of commands is left as it was, the bounds of ingress are kept, and the desk takes a step. -/
structure StateStep (R : Site × Yard → Site × Yard → Prop) (s t : State) : Prop where
  pending : t.pending = s.pending
  rx : RxOk s.rx → RxOk t.rx
  desk : DeskStep R s.desk t.desk

/-- The command answers a next state, which `P` relates to the state before. -/
def Answers (P : State → State → Prop) (s : State) (o : Host.Outcome State Fault Refusal) : Prop :=
  ∃ t, o = .next t ∧ P s t

/-- The step of a command that keeps every table field. -/
abbrev Steps (s : State) (o : Host.Outcome State Fault Refusal) : Prop := Answers (StateStep Same) s o

namespace StateStep

variable {R : Site × Yard → Site × Yard → Prop} {s : State}

theorem refl (s : State) : StateStep Same s s := ⟨rfl, id, .refl _⟩

theorem keeps {t : State} (h : StateStep Same s t) : StateStep Keeps s t := ⟨h.pending, h.rx, h.desk.keeps⟩

theorem withDesk {d : Desk} (h : DeskStep R s.desk d) : StateStep R s (s.withDesk d) := ⟨rfl, id, h⟩

theorem ofOut {o : Out} (h : ∀ r, OutOk r s.out → OutOk r o) : StateStep Same s { s with out := o } :=
  withDesk (.setOut h)

end StateStep

section Rows

variable {s : State}

theorem Steps.idle (s : State) : Steps s (.next s) := ⟨s, rfl, .refl s⟩

/-- A timer of the part: what it changes is settled. -/
theorem Steps.timer {k : Site} {y : Yard} (hk : SameSite s.site k) (hy : Work s.yard y) :
    Steps s (next s (settle { out := s.out, site := k, yard := y })) :=
  ⟨_, rfl, .withDesk (d := settle { s.desk with site := k, yard := y }) (.settle hk hy)⟩

theorem Steps.onYard {g : Site → Yard → Yard} (hg : Work s.yard (g s.site s.yard)) :
    Steps s (next s (onYard g s.desk)) :=
  ⟨_, rfl, .withDesk (.settleYard hg)⟩

/-- A field row takes the frame or leaves it (R32, log 2). -/
theorem Steps.fieldRow {wants : FieldRow → Bool} {take : FieldRow → Frame → Desk → Desk}
    (h : ∀ r f d, DeskStep Same d (take r f d)) (s : State) : Steps s (fieldStep wants take s) := by
  obtain idle | ⟨f, rest, head, -, taken⟩ := fieldStep_cases wants take s
  · exact ⟨s, idle, .refl s⟩
  · refine ⟨_, taken, rfl, fun ok => ⟨?_, ok.2⟩, h _ f s.desk⟩
    have bound := ok.1
    rw [head] at bound
    exact Nat.le_trans (Nat.le_succ _) bound

/-- A frame an owner takes: its work is settled and the frame forwarded (R33). -/
theorem DeskStep.fieldFrame {act : FieldAct}
    (h : ∀ r f k y, SameSite k (act r f k y).1 ∧ Work y (act r f k y).2.1) (r : FieldRow) (f : Frame) (d : Desk) :
    DeskStep Same d (takeFieldFrame act r f d) := by
  obtain ⟨hk, hy⟩ := h r f d.site d.yard
  exact (DeskStep.settle hk hy).trans (.forward f _ _)

/-- A command's slot is reserved, and the reply fills it (R29). -/
theorem takeCommand_step {R : Site × Yard → Site × Yard → Prop} (hR : ∀ a, R a a) {lengthOk : Nat → Bool} {h : Handler}
    (hh : ∀ p f d, lengthOk p.length = true → DeskStep R d (h p f d).1 ∧ (h p f d).2 ≠ none) (f : Frame) {d : Desk}
    (free : 0 < officeFree d.out) : DeskStep R d (takeCommand lengthOk h f d) := by
  have reserved : ∀ r, OutOk r d.out → OutOk (r + 1) (reserveSlot d.out) := fun r o => o.reserveSlot free
  unfold takeCommand
  dsimp only
  split
  · next lengthFits =>
    obtain ⟨step, answered⟩ := hh f.payload f { d with out := reserveSlot d.out } lengthFits
    generalize h f.payload f { d with out := reserveSlot d.out } = z at step answered ⊢
    obtain ⟨e, a⟩ := z
    cases a with
    | none => exact absurd rfl answered
    | some a => exact ⟨fun r o => (step.out _ (reserved r o)).putReply _, step.ground⟩
  · exact ⟨fun r o => (reserved r o).putReply _, hR _⟩

/-- An office row takes the command, for which a slot is free, or leaves the frame. -/
theorem officeStep_answers {R : Site × Yard → Site × Yard → Prop} (hR : ∀ a, R a a) {wants : Frame → Bool}
    {lengthOk : Nat → Bool} {h : Handler}
    (hh : ∀ p f d, lengthOk p.length = true → DeskStep R d (h p f d).1 ∧ (h p f d).2 ≠ none) (s : State) :
    Answers (StateStep R) s (officeStep wants lengthOk h s) := by
  obtain idle | ⟨f, rest, head, free, taken⟩ := officeStep_cases wants lengthOk h s
  · exact ⟨s, idle, rfl, id, fun _ o => o, hR _⟩
  · refine ⟨_, taken, rfl, fun ok => ⟨ok.1, ?_⟩, takeCommand_step hR hh f (d := s.desk) free⟩
    have bound := ok.2
    rw [head] at bound
    exact Nat.le_trans (Nat.le_succ _) bound

theorem Steps.officeRow {wants : Frame → Bool} {lengthOk : Nat → Bool} {h : Handler}
    (hh : ∀ p f d, lengthOk p.length = true → DeskStep Same d (h p f d).1 ∧ (h p f d).2 ≠ none) (s : State) :
    Steps s (officeStep wants lengthOk h s) :=
  officeStep_answers Same.refl hh s

/-- A handler that works on the yard alone. -/
theorem yardHandler_step {g : List Byte → Site → Yard → Yard × Result} {p : List Byte} (f : Frame) {d : Desk}
    (hg : Work d.yard (g p d.site d.yard).1) :
    DeskStep Same d (yardHandler g p f d).1 ∧ (yardHandler g p f d).2 ≠ none := by
  unfold yardHandler
  generalize g p d.site d.yard = z at hg
  obtain ⟨y, r⟩ := z
  split
  · next taken => cases taken; exact ⟨.settleYard hg, by simp [plain]⟩
  · next taken => cases taken; exact ⟨.settleYard hg, by simp [plain]⟩
  · exact ⟨.refl d, by simp [plain]⟩

theorem Steps.yardRow {wants : Frame → Bool} {lengthOk : Nat → Bool} {g : List Byte → Site → Yard → Yard × Result}
    (hg : ∀ p k y, lengthOk p.length = true → Work y (g p k y).1) (s : State) :
    Steps s (officeStep wants lengthOk (yardHandler g) s) :=
  .officeRow (fun p f d fits => yardHandler_step f (hg p d.site d.yard fits)) s

end Rows

end Sys2Proof.Machine

/-! The step of every command: which relation of the site, the yard and the sending side it keeps. -/

namespace Sys2Proof.Machine

/-! ## Link Ports and the Notice Queue -/

theorem receive_step (p : Port) (a : Assembly × RxEvent) (s : State) : StateStep Same s (receive p a s) := by
  have bound : RxOk s.rx → (portOf s.rx p).ingress.length ≤ Config.ingressCap := fun ok => by
    cases p
    · exact ok.1
    · exact ok.2
  have setPort_ok : ∀ r : RxPort, (RxOk s.rx → r.ingress.length ≤ Config.ingressCap) →
      RxOk s.rx → RxOk (setPort p r s.rx) := fun r hr ok => by
    cases p
    · exact ⟨hr ok, ok.2⟩
    · exact ⟨ok.1, hr ok⟩
  unfold receive
  dsimp only
  split
  · exact ⟨rfl, setPort_ok _ bound, .refl _⟩
  · split
    · next room => exact ⟨rfl, setPort_ok _ fun _ => by rw [List.length_append]; exact room, .refl _⟩
    · exact ⟨rfl, setPort_ok _ bound, .setOut fun _ o => o.offerNotice ..⟩
  · exact ⟨rfl, setPort_ok _ bound, .setOut fun _ o => o.offerNotice ..⟩

theorem execNoticeHoldExpiry_steps (s : State) : Steps s (execNoticeHoldExpiry s) := by
  unfold execNoticeHoldExpiry
  split
  · exact .idle s
  · split
    · exact ⟨_, rfl, .ofOut fun _ o => o.tryBatch _⟩
    · exact .idle s

/-! ## Custody Unit -/

theorem readTag_work (k : Site) (role : Role) (sign : Option Nat) (reader fleet percent : Nat) (y : Yard) :
    Work y (readTag k role sign reader fleet percent y).1 := by
  unfold readTag
  split
  · exact (Work.refl y).raise ..
  · split
    · exact (Work.refl y).arrive ..
    · exact (Work.refl y).exitRead ..
    · exact (Work.refl y).yardRead ..

theorem tagAct_step (r : FieldRow) (f : Frame) (k : Site) (y : Yard) :
    SameSite k (tagAct r f k y).1 ∧ Work y (tagAct r f k y).2.1 := by
  unfold tagAct
  split
  · dsimp only
    split
    · exact ⟨.refl k, .refl y⟩
    · exact ⟨.other rfl rfl rfl rfl rfl rfl rfl rfl, readTag_work ..⟩
  · exact ⟨.refl k, .refl y⟩

theorem accept_step (n : Nat) (st : PairState) (k : Site) (y : Yard) :
    SameSite k (accept n st k y).1 ∧ Work y (accept n st k y).2 := by
  unfold accept
  split
  · exact ⟨.refl k, .refl y⟩
  · next m hm =>
    have site : SameSite k { k with mouths := tset k.mouths n (acceptMouth k st m) } := .setMouth hm rfl
    dsimp only
    split
    · exact ⟨site, .refl y⟩
    · exact ⟨site, (Work.refl y).mouthFault n⟩
    · exact ⟨site, ((Work.refl y).passage ..).drain _⟩

theorem debounce_step (back : Bool) (n : Nat) (k : Site) (y : Yard) :
    SameSite k (debounce back n k y).1 ∧ Work y (debounce back n k y).2 := by
  unfold debounce
  split
  · exact ⟨.refl k, .refl y⟩
  · next m hm =>
    have write : ∀ c, SameSite k { k with mouths := tset k.mouths n { m with candidate := c } } :=
      fun c => .setMouth hm rfl
    dsimp only
    split
    · split
      · exact accept_step ..
      · exact ⟨write _, .refl y⟩
    · split
      · exact ⟨.refl k, .refl y⟩
      · split
        · exact accept_step ..
        · exact ⟨write _, .refl y⟩

theorem mouthReport_step (a : Nat) (back : Bool) (p : Site × Yard) (n : Nat) :
    SameSite p.1 (mouthReport a back p n).1 ∧ Work p.2 (mouthReport a back p n).2 := by
  unfold mouthReport
  split
  · exact ⟨.refl _, .refl _⟩
  · split
    · exact debounce_step ..
    · exact ⟨.refl _, .refl _⟩

theorem foldl_mouthReport_step (a : Nat) (back : Bool) (l : List Nat) (p : Site × Yard) :
    SameSite p.1 (l.foldl (mouthReport a back) p).1 ∧ Work p.2 (l.foldl (mouthReport a back) p).2 := by
  induction l generalizing p with
  | nil => exact ⟨.refl _, .refl _⟩
  | cons n l ih =>
    obtain ⟨site, yard⟩ := mouthReport_step a back p n
    obtain ⟨siteRest, yardRest⟩ := ih (mouthReport a back p n)
    exact ⟨site.trans siteRest, yard.trans yardRest⟩

theorem loopAct_step (r : FieldRow) (f : Frame) (k : Site) (y : Yard) :
    SameSite k (loopAct r f k y).1 ∧ Work y (loopAct r f k y).2.1 := by
  unfold loopAct loopReport
  dsimp only
  generalize tset k.concentrators _ _ = stored
  obtain ⟨site, yard⟩ := foldl_mouthReport_step f.src.toNat (silentAt k f.src.toNat) (k.mouths.map (·.1))
    ({ k with concentrators := stored }, y)
  have store : SameSite k { k with concentrators := stored } := .other rfl rfl rfl rfl rfl rfl rfl rfl
  exact ⟨store.trans site, yard⟩

theorem execDebounceExpiry_steps (mouth : Nat) (s : State) : Steps s (execDebounceExpiry mouth s) := by
  unfold execDebounceExpiry
  split
  · exact .idle s
  · split
    · exact .idle s
    · split
      · exact .timer (accept_step ..).1 (accept_step ..).2
      · exact .idle s

theorem execStuckTimerExpiry_steps (mouth : Nat) (s : State) : Steps s (execStuckTimerExpiry mouth s) := by
  unfold execStuckTimerExpiry
  split
  · exact .idle s
  · next m hm =>
    split
    · exact .idle s
    · split
      · exact .timer (.setMouth hm rfl) ((Work.refl _).raise ..)
      · exact .idle s

theorem enterSilence_same (a : Nat) (k : Site) : SameSite k (enterSilence a k) :=
  .mapMouths k (fun m => by split <;> rfl) _

theorem execSilenceTimerExpiry_steps (station : Nat) (s : State) : Steps s (execSilenceTimerExpiry station s) := by
  unfold execSilenceTimerExpiry
  split
  · exact .idle s
  · split
    · exact .idle s
    · split
      · exact .timer (enterSilence_same ..) ((Work.refl _).raise ..)
      · exact .idle s

theorem execPendingTimeout_steps (lane : Nat) (s : State) : Steps s (execPendingTimeout lane s) := by
  unfold execPendingTimeout
  split
  · exact .idle s
  · split
    · exact .onYard ((Work.refl _).stowMissed ..)
    · exact .idle s

theorem execTransitTimeout_steps (s : State) : Steps s (execTransitTimeout s) := by
  unfold execTransitTimeout
  split
  · exact .idle s
  · split
    · exact .onYard ((Work.refl _).expireDeparting _)
    · exact .idle s

/-- Three bytes an entry. -/
theorem censusEntries_length (l : List Byte) : (censusEntries l).length * 3 ≤ l.length := by
  induction l using censusEntries.induct with
  | case1 a b c rest ih => simp only [censusEntries, List.length_cons]; omega
  | case2 l short => 
    unfold censusEntries
    split
    · next a b c rest => exact absurd rfl (short a b c rest)
    · simp

theorem execCensus_steps (s : State) : Steps s (execCensus s) := by
  refine .yardRow (fun p k y fits => ?_) s
  have few : (censusEntries (p.drop 2)).length ≤ Config.laneCap := by
    have three := censusEntries_length (p.drop 2)
    simp only [censusLength, Bool.and_eq_true, decide_eq_true_eq, List.length_drop] at fits three
    simp only [Config.laneCap]
    omega
  dsimp only
  split
  · exact .refl y
  · split
    · exact .refl y
    · next l loaded =>
      split
      · exact .refl y
      · split
        · exact .refl y
        · split
          · exact .refl y
          · split
            · exact .refl y
            · next accepted =>
              refine (Work.refl y).takeCensus _ _ _ _ few fun l' loaded' => ?_
              cases loaded.symm.trans loaded'
              exact Classical.not_not.mp (not_or.mp accepted).2

theorem laneSetStep_steps {order : Nat} {act : Site → Nat → Lane → Yard → Yard × Result}
    (h : ∀ k n l y, Work y (act k n l y).1) (s : State) : Steps s (laneSetStep order act s) := by
  refine .yardRow (fun p k y _ => ?_) s
  dsimp only
  split
  · exact .refl y
  · split
    · exact .refl y
    · split
      · exact h ..
      · exact .refl y

theorem laneOpen_work (k : Site) (n : Nat) (l : Lane) (y : Yard) : Work y (laneOpen k n l y).1 := by
  unfold laneOpen
  split
  · exact .refl y
  · have opened : Work y (updLane n (fun l => { l with status := .opened }) y) :=
      (Work.refl y).updLane (fun _ => rfl) fun _ _ ok => ok
    exact opened.roomEvent
  · exact .refl y

theorem laneClose_work (k : Site) (n : Nat) (l : Lane) (y : Yard) : Work y (laneClose k n l y).1 := by
  unfold laneClose
  split
  · exact (Work.refl y).updLane (fun _ => rfl) fun _ _ ok => ok
  · exact .refl y
  · exact .refl y

theorem laneEmpty_work (k : Site) (n : Nat) (l : Lane) (y : Yard) : Work y (laneEmpty k n l y).1 := by
  unfold laneEmpty
  split
  · exact .refl y
  · exact .refl y
  · exact (Work.refl y).declareEmpty ..

/-! ## Fuel islands and wash lanes -/

theorem takenReport_step {y : Yard} {a : Acted} (h : Work.Taken y a) (fleet : Option Nat) (k : Site) :
    SameSite k (takenReport fleet k y a).1 ∧ Work y (takenReport fleet k y a).2.1 := by
  cases a with
  | none => exact ⟨.refl k, .refl y⟩
  | some r => exact ⟨.refl k, h r rfl⟩

theorem islandStep_steps {g : IslandAct} (h : ∀ k n i f value y, Work.Taken y (g k n i f value y)) (code : Nat)
    (s : State) : Steps s (islandStep code g s) := by
  refine .fieldRow (DeskStep.fieldFrame fun r f k y => ?_) s
  unfold islandReport
  split
  · split
    · exact ⟨.refl k, .refl y⟩
    · exact takenReport_step (h k _ _ _ _ y) ..
  · exact ⟨.refl k, .refl y⟩

theorem washStep_steps {g : WashAct} (h : ∀ k n l f stage y, Work.Taken y (g k n l f stage y)) (code : Nat)
    (s : State) : Steps s (washStep code g s) := by
  refine .fieldRow (DeskStep.fieldFrame fun r f k y => ?_) s
  unfold washReport
  split
  · split
    · exact ⟨.refl k, .refl y⟩
    · exact takenReport_step (h k _ _ _ _ y) ..
  · exact ⟨.refl k, .refl y⟩

theorem islandExpiry_steps {g : Site → Island → Yard → Yard} (h : ∀ k i y, Work y (g k i y)) (st : IslandState) (n : Nat)
    (s : State) : Steps s (islandExpiry st n g s) := by
  unfold islandExpiry
  split
  · exact .idle s
  · split
    · exact .idle s
    · split
      · exact .onYard (h ..)
      · exact .idle s

theorem washExpiry_steps {g : Site → WashLane → Yard → Yard} (h : ∀ k l y, Work y (g k l y)) (st : WashState) (n : Nat)
    (s : State) : Steps s (washExpiry st n g s) := by
  unfold washExpiry
  split
  · exact .idle s
  · split
    · exact .idle s
    · split
      · exact .onYard (h ..)
      · exact .idle s

theorem execArrivalTimerExpiry_steps (n : Nat) (s : State) : Steps s (execArrivalTimerExpiry n s) := by
  refine islandExpiry_steps (fun k i y => ?_) _ _ s
  split
  · exact ((Work.refl y).missIslandCall ..).fuelCalls k
  · exact .refl y

theorem execAuthorisationTimerExpiry_steps (n : Nat) (s : State) : Steps s (execAuthorisationTimerExpiry n s) := by
  refine islandExpiry_steps (fun k i y => ?_) _ _ s
  split
  · exact (Work.refl y).authorisationEnds ..
  · exact .refl y

theorem execCallTimerExpiry_steps (n : Nat) (s : State) : Steps s (execCallTimerExpiry n s) := by
  refine washExpiry_steps (fun k l y => ?_) _ _ s
  split
  · exact ((Work.refl y).missWashCall ..).washCalls k
  · exact .refl y

/-! ## Frame Dispatcher -/

theorem yieldRole_work (k : Site) (r : Role) (y : Yard) : Work y (yieldRole k r y) := by
  unfold yieldRole
  split
  · exact (Work.refl y).yieldIsland ..
  · exact (Work.refl y).yieldWash ..
  · exact .refl y

theorem yieldStation_step (f : Frame) (st : Station) (d : Desk) : DeskStep Same d (yieldStation f st d) := by
  let a := st.entry.address
  let k := setMode a true d.site
  let dropped : Desk := { d with site := k, out := dropOwn k d.yard.callList a d.out }
  let yielded : Desk := flush { dropped with yard := yieldRole k st.entry.role d.yard }
  let offered : Desk := { yielded with out := offerToField k f yielded.out }
  have drop : DeskStep Same d dropped :=
    (DeskStep.setSite (.setMode a true d.site)).trans (.setOut fun _ o => o.dropOwn ..)
  have yieldStep : DeskStep Same dropped yielded := .flush (.refl k) (yieldRole_work ..)
  have offer : DeskStep Same yielded offered := .setOut fun _ o => o.offerToField ..
  exact ((drop.trans yieldStep).trans offer).trans ((DeskStep.notify ..).trans (.settleYard (.refl _)))

theorem officeToField_step (f : Frame) (d : Desk) : DeskStep Same d (officeToField f d) := by
  unfold officeToField
  split
  · exact .setOut fun _ o => o.offerToField ..
  · split
    · split
      · exact .notify ..
      · exact yieldStation_step ..
    · exact .setOut fun _ o => o.offerToField ..

theorem execUnprocessedFieldFrame_steps (s : State) : Steps s (execUnprocessedFieldFrame s) := by
  unfold execUnprocessedFieldFrame
  exact .fieldRow (fun r f d => .forward f _ d) s

theorem execBadKindCommand_steps (s : State) : Steps s (execBadKindCommand s) := by
  unfold execBadKindCommand
  exact .officeRow (fun _ _ d _ => ⟨.refl d, by simp [plain]⟩) s

theorem execOfficeFrameToField_steps (s : State) : Steps s (execOfficeFrameToField s) := by
  unfold execOfficeFrameToField
  split
  · exact .idle s
  · next f rest head =>
    split
    · exact .idle s
    · refine ⟨_, rfl, rfl, fun ok => ⟨ok.1, ?_⟩, officeToField_step f s.desk⟩
      have bound := ok.2
      rw [head] at bound
      exact Nat.le_trans (Nat.le_succ _) bound

theorem resumeRole_step (st : Station) (d : Desk) : DeskStep Same d (settle (resumeRole st d)) := by
  unfold resumeRole
  split
  · exact .settleYard ((Work.refl _).resumeIsland ..)
  · exact .settleYard ((Work.refl _).resumeWash ..)
  · exact (DeskStep.setOut fun _ o => o.markUnsent ..).trans (.settleYard (Work.refl _).boardsChanged)
  · exact .settleYard (.refl _)

theorem reopenRole_step (st : Station) (d : Desk) : DeskStep Same d (settle (reopenRole st d)) := by
  unfold reopenRole
  split
  · split
    · exact .settleYard ((Work.refl _).resumeIsland ..)
    · exact .settleYard (.refl _)
  · dsimp only
    split
    · exact .settleYard ((Work.refl _).resumeWash ..)
    · exact .settleYard (.refl _)
  · exact .settleYard (.refl _)

theorem execStationResume_steps (s : State) : Steps s (execStationResume s) := by
  refine .officeRow (fun p f d _ => ?_) s
  unfold resumeHandler
  split
  · exact ⟨.refl d, by simp [plain]⟩
  · next st _ =>
    split
    · refine ⟨?_, by simp [plain]⟩
      split
      · exact (DeskStep.setSite (.setMode st.entry.address false d.site)).trans (resumeRole_step ..)
      · exact reopenRole_step ..
    · exact ⟨.refl d, by simp [plain]⟩

/-! ## Table Store -/

theorem setCursor_step (code i : Nat) (d : Desk) : DeskStep Same d (setCursor code i d) :=
  .setSite (.other rfl rfl rfl rfl rfl rfl rfl rfl)

theorem countOpen_step (d : Desk) : DeskStep Same d (countOpen d) :=
  .setOut fun _ o => ⟨o.fieldQ, o.held, o.slots, o.reserved, o.batch, o.run, o.notices, o.distinct, o.counts, o.images⟩

theorem execTableOpen_steps (s : State) : Steps s (execTableOpen s) := by
  refine .officeRow (fun p f d _ => ?_) s
  unfold openHandler
  split
  · exact ⟨.refl d, by simp [plain]⟩
  · split
    · exact ⟨setCursor_step .., by simp [plain]⟩
    · exact ⟨.refl d, by simp [plain]⟩

theorem execTableRead_steps (s : State) : Steps s (execTableRead s) := by
  refine .officeRow (fun p f d _ => ?_) s
  unfold readHandler
  dsimp only
  split
  · exact ⟨.refl d, by simp [plain]⟩
  · split
    · exact ⟨.refl d, by simp [plain]⟩
    · split
      · exact ⟨.refl d, by simp [plain]⟩
      · exact ⟨countOpen_step d, by simp⟩

/-! ## Duties and banks -/

theorem bankStepCommand_steps {act : Site → Yard → Yard × Result} (h : ∀ k y, Work y (act k y).1) (mode : Nat)
    (s : State) : Steps s (bankStepCommand mode act s) := by
  refine .yardRow (fun p k y _ => ?_) s
  split
  · exact h ..
  · exact .refl y

theorem setActivation_work (b : Bool) (y : Yard) : Work y { y with activation := b } :=
  (Work.refl y).other rfl rfl rfl rfl rfl rfl rfl rfl rfl rfl

theorem execDutyCancel_steps (s : State) : Steps s (execDutyCancel s) := by
  refine .yardRow (fun p k y _ => ?_) s
  dsimp only
  split
  · exact .refl y
  · split
    · exact .refl y
    · split
      · exact .refl y
      · exact .refl y
      · exact (Work.refl y).cancelDuty ..

theorem execDutyCall_steps (s : State) : Steps s (execDutyCall s) := by
  refine .yardRow (fun p k y _ => ?_) s
  dsimp only
  split
  · exact .refl y
  · split
    · split
      · exact .refl y
      · split
        · exact .refl y
        · split
          · exact .refl y
          · exact ((Work.refl y).takeDuty ..).callFromFront ..
    · exact .refl y

/-! ## Yard Clock -/

/-- The timebase and the clock have changed. -/
theorem DeskStep.setTime (now : Nat) (c : Clock) (d : Desk) :
    DeskStep Same d { d with site := { d.site with now := now, clock := c } } :=
  .setSite (.other rfl rfl rfl rfl rfl rfl rfl rfl)

theorem enterHoldover_step (d : Desk) : DeskStep Same d (enterHoldover d) :=
  (DeskStep.setTime d.site.now { d.site.clock with state := .holdover } d).trans (.notify ..)

theorem execHoldoverTimerExpiry_steps (s : State) : Steps s (execHoldoverTimerExpiry s) := by
  unfold execHoldoverTimerExpiry
  split
  · exact ⟨_, rfl, .withDesk (enterHoldover_step s.desk)⟩
  · exact .idle s

theorem setProcessed_step (m : Nat) (d : Desk) : DeskStep Same d (setProcessed m d) :=
  .setTime ..

theorem enterMinute_step (d : Desk) : DeskStep Same d (enterMinute d) := by
  unfold enterMinute
  dsimp only
  split
  · exact (DeskStep.onYard (fun k y => (Work.refl y).minuteEvent ..) d).trans (.setTime ..)
  · exact .refl d

theorem nextDay_same (k : Site) : SameSite k (nextDay k) := .other rfl rfl rfl rfl rfl rfl rfl rfl

theorem rolloverDesk_step (d : Desk) : DeskStep Same d (rolloverDesk d) :=
  (DeskStep.settle (nextDay_same d.site) (((Work.refl _).rollover _).deliverAfterRollover ..)).trans (.setTime ..)

theorem advanceSecond_step (d : Desk) : DeskStep Same d (advanceSecond d) := by
  unfold advanceSecond
  split
  · split
    · exact .setSite (nextDay_same _)
    · exact rolloverDesk_step d
  · have second : DeskStep Same d { d with site := nextSecond d.site } :=
      .setTime ..
    dsimp only
    split
    · exact second
    · exact second.trans (enterMinute_step _)

theorem execYardSecondAdvance_steps (s : State) : Steps s (execYardSecondAdvance s) :=
  ⟨_, rfl, .withDesk ((DeskStep.setTime _ s.site.clock s.desk).trans (advanceSecond_step _))⟩

theorem tick_step (s : State) : StateStep Same s (tick s) := by
  unfold tick
  split
  · exact ⟨rfl, id, .setTime _ _ s.desk⟩
  · exact .withDesk ((DeskStep.setTime _ s.site.clock s.desk).trans (advanceSecond_step _))

theorem announceLock_step (was : ClockState) (d : Desk) : DeskStep Same d (announceLock was d) := by
  unfold announceLock
  split
  · exact .refl d
  · exact .notify ..

theorem takeTime_step (day second : Nat) (d : Desk) : DeskStep Same d (takeTime day second d) := by
  have set : DeskStep Same d (announceLock d.site.clock.state { d with site := setClock day second d.site }) :=
    (DeskStep.setTime d.site.now (setClock day second d.site).clock d).trans (announceLock_step ..)
  unfold takeTime
  dsimp only
  split
  · exact set.trans ((DeskStep.onYard (fun k y => (Work.refl y).catchUp k) _).trans (setProcessed_step ..))
  · split
    · exact set.trans ((DeskStep.onYard (fun k y => ((Work.refl y).rollover k).deliverAfterRollover ..) _).trans
        (setProcessed_step ..))
    · refine set.trans ?_
      unfold stepWithin
      dsimp only
      split
      · exact (DeskStep.onYard (fun k y => (Work.refl y).deliver ..) _).trans (setProcessed_step ..)
      · exact .refl _

theorem execTime_steps (s : State) : Steps s (execTime s) := by
  refine .officeRow (fun p f d _ => ?_) s
  unfold timeHandler
  dsimp only
  split
  · exact ⟨.refl d, by simp [plain]⟩
  · split
    · exact ⟨.refl d, by simp [plain]⟩
    · exact ⟨takeTime_step .., by simp [plain]⟩

/-! ## Orders on vehicles -/

theorem orderStep_steps {act : OrderAct} (h : ∀ k v y, Work y (act k v y).1) (order : Nat) (s : State) :
    Steps s (orderStep order act s) := by
  refine .yardRow (fun p k y _ => ?_) s
  split
  · split
    · exact .refl y
    · exact h ..
  · exact .refl y

/-! ## Queries and YARD_CLEAR -/

theorem queryHandler_fst (variant len : Nat) (act : QueryAct) (p : List Byte) (f : Frame) (d : Desk) :
    (queryHandler variant len act p f d).1 = d ∧ (queryHandler variant len act p f d).2 ≠ none := by
  unfold queryHandler
  split
  · split
    · exact ⟨rfl, by simp⟩
    · exact ⟨rfl, by simp [plain]⟩
  · exact ⟨rfl, by simp [plain]⟩

theorem queryStep_steps (variant len : Nat) (act : QueryAct) (s : State) : Steps s (queryStep variant len act s) := by
  refine .officeRow (fun p f d _ => ?_) s
  obtain ⟨same, answered⟩ := queryHandler_fst variant len act p f d
  refine ⟨?_, answered⟩
  show DeskStep Same d (countOpen (queryHandler variant len act p f d).1)
  exact same.symm ▸ countOpen_step d

theorem OutOk.setOverflow {r : Nat} {o : Out} (h : OutOk r o) (b : Bool) : OutOk r { o with overflow := b } :=
  ⟨h.fieldQ, h.held, h.slots, h.reserved, h.batch, h.run, h.notices, h.distinct, h.counts, h.images⟩

theorem execQueryStatus_steps (s : State) : Steps s (execQueryStatus s) := by
  refine .officeRow (fun p f d _ => ?_) s
  obtain ⟨same, answered⟩ := queryHandler_fst 8 1 (fun _ d => (.ok, statusBytes d)) p f d
  unfold statusHandler
  generalize queryHandler 8 1 (fun _ d => (.ok, statusBytes d)) p f d = z at same answered
  obtain ⟨e, a⟩ := z
  cases same
  split
  · next taken => cases taken; exact ⟨.setOut fun _ o => o.setOverflow _, by simp⟩
  · next taken => cases taken; exact ⟨.refl _, answered⟩

theorem clearDesk_step (d : Desk) : DeskStep Same d (clearDesk d) := by
  let unheld : Desk := { d with out := { d.out with held := [] } }
  let stopped : Desk := flush { unheld with yard := abortAll unheld.site (stopAll unheld.site unheld.yard) }
  have unhold : DeskStep Same d unheld := .setOut fun _ o =>
    ⟨o.fieldQ, .inl rfl, o.slots, o.reserved, o.batch, o.run, o.notices, o.distinct, o.counts, o.images⟩
  have stop : DeskStep Same unheld stopped := .flush (.refl _) (((Work.refl _).stopAll _).abortAll _)
  have clear : DeskStep Same stopped (flush { stopped with
      site := clearSite stopped.site, yard := boardsChanged (clearYard stopped.yard) }) :=
    .flush (.clearSite _) (Work.refl _).clearYard.boardsChanged
  exact ((unhold.trans stop).trans clear).trans (.setOut fun _ o =>
    ⟨o.fieldQ, o.held, o.slots, o.reserved, o.batch, o.run, Nat.zero_le _, .nil, by simp, o.images⟩)

theorem execYardClear_steps (s : State) : Steps s (execYardClear s) :=
  .officeRow (fun _ _ d _ => ⟨clearDesk_step d, by simp [plain]⟩) s

end Sys2Proof.Machine

/-! The commands that write tables: TABLE_DATA, the two out-of-service orders, POWER_ON_RESET and the three commands of a
commit. They keep the order of the tables and the bounds of the collections, entry by entry. -/

namespace Sys2Proof.Machine

theorem tableWf_tmap_iff {α β : Type} {t : Table α} (f : α → β) : tableWf (tmap t f) ↔ tableWf t :=
  ⟨tableWf_of_tmap, tableWf_tmap f⟩

/-! ## Edits of a table -/

/-- What the write of an entry keeps, before its effects are settled. -/
structure Edits (a b : Site × Yard) : Prop where
  tables : LiveOk a.1 a.2 → LiveOk b.1 b.2
  bounds : LiveOk a.1 a.2 → Bounded a.2 → Bounded b.2
  store : b.1.store = a.1.store
  commit : b.1.commit = a.1.commit

namespace Edits

variable {a b c : Site × Yard} {k : Site} {y : Yard}

theorem trans (h : Edits a b) (g : Edits b c) : Edits a c :=
  ⟨fun ok => g.tables (h.tables ok), fun ok y => g.bounds (h.tables ok) (h.bounds ok y), g.store.trans h.store,
    g.commit.trans h.commit⟩

theorem ofWork {l : Site} {z : Yard} (hk : SameSite k l) (hy : Work y z) : Edits (k, y) (l, z) where
  tables ok := ok.work hk hy
  bounds _ := hy.bounds
  store := hk.store
  commit := hk.commit

theorem refl (a : Site × Yard) : Edits a a := ofWork (.refl _) (.refl _)

theorem setRoster {t : Table Vehicle} (h : tableWf y.roster → tableWf t) : Edits (k, y) (k, { y with roster := t }) :=
  ⟨fun ⟨i, a, b⟩ => ⟨{ i with roster := tableWf_tmap _ (h (tableWf_of_tmap i.roster)) }, a, b⟩,
    fun _ b => ⟨b.order, b.lanes, b.apron, b.departing, b.fuelQ, b.washQ⟩, rfl, rfl⟩

theorem setLanes {t : Table Lane} (h : tableWf y.lanes → tableWf t)
    (hb : (∀ p ∈ y.lanes, laneOk p.2) → ∀ p ∈ t, laneOk p.2) : Edits (k, y) (k, { y with lanes := t }) :=
  ⟨fun ⟨i, a, b⟩ => ⟨{ i with lanes := tableWf_tmap _ (h (tableWf_of_tmap i.lanes)) }, a, b⟩,
    fun _ b => ⟨h b.order, hb b.lanes, b.apron, b.departing, b.fuelQ, b.washQ⟩, rfl, rfl⟩

theorem setIslands {t : Table Island} (h : tableWf y.islands → tableWf t) :
    Edits (k, y) (k, { y with islands := t }) :=
  ⟨fun ⟨i, a, b⟩ => ⟨{ i with islands := tableWf_tmap _ (h (tableWf_of_tmap i.islands)) }, a, b⟩,
    fun _ b => ⟨b.order, b.lanes, b.apron, b.departing, b.fuelQ, b.washQ⟩, rfl, rfl⟩

theorem setWashLanes {t : Table WashLane} (h : tableWf y.washLanes → tableWf t) :
    Edits (k, y) (k, { y with washLanes := t }) :=
  ⟨fun ⟨i, a, b⟩ => ⟨{ i with washLanes := tableWf_tmap _ (h (tableWf_of_tmap i.washLanes)) }, a, b⟩,
    fun _ b => ⟨b.order, b.lanes, b.apron, b.departing, b.fuelQ, b.washQ⟩, rfl, rfl⟩

theorem setBank {bk : Bank} {t : Table Duty} (h : tableWf (bankOf y bk) → tableWf t) :
    Edits (k, y) (k, setBank bk t y) := by
  cases bk
  · exact ⟨fun ⟨i, a, b⟩ => ⟨i, h a, b⟩, fun _ b => ⟨b.order, b.lanes, b.apron, b.departing, b.fuelQ, b.washQ⟩, rfl, rfl⟩
  · exact ⟨fun ⟨i, a, b⟩ => ⟨i, a, h b⟩, fun _ b => ⟨b.order, b.lanes, b.apron, b.departing, b.fuelQ, b.washQ⟩, rfl, rfl⟩

theorem setClasses {t : Table ClassEntry} (h : tableWf k.classes → tableWf t) :
    Edits (k, y) ({ k with classes := t }, y) :=
  ⟨fun ⟨i, a, b⟩ => ⟨{ i with classes := h i.classes }, a, b⟩, fun _ b => b, rfl, rfl⟩

theorem setMouths {t : Table Mouth} (h : tableWf k.mouths → tableWf t) : Edits (k, y) ({ k with mouths := t }, y) :=
  ⟨fun ⟨i, a, b⟩ => ⟨{ i with loopMap := tableWf_tmap _ (h (tableWf_of_tmap i.loopMap)) }, a, b⟩, fun _ b => b, rfl, rfl⟩

theorem setStations {t : Table Station} (h : tableWf k.stations → tableWf t) (m : Table TagRecord) :
    Edits (k, y) ({ k with stations := t, tagMemory := m }, y) :=
  ⟨fun ⟨i, a, b⟩ => ⟨{ i with stations := tableWf_tmap _ (h (tableWf_of_tmap i.stations)) }, a, b⟩, fun _ b => b, rfl, rfl⟩

theorem setForwarding {t : Table Action} (h : tableWf k.forwarding → tableWf t) :
    Edits (k, y) ({ k with forwarding := t }, y) :=
  ⟨fun ⟨i, a, b⟩ => ⟨{ i with forwarding := h i.forwarding }, a, b⟩, fun _ b => b, rfl, rfl⟩

theorem setPrograms {t : Table (List Stage)} (h : tableWf k.programs → tableWf t) :
    Edits (k, y) ({ k with programs := t }, y) :=
  ⟨fun ⟨i, a, b⟩ => ⟨{ i with programs := h i.programs }, a, b⟩, fun _ b => b, rfl, rfl⟩

theorem setSettings {t : Table Nat} (h : tableWf k.settings → tableWf t) : Edits (k, y) ({ k with settings := t }, y) :=
  ⟨fun ⟨i, a, b⟩ => ⟨{ i with settings := h i.settings }, a, b⟩, fun _ b => b, rfl, rfl⟩

/-- A vehicle's record is rewritten at its place. -/
theorem updVeh (f : Nat) (g : Vehicle → Vehicle) : Edits (k, y) (k, updVeh f g y) :=
  setRoster (tableWf_tmap _)

/-- Work on the yard after an edit. -/
theorem work {z : Yard} (h : Edits a (k, y)) (hz : Work y z) : Edits a (k, z) := h.trans (ofWork (.refl k) hz)

theorem site {l : Site} (h : Edits a (k, y)) (hl : SameSite k l) : Edits a (l, y) := h.trans (ofWork hl (.refl y))

end Edits

namespace DeskStep

variable {d e f : Desk}

theorem edits (h : Edits d.ground e.ground) (ho : ∀ r, OutOk r d.out → OutOk r e.out) : DeskStep Edits d e := ⟨ho, h⟩

theorem transEdits (h : DeskStep Edits d e) (g : DeskStep Edits e f) : DeskStep Edits d f :=
  ⟨fun r o => g.out r (h.out r o), h.ground.trans g.ground⟩

/-- Settling an edit. -/
theorem settleEdits (h : DeskStep Edits d e) : DeskStep Keeps d (Machine.settle e) where
  out r o := (h.out r o).settle
  ground :=
    have whole : Edits d.ground (e.site, (Machine.settle e).yard) := Edits.work h.ground (Work.settle (.refl _))
    { tables := whole.tables
      yard := fun ok y =>
        have b := whole.bounds ok (ok.bounded y)
        ⟨b.lanes, b.apron, b.departing, b.fuelQ, b.washQ, rfl⟩
      store := whole.store
      commit := whole.commit }

end DeskStep

/-! ## The write of an entry -/

/-- An entry is refused, or its write is an edit. -/
structure WriteOk (d : Desk) (w : Written) : Prop where
  edits : ∀ e c, w = .wrote e c → DeskStep Edits d e

namespace WriteOk

variable {d : Desk}

theorem refused (r : Result) : WriteOk d (.refused r) := ⟨fun _ _ h => by cases h⟩

theorem wrote {e : Desk} {c : Bool} (h : DeskStep Edits d e) : WriteOk d (.wrote e c) :=
  ⟨fun _ _ g => by cases g; exact h⟩

theorem same (c : Bool) : WriteOk d (.wrote d c) := wrote (.edits (.refl _) fun _ o => o)

theorem yard {y : Yard} {c : Bool} (h : Edits (d.site, d.yard) (d.site, y)) : WriteOk d (wroteYard d c y) :=
  wrote (.edits h fun _ o => o)

theorem site {k : Site} {c : Bool} (h : Edits (d.site, d.yard) (k, d.yard)) : WriteOk d (.wrote { d with site := k } c) :=
  wrote (.edits h fun _ o => o)

theorem both {k : Site} {y : Yard} {c : Bool} (h : Edits (d.site, d.yard) (k, y)) :
    WriteOk d (.wrote { d with site := k, yard := y } c) :=
  wrote (.edits h fun _ o => o)

end WriteOk

/-! ### Roster -/

section Roster

variable {k : Site} {y : Yard}

theorem takeOutOfService_edits (f : Nat) : Edits (k, y) (k, takeOutOfService k f y) := by
  unfold takeOutOfService
  dsimp only
  refine Edits.trans (.ofWork (.refl k) (Work.unpair ?_ f)) (.updVeh f _)
  split
  · exact ((Work.refl y).withdrawCall f).standDown k f
  · exact .refl y

theorem returnToService_edits (f : Nat) : Edits (k, y) (k, returnToService f y) :=
  (Edits.updVeh f _).work (Work.refl _).report

theorem changeService_edits (v : Vehicle) (oos : Bool) : Edits (k, y) (k, changeService k v oos y) := by
  unfold changeService
  split
  · exact .refl _
  · split
    · exact takeOutOfService_edits _
    · exact returnToService_edits _

theorem removeVehicle_edits (slot f : Nat) : Edits (k, y) (k, removeVehicle slot f y) :=
  (Edits.ofWork (.refl k) ((Work.refl y).unpair f)).trans (.setRoster (tableWf_terase slot))

theorem createVehicle_edits (slot : Nat) (e : RosterEntry) : Edits (k, y) (k, createVehicle k slot e y) :=
  .setRoster (tableWf_tset slot _)

theorem relimit_work (f : Nat) : Work y (relimit k f y) := (Work.refl y).updService fun _ => rfl

theorem rewriteVehicle_ok (v : Vehicle) (e : RosterEntry) (clamped : Bool) (d : Desk) :
    WriteOk d (rewriteVehicle v e clamped d) := by
  unfold rewriteVehicle
  dsimp only
  split
  · split
    · exact .yard (changeService_edits ..)
    · exact .refused _
  · have rewritten : Edits (d.site, d.yard)
        (d.site, updVeh e.fleet (fun v => { v with entry := e }) (changeService d.site v e.outOfService d.yard)) :=
      (changeService_edits v e.outOfService).trans (.updVeh ..)
    split
    · exact .yard rewritten
    · exact .yard (rewritten.work (relimit_work _))

theorem writeRoster_ok (slot : Nat) (p : List Byte) (d : Desk) : WriteOk d (writeRoster slot p d) := by
  unfold writeRoster
  dsimp only
  split
  · split
    · exact .same _
    · split
      · exact .refused _
      · exact .yard (removeVehicle_edits ..)
  · split
    · exact .refused _
    · split
      · exact .refused _
      · split
        · exact .refused _
        · split
          · exact .refused _
          · split
            · exact .yard (createVehicle_edits ..)
            · split
              · exact rewriteVehicle_ok ..
              · split
                · exact .refused _
                · exact .yard ((removeVehicle_edits ..).trans (createVehicle_edits ..))

end Roster

/-! ### Classes, lanes and the loop map -/

theorem lowerLevels_work (k : Site) (cls : Nat) (y : Yard) : Work y (lowerLevels k cls y) :=
  Work.foldl _ (fun h => h.trans (relimit_work _)) _ (.refl y)

theorem writeClass_ok (c : Nat) (p : List Byte) (d : Desk) : WriteOk d (writeClass c p d) := by
  unfold writeClass
  split
  · split
    · exact .refused _
    · exact .site (.setClasses (tableWf_terase c))
  · exact .both ((Edits.setClasses (tableWf_tset c _)).work (lowerLevels_work ..))

theorem mem_terase {α : Type} {t : Table α} {k : Nat} {p : Nat × α} (h : p ∈ terase t k) : p ∈ t := (List.mem_filter.mp h).1

theorem resetMouthAt_same (k : Site) (m : Nat) : SameSite k (resetMouthAt k m) :=
  ⟨rfl, fun _ => tmap_tmod k.mouths m (fun m => resetMouth m.entry) _ fun _ => rfl, rfl, rfl, rfl, rfl, rfl, rfl⟩

theorem changeMouth_same (old new : Nat) (k : Site) : SameSite k (changeMouth old new k) := by
  unfold changeMouth
  split
  · exact .refl k
  · exact (resetMouthAt_same k old).trans (resetMouthAt_same _ new)

theorem writeLane_ok (n : Nat) (p : List Byte) (d : Desk) : WriteOk d (writeLane n p d) := by
  unfold writeLane
  dsimp only
  split
  · split
    · exact .same _
    · split
      · exact .yard (.setLanes (tableWf_terase n) fun ok q hq => ok q (mem_terase hq))
      · exact .refused _
  · split
    · exact .refused _
    · split
      · exact .refused _
      · split
        · refine .yard (.setLanes (tableWf_tset n _) fun ok q hq => ?_)
          obtain rfl | old := mem_tset hq
          · exact ⟨Nat.zero_le _, Nat.zero_le _⟩
          · exact ok q old
        · next l loaded =>
          refine .both (Edits.site ?_ ((changeMouth_same ..).trans (changeMouth_same ..)))
          have rewritten : ∀ e, Edits (d.site, d.yard)
              (d.site, { d.yard with lanes := tset d.yard.lanes n { l with entry := e } }) := fun e =>
            .setLanes (tableWf_tset n _) fun ok q hq => by
              obtain rfl | old := mem_tset hq
              · exact ok (n, l) (mem_of_tget loaded)
              · exact ok q old
          split
          · exact (rewritten _).work (Work.refl _).roomEvent
          · exact rewritten _

theorem syncConcentrators_same (before : Table Mouth) (k : Site) : SameSite k (syncConcentrators before k) :=
  .other rfl rfl rfl rfl rfl rfl rfl rfl

theorem writeLoop_ok (m : Nat) (p : List Byte) (d : Desk) : WriteOk d (writeLoop m p d) := by
  unfold writeLoop
  split
  · exact .site ((Edits.setMouths (tableWf_terase m)).site (syncConcentrators_same ..))
  · split
    · exact .refused _
    · dsimp only
      split
      · exact .refused _
      · split
        · exact .refused _
        · exact .site ((Edits.setMouths (tableWf_tset m _)).site (syncConcentrators_same ..))

/-! ### Stations and forwarding -/

theorem stationEffects_work (k : Site) (old new : Option Role) (y : Yard) : Work y (stationEffects k old new y) := by
  unfold stationEffects
  dsimp only
  have shown : Work y (if old = some .board ∨ new = some .board then boardsChanged y else y) := by
    split
    · exact (Work.refl y).boardsChanged
    · exact .refl y
  split
  · exact shown.fuelCalls k
  · exact shown.washCalls k
  · exact shown

theorem forgetReader_same (a : Nat) (r : Option Role) (k : Site) : SameSite k (forgetReader a r k) := by
  unfold forgetReader
  split
  · exact .refl k
  · exact .other rfl rfl rfl rfl rfl rfl rfl rfl

/-- A station record written or removed, with what that sets off. -/
theorem stationWritten_edits {d : Desk} {t : Table Station} (h : tableWf d.site.stations → tableWf t) (a : Nat)
    (r old new : Option Role) :
    Edits (d.site, d.yard)
      (forgetReader a r { d.site with stations := t },
        stationEffects (forgetReader a r { d.site with stations := t }) old new d.yard) :=
  ((Edits.setStations h d.site.tagMemory).site (forgetReader_same ..)).work (stationEffects_work ..)

theorem writeStation_ok (slot : Nat) (p : List Byte) (d : Desk) : WriteOk d (writeStation slot p d) := by
  unfold writeStation
  dsimp only
  split
  · split
    · exact .same _
    · split
      · exact .both (stationWritten_edits (tableWf_terase slot) ..)
      · exact .refused _
  · split
    · split
      · exact .refused _
      · split
        · exact .refused _
        · split
          · exact .refused _
          · split
            · exact .both (stationWritten_edits (tableWf_tset slot _) ..)
            · split
              · split
                · exact .both (stationWritten_edits (tableWf_tset slot _) ..)
                · exact .refused _
              · split
                · exact .both (stationWritten_edits (tableWf_tset slot _) ..)
                · exact .refused _
    · exact .refused _

theorem writeForwarding_ok (kind : Nat) (p : List Byte) (d : Desk) : WriteOk d (writeForwarding kind p d) := by
  unfold writeForwarding
  split
  · exact .site (.setForwarding (tableWf_terase kind))
  · split
    · exact .refused _
    · exact .site (.setForwarding (tableWf_tset kind _))

/-! ### Islands, wash lanes and programs -/

theorem retestFuelOf_work (k : Site) (y : Yard) (f : Nat) : Work y (retestFuelOf k y f) := by
  unfold retestFuelOf
  split
  · exact (((Work.refl y).setFuelQ fun b => Nat.le_trans (without_le _ _) b.fuelQ).skipFuel f).route ..
  · exact .refl y

theorem retestFuel_work (k : Site) (y : Yard) : Work y (retestFuel k y) :=
  (Work.foldl _ (fun h => h.trans (retestFuelOf_work ..)) _ (.refl y)).fuelCalls k

theorem islandWritten_work (k : Site) (old : Option Island) (y : Yard) : Work y (islandWritten k old y) := by
  cases old
  · exact (Work.refl y).fuelCalls k
  · exact retestFuel_work k y

theorem writeIsland_ok (n : Nat) (p : List Byte) (d : Desk) : WriteOk d (writeIsland n p d) := by
  unfold writeIsland
  dsimp only
  split
  · split
    · exact .same _
    · split
      · exact .refused _
      · exact .yard ((Edits.setIslands (tableWf_terase n)).work (retestFuel_work ..))
  · split
    · exact .refused _
    · exact .yard ((Edits.setIslands (tableWf_tset n _)).work (islandWritten_work ..))

theorem retestWashOf_work (k : Site) (y : Yard) (f : Nat) : Work y (retestWashOf k y f) := by
  unfold retestWashOf
  split
  · exact (((Work.refl y).setWashQ fun b => Nat.le_trans (without_le _ _) b.washQ).skipWash f).route ..
  · exact .refl y

theorem retestWash_work (k : Site) (y : Yard) : Work y (retestWash k y) :=
  (Work.foldl _ (fun h => h.trans (retestWashOf_work ..)) _ (.refl y)).washCalls k

theorem washWritten_work (k : Site) (old : Option WashLane) (e : WashLaneEntry) (y : Yard) :
    Work y (washWritten k old e y) := by
  unfold washWritten
  split
  · exact (Work.refl y).washCalls k
  · split
    · exact (Work.refl y).washCalls k
    · exact retestWash_work k y

theorem writeWashLane_ok (n : Nat) (p : List Byte) (d : Desk) : WriteOk d (writeWashLane n p d) := by
  unfold writeWashLane
  dsimp only
  split
  · split
    · exact .same _
    · split
      · exact .refused _
      · exact .yard ((Edits.setWashLanes (tableWf_terase n)).work (retestWash_work ..))
  · split
    · exact .refused _
    · exact .yard ((Edits.setWashLanes (tableWf_tset n _)).work (washWritten_work ..))

theorem writeProgram_ok (n : Nat) (p : List Byte) (d : Desk) : WriteOk d (writeProgram n p d) := by
  unfold writeProgram
  split
  · exact .site (.setPrograms (tableWf_terase n))
  · dsimp only
    split
    · exact .refused _
    · split
      · exact .refused _
      · exact .site (.setPrograms (tableWf_tset n _))

/-! ### Duty banks and settings -/

theorem lateAfterWrite_work (k : Site) (d : Nat) (y : Yard) : Work y (lateAfterWrite k d y) := by
  unfold lateAfterWrite
  split
  · exact .refl y
  · split
    · have late : Work y (setLate d y) := (Work.refl y).updDuty fun _ => rfl
      exact late.raise ..
    · exact .refl y

theorem dutyWritten_work (k : Site) (d : Nat) (lateChanged : Bool) (y : Yard) :
    Work y (dutyWritten k d lateChanged y) := by
  unfold dutyWritten
  split
  · exact .refl y
  · split
    · exact .refl y
    · next r _ =>
      dsimp only
      have evaluated : Work y (if dueMinute k r.entry ≤ presentMinute k then drain k (evaluate k false d y)
          else if waiting r.state then updDuty d (fun r => { r with state := .opened, reason := none }) y else y) := by
        split
        · exact ((Work.refl y).evaluate ..).drain k
        · split
          · exact (Work.refl y).updDuty fun _ => rfl
          · exact .refl y
      split
      · exact evaluated.trans (lateAfterWrite_work ..)
      · exact evaluated

theorem removeDuty_edits {k : Site} {y : Yard} (bk : Bank) (slot : Nat) (r : Duty) :
    Edits (k, y) (k, removeDuty bk slot r y) := by
  unfold removeDuty
  dsimp only
  refine Edits.trans (.ofWork (.refl k) ?_) (.setBank (tableWf_terase slot))
  split
  · split
    · exact (Work.refl y).unpairRecords _
    · exact .refl y
  · exact .refl y

/-- A duty is written at its place of a bank, with what that sets off in the active one. -/
theorem setDuty_edits {k : Site} {y z : Yard} (h : Edits (k, y) (k, z)) (bk active : Bank) (slot number : Nat) (r : Duty)
    (late : Bool) : Edits (k, y) (k,
      if bk = active then dutyWritten k number late (setBank bk (tset (bankOf z bk) slot r) z)
      else setBank bk (tset (bankOf z bk) slot r) z) := by
  have written := h.trans (.setBank (bk := bk) (tableWf_tset slot r))
  split
  · exact written.work (dutyWritten_work ..)
  · exact written

theorem writeDuty_ok (bk : Bank) (slot : Nat) (p : List Byte) (d : Desk) : WriteOk d (writeDuty bk slot p d) := by
  unfold writeDuty
  dsimp only
  split
  · split
    · exact .same _
    · split
      · exact .yard (removeDuty_edits ..)
      · exact .refused _
  · split
    · exact .refused _
    · split
      · exact .refused _
      · split
        · exact .refused _
        · split
          · exact .yard (setDuty_edits (.refl _) ..)
          · split
            · split
              · exact .yard (setDuty_edits (.refl _) ..)
              · exact .yard (setDuty_edits (removeDuty_edits ..) ..)
            · exact .refused _

theorem reconsiderDuties_work (before k : Site) (y : Yard) : Work y (reconsiderDuties before k y) := by
  unfold reconsiderDuties
  split
  · exact .refl y
  · refine Work.foldl _ (fun {z d} h => h.trans ?_) _ (.refl y)
    unfold reconsider
    split
    · exact .refl z
    · next r _ =>
      dsimp only
      have evaluated : Work z (if presentMinute k < dueMinute before r.entry ∧ dueMinute k r.entry ≤ presentMinute k
          then drain k (evaluate k false d z) else z) := by
        split
        · exact ((Work.refl z).evaluate ..).drain k
        · exact .refl z
      split
      · exact evaluated.trans (lateAfterWrite_work ..)
      · exact evaluated

theorem DeskStep.workEdits {d : Desk} {k : Site} {y : Yard} (hk : SameSite d.site k) (hy : Work d.yard y) :
    DeskStep Edits d { d with site := k, yard := y } :=
  .edits (.ofWork hk hy) fun _ o => o

theorem settingEffects_edits (n : Nat) (before : Site) (d : Desk) : DeskStep Edits d (settingEffects n before d) := by
  have same : DeskStep Edits d d := .workEdits (.refl _) (.refl _)
  unfold settingEffects
  dsimp only
  split
  · exact same
  · split
    · exact .workEdits (.refl _) (Work.refl _).roomEvent
    · split
      · exact .workEdits (.refl _) (reconsiderDuties_work ..)
      · split
        · exact .workEdits (.refl _) (Work.refl _).boardsChanged
        · split
          · split
            · have step := enterHoldover_step d
              exact .edits (.ofWork step.ground.site step.ground.yard) step.out
            · exact same
          · exact same

theorem batchTest_edits (n : Nat) (d : Desk) : DeskStep Edits d (batchTest n d) := by
  unfold batchTest
  split
  · exact .edits (.refl _) fun _ o => o.tryBatch _
  · exact .edits (.refl _) fun _ o => o

theorem writeSetting_ok (n : Nat) (p : List Byte) (d : Desk) : WriteOk d (writeSetting n p d) := by
  have written : ∀ t, (tableWf d.site.settings → tableWf t) →
      DeskStep Edits d (batchTest n (settingEffects n d.site { d with site := { d.site with settings := t } })) :=
    fun t h => by
      have stored : DeskStep Edits d { d with site := { d.site with settings := t } } :=
        .edits (.setSettings h) fun _ o => o
      exact stored.transEdits ((settingEffects_edits n d.site _).transEdits (batchTest_edits n _))
  unfold writeSetting
  dsimp only
  split
  · exact .wrote (written _ (tableWf_terase n))
  · split
    · exact .refused _
    · exact .wrote (written _ (tableWf_tset n _))

theorem writeEntry_ok (t : TableId) (i : Nat) (p : List Byte) (d : Desk) : WriteOk d (writeEntry t i p d) := by
  unfold writeEntry
  split
  · exact .refused _
  · cases t with
    | roster => exact writeRoster_ok ..
    | classes => exact writeClass_ok ..
    | lanes => exact writeLane_ok ..
    | loopMap => exact writeLoop_ok ..
    | stations => exact writeStation_ok ..
    | forwarding => exact writeForwarding_ok ..
    | islands => exact writeIsland_ok ..
    | washLanes => exact writeWashLane_ok ..
    | programs => exact writeProgram_ok ..
    | settings => exact writeSetting_ok ..
    | bankA => exact writeDuty_ok ..
    | bankB => exact writeDuty_ok ..

/-! ## TABLE_DATA and the out-of-service orders -/

theorem loadEntry_step (t : TableId) (l : Load) (p : List Byte) : DeskStep Keeps l.desk (loadEntry t l p).desk := by
  unfold loadEntry
  split
  · exact .reflKeeps _
  · split
    · exact .reflKeeps _
    · split
      · exact .reflKeeps _
      · next e c written => exact ((writeEntry_ok t l.cursor p l.desk).edits e c written).settleEdits

theorem foldl_loadEntry_step (t : TableId) (ps : List (List Byte)) (l : Load) :
    DeskStep Keeps l.desk (ps.foldl (loadEntry t) l).desk := by
  induction ps generalizing l with
  | nil => exact .reflKeeps _
  | cons p ps ih => exact (loadEntry_step t l p).transKeeps (ih _)

theorem load_step (t : TableId) (code cursor : Nat) (p : List Byte) (d : Desk) :
    DeskStep Keeps d (load t code cursor p d).1 :=
  (foldl_loadEntry_step t _ { desk := d, written := 0, cursor := cursor, clamped := false, refusal := none }).transKeeps
    (setCursor_step ..).keeps

theorem execTableData_answers (s : State) : Answers (StateStep Keeps) s (execTableData s) := by
  refine officeStep_answers Keeps.refl (fun p f d _ => ?_) s
  unfold dataHandler
  split
  · exact ⟨.reflKeeps d, by simp [plain]⟩
  · split
    · exact ⟨.reflKeeps d, by simp [plain]⟩
    · split
      · exact ⟨.reflKeeps d, by simp [plain]⟩
      · split
        · exact ⟨.reflKeeps d, by simp [plain]⟩
        · exact ⟨load_step .., by simp [load]⟩

/-- An order whose yard is an edit, settled. -/
theorem yardHandler_keeps {g : List Byte → Site → Yard → Yard × Result} {p : List Byte} (f : Frame) {d : Desk}
    (hg : Edits (d.site, d.yard) (d.site, (g p d.site d.yard).1)) :
    DeskStep Keeps d (yardHandler g p f d).1 ∧ (yardHandler g p f d).2 ≠ none := by
  unfold yardHandler
  generalize g p d.site d.yard = z at hg
  obtain ⟨y, r⟩ := z
  have settled : DeskStep Keeps d (settle { d with yard := y }) :=
    DeskStep.settleEdits (.edits (e := { d with yard := y }) hg fun _ o => o)
  split
  · next taken => cases taken; exact ⟨settled, by simp [plain]⟩
  · next taken => cases taken; exact ⟨settled, by simp [plain]⟩
  · exact ⟨.reflKeeps d, by simp [plain]⟩

theorem orderStep_keeps {act : OrderAct} (h : ∀ k v y, Edits (k, y) (k, (act k v y).1)) (order : Nat) (s : State) :
    Answers (StateStep Keeps) s (orderStep order act s) := by
  refine officeStep_answers Keeps.refl (fun p f d _ => yardHandler_keeps f ?_) s
  split
  · split
    · exact .refl _
    · exact h ..
  · exact .refl _

theorem orderOutOfService_edits (k : Site) (v : Vehicle) (y : Yard) : Edits (k, y) (k, (orderOutOfService k v y).1) := by
  unfold orderOutOfService
  split
  · exact .refl _
  · split
    · exact .refl _
    · exact takeOutOfService_edits _

theorem orderInService_edits (k : Site) (v : Vehicle) (y : Yard) : Edits (k, y) (k, (orderInService k v y).1) := by
  unfold orderInService
  split
  · exact returnToService_edits _
  · exact .refl _

end Sys2Proof.Machine

namespace Sys2Proof.Machine

/-! ## What every command keeps -/

/-- The queue of commands is left as it was; the bounds of the link side, the order of the tables and the bounds of the yard
are kept. -/
structure Kept (s t : State) : Prop where
  pending : t.pending = s.pending
  link : LinkOk s → LinkOk t
  tables : TablesOk s → TablesOk t
  yard : TablesOk s → YardOk s.yard → YardOk t.yard

theorem TablesOk.liveOk {s : State} (ok : TablesOk s) : LiveOk s.site s.yard := ⟨ok.live, ok.bankA, ok.bankB⟩

theorem StateStep.kept {s t : State} (h : StateStep Keeps s t) : Kept s t where
  pending := h.pending
  link ok :=
    have rx := h.rx ⟨ok.field, ok.office⟩
    have reserved : reservedFor t.site = reservedFor s.site :=
      congrArg (fun c : Option Commit => if c.isSome then 1 else 0) h.desk.ground.commit
    ⟨rx.1, rx.2, reserved ▸ h.desk.out _ ok.out⟩
  tables ok :=
    have live := h.desk.ground.tables ok.liveOk
    ⟨live.live, live.bankA, live.bankB, fun T hT => ok.store T (h.desk.ground.store ▸ hT),
      fun c hc => ok.commit c (h.desk.ground.commit ▸ hc)⟩
  yard ok := h.desk.ground.yard ok.liveOk

theorem Answers.mono {P Q : State → State → Prop} {s : State} {o : Host.Outcome State Fault Refusal}
    (h : Answers P s o) (g : ∀ t, P s t → Q s t) : Answers Q s o :=
  let ⟨t, answer, ht⟩ := h
  ⟨t, answer, g t ht⟩

/-! ## POWER_ON_RESET -/

theorem imageOf_powerOnDesk (store : Option Tables) (n : Nat) : imageOf (powerOnDesk store n) = store.getD .none := by
  cases store with
  | none => rfl
  | some T => simp [powerOnDesk, imageOf, restoreYard, restoreSite, freshVehicle, freshLane, freshIsland, freshWash,
      freshStation, resetMouth]

theorem ImageOk.none : ImageOk .none := ⟨.nil, .nil, .nil, .nil, .nil, .nil, .nil, .nil, .nil, .nil⟩

theorem powerOnDesk_yard (store : Option Tables) (n : Nat) : (powerOnDesk store n).yard = restoreYard store := by
  cases store <;> rfl

theorem powerOnDesk_site (store : Option Tables) (n : Nat) : (powerOnDesk store n).site = restoreSite store := by
  cases store <;> rfl

theorem OutOk.powerOn (store : Option Tables) (n : Nat) : OutOk 0 (powerOnDesk store n).out := by
  have fresh : OutOk 0 { Out.reset with openCount := n } :=
    { OutOk.reset with }
  have synced := fresh.syncImages (restoreSite store)
  cases store with
  | none => exact synced.offerNotice (restoreSite none) .tablesLost none none none
  | some T => exact synced

theorem restoreYard_ok (store : Option Tables) : YardOk (restoreYard store) where
  lanes p h := by
    obtain ⟨e, -, fresh⟩ := mem_tmap h
    rw [fresh]
    exact ⟨Nat.zero_le _, Nat.zero_le _⟩
  apron := Nat.zero_le _
  departing := Nat.zero_le _
  fuelQ := Nat.zero_le _
  washQ := Nat.zero_le _
  emits := rfl

theorem powerOn_kept (rate : Rate) (s : State) : Kept s (powerOn rate s) where
  pending := rfl
  link _ := ⟨Nat.zero_le _, Nat.zero_le _, by
    show OutOk (reservedFor (powerOnDesk s.site.store s.out.openCount).site) _
    rw [powerOnDesk_site]
    exact OutOk.powerOn ..⟩
  tables ok := by
    have image : ImageOk (s.site.store.getD .none) := by
      cases h : s.site.store with
      | none => exact .none
      | some T => exact ok.store T h
    refine ⟨?_, ?_, ?_, fun T hT => ok.store T ?_, fun c hc => ?_⟩
    · exact (imageOf_powerOnDesk s.site.store s.out.openCount).symm ▸ image
    · show tableWf (powerOnDesk s.site.store s.out.openCount).yard.bankA
      rw [powerOnDesk_yard]
      exact .nil
    · show tableWf (powerOnDesk s.site.store s.out.openCount).yard.bankB
      rw [powerOnDesk_yard]
      exact .nil
    · change (powerOnDesk s.site.store s.out.openCount).site.store = some T at hT
      rwa [powerOnDesk_site] at hT
    · change (powerOnDesk s.site.store s.out.openCount).site.commit = some c at hc
      rw [powerOnDesk_site] at hc
      cases hc
  yard _ _ := by
    show YardOk (powerOnDesk s.site.store s.out.openCount).yard
    rw [powerOnDesk_yard]
    exact restoreYard_ok _

/-! ## The commands of a commit -/

/-- What a command of the commit changes in no case: the table fields. -/
structure CommitStep (s t : State) : Prop extends Kept s t where
  image : imageOf t.desk = imageOf s.desk
  bankA : t.yard.bankA = s.yard.bankA
  bankB : t.yard.bankB = s.yard.bankB

theorem CommitStep.refl (s : State) : CommitStep s s := ⟨(StateStep.refl s).keeps.kept, rfl, rfl, rfl⟩

/-- The store, the commit and the sending side alone have changed. -/
theorem CommitStep.of {s : State} {rx : Rx} {o : Out} {store : Option Tables} {c : Option Commit}
    (hr : RxOk s.rx → RxOk rx)
    (ho : OutOk (reservedFor s.site) s.out → OutOk (if c.isSome then 1 else 0) o)
    (hs : ∀ T, TablesOk s → store = some T → ImageOk T) (hc : ∀ m, TablesOk s → c = some m → ImageOk m.image) :
    CommitStep s { s with rx := rx, out := o, site := { s.site with store := store, commit := c } } where
  pending := rfl
  link ok := ⟨(hr ⟨ok.field, ok.office⟩).1, (hr ⟨ok.field, ok.office⟩).2, ho ok.out⟩
  tables ok := ⟨ok.live, ok.bankA, ok.bankB, fun T => hs T ok, fun m => hc m ok⟩
  yard _ ok := ok
  image := rfl
  bankA := rfl
  bankB := rfl

theorem execCommit_answers (s : State) : Answers CommitStep s (execCommit s) := by
  obtain idle | ⟨f, rest, head, free, taken⟩ := officeStep_cases (ofKind kindCommit) (· == 0) commitHandler s
  · exact ⟨s, idle, .refl s⟩
  · have shorter : RxOk s.rx → RxOk { s.rx with office.ingress := rest } := fun ok => ⟨ok.1, by
      have bound := ok.2
      rw [head] at bound
      exact Nat.le_trans (Nat.le_succ _) bound⟩
    have refused : ∀ r, CommitStep s (afterRefusal s f rest r) := fun r =>
      .of shorter (fun o => (o.reserveSlot free).putReply _) (fun T ok => ok.store T) (fun m ok => ok.commit m)
    refine ⟨_, taken, ?_⟩
    unfold takeCommand
    dsimp only
    split
    · unfold commitHandler
      cases busy : s.site.commit with
      | some c =>
        rw [if_pos (by simp [busy])]
        exact refused .busy
      | none =>
        rw [if_neg (by simp [busy])]
        have none_reserved : reservedFor s.site = 0 := by simp [reservedFor, busy]
        refine .of shorter (fun o => ?_) (fun T _ h => by cases h) fun m ok h => by cases h; exact ok.live
        rw [none_reserved] at o
        exact o.reserveSlot free
    · exact refused .badLength

theorem reservedFor_of_some {k : Site} {c : Commit} (h : k.commit = some c) : reservedFor k = 0 + 1 := by
  simp [reservedFor, h]

theorem execCommitComplete_answers (s : State) : Answers CommitStep s (execCommitComplete s) := by
  unfold execCommitComplete
  split
  · exact ⟨s, rfl, .refl s⟩
  · next c inFlight =>
    split
    · exact ⟨s, rfl, .refl s⟩
    · refine ⟨_, rfl, .of (c := none) id (fun o => ?_) (fun T ok h => ?_) fun m _ h => by cases h⟩
      · rw [reservedFor_of_some inFlight] at o
        exact o.putReply _
      · cases h
        exact ok.commit c inFlight

theorem execCommitTimeout_answers (s : State) : Answers CommitStep s (execCommitTimeout s) := by
  unfold execCommitTimeout
  split
  · exact ⟨s, rfl, .refl s⟩
  · next c inFlight =>
    split
    · refine ⟨_, rfl, .of (c := none) id (fun o => ?_) (fun T ok => ok.store T) fun m _ h => by cases h⟩
      rw [reservedFor_of_some inFlight] at o
      exact (o.offerNotice ..).putReply _
    · exact ⟨s, rfl, .refl s⟩

/-! ## Every command -/

/-- The commands that write table fields, the store or a commit. -/
def writesTables : Instr → Bool
  | .powerOnReset _ _ | .tableData | .vehicleSetOutOfService | .vehicleSetClearOutOfService | .commit | .commitComplete
  | .commitTimeout => true
  | _ => false

theorem exec_steps (c : Instr) (s : State) (h : writesTables c = false) : Steps s (exec c s) := by
  cases c with
  | powerOnReset rate1 rate0 => cases h
  | rxByte port byte => exact ⟨_, rfl, receive_step ..⟩
  | receiveGapTimeout port => exact ⟨_, rfl, receive_step ..⟩
  | tagRead => exact .fieldRow (DeskStep.fieldFrame tagAct_step) s
  | loopState => exact Steps.fieldRow (wants := (· == .loopState)) (DeskStep.fieldFrame loopAct_step) s
  | debounceExpiry mouth => exact execDebounceExpiry_steps mouth s
  | stuckTimerExpiry mouth => exact execStuckTimerExpiry_steps mouth s
  | silenceTimerExpiry station => exact execSilenceTimerExpiry_steps station s
  | pendingTimeout lane => exact execPendingTimeout_steps lane s
  | transitTimeout => exact execTransitTimeout_steps s
  | vehiclePresent => exact islandStep_steps (fun k n i f v y => (Work.refl y).vehiclePresent k n i f v) 1 s
  | nozzleLifted => exact islandStep_steps (fun k n i f v y => (Work.refl y).nozzleLifted k n i f v) 2 s
  | meterCount => exact islandStep_steps (fun k n i f v y => (Work.refl y).meterCount k n i f v) 3 s
  | nozzleHung => exact islandStep_steps (fun k n i f v y => (Work.refl y).nozzleHung k n i f v) 4 s
  | islandClear => exact islandStep_steps (fun k n i f v y => (Work.refl y).islandClear k n i f v) 5 s
  | islandReportFault => exact islandStep_steps (fun k n i f v y => (Work.refl y).islandFault k n i f v) 6 s
  | arrivalTimerExpiry island => exact execArrivalTimerExpiry_steps island s
  | authorisationTimerExpiry island => exact execAuthorisationTimerExpiry_steps island s
  | flowStallTimerExpiry island => exact islandExpiry_steps (fun k i y => (Work.refl y).stall k island i) .dispensing island s
  | vehicleInPosition => exact washStep_steps (fun k n l f g y => (Work.refl y).vehicleInPosition k n l f g) 1 s
  | stageDone => exact washStep_steps (fun k n l f g y => (Work.refl y).stageDone k n l f g) 2 s
  | laneClear => exact washStep_steps (fun k n l f g y => (Work.refl y).laneClear k n l f g) 3 s
  | washReportFault => exact washStep_steps (fun k n l f g y => (Work.refl y).washFault k n l f g) 4 s
  | callTimerExpiry washLane => exact execCallTimerExpiry_steps washLane s
  | stageTimerExpiry washLane =>
    exact washExpiry_steps (fun k l y => ((Work.refl y).abortWash k washLane).faultWash k washLane l) .running washLane s
  | unprocessedFieldFrame => exact execUnprocessedFieldFrame_steps s
  | officeFrameToField => exact execOfficeFrameToField_steps s
  | badKindCommand => exact execBadKindCommand_steps s
  | tableOpen => exact execTableOpen_steps s
  | tableData => cases h
  | tableRead => exact execTableRead_steps s
  | commit => cases h
  | commitComplete => cases h
  | commitTimeout => cases h
  | bankActivateAtRollover => exact bankStepCommand_steps (fun _ => setActivation_work true) 1 s
  | bankActivateNow => exact bankStepCommand_steps (fun k y => (Work.refl y).activateNow k) 2 s
  | bankActivateCancel => exact bankStepCommand_steps (fun _ => setActivation_work false) 3 s
  | time => exact execTime_steps s
  | census => exact execCensus_steps s
  | laneSetOpen => exact laneSetStep_steps laneOpen_work s
  | laneSetClose => exact laneSetStep_steps laneClose_work s
  | laneSetDeclareEmpty => exact laneSetStep_steps laneEmpty_work s
  | vehicleSetOutOfService => cases h
  | vehicleSetClearOutOfService => cases h
  | vehicleSetMarkUnlocated => exact orderStep_steps (fun k v y => (Work.refl y).orderUnlocated k v) 3 s
  | vehicleSetSendToFuel => exact orderStep_steps (fun k v y => (Work.refl y).orderToFuel k v) 4 s
  | vehicleSetSendToWash => exact orderStep_steps (fun k v y => (Work.refl y).orderToWash k v) 5 s
  | dutyCancel => exact execDutyCancel_steps s
  | dutyCall => exact execDutyCall_steps s
  | stationResume => exact execStationResume_steps s
  | queryVehicle => exact queryStep_steps 1 3 readVehicle s
  | queryLane => exact queryStep_steps 2 3 readLane s
  | queryDuty => exact queryStep_steps 3 4 readDuty s
  | queryIsland => exact queryStep_steps 4 2 readIsland s
  | queryWash => exact queryStep_steps 5 2 readWash s
  | queryQueues => exact queryStep_steps 6 2 readQueues s
  | queryCalls => exact queryStep_steps 7 2 readCalls s
  | queryStatus => exact execQueryStatus_steps s
  | yardClear => exact execYardClear_steps s
  | fieldEgressSend => exact ⟨_, rfl, .ofOut fun _ o => o.fieldSend ..⟩
  | officeEgressSend => exact ⟨_, rfl, .ofOut fun _ o => o.officeSend _⟩
  | noticeHoldExpiry => exact execNoticeHoldExpiry_steps s
  | yardSecondAdvance => exact execYardSecondAdvance_steps s
  | holdoverTimerExpiry => exact execHoldoverTimerExpiry_steps s

/-- The seven commands that write tables, the store or a commit, one by one; the others by their step. -/
theorem exec_answers_kept (c : Instr) (s : State) : Answers Kept s (exec c s) := by
  cases h : writesTables c with
  | false => exact (exec_steps c s h).mono fun t step => step.keeps.kept
  | true =>
    unfold writesTables at h
    split at h
    · exact ⟨_, rfl, powerOn_kept ..⟩
    · exact (execTableData_answers s).mono fun t step => step.kept
    · exact (orderStep_keeps orderOutOfService_edits 1 s).mono fun t step => step.kept
    · exact (orderStep_keeps orderInService_edits 2 s).mono fun t step => step.kept
    · exact (execCommit_answers s).mono fun t step => step.toKept
    · exact (execCommitComplete_answers s).mono fun t step => step.toKept
    · exact (execCommitTimeout_answers s).mono fun t step => step.toKept
    · cases h

theorem exec_kept {c : Instr} {s t : State} (h : exec c s = .next t) : Kept s t := by
  obtain ⟨u, answer, kept⟩ := exec_answers_kept c s
  cases answer.symm.trans h
  exact kept

/-- A step keeps what every command keeps, but that it takes a command from the queue. -/
theorem step_kept {s t : State} (h : step s = .next t) : ∃ rest, Kept { s with pending := rest } t := by
  unfold step at h
  split at h
  · cases h
    exact ⟨s.pending, (tick_step s).keeps.kept⟩
  · next c rest _ => exact ⟨rest, exec_kept h⟩

/-! ## The obligations on the step -/

/-- Settles O5: the queue of commands is no part of the link side, which every command keeps within its bounds. -/
theorem stepKeepsLinkBounds : Obligations.StepKeepsLinkBounds := by
  intro s t ok h
  obtain ⟨rest, kept⟩ := step_kept h
  exact kept.link ⟨ok.field, ok.office, ok.out⟩

/-- Settles O6: every command keeps the yard's bounds while the tables are in order. -/
theorem stepKeepsYardBounds : Obligations.StepKeepsYardBounds := by
  intro s t tables ok h
  obtain ⟨rest, kept⟩ := step_kept h
  exact kept.yard ⟨tables.live, tables.bankA, tables.bankB, tables.store, tables.commit⟩ ok

/-- Settles O7: every command keeps the tables, the store and the image of a commit in order. -/
theorem stepKeepsTableOrder : Obligations.StepKeepsTableOrder := by
  intro s t ok h
  obtain ⟨rest, kept⟩ := step_kept h
  exact kept.tables ⟨ok.live, ok.bankA, ok.bankB, ok.store, ok.commit⟩

/-- Settles O8: a command that writes no table by its step, in which the site and the yard keep every table field; the three
commands of a commit, which write the store alone. -/
theorem otherCommandsKeepTables : Obligations.OtherCommandsKeepTables := by
  intro c s t ok reset data outOfService inService h
  cases w : writesTables c with
  | false =>
    obtain ⟨u, answer, step⟩ := exec_steps c s w
    cases answer.symm.trans h
    have same := step.desk.ground
    exact ⟨imageOf_same same.site same.yard ok.liveOk.mouths _ _, same.yard.bankA, same.yard.bankB⟩
  | true =>
    have committed : Answers CommitStep s (exec c s) := by
      unfold writesTables at w
      split at w
      · exact absurd rfl (reset _ _)
      · exact absurd rfl data
      · exact absurd rfl outOfService
      · exact absurd rfl inService
      · exact execCommit_answers s
      · exact execCommitComplete_answers s
      · exact execCommitTimeout_answers s
      · cases w
    obtain ⟨u, answer, step⟩ := committed
    cases answer.symm.trans h
    exact ⟨step.image, by rw [step.bankA], by rw [step.bankB]⟩

/-- Settles O3: every command answers a next state, and keeps the queue. -/
theorem nothingStops : Obligations.NothingStops := by
  intro c s
  obtain ⟨t, answer, kept⟩ := exec_answers_kept c s
  exact ⟨t, answer, kept.pending⟩

/-- Settles O1: the step's own arm for a queue with a command. -/
theorem stepRunsFrontCommand : Obligations.StepRunsFrontCommand := fun _ _ _ => rfl

/-- Settles O2: below the hundredth tick the timebase and the phase rise; at the hundredth the tick that completes the second
is the one YARD_SECOND_ADVANCE waits for. -/
theorem emptyQueueTicks : Obligations.EmptyQueueTicks := by
  intro s empty
  have ticks : step s = .next (tick s) := by
    unfold step
    rw [empty]
  refine ⟨fun early => ?_, fun last => ?_⟩
  · rw [ticks]
    exact congrArg _ (if_pos early)
  · have one : toNextSecond s.site = { s.site with now := s.site.now + 1 } := by
      simp [toNextSecond, last, Config.second]
    rw [ticks]
    show Host.Outcome.next (tick s) = next s (advanceSecond { s.desk with site := toNextSecond s.site })
    unfold tick
    rw [if_neg (by simp [last, Config.second]), one]
    rfl

/-- Settles O4: the reset state's collections are empty, but for one batch in office egress. -/
theorem resetWithinBounds : Obligations.ResetWithinBounds :=
  ⟨⟨Nat.zero_le _, Nat.zero_le _, { OutOk.reset with slots := by decide, batch := by decide }⟩,
    restoreYard_ok none, ⟨ImageOk.none, .nil, .nil, fun _ h => by (cases h), fun _ h => by (cases h)⟩⟩

/-- Settles O24: each tracker state with each pair state, from the table. -/
theorem trackerTable : Obligations.TrackerTable := by
  intro t p
  cases t <;> cases p <;> decide

end Sys2Proof.Machine

/-! The reset and the receiving side (R24 to R26, R153): what a power-on reset leaves, what one byte makes of a receive
assembly, and the bytes of a whole frame. -/

namespace Sys2Proof.Machine

/-! ## POWER_ON_RESET -/

/-- The notice of a bad store (R153). -/
def tablesLostNotice : Notice :=
  { kind := .tablesLost, fleet := none, place := none, duty := none, second := 0, count := 1, joined := 0 }

/-- With a bad store the notice of the lost tables leaves the queue at once, in a batch of its own (R153, R158). -/
theorem powerOnDesk_none_out (n : Nat) : (powerOnDesk none n).out =
    { Out.reset with
      officeQ := [{ cls := .batch, frame := batchFrame (restoreSite none) n [tablesLostNotice] }]
      openCount := n + 1 } := by
  rfl

theorem powerOnDesk_some_out (T : Tables) (n : Nat) :
    (powerOnDesk (some T) n).out = syncImages (restoreSite (some T)) { Out.reset with openCount := n } := rfl

/-- What the sending side holds after a reset, beside office egress and the board images. -/
theorem powerOnDesk_out (store : Option Tables) (n : Nat) :
    let o := (powerOnDesk store n).out
    o.fieldQ = [] ∧ o.held = [] ∧ o.reserved = 0 ∧ o.runCount = 0 ∧ o.overflow = false ∧ o.notices = [] := by
  cases store with
  | none =>
    rw [powerOnDesk_none_out]
    exact ⟨rfl, rfl, rfl, rfl, rfl, rfl⟩
  | some T => exact ⟨rfl, rfl, rfl, rfl, rfl, rfl⟩

theorem mem_boardAddresses (k : Site) (a : Nat) :
    a ∈ boardAddresses k ↔ ∃ p ∈ k.stations, p.2.entry.role = .board ∧ p.2.entry.address = a := by
  simp [boardAddresses, and_assoc]

/-- Every board has an empty image, and nothing else has one (R130). -/
theorem powerOnDesk_images (store : Option Tables) (n a : Nat) :
    tget (powerOnDesk store n).out.images a =
      if a ∈ boardAddresses (restoreSite store) then some (List.replicate 12 .empty) else none := by
  cases store with
  | none =>
    rw [powerOnDesk_none_out]
    rfl
  | some T =>
    rw [powerOnDesk_some_out, tget_syncImages]
    rfl

theorem mem_namedConcentrators (mouths : Table Mouth) (a : Nat) :
    a ∈ namedConcentrators mouths ↔ ∃ p ∈ mouths, p.2.entry.stationA = a ∨ p.2.entry.stationB = a := by
  simp only [namedConcentrators, List.mem_flatMap, List.mem_cons, List.not_mem_nil, or_false, eq_comm]

/-- Every named concentrator starts out of silence with its timer running, and no other has a record (R46, R49). -/
theorem tget_freshConcentrators (k : Site) (a : Nat) :
    tget (freshConcentrators k) a =
      if a ∈ namedConcentrators k.mouths then some { loops := 0, timer := some (silenceDeadline k), silent := false }
      else none := by
  rw [freshConcentrators, tget_foldl_tset, tget_nil]

theorem tget_restoreSite_concentrators (store : Option Tables) (a : Nat) :
    let k := restoreSite store
    let named := ∃ p ∈ k.mouths, p.2.entry.stationA = a ∨ p.2.entry.stationB = a
    (named → tget k.concentrators a = some { loops := 0, timer := some (k.now + setting k 8 * 100), silent := false }) ∧
    (¬named → tget k.concentrators a = none) := by
  intro k named
  have fresh : tget k.concentrators a = if named then _ else none :=
    (tget_freshConcentrators { k with concentrators := [] } a).trans (by simp only [mem_namedConcentrators]; rfl)
  exact ⟨fun h => fresh.trans (if_pos h), fun h => fresh.trans (if_neg h)⟩

/-- What a power-on reset makes: the site and the yard of the store, and the sending side as its notice left it. -/
theorem powerOn_eq (rate : Rate) (s : State) :
    powerOn rate s =
      { pending := s.pending, rx := { field := .reset, office := .reset, rate := rate }
        out := (powerOnDesk s.site.store s.out.openCount).out
        site := restoreSite s.site.store, yard := restoreYard s.site.store } := by
  unfold powerOn
  dsimp only
  rw [powerOnDesk_site, powerOnDesk_yard]

/-- Settles O9: the site and the yard are made of the store's records, each with its starting value; the sending side is empty
but for the batch of a bad store. -/
theorem powerOnReset : Obligations.PowerOnReset := by
  intro r1 r0 s
  have boards := powerOnDesk_images s.site.store s.out.openCount
  have image := imageOf_powerOnDesk s.site.store s.out.openCount
  obtain ⟨fieldQ, held, reserved, runCount, overflow, notices⟩ := powerOnDesk_out s.site.store s.out.openCount
  simp only [mem_boardAddresses] at boards
  rw [imageOf, powerOnDesk_site, powerOnDesk_yard] at image
  refine ⟨_, congrArg Host.Outcome.next (powerOn_eq _ s), rfl, rfl, fieldQ, held, reserved, runCount, overflow, notices, rfl,
    rfl, rfl, rfl, rfl, rfl, rfl, rfl, rfl, rfl, rfl, rfl, rfl, rfl, ?roster, ?lanes, ?islands, ?washLanes, ?mouths,
    tget_restoreSite_concentrators s.site.store, ?stations,
    fun a => ⟨fun h => (boards a).trans (if_pos h), fun h => (boards a).trans (if_neg h)⟩, ?good, ?bad⟩
  case roster =>
    intro p mem
    obtain ⟨e, -, fresh⟩ := mem_tmap mem
    rw [fresh]
    exact ⟨rfl, rfl, rfl, rfl, rfl, rfl, rfl, rfl, rfl, rfl⟩
  case lanes =>
    intro p mem
    obtain ⟨e, -, fresh⟩ := mem_tmap mem
    rw [fresh]
    exact ⟨rfl, rfl, rfl, rfl⟩
  case islands | washLanes | mouths | stations =>
    intro p mem
    obtain ⟨e, -, fresh⟩ := mem_tmap mem
    rw [fresh]
    rfl
  case good =>
    intro T store
    rw [store] at image
    dsimp only [State.desk]
    rw [store]
    exact ⟨image, rfl⟩
  case bad =>
    intro store
    rw [store] at image
    dsimp only [State.desk]
    rw [store]
    exact ⟨image, batchFrame (restoreSite none) s.out.openCount [tablesLostNotice], by rw [powerOnDesk_none_out],
      rfl, rfl, rfl, rfl⟩


/-! ## One byte -/

section Receive

variable {p : Port} {a : Assembly} {s : State}

theorem receive_nothing : receive p (a, .nothing) s = { s with rx := setPort p { portOf s.rx p with assembly := a } s.rx } :=
  rfl

theorem receive_discard {c : LinkReason} : receive p (a, .discard c) s =
    { s with
      rx := setPort p { portOf s.rx p with assembly := a } s.rx
      out := offerNotice s.site .linkError none (some (.port p (some c))) none s.out } := rfl

theorem receive_good {f : Frame} (room : (portOf s.rx p).ingress.length < 8) : receive p (a, .good f) s =
    { s with rx := setPort p { assembly := a, ingress := (portOf s.rx p).ingress ++ [f] } s.rx } := if_pos room

theorem receive_overrun {f : Frame} (full : 8 ≤ (portOf s.rx p).ingress.length) : receive p (a, .good f) s =
    { s with
      rx := setPort p { portOf s.rx p with assembly := a } s.rx
      out := offerNotice s.site .linkOverrun none (some (.port p none)) none s.out } := if_neg (Nat.not_lt.mpr full)

/-- An assembly that stays as it is. -/
theorem receive_same (same : (portOf s.rx p).assembly = a) : receive p (a, .nothing) s = s := by
  rw [receive_nothing, ← same, setPort_portOf]

/-- A byte into a port whose assembly is known. -/
theorem execRxByte_eq {b : Byte} (before : (portOf s.rx p).assembly = a) :
    exec (.rxByte p b) s = .next (receive p (assemble a b) s) := by
  rw [← before]
  rfl

theorem execReceiveGapTimeout_eq (before : (portOf s.rx p).assembly = a) :
    exec (.receiveGapTimeout p) s = .next (receive p (gapOut a) s) := by
  rw [← before]
  rfl

end Receive

section Assemble

variable {b : Byte} {h : Header} {got : List Byte}

theorem assemble_header (short : got.length < 3) : assemble (.header got) b = (.header (got ++ [b]), .nothing) := by
  match got, short with
  | [], _ => rfl
  | [_], _ => rfl
  | [_, _], _ => rfl

theorem assemble_body_more (more : got.length + 1 < h.length.toNat) :
    assemble (.body h got) b = (.body h (got ++ [b]), .nothing) :=
  if_neg (by simp only [List.length_append, List.length_singleton]; omega)

theorem assemble_body_last (last : got.length + 1 = h.length.toNat) :
    assemble (.body h got) b = (.check h (got ++ [b]) none, .nothing) :=
  if_pos (by simp only [List.length_append, List.length_singleton]; omega)

theorem gapOut_of_ne_hunt {a : Assembly} (underWay : a ≠ .hunt) : gapOut a = (.hunt, .discard .gap) := by
  cases a with
  | hunt => exact absurd rfl underWay
  | header got => rfl
  | body h got => rfl
  | check h payload high => rfl

end Assemble

/-- Settles O10: the assembly's case, the byte it takes, and what the port makes of the two. -/
theorem rxByteAssembles : Obligations.RxByteAssembles := by
  intro p b s
  refine ⟨fun hunt other => ?_, fun hunt start => ?_, fun got header short => ?_, fun d c k header => ⟨?_, ?_, ?_⟩,
    fun h got body => ⟨?_, ?_⟩, fun h got check => ?_, fun hunt => ?_, fun underWay => ?_⟩
  · rw [execRxByte_eq hunt, assemble, if_neg other, receive_same hunt]
  · rw [execRxByte_eq hunt, assemble, if_pos start, receive_nothing]
  · rw [execRxByte_eq header, assemble_header short, receive_nothing]
  · intro long
    rw [execRxByte_eq header, assemble, afterHeader, if_pos long, receive_discard]
  · intro empty
    rw [execRxByte_eq header, assemble, afterHeader, if_neg (by simp [empty]), if_pos empty, receive_nothing]
  · intro some_ fits
    rw [execRxByte_eq header, assemble, afterHeader, if_neg (Nat.not_lt.mpr fits), if_neg (Nat.ne_of_gt some_),
      receive_nothing]
  · intro more
    rw [execRxByte_eq body, assemble_body_more more, receive_nothing]
  · intro last
    rw [execRxByte_eq body, assemble_body_last last, receive_nothing]
  · rw [execRxByte_eq check, assemble, receive_nothing]
  · rw [execReceiveGapTimeout_eq hunt, gapOut, receive_same hunt]
  · rw [execReceiveGapTimeout_eq rfl, gapOut_of_ne_hunt underWay, receive_discard]

/-! ## A whole frame -/

theorem checkFrame_good {h : Header} {got : List Byte} {high low : Byte}
    (good : crcBytes (crcOf ([h.dest, h.src, h.kind, h.length] ++ got)) = [high, low]) :
    checkFrame h got high low = .good (frameOf h got) := if_pos good

/-- Settles O11: the last CRC byte gives the frame's test, and the port its queue. -/
theorem rxLastByte : Obligations.RxLastByte := by
  refine ⟨by simp [crcOf, crcByte, crcBit, BitVec.msb], fun p b high h got s check => ⟨fun good room => ?_, fun good full => ?_, fun bad => ?_⟩⟩
  · rw [execRxByte_eq check, assemble, checkFrame_good good, receive_good room]
  · rw [execRxByte_eq check, assemble, checkFrame_good good, receive_overrun full]
  · rw [execRxByte_eq check, assemble, checkFrame, if_neg bad, receive_discard]

theorem execAll_append (l m : List Instr) {s t : State} (h : execAll l s = .next t) :
    execAll (l ++ m) s = execAll m t := by
  induction l generalizing s with
  | nil => cases h; rfl
  | cons c l ih =>
    simp only [List.cons_append, execAll] at h ⊢
    split at h
    · exact ih h
    · cases h
    · cases h

/-- The port `p` of `s`, with its assembly at `a`. -/
def withAssembly (p : Port) (a : Assembly) (s : State) : State :=
  { s with rx := setPort p { portOf s.rx p with assembly := a } s.rx }

@[simp] theorem portOf_withAssembly (p : Port) (a : Assembly) (s : State) :
    portOf (withAssembly p a s).rx p = { portOf s.rx p with assembly := a } := portOf_setPort_same ..

@[simp] theorem withAssembly_withAssembly (p : Port) (a b : Assembly) (s : State) :
    withAssembly p a (withAssembly p b s) = withAssembly p a s := by
  simp only [withAssembly, portOf_setPort_same, setPort_setPort]

/-- A byte that moves the assembly alone. -/
theorem execAll_rxByte {p : Port} {a a' : Assembly} {b : Byte} (l : List Instr) (s : State)
    (h : assemble a b = (a', .nothing)) :
    execAll (.rxByte p b :: l) (withAssembly p a s) = execAll l (withAssembly p a' s) := by
  have byte : exec (.rxByte p b) (withAssembly p a s) = .next (withAssembly p a' s) := by
    rw [execRxByte_eq (a := a) (by simp), h, receive_nothing]
    exact congrArg Host.Outcome.next (withAssembly_withAssembly p a' a s)
  simp only [execAll, byte]

/-- The rest of a payload, when it is not empty, completes it. -/
theorem execAll_payload {p : Port} {h : Header} (got rest : List Byte) (s : State) (l : List Instr) (some_ : rest ≠ [])
    (whole : got.length + rest.length = h.length.toNat) :
    execAll (rest.map (Instr.rxByte p) ++ l) (withAssembly p (.body h got) s) =
      execAll l (withAssembly p (.check h (got ++ rest) none) s) := by
  induction rest generalizing got with
  | nil => exact absurd rfl some_
  | cons b rest ih =>
    rw [List.length_cons] at whole
    rw [List.map_cons, List.cons_append]
    cases rest with
    | nil => exact execAll_rxByte l s (assemble_body_last whole)
    | cons c rest =>
      rw [execAll_rxByte _ s (assemble_body_more (by simp only [List.length_cons] at whole; omega)),
        ih (got ++ [b]) (by simp) (by simp only [List.length_append, List.length_singleton]; omega)]
      simp

/-- The header of a frame as it is sent (R24, R162). -/
def headerOf (f : Frame) : Header := { dest := f.dest, src := f.src, kind := f.kind, length := byte f.payload.length }

theorem headerOf_length {f : Frame} (fits : f.payload.length ≤ 56) : (headerOf f).length.toNat = f.payload.length := by
  simp only [headerOf, byte, BitVec.toNat_ofNat]
  omega

/-- The four header bytes and the payload bring a hunting port to its CRC bytes. -/
theorem execAll_content {p : Port} {f : Frame} (s : State) (l : List Instr) (fits : f.payload.length ≤ 56) :
    execAll ((0xA5 :: content f).map (Instr.rxByte p) ++ l) (withAssembly p .hunt s) =
      execAll l (withAssembly p (.check (headerOf f) f.payload none) s) := by
  have length := headerOf_length fits
  have start : assemble .hunt 0xA5 = (.header [], .nothing) := rfl
  have dest : assemble (.header []) f.dest = (.header [f.dest], .nothing) := rfl
  have src : assemble (.header [f.dest]) f.src = (.header [f.dest, f.src], .nothing) := rfl
  have kind : assemble (.header [f.dest, f.src]) f.kind = (.header [f.dest, f.src, f.kind], .nothing) := rfl
  simp only [content, List.map_cons, List.cons_append, List.nil_append]
  rw [execAll_rxByte _ s start, execAll_rxByte _ s dest, execAll_rxByte _ s src, execAll_rxByte _ s kind]
  by_cases empty : f.payload = []
  · rw [execAll_rxByte (a' := .check (headerOf f) [] none) _ s, empty]
    · rfl
    · show afterHeader (headerOf f) = _
      rw [afterHeader, length, if_neg (by omega), if_pos (by simp [empty])]
  · have some_ : f.payload.length ≠ 0 := fun zero => empty (List.length_eq_zero_iff.mp zero)
    rw [execAll_rxByte (a' := .body (headerOf f) []) _ s, execAll_payload [] f.payload s l empty (by simp [length])]
    · rfl
    · show afterHeader (headerOf f) = _
      rw [afterHeader, length, if_neg (by omega), if_neg some_]

/-- Settles O12: the content brings the port to its CRC bytes, which are those the port computes. -/
theorem wireRoundTrip : Obligations.WireRoundTrip := by
  intro p f s fits hunt room
  let high : Byte := (crcOf (content f) >>> 8).setWidth 8
  let low : Byte := (crcOf (content f)).setWidth 8
  have hunting : withAssembly p .hunt s = s := by
    rw [withAssembly, ← hunt, setPort_portOf]
  have bytes : (wire f).map (Instr.rxByte p) = (0xA5 :: content f).map (Instr.rxByte p) ++ [.rxByte p high, .rxByte p low] := by
    simp [wire, crcBytes, high, low]
  have good : assemble (.check (headerOf f) f.payload (some high)) low = (.hunt, .good f) := by
    have crc : checkFrame (headerOf f) f.payload high low = .good f := checkFrame_good (h := headerOf f) rfl
    rw [assemble, crc]
  have last : exec (.rxByte p low) (withAssembly p (.check (headerOf f) f.payload (some high)) s) = .next
      { s with rx := setPort p { assembly := .hunt, ingress := (portOf s.rx p).ingress ++ [f] } s.rx } := by
    rw [execRxByte_eq (a := .check (headerOf f) f.payload (some high)) (by simp), good, receive_good (by simpa using room)]
    simp [withAssembly]
  calc execAll ((wire f).map (Instr.rxByte p)) s
      = execAll [.rxByte p high, .rxByte p low] (withAssembly p (.check (headerOf f) f.payload none) s) := by
        rw [bytes, ← execAll_content s _ fits, hunting]
    _ = execAll [.rxByte p low] (withAssembly p (.check (headerOf f) f.payload (some high)) s) := execAll_rxByte _ s rfl
    _ = _ := by simp only [execAll, last]

end Sys2Proof.Machine

/-! Field egress and the Notice Queue (R27, R28, R130, R157, R158): what a freed slot is given to, what a step has made, and
what becomes of a notice. -/

namespace Sys2Proof.Machine

/-! ## What the comparison of a board adds -/

/-- Frames have joined field egress at its end, and the bytes last sent are the same. -/
def Extends (o q : Out) : Prop := q.fieldTx = o.fieldTx ∧ ∃ tail, q.fieldQ = o.fieldQ ++ tail

namespace Extends

variable {o q r : Out}

theorem refl (o : Out) : Extends o o := ⟨rfl, [], by simp⟩

theorem trans (h : Extends o q) (g : Extends q r) : Extends o r := by
  obtain ⟨tx, l, hl⟩ := h
  obtain ⟨tx', m, hm⟩ := g
  exact ⟨tx'.trans tx, l ++ m, by rw [hm, hl, List.append_assoc]⟩

theorem placeFrame (h : Held) (o : Out) : Extends o (placeFrame h o) := ⟨rfl, _, rfl⟩

theorem issue (h : Held) (o : Out) : Extends o (issue h o) := by
  unfold Machine.issue
  split
  · exact placeFrame h o
  · exact ⟨rfl, [], by simp⟩

theorem boardRun (k : Site) (lines : List BoardLine) (a n : Nat) (o : Out) : Extends o (boardRun k lines a n o) := by
  induction n generalizing o with
  | zero => exact refl o
  | succ n ih =>
    unfold Machine.boardRun
    split
    · exact refl o
    · split
      · exact refl o
      · exact (issue _ o).trans (ih _)

theorem releaseHeld (k : Site) (lines : List BoardLine) (n : Nat) (o : Out) : Extends o (releaseHeld k lines n o) := by
  induction n generalizing o with
  | zero => exact refl o
  | succ n ih =>
    unfold Machine.releaseHeld
    split
    · exact refl o
    · next h rest held =>
      split
      · refine Extends.trans ?_ (ih _)
        have placed : Extends o (Machine.placeFrame h { o with held := rest }) := ⟨rfl, _, rfl⟩
        split
        · exact placed.trans (boardRun ..)
        · exact placed
      · exact refl o

end Extends

/-! ## A freed slot -/

section Release

variable {k : Site} {lines : List BoardLine} {o : Out} {h : Held} {rest : List Held} {n : Nat}

/-- The frame held longest takes a free slot, and a placed board line resumes its board's comparison. -/
theorem releaseHeld_succ (held : o.held = h :: rest) (room : o.fieldQ.length < 16) :
    releaseHeld k lines (n + 1) o = releaseHeld k lines n
      (if (boardAddresses k).contains h.frame.dest.toNat then
        compareBoard k lines (placeFrame h { o with held := rest }) h.frame.dest.toNat
       else placeFrame h { o with held := rest }) := by
  rw [releaseHeld, held]
  exact if_pos room

theorem releaseHeld_full (full : 16 ≤ o.fieldQ.length) : releaseHeld k lines n o = o := by
  cases n with
  | zero => rfl
  | succ n =>
    unfold releaseHeld
    split
    · rfl
    · exact if_neg (Nat.not_lt.mpr full)

theorem fieldSend_eq {i : FieldItem} {q : List FieldItem} (queue : o.fieldQ = i :: q) :
    fieldSend k lines o = releaseHeld k lines 16 { o with fieldQ := q, fieldTx := wire i.frame } := by
  rw [fieldSend, queue]
  rfl

/-- What line `j` of a board should show, by the call list and the board's size (R130). -/
theorem boardTarget_eq (k : Site) (lines : List BoardLine) (j : Nat) :
    boardTarget k lines j = match lines[j]? with
      | some l => if j < setting k 19 then .line l else .empty
      | none => .empty := by
  unfold boardTarget
  split
  · rfl
  · split <;> rfl

theorem heldForBoard_iff (o : Out) (a : Nat) :
    heldForBoard o a = true ↔ ∃ g ∈ o.held, g.block = .departure ∧ g.frame.dest.toNat = a := by
  simp [heldForBoard]

theorem compareBoard_rests {a : Nat} (rests : inManual k a = true ∨ heldForBoard o a = true) :
    compareBoard k lines o a = o := if_pos (by simpa using rests)

/-- A comparison that finds no difference changes nothing. -/
theorem compareBoard_same {a : Nat} {image : List ImageLine} (found : tget o.images a = some image)
    (same : ∀ j line, image[j]? = some line → line = boardTarget k lines j) : compareBoard k lines o a = o := by
  have none_differs : firstDiff k lines 0 image = none := by
    rw [firstDiff_eq, Option.map_eq_none_iff, List.find?_eq_none]
    intro j hj
    have line := List.getElem?_eq_getElem (List.mem_range.mp hj)
    simp [line, same j _ line]
  rw [compareBoard, boardRun, found, Option.getD_some, none_differs]
  split <;> rfl

/-- A comparison with no slot free holds one frame, for the lowest line that differs. -/
theorem compareBoard_holds {a j : Nat} {image : List ImageLine} {line : ImageLine} (station : a < 256)
    (works : ¬(inManual k a = true ∨ heldForBoard o a = true)) (full : 16 ≤ o.fieldQ.length)
    (found : tget o.images a = some image) (at_ : image[j]? = some line) (differs : line ≠ boardTarget k lines j)
    (lowest : ∀ i x, i < j → image[i]? = some x → x = boardTarget k lines i) :
    compareBoard k lines o a = { o with held := o.held ++ [boardFrame k lines a j] } := by
  obtain ⟨auto, free⟩ := not_or.mp works
  have first : firstDiff k lines 0 image = some j := by
    rw [firstDiff_eq, Option.map_eq_some_iff]
    refine ⟨j, ?_, Nat.zero_add j⟩
    rw [List.find?_range_eq_some]
    have inside : j < image.length := (List.getElem?_eq_some_iff.mp at_).1
    refine ⟨by simpa [at_] using differs, List.mem_range.mpr inside, fun i hi => ?_⟩
    have below := List.getElem?_eq_getElem (Nat.lt_trans hi inside)
    simpa [below] using lowest i _ hi below
  have held : heldForBoard { o with held := o.held ++ [boardFrame k lines a j] } a = true :=
    (heldForBoard_iff ..).mpr ⟨boardFrame k lines a j, by simp, rfl, by simp [boardFrame, byte, Nat.mod_eq_of_lt station]⟩
  rw [compareBoard, boardRun, found, Option.getD_some, first, if_neg (by simpa using works)]
  dsimp only
  rw [issue_boardFrame_holds station (by simpa using free) (.inr full), boardRun_waits _ _ _ _ held]

end Release

/-- FIELD_EGRESS_SEND with a frame held and 15 others waiting: the held frame fills the queue again, so that the release ends
with it and with the comparison of its board. -/
theorem fieldSend_refills {k : Site} {lines : List BoardLine} {o : Out} {i : FieldItem} {q : List FieldItem} {h : Held}
    {rest : List Held} (queue : o.fieldQ = i :: q) (fifteen : q.length = 15) (held : o.held = h :: rest) :
    let placed : Out := { o with
      fieldQ := q ++ [{ frame := h.frame, own := true }], held := rest, images := takeImage h o.images
      fieldTx := wire i.frame }
    fieldSend k lines o = releaseHeld k lines 15
      (if (boardAddresses k).contains h.frame.dest.toNat then compareBoard k lines placed h.frame.dest.toNat else placed) := by
  intro placed
  have freed := releaseHeld_succ (k := k) (lines := lines) (n := 15)
    (o := { o with fieldQ := q, fieldTx := wire i.frame }) held (by show q.length < 16; omega)
  exact (fieldSend_eq queue).trans freed

theorem takeImage_eq (h : Held) (images : Table (List ImageLine)) :
    takeImage h images = match h.image with
      | some (j, line) => tmod images h.frame.dest.toNat fun lines => lines.set j line
      | none => images := by
  unfold takeImage
  split <;> simp only [*]

/-! ## What a step has made -/

theorem handOver_own (k : Site) (block : Block) (f : Frame) (o : Out) (auto : inManual k f.dest.toNat = false) :
    handOver k o (.own block f) = issue { block := block, frame := f, image := none } o := by
  rw [handOver, auto]
  rfl

theorem issue_places {g : Held} {o : Out} (none_held : o.held = []) (room : o.fieldQ.length < 16) :
    issue g o = placeFrame g o := if_pos ⟨none_held, room⟩

theorem issue_holds {g : Held} {o : Out} (busy : o.held ≠ [] ∨ 16 ≤ o.fieldQ.length) :
    issue g o = { o with held := holdFrame g o.held } :=
  if_neg fun ⟨none_held, room⟩ => busy.elim (· none_held) (Nat.not_le.mpr room)

/-- Settles O13: the release of one slot by its lemmas, a BOARD_LINE's layout, and what becomes of each thing a step made. -/
theorem fieldEgressSend : Obligations.FieldEgressSend := by
  refine ⟨fun s i q queue => ⟨?idle, ?oldest⟩, fun s i q h rest queue fifteen held => ?_, ?own, ?hand,
    fun k kind fleet place duty o => rfl, fun d => rfl⟩
  case idle =>
    intro none_held
    show Host.Outcome.next { s with out := fieldSend s.site s.yard.callList s.out } = _
    rw [fieldSend_eq queue, releaseHeld]
    simp only [none_held]
  case oldest =>
    intro h rest held room
    let freed : Out := { s.out with fieldQ := q, fieldTx := wire i.frame }
    let placed := placeFrame h { freed with held := rest }
    have sent : fieldSend s.site s.yard.callList s.out = releaseHeld s.site s.yard.callList 16 freed := fieldSend_eq queue
    rw [releaseHeld_succ (o := freed) held room] at sent
    have more : Extends placed (fieldSend s.site s.yard.callList s.out) := by
      rw [sent]
      refine Extends.trans ?_ (.releaseHeld ..)
      split
      · exact .boardRun ..
      · exact .refl placed
    obtain ⟨tx, tail, queue'⟩ := more
    exact ⟨{ s with out := fieldSend s.site s.yard.callList s.out }, tail, rfl, tx,
      queue'.trans (List.append_assoc q _ tail), rfl, rfl, rfl⟩
  · intro k a images placed ends board target rests
    have refills := fieldSend_refills (k := k) (lines := s.yard.callList) queue fifteen held
    rw [takeImage_eq] at refills
    have full : ∀ g, 16 ≤ ({ placed with held := g } : Out).fieldQ.length := fun g => by simp [placed, fifteen]
    have boards : (boardAddresses k).contains a = true ↔ board := by
      rw [List.contains_iff_mem]
      exact mem_boardAddresses k a
    have rests_iff : inManual k a = true ∨ heldForBoard placed a = true ↔ rests := by
      rw [heldForBoard_iff]
    have target_eq : ∀ j, boardTarget k s.yard.callList j = target j := boardTarget_eq k s.yard.callList
    have sends : ∀ g, (board → compareBoard k s.yard.callList placed a = { placed with held := g }) →
        (¬board → g = rest) → ends { placed with held := g } := fun g compared other => by
      show Host.Outcome.next { s with out := fieldSend k s.yard.callList s.out } = _
      refine congrArg (fun o => Host.Outcome.next { s with out := o }) (refills.trans ?_)
      by_cases isBoard : board
      · rw [if_pos (boards.mpr isBoard)]
        exact (congrArg _ (compared isBoard)).trans (releaseHeld_full (full g))
      · rw [if_neg (mt boards.mp isBoard)]
        exact (releaseHeld_full (full rest)).trans (by rw [other isBoard])
    refine ⟨fun notBoard => sends rest (absurd · notBoard) fun _ => rfl,
      fun isBoard isRest => sends rest (fun _ => compareBoard_rests (rests_iff.mpr isRest)) fun _ => rfl,
      fun image isBoard works found => ⟨fun same => ?_, fun j line at_ differs lowest => ?_⟩⟩
    · exact sends rest (fun _ => compareBoard_same found fun j line at_ => (same j line at_).trans (target_eq j).symm)
        fun _ => rfl
    · have frame : boardFrame k s.yard.callList a j =
          { block := .departure
            frame := { dest := byte a, src := byte (ownAddress k), kind := 0x43,
                       payload := sent ((1, j + 1) :: imageLineFields (target j)) }
            image := some (j, target j) } := by
        rw [boardFrame, target_eq, sent_one, imageLineBytes_eq_sent]
        rfl
      rw [← frame]
      refine sends _ (fun _ => ?_) (absurd isBoard)
      exact compareBoard_holds (BitVec.isLt _) (mt rests_iff.mp works) (full rest) found at_
        (fun same => differs (same.trans (target_eq j)))
        fun i x below hx => (lowest i x below hx).trans (target_eq i).symm
  case own =>
    intro k block a kind p y manual
    rw [sendOwn]
    exact ⟨fun h => if_pos ((inManual_iff k a).mpr h), fun h => if_neg (mt (inManual_iff k a).mp h)⟩
  case hand =>
    intro k block f o manual h same run
    refine ⟨fun isManual => if_pos ((inManual_iff ..).mpr isManual), fun auto none_held room => ?_, fun auto busy => ?_⟩
    · have notManual := Bool.eq_false_iff.mpr (mt (inManual_iff k f.dest.toNat).mp auto)
      exact (handOver_own k block f o notManual).trans (issue_places none_held room)
    · have notManual := Bool.eq_false_iff.mpr (mt (inManual_iff k f.dest.toNat).mp auto)
      have holds : run = { o with held := holdFrame h o.held } :=
        (handOver_own k block f o notManual).trans (issue_holds busy)
      refine ⟨fun before g after held isSame first => ?_, fun others => ?_⟩
      · rw [holds, held, holdFrame_replaces isSame first]
      · rw [holds, holdFrame_joins others]

/-! ## Notices -/

theorem noticeKey_eq_iff (m n : Notice) :
    noticeKey m = noticeKey n ↔ m.kind = n.kind ∧ m.fleet = n.fleet ∧ m.place = n.place ∧ m.duty = n.duty := by
  simp [noticeKey]

theorem coalesce_append {n m : Notice} {before after : List Notice} (match_ : noticeKey m = noticeKey n)
    (first : ∀ x ∈ before, noticeKey x ≠ noticeKey n) :
    coalesce n (before ++ m :: after) = before ++ { m with count := satSucc 255 m.count } :: after := by
  induction before with
  | nil => exact if_pos ((sameNotice_iff m n).mpr match_)
  | cons x before ih =>
    have other := mt (sameNotice_iff x n).mp (first x List.mem_cons_self)
    rw [List.cons_append, coalesce, if_neg other, ih fun y mem => first y (List.mem_cons_of_mem x mem)]
    rfl

theorem elapsed_iff (k : Site) (started length : Nat) : elapsed k started length = true ↔ started + length ≤ k.now := by
  simp [elapsed]

theorem officeFree_pos_iff (o : Out) : 0 < officeFree o ↔ o.officeQ.length + o.reserved < 16 := by
  simp only [officeFree, Config.officeEgressCap]
  omega

theorem batchWaits_iff (o : Out) : batchWaits o = false ↔ ∀ i ∈ o.officeQ, i.cls ≠ .batch := by
  simp [batchWaits]

theorem batchDue_iff (k : Site) (o : Out) : batchDue k o = true ↔ ∃ n l, o.notices = n :: l ∧
    (setting k 21 ≤ o.notices.length ∨ n.joined + setting k 22 * 100 ≤ k.now) := by
  unfold batchDue
  split
  · next empty => simp [empty]
  · next n l queue => simp [queue, elapsed_iff, Config.second]

/-- The two conditions of R29 and R158 under which a due batch is formed. -/
theorem tryBatch_cond_iff (k : Site) (o : Out) :
    (batchDue k o && decide (0 < officeFree o) && !batchWaits o) = true ↔
      (∃ n l, o.notices = n :: l ∧ (setting k 21 ≤ o.notices.length ∨ n.joined + setting k 22 * 100 ≤ k.now)) ∧
      o.officeQ.length + o.reserved < 16 ∧ ∀ i ∈ o.officeQ, i.cls ≠ .batch := by
  rw [Bool.and_eq_true, Bool.and_eq_true, Bool.not_eq_true', decide_eq_true_eq, batchDue_iff, officeFree_pos_iff,
    batchWaits_iff, and_assoc]

/-- The codes and the severities of the notice kinds (R156, R165). -/
theorem noticeCode_severity : ∀ p ∈
      [(NoticeKind.unknownVehicle, 1, 1), (.relocated, 2, 1), (.fuelSkipped, 3, 1), (.fuelTurnMissed, 4, 1), (.flowStall, 5, 1),
       (.wrongVehicle, 6, 0), (.islandFault, 7, 2), (.washSkipped, 8, 0), (.washFault, 9, 2), (.stowMissed, 10, 1),
       (.unexpectedEntry, 11, 1), (.laneUnderrun, 12, 1), (.laneOverflow, 13, 2), (.mouthFault, 14, 1),
       (.loopStuck, 15, 2), (.stationSilent, 16, 2), (.custodyMismatch, 17, 2), (.transitTimeout, 18, 1),
       (.yardFull, 19, 2), (.swap, 20, 0), (.dutyBlocked, 21, 2), (.dutyLate, 22, 1), (.callOverdue, 23, 1),
       (.callWithdrawn, 24, 0), (.unplannedDeparture, 25, 1), (.controlConflict, 26, 1), (.stationYielded, 27, 0),
       (.linkError, 28, 1), (.linkOverrun, 29, 2), (.egressFull, 30, 1), (.clockHoldover, 31, 2), (.clockLocked, 32, 0),
       (.dayRollover, 33, 0), (.commitFailed, 34, 2), (.tablesLost, 35, 2)],
    noticeCode p.1 = p.2.1 ∧ severity p.1 = p.2.2 := by
  decide

theorem reasonCode_of_mem {reason : Option LinkReason} {r : Nat}
    (h : (reason, r) ∈ [(none, 0), (some LinkReason.crc, 1), (some .length, 2), (some .gap, 3)]) : reasonCode reason = r := by
  simp only [List.mem_cons, Prod.mk.injEq, List.not_mem_nil, or_false] at h
  obtain ⟨rfl, rfl⟩ | ⟨rfl, rfl⟩ | ⟨rfl, rfl⟩ | ⟨rfl, rfl⟩ := h <;> rfl

theorem noticeLayout : NoticeLayout := by
  refine ⟨fun c i n l => ⟨rfl, rfl⟩, fun c i n code level place number kind at_ => ?_⟩
  obtain ⟨codeEq, levelEq⟩ := noticeCode_severity _ kind
  have placed : placeKindCode n.place = place ∧ placeNumber c i n.place = byte number := by
    obtain ⟨h, rfl, rfl⟩ | ⟨h, rfl⟩ | ⟨h, rfl⟩ | ⟨h, rfl⟩ | ⟨h, rfl⟩ | ⟨h, rfl⟩ | ⟨port, reason, r, h, rfl, code, rfl⟩ := at_
    · rw [h]
      exact ⟨rfl, (byte_toNat _).symm⟩
    · rw [h]
      exact ⟨rfl, rfl⟩
    · rw [h]
      exact ⟨rfl, rfl⟩
    · rw [h]
      exact ⟨rfl, rfl⟩
    · rw [h]
      exact ⟨rfl, rfl⟩
    · rw [h]
      exact ⟨rfl, rfl⟩
    · rw [h, ← reasonCode_of_mem code]
      cases port <;> exact ⟨rfl, rfl⟩
  simp only [noticeBytes, codeEq, levelEq, placed, sent_one, sent_two, sent_nil, orZero, List.cons_append, List.nil_append,
    List.append_assoc]

/-- Settles O15: the three cases of R157, the batch test by its two conditions, and the layout of an entry. -/
theorem noticeQueue : Obligations.NoticeQueue := by
  refine ⟨fun k kind fleet place duty o => ?offer, fun s n l queue old free noBatch => ?hold, fun k o => ?test, noticeLayout⟩
  case offer =>
    intro n matched
    have same : ∀ m, sameNotice m n = true ↔ matched m := fun m =>
      (sameNotice_iff m n).trans (noticeKey_eq_iff m n)
    refine ⟨fun before m after queue isMatch first => ?_, fun others room => ?_, fun others full => ?_⟩
    · have found : (o.notices.any fun m => sameNotice m n) = true :=
        List.any_eq_true.mpr ⟨m, by simp [queue], (same m).mpr isMatch⟩
      refine (if_pos found).trans ?_
      rw [queue, coalesce_append ((noticeKey_eq_iff m n).mpr isMatch) fun x mem => mt (noticeKey_eq_iff x n).mp (first x mem)]
      rfl
    · have none_found : ¬(o.notices.any fun m => sameNotice m n) = true := fun found => by
        obtain ⟨m, mem, isSame⟩ := List.any_eq_true.mp found
        exact others m mem ((same m).mp isSame)
      exact (if_neg none_found).trans (if_pos room)
    · have none_found : ¬(o.notices.any fun m => sameNotice m n) = true := fun found => by
        obtain ⟨m, mem, isSame⟩ := List.any_eq_true.mp found
        exact others m mem ((same m).mp isSame)
      exact (if_neg none_found).trans (if_neg (Nat.not_lt.mpr full))
  case hold =>
    have due := (tryBatch_cond_iff s.site s.out).mpr ⟨⟨n, l, queue, .inr old⟩, (officeFree_pos_iff _).mp free, noBatch⟩
    have formed : tryBatch s.site s.out = _ := if_pos due
    have runs : exec .noticeHoldExpiry s = .next { s with out := tryBatch s.site s.out } := by
      show execNoticeHoldExpiry s = _
      rw [execNoticeHoldExpiry, queue]
      exact if_pos ((elapsed_iff ..).mpr old)
    rw [formed] at runs
    refine ⟨_, batchFrame s.site s.out.openCount (s.out.notices.take 5), runs, ?_, rfl, rfl, rfl, rfl, ?_, rfl, rfl, rfl, rfl⟩
    · rw [← queue]
      rfl
    · rw [← queue, ← List.length_take]
      rfl
  case test =>
    intro due fits batch
    refine ⟨fun isDue hasRoom => (if_pos ((tryBatch_cond_iff k o).mpr ⟨isDue, hasRoom⟩)).trans ?_, fun not => ?_⟩
    · have frame : batchFrame k o.openCount (o.notices.take 5) = batch := by
        rw [batchFrame, List.length_take]
        rfl
      rw [← frame]
      rfl
    · exact if_neg fun both => not.elim (· ((tryBatch_cond_iff k o).mp both).1) (· ((tryBatch_cond_iff k o).mp both).2)

end Sys2Proof.Machine

/-! The choice of a lane, the stages of a placement and the retry rounds (R67 to R80). -/

namespace Sys2Proof.Machine

/-! ## Departures and tails -/

section Tails

variable {y : Yard} {f n : Nat} {v : Vehicle} {d : Duty}

theorem departureOf_outOfService (veh : vehOf y f = some v) (out : v.entry.outOfService = true) :
    departureOf y f = 1440 := by
  rw [departureOf, veh]
  exact if_pos out

theorem departureOf_spare (veh : vehOf y f = some v) (spare : v.duty.bind (dutyOf y) = none) : departureOf y f = 1440 := by
  rw [departureOf, veh]
  dsimp only
  rw [spare]
  split <;> rfl

theorem departureOf_paired (veh : vehOf y f = some v) (inService : v.entry.outOfService = false)
    (paired : v.duty.bind (dutyOf y) = some d) :
    departureOf y f = if evaluable d.state || d.state == .called then d.entry.departure else 1440 := by
  rw [departureOf, veh]
  dsimp only
  rw [paired, inService]
  rfl

/-- Settles O21: the two cases of a departure, and a lane's tail by its two lists. -/
theorem departuresAndTails : Obligations.DeparturesAndTails := by
  refine ⟨fun y f v veh => ⟨departureOf_outOfService veh, fun spare => ?spare, fun n d inService paired duty =>
    ⟨fun runs => ?runs, fun departed => ?departed⟩⟩, fun y l => ⟨?empty, ?pending, ?standing⟩⟩
  case spare => exact departureOf_spare veh (by rw [spare]; rfl)
  case runs =>
    rw [departureOf_paired veh inService (by rw [paired]; exact duty)]
    exact if_pos (by obtain h | h | h | h := runs <;> rw [h] <;> rfl)
  case departed =>
    rw [departureOf_paired veh inService (by rw [paired]; exact duty), departed]
    rfl
  case empty =>
    intro items pendings
    rw [laneTail, items, pendings]
    rfl
  case pending =>
    intro l' p pendings
    rw [laneTail, pendings, List.getLast?_concat]
  case standing =>
    intro l' i pendings items
    rw [laneTail, pendings, items, List.getLast?_concat]
    dsimp only [List.getLast?_nil]
    refine ⟨fun unknown => ?_, fun f known => ?_⟩
    · rw [unknown]
      rfl
    · rw [known]

end Tails

/-! ## The choice of a lane -/

/-- The first pair is not the worse: a lower score, or an equal one and no later lane. -/
def NoWorse (a b : Nat × Nat) : Prop := a.1 < b.1 ∨ a.1 = b.1 ∧ a.2 ≤ b.2

theorem betterLane_noWorse {b : Nat × Nat} {s n : Nat} (later : b.2 < n) :
    ∃ c, betterLane (some b) s n = some c ∧ (c = b ∨ c = (s, n)) ∧ NoWorse c b ∧ NoWorse c (s, n) := by
  unfold betterLane NoWorse
  by_cases lower : s < b.1
  · exact ⟨(s, n), by simp [lower], .inr rfl, .inl lower, .inr ⟨rfl, Nat.le_refl n⟩⟩
  · exact ⟨b, by simp [lower], .inl rfl, .inr ⟨rfl, Nat.le_refl _⟩, by dsimp only; omega⟩

/-- Lanes taken in rising number keep the best one so far. -/
theorem foldl_betterLane (keys : List (Nat × Nat)) (b : Nat × Nat) (rising : (b :: keys).Pairwise (·.2 < ·.2)) :
    ∃ c ∈ b :: keys, keys.foldl (fun best q => betterLane best q.1 q.2) (some b) = some c ∧
      ∀ q ∈ b :: keys, NoWorse c q := by
  induction keys generalizing b with
  | nil => exact ⟨b, List.mem_cons_self, rfl, by simp [NoWorse]⟩
  | cons q keys ih =>
    obtain ⟨below, rest⟩ := List.pairwise_cons.mp rising
    obtain ⟨m, step, among, noB, noQ⟩ := betterLane_noWorse (below q List.mem_cons_self) (s := q.1)
    have rising' : (m :: keys).Pairwise (·.2 < ·.2) := by
      obtain rfl | rfl := among
      · exact List.pairwise_cons.mpr ⟨fun p mem => below p (List.mem_cons_of_mem q mem), (List.pairwise_cons.mp rest).2⟩
      · exact rest
    obtain ⟨c, mem, result, best⟩ := ih m rising'
    have bestM := best m List.mem_cons_self
    refine ⟨c, ?_, ?_, fun p hp => ?_⟩
    · obtain rfl | mem := List.mem_cons.mp mem
      · obtain rfl | rfl := among <;> simp
      · simp [mem]
    · rw [List.foldl_cons]
      exact (congrArg (keys.foldl fun best q => betterLane best q.1 q.2) step).trans result
    · rw [List.mem_cons, List.mem_cons] at hp
      obtain rfl | rfl | mem := hp
      · unfold NoWorse at *
        omega
      · unfold NoWorse at *
        omega
      · exact best p (List.mem_cons_of_mem m mem)

section Choice

variable {k : Site} {y : Yard} {v : Vehicle} {forced : Bool}

/-- The scores and numbers of the lanes that take part. -/
def laneKeys (k : Site) (y : Yard) (v : Vehicle) (forced : Bool) : List (Nat × Nat) :=
  (y.lanes.filter fun p => takesPart k y v forced p.2).map fun p => (laneScore k y v p.2, p.1)

theorem mem_laneKeys {q : Nat × Nat} : q ∈ laneKeys k y v forced ↔
    ∃ l, (q.2, l) ∈ y.lanes ∧ takesPart k y v forced l = true ∧ laneScore k y v l = q.1 := by
  simp only [laneKeys, List.mem_map, List.mem_filter]
  constructor
  · rintro ⟨⟨n, l⟩, ⟨mem, takes⟩, rfl⟩
    exact ⟨l, mem, takes, rfl⟩
  · rintro ⟨l, mem, takes, score⟩
    exact ⟨(q.2, l), ⟨mem, takes⟩, Prod.ext score rfl⟩

theorem laneKeys_rising (wf : tableWf y.lanes) : (laneKeys k y v forced).Pairwise (·.2 < ·.2) :=
  List.pairwise_map.mpr ((List.pairwise_map.mp wf).sublist List.filter_sublist)

theorem chooseLane_eq (k : Site) (y : Yard) (v : Vehicle) (forced : Bool) :
    chooseLane k y v forced =
      ((laneKeys k y v forced).foldl (fun best q => betterLane best q.1 q.2) none).map (·.2) := by
  rw [laneKeys, List.foldl_map, List.foldl_filter]
  rfl

/-- With the lanes in order, the choice is a lane that takes part and to which no other that does is preferred. -/
theorem chooseLane_some (wf : tableWf y.lanes) {n : Nat} (chosen : chooseLane k y v forced = some n) :
    ∃ s, (s, n) ∈ laneKeys k y v forced ∧ ∀ q ∈ laneKeys k y v forced, NoWorse (s, n) q := by
  rw [chooseLane_eq] at chosen
  have rising := laneKeys_rising (k := k) (v := v) (forced := forced) wf
  cases keys : laneKeys k y v forced with
  | nil => simp [keys] at chosen
  | cons b rest =>
    rw [keys] at chosen rising
    obtain ⟨⟨s, m⟩, mem, result, best⟩ := foldl_betterLane rest b rising
    have chosen' : (rest.foldl (fun best q => betterLane best q.1 q.2) (some b)).map (·.2) = some n := chosen
    rw [result] at chosen'
    obtain rfl : m = n := Option.some.inj chosen'
    exact ⟨s, mem, best⟩

theorem chooseLane_none (wf : tableWf y.lanes) (nothing : chooseLane k y v forced = none) : laneKeys k y v forced = [] := by
  rw [chooseLane_eq] at nothing
  have rising := laneKeys_rising (k := k) (v := v) (forced := forced) wf
  cases keys : laneKeys k y v forced with
  | nil => rfl
  | cons b rest =>
    rw [keys] at nothing rising
    obtain ⟨c, _, result, _⟩ := foldl_betterLane rest b rising
    have nothing' : (rest.foldl (fun best q => betterLane best q.1 q.2) (some b)).map (·.2) = none := nothing
    rw [result] at nothing'
    contradiction

theorem eligible_iff (l : Lane) : eligible k y v l = true ↔
    l.status = .opened ∧ inMask l.entry.mask v.entry.cls = true ∧
      (l.items.length + l.pendings.length < 16 ∧ l.pendings.length < 4) ∧
      occupied k y l + v.entry.length + setting k 1 ≤ l.entry.capacity := by
  simp only [eligible, Bool.and_eq_true, beq_iff_eq, decide_eq_true_eq, and_assoc]
  rfl

theorem overtaken_le_iff (departure tolerance : Nat) (tail : Option Nat) :
    overtaken departure tail ≤ tolerance ↔ ∀ t, tail = some t → t ≤ departure + tolerance := by
  cases tail with
  | none => simp [overtaken]
  | some t => simp [overtaken, Nat.add_comm]

/-- Settles O19: the choice by the fold over the lanes that take part, the tests by their four and two conditions. -/
theorem laneChoice : Obligations.LaneChoice := by
  refine ⟨fun k y v forced wf => ⟨fun n chosen => ?some_, fun nothing p mem => ?none_⟩,
    fun k y v l => ⟨rfl, eligible_iff l, by simp [takesPart], ?ordinary⟩⟩
  case some_ =>
    obtain ⟨s, mem, best⟩ := chooseLane_some wf chosen
    obtain ⟨l, inLanes, takes, score⟩ := mem_laneKeys.mp mem
    refine ⟨l, inLanes, takes, fun m l' mem' takes' => ?_⟩
    rw [show laneScore k y v l = s from score]
    exact best (laneScore k y v l', m) (mem_laneKeys.mpr ⟨l', mem', takes', rfl⟩)
  case none_ =>
    refine Bool.eq_false_iff.mpr fun takes => ?_
    have key : (laneScore k y v p.2, p.1) ∈ laneKeys k y v forced := mem_laneKeys.mpr ⟨p.2, mem, takes, rfl⟩
    rw [chooseLane_none wf nothing] at key
    contradiction
  case ordinary => simp [takesPart, overtaken_le_iff]

end Choice

/-! ## A placement -/

section Stages

variable {k : Site} {f n : Nat} {y z : Yard} {v : Vehicle} {l : Lane} {forced : Bool}

theorem placement_lane (chosen : toLane k f false y = some (z, n)) : placement k f y = (z, .lane n) := by
  rw [placement, chosen]

theorem placement_apron (full : toLane k f false y = none) (room : y.apron.length < 16) :
    placement k f y = (report (setState k f .apron { y with apron := y.apron ++ [f] }), .apron) := by
  rw [placement, full]
  exact if_pos room

theorem placement_forced (full : toLane k f false y = none) (apron : 16 ≤ y.apron.length)
    (chosen : toLane k f true y = some (z, n)) : placement k f y = (z, .lane n) := by
  rw [placement, full]
  dsimp only
  rw [chosen]
  exact if_neg (Nat.not_lt.mpr apron)

theorem placement_wait (full : toLane k f false y = none) (apron : 16 ≤ y.apron.length)
    (none_left : toLane k f true y = none) :
    placement k f y = (raise .yardFull (some f) none (pairedNumber y f) (setState k f .stowWait y), .hold) := by
  rw [placement, full]
  dsimp only
  rw [none_left]
  exact if_neg (Nat.not_lt.mpr apron)

theorem requestLane_eq (veh : vehOf y f = some v) (lane : tget y.lanes n = some l) (tail : Option Nat) :
    requestLane k f n tail y = if eligible k y v l && laneTail y l == tail then
      some (setState k f .stowPending
        (updLane n (fun l => { l with pendings := l.pendings ++ [{ fleet := f, joined := k.now }] }) y))
    else none := by
  rw [requestLane, veh, lane]

theorem toLane_none (veh : vehOf y f = some v) (nothing : chooseLane k y v forced = none) : toLane k f forced y = none := by
  rw [toLane, veh]
  dsimp only
  rw [nothing]

/-- A chosen lane is eligible, and it is asked for with the tail it has: the request is taken. -/
theorem toLane_some (veh : vehOf y f = some v) (lane : tget y.lanes n = some l) (wf : tableWf y.lanes)
    (chosen : chooseLane k y v forced = some n) :
    toLane k f forced y = some (setState k f .stowPending
      (updLane n (fun l => { l with pendings := l.pendings ++ [{ fleet := f, joined := k.now }] }) y), n) := by
  obtain ⟨s, mem, -⟩ := chooseLane_some wf chosen
  obtain ⟨l', inLanes, takes, -⟩ := mem_laneKeys.mp mem
  have same : l' = l := Option.some.inj ((tget_of_mem wf inLanes).symm.trans lane)
  rw [same, takesPart, Bool.and_eq_true] at takes
  rw [toLane, veh]
  dsimp only
  rw [chosen]
  dsimp only
  rw [lane, Option.bind_some, requestLane_eq veh lane, if_pos (by simpa using takes.1)]
  rfl

end Stages

/-! ## The rounds -/

section Rounds

variable {k : Site} {bound f : Nat} {served : List Nat} {y : Yard}

theorem apronPass_ends (none_stands : ∀ g ∈ y.apron, ¬(stateOf y g = some .apron ∧ g ∉ served)) :
    apronPass k bound served y = y := by
  cases bound with
  | zero => rfl
  | succ n =>
    have nothing : (y.apron.find? fun g => stateOf y g == some .apron && !served.contains g) = none :=
      List.find?_eq_none.mpr fun g mem => by simpa using none_stands g mem
    rw [apronPass, nothing]

theorem apronPass_turn {before after : List Nat} (order : y.apron = before ++ f :: after)
    (stands : stateOf y f = some .apron ∧ f ∉ served)
    (first : ∀ g ∈ before, ¬(stateOf y g = some .apron ∧ g ∉ served)) :
    apronPass k (bound + 1) served y = apronPass k bound (f :: served) (apronTurn k f y) := by
  have found : (y.apron.find? fun g => stateOf y g == some .apron && !served.contains g) = some f :=
    List.find?_eq_some_iff_append.mpr ⟨by simpa using stands, before, after, order, fun g mem => by
      simpa [Classical.or_iff_not_imp_left] using first g mem⟩
  rw [apronPass, found]

/-- The keys of the waiting pass: since and then fleet number of the vehicles in STOW_WAIT it has not served (R3, R79). -/
def waitKeys (y : Yard) (served : List Nat) : List (Nat × Nat) :=
  (y.roster.filter fun p => p.2.state = .stowWait ∧ p.2.entry.fleet ∉ served).map fun p =>
    (p.2.since.day * 86400 + p.2.since.second, p.2.entry.fleet)

theorem waitOrder_eq (y : Yard) (served : List Nat) : waitOrder y served = (sortBy lt2 (waitKeys y served)).map (·.2) := by
  have keys : (y.roster.filterMap fun p =>
      if p.2.state == .stowWait && !served.contains p.2.entry.fleet then some (timeSeconds p.2.since, p.2.entry.fleet)
      else none) = waitKeys y served := by
    rw [waitKeys, ← List.filterMap_eq_map, List.filterMap_filter]
    refine filterMap_congr_mem fun p _ => ?_
    simp [timeSeconds]
  rw [waitOrder, keys]

theorem waitingPass_ends (none_waits : waitKeys y served = []) : waitingPass k bound served y = y := by
  cases bound with
  | zero => rfl
  | succ n =>
    rw [waitingPass, waitOrder_eq, none_waits]
    rfl

theorem waitingPass_turn {l after : List Nat} (order : InOrder (waitKeys y served) l) (first : l = f :: after) :
    waitingPass k (bound + 1) served y = waitingPass k bound (f :: served) (waitTurn k f y) := by
  have sorted : waitOrder y served = f :: after := by
    rw [waitOrder_eq, ← first]
    exact (sortBy_inOrder _).unique order
  rw [waitingPass, sorted]

theorem apronTurn_blocked (blocked : ∃ r, pairedDuty y f = some r ∧ r.state = .blocked) : apronTurn k f y = y :=
  if_pos (Option.map_eq_some_iff.mpr blocked)

theorem apronTurn_free (free : ¬∃ r, pairedDuty y f = some r ∧ r.state = .blocked) :
    apronTurn k f y = match toLane k f false y with
      | some (z, n) => afterMove k f (.lane n) (report (leaveApron f z))
      | none => y :=
  if_neg (mt Option.map_eq_some_iff.mp free)

end Rounds

/-- Settles O22: the stages by the requests they make, the rounds by their turns. -/
theorem placementStages : Obligations.PlacementStages := by
  refine ⟨fun k f y => ⟨fun z n => placement_lane, placement_apron, fun full apron =>
      ⟨fun z n => placement_forced full apron, placement_wait full apron⟩⟩,
    fun k f n y v l veh lane => ⟨fun tail fits same => ?taken, fun tail differs => ?refused,
      fun forced => toLane_none veh, fun forced => toLane_some veh lane⟩,
    fun k y => rfl, fun k bound served y => ⟨apronPass_ends, fun before f after => apronPass_turn⟩,
    fun k bound served y => ⟨waitingPass_ends, fun l order f after => waitingPass_turn order⟩,
    fun k f y => ⟨fun blocked => ?blocked, fun may full => ?stays, fun may z n chosen => ?leaves,
      fun z n chosen => ?lane, fun full room => ?apron, fun full apron => ⟨fun z n chosen => ?forced, fun left => ?waits⟩⟩⟩
  case taken => rw [requestLane_eq veh lane, if_pos (by simp [fits, same])]
  case refused => rw [requestLane_eq veh lane, if_neg (by simpa [Classical.or_iff_not_imp_left] using differs)]
  case blocked => exact apronTurn_blocked blocked
  case stays => rw [apronTurn_free may, full]
  case leaves =>
    rw [apronTurn_free may, chosen]
    rfl
  case lane =>
    rw [waitTurn, waitingPlacement, chosen]
    rfl
  case apron =>
    have moves : waitingPlacement k f y = some (joinApron k f y, .apron) := by
      rw [waitingPlacement, full]
      exact if_pos room
    rw [waitTurn, moves]
    rfl
  case forced =>
    have moves : waitingPlacement k f y = some (report z, .lane n) := by
      rw [waitingPlacement, full]
      dsimp only
      rw [chosen]
      exact if_neg (Nat.not_lt.mpr apron)
    rw [waitTurn, moves]
    rfl
  case waits =>
    have stays : waitingPlacement k f y = none := by
      rw [waitingPlacement, full]
      dsimp only
      rw [left]
      exact if_neg (Nat.not_lt.mpr apron)
    rw [waitTurn, stays]

end Sys2Proof.Machine

/-! The route decision and the reads of a tag (R12 to R18, R45, R59 to R63, R119). -/

namespace Sys2Proof.Machine

/-! ## The tests -/

theorem waiting_iff (s : DutyState) : waiting s = true ↔ s = .held ∨ s = .blocked := by
  simp [waiting]

theorem evaluable_iff (s : DutyState) : evaluable s = true ↔ s = .opened ∨ s = .held ∨ s = .blocked := by
  simp [evaluable, or_assoc]

section Tests

variable {k : Site} {y : Yard} {f : Nat} {v : Vehicle}

theorem releasable_eq_some {r : Duty} (paired : v.duty.bind (dutyOf y) = some r) (waits : r.state = .held ∨ r.state = .blocked)
    (isReady : ready v r = true) : releasable y v = some r.entry.number := by
  rw [releasable, paired]
  exact if_pos (by rw [(waiting_iff _).mpr waits, isReady]; rfl)

theorem releasable_eq_none
    (never : ¬∃ r, v.duty.bind (dutyOf y) = some r ∧ (r.state = .held ∨ r.state = .blocked) ∧ ready v r = true) :
    releasable y v = none := by
  unfold releasable
  split
  · next r paired =>
    refine if_neg fun both => never ⟨r, paired, ?_⟩
    rwa [Bool.and_eq_true, waiting_iff] at both
  · rfl

theorem wantsFuel_iff : wantsFuel k y v = true ↔
    needsFuel k v (v.duty.bind (dutyOf y)) = true ∧ v.fuelDone = false ∧ v.fuelSkipped = false := by
  simp [wantsFuel, and_assoc]

theorem wantsWash_iff : wantsWash k y v = true ↔
    needsWash k v (v.duty.bind (dutyOf y)) = true ∧ v.washDone = false ∧ v.washIncomplete = false := by
  simp [wantsWash, and_assoc]

theorem washJoinable_iff (y : Yard) (f : Nat) : washJoinable y f = true ↔
    y.washQ.length < 16 ∧ ∃ v, vehOf y f = some v ∧ ∃ p ∈ y.washLanes, inMask p.2.entry.mask v.entry.cls = true ∧
      v.entry.length ≤ p.2.entry.maxLength := by
  simp only [washJoinable, Bool.and_eq_true, decide_eq_true_eq, tany, List.any_eq_true, washAccepts_iff]
  refine and_congr_right fun _ => ⟨fun ⟨p, mem, v, veh, fits⟩ => ⟨v, veh, p, mem, fits⟩,
    fun ⟨v, veh, p, mem, fits⟩ => ⟨p, mem, v, veh, fits⟩⟩

theorem pairedNumber_eq (veh : vehOf y f = some v) : pairedNumber y f = v.duty := by
  rw [pairedNumber, veh, Option.bind_some]

theorem exists_veh_iff {p : Vehicle → Prop} (veh : vehOf y f = some v) : (∃ w, vehOf y f = some w ∧ p w) ↔ p v := by
  rw [veh]
  exact ⟨fun ⟨w, same, hp⟩ => Option.some.inj same ▸ hp, fun hp => ⟨v, rfl, hp⟩⟩

end Tests

/-! ## The cases of the decision -/

section Cases

variable {k : Site} {y : Yard} {f : Nat} {v : Vehicle} {onward : Nat → Yard → Yard × Direction}

theorem routeCases_outOfService (veh : vehOf y f = some v) (out : v.entry.outOfService = true) :
    routeCases k onward f y = placement k f y := by
  rw [routeCases, veh]
  exact if_pos out

theorem routeCases_inService (veh : vehOf y f = some v) (inService : v.entry.outOfService = false) :
    routeCases k onward f y = match releasable y v with
      | some d => (directRelease k d f y, .exit)
      | none =>
        if wantsFuel k y v then
          if fuelJoinable y f then (joinFuel k f y, .fuelRoad) else onward f (skipFuel f y)
        else onward f y := by
  rw [routeCases, veh]
  exact if_neg (by simp [inService])

theorem washOrPlace_eq (veh : vehOf y f = some v) : washOrPlace k f y =
    if wantsWash k y v then
      if washJoinable y f then (joinWash k f y, .washRoad) else placement k f (skipWash f y)
    else placement k f y := by
  rw [washOrPlace, veh]

/-- A direction shown at a sign in AUTO (R18, R163). -/
theorem showSign_auto {a : Nat} (auto : inManual k a = false) (dir : Direction) :
    showSign k (some a) f dir y = { y with emits := y.emits ++ [.own .vehicleTable
      { dest := byte a, src := byte (ownAddress k), kind := 0x40,
        payload := sent [(2, f), (1, (directionCode dir).toNat), (1, directionTarget dir), (2, 0), (1, 0)] }] } := by
  rw [showSign, sendOwn, auto, signPayload_eq_sent]
  rfl

theorem showSign_manual {a : Nat} (manual : inManual k a = true) (dir : Direction) : showSign k (some a) f dir y = y :=
  if_pos manual

/-- What the direction of a decision causes: a join of a queue, its urgent move or deferral and the calling rule. -/
def afterDecision (k : Site) (f : Nat) : Direction → Yard → Yard
  | .fuelRoad, y => fuelJoined k false f y
  | .washRoad, y => washJoined k f y
  | _, y => y

theorem route_eq (k : Site) (sign : Option Nat) (f : Nat) (y : Yard) :
    route k sign f y = (afterDecision k f (routeCases k (washOrPlace k) f y).2
        (showSign k sign f (routeCases k (washOrPlace k) f y).2 (routeCases k (washOrPlace k) f y).1),
      (routeCases k (washOrPlace k) f y).2) := by
  unfold route
  obtain ⟨z, dir⟩ := routeCases k (washOrPlace k) f y
  cases dir <;> rfl

theorem afterDecision_other {dir : Direction} (notFuel : dir ≠ .fuelRoad) (notWash : dir ≠ .washRoad) :
    afterDecision k f dir y = y := by
  cases dir with
  | fuelRoad => contradiction
  | washRoad => contradiction
  | _ => rfl

theorem fuelJoined_held (held : ∃ r, pairedDuty y f = some r ∧ r.state = .held) :
    fuelJoined k false f y = fuelCalls k (fuelUrgent f y) := by
  rw [fuelJoined, if_pos ((dutyHeld_iff y f).mpr held)]
  rfl

theorem fuelJoined_free (free : ¬∃ r, pairedDuty y f = some r ∧ r.state = .held) : fuelJoined k false f y = fuelCalls k y := by
  rw [fuelJoined, if_neg (mt (dutyHeld_iff y f).mp free)]

theorem washJoined_held {r : Duty} (paired : pairedDuty y f = some r) (held : r.state = .held) :
    washJoined k f y = washCalls k (if r.entry.wash then washUrgent f y else defer k false f y) := by
  rw [washJoined, paired]
  exact congrArg (washCalls k) (if_pos held)

theorem washJoined_free (free : ¬∃ r, pairedDuty y f = some r ∧ r.state = .held) : washJoined k f y = washCalls k y := by
  unfold washJoined
  split
  · next r paired => exact congrArg (washCalls k) (if_neg fun held => free ⟨r, paired, held⟩)
  · rfl

end Cases

theorem directionCode_target {dir : Direction} {code target : Nat}
    (listed : (dir, code, target) ∈
        [(Direction.fuelRoad, 1, 0), (.washRoad, 2, 0), (.apron, 6, 0), (.hold, 7, 0), (.exit, 8, 0)] ∨
      (code = 3 ∧ dir = .island target) ∨ (code = 4 ∧ dir = .wash target) ∨ (code = 5 ∧ dir = .lane target)) :
    (directionCode dir).toNat = code ∧ directionTarget dir = target := by
  obtain listed | ⟨rfl, rfl⟩ | ⟨rfl, rfl⟩ | ⟨rfl, rfl⟩ := listed
  · simp only [List.mem_cons, Prod.mk.injEq, List.not_mem_nil, or_false] at listed
    obtain ⟨rfl, rfl, rfl⟩ | ⟨rfl, rfl, rfl⟩ | ⟨rfl, rfl, rfl⟩ | ⟨rfl, rfl, rfl⟩ | ⟨rfl, rfl, rfl⟩ := listed <;> exact ⟨rfl, rfl⟩
  all_goals exact ⟨rfl, rfl⟩

/-- Settles O18: each case by the test that selects it, the sign's frame by its code, and a join by what it causes. -/
theorem routeDecision : Obligations.RouteDecision := by
  refine ⟨fun k f v y veh => ⟨fun onward => ⟨routeCases_outOfService veh, fun inService => ?release, fun inService never fuel joins => ?fuel,
      fun inService never fuel refused => ?skip, fun inService never noFuel => ?onward⟩, fun wash joins => ?wash, fun wash refused => ?washSkip,
      fun noWash => ?place, ?fuelTest, ?washTest, rfl, rfl, ?fuelSkipped, ?washSkipped⟩,
    fun k sign f dir y => ⟨?nowhere, ?manual, ?shown⟩, fun k sign f y => ?joins⟩
  case release =>
    rintro ⟨r, paired, waits, isReady⟩
    refine ⟨r, paired, ?_⟩
    rw [routeCases_inService veh inService, releasable_eq_some paired waits isReady]
  case fuel =>
    rw [routeCases_inService veh inService, releasable_eq_none never]
    exact (if_pos (wantsFuel_iff.mpr fuel)).trans (if_pos joins)
  case skip =>
    rw [routeCases_inService veh inService, releasable_eq_none never]
    exact (if_pos (wantsFuel_iff.mpr fuel)).trans (if_neg (by simp [refused]))
  case onward =>
    rw [routeCases_inService veh inService, releasable_eq_none never]
    exact if_neg (mt wantsFuel_iff.mp noFuel)
  case wash =>
    rw [washOrPlace_eq veh, if_pos (wantsWash_iff.mpr wash), if_pos joins]
  case washSkip =>
    rw [washOrPlace_eq veh, if_pos (wantsWash_iff.mpr wash), if_neg (by simp [refused])]
  case place => rw [washOrPlace_eq veh, if_neg (mt wantsWash_iff.mp noWash)]
  case fuelTest => rw [fuelJoinable_iff, exists_veh_iff veh]
  case washTest => rw [washJoinable_iff, exists_veh_iff veh]
  case fuelSkipped =>
    rw [skipFuel, pairedNumber_eq veh]
    rfl
  case washSkipped =>
    rw [skipWash, pairedNumber_eq veh]
    rfl
  case nowhere =>
    rintro rfl
    rfl
  case manual =>
    rintro a rfl manual
    exact showSign_manual manual dir
  case shown =>
    rintro a code target rfl auto listed
    obtain ⟨codeEq, targetEq⟩ := directionCode_target listed
    rw [← codeEq, ← targetEq]
    exact showSign_auto auto dir
  case joins =>
    intro a shown run held
    have runs : ∀ {z : Yard}, afterDecision k f a.2 shown = z → run = (z, a.2) := fun decided =>
      (route_eq k sign f y).trans (congrArg (·, a.2) decided)
    refine ⟨fun road isHeld => runs ?_, fun road free => runs ?_, fun r road paired isHeld => runs ?_,
      fun road free => runs ?_, fun notFuel notWash => runs (afterDecision_other notFuel notWash)⟩
    · rw [road]
      exact fuelJoined_held isHeld
    · rw [road]
      exact fuelJoined_free free
    · rw [road]
      exact washJoined_held paired isHeld
    · rw [road]
      exact washJoined_free free

/-! ## A reader's record and its repeats -/

theorem isRepeat_iff (k : Site) (reader fleet : Nat) : isRepeat k reader fleet = true ↔
    ∃ r, tget k.tagMemory reader = some r ∧ r.fleet = fleet ∧ k.now < r.at_ + setting k 11 * 100 := by
  unfold isRepeat
  split
  · next r found =>
    rw [Bool.and_eq_true, beq_iff_eq, Bool.not_eq_true', Bool.eq_false_iff, ne_eq, elapsed_iff, Nat.not_le]
    simp [found, Config.second]
  · next missing => simp [missing]

section TagAct

variable {k : Site} {y : Yard} {f : Frame} {role : Role} {sign : Option Nat}

theorem tagAct_repeat (repeated : isRepeat k f.src.toNat (u16 f.payload 0) = true) :
    tagAct (.tagRead role sign) f k y =
      (k, y, { fleet := some (u16 f.payload 0), direction := none, disposition := .repeated }) :=
  if_pos repeated

theorem tagAct_read (fresh : ¬isRepeat k f.src.toNat (u16 f.payload 0) = true) {l : Site} {z : Yard} {dir : Option Direction}
    (site : l = { k with
      tagMemory := tset k.tagMemory f.src.toNat { fleet := u16 f.payload 0, at_ := k.now } })
    (reads : readTag l role sign f.src.toNat (u16 f.payload 0) (u8 f.payload 2) y = (z, dir)) :
    tagAct (.tagRead role sign) f k y = (l, z, processed (some (u16 f.payload 0)) dir) := by
  rw [tagAct]
  dsimp only
  rw [if_neg fresh, ← site, reads]
  rfl

theorem readTag_unknown {reader fleet percent : Nat} (unknown : vehOf y fleet = none) :
    readTag k role sign reader fleet percent y =
      (raise .unknownVehicle (some fleet) (some (.station reader)) none y, none) := by
  unfold readTag
  rw [unknown]

theorem readTag_rostered {reader fleet percent : Nat} {v : Vehicle} (veh : vehOf y fleet = some v) :
    readTag k role sign reader fleet percent y = match role with
      | .gateIn => ((arrive k reader fleet percent sign y).1, some (arrive k reader fleet percent sign y).2)
      | .gateOut => (exitRead k fleet y, none)
      | _ => yardRead k fleet sign y := by
  unfold readTag
  cases role <;> rw [veh]

end TagAct

/-! ## An arrival -/

section Arrival

variable {k : Site} {y : Yard} {g : Nat} {v : Vehicle}

theorem stateOf_eq (veh : vehOf y g = some v) : stateOf y g = some v.state := by
  rw [stateOf, veh]
  rfl

theorem relocate_eq (veh : vehOf y g = some v) (k : Site) (a : Nat) :
    relocate k a g y = if v.state = .absent ∨ v.state = .unlocated then y
      else raise .relocated (some g) (some (relocatedPlace y a g)) none (settleKeeping k (takeOut k g (withdrawCall g y))) := by
  rw [relocate, stateOf_eq veh]
  exact ite_congr_iff (by rw [Option.some_inj, Option.some_inj]) ..

theorem earliestDuty_first {p : Duty → Bool} {before after : List Nat} {d : Nat} (order : dutyOrder y = before ++ d :: after)
    (passes : ∃ r, dutyOf y d = some r ∧ p r = true) (first : ∀ e ∈ before, ¬∃ r, dutyOf y e = some r ∧ p r = true) :
    earliestDuty y p = some d := by
  refine List.find?_eq_some_iff_append.mpr ⟨?_, before, after, order, fun e mem => ?_⟩
  · obtain ⟨r, found, hp⟩ := passes
    rw [found]
    exact hp
  · have fails := first e mem
    cases found : dutyOf y e with
    | none => rfl
    | some r => simpa [found] using fails

theorem earliestDuty_none {p : Duty → Bool} (never : ∀ e ∈ dutyOrder y, ¬∃ r, dutyOf y e = some r ∧ p r = true) :
    earliestDuty y p = none := by
  refine List.find?_eq_none.mpr fun e mem => ?_
  have fails := never e mem
  cases found : dutyOf y e with
  | none => simp
  | some r => simpa [found] using fails

theorem takesBlocked_iff (v : Vehicle) (r : Duty) : takesBlocked v r = true ↔
    r.state = .blocked ∧ r.reason = some .noVehicle ∧ r.vehicle = none ∧ ready v r = true := by
  simp [takesBlocked, and_assoc]

theorem takesOpen_iff (v : Vehicle) (r : Duty) : takesOpen v r = true ↔
    r.state = .opened ∧ r.vehicle = none ∧ inMask r.entry.mask v.entry.cls = true := by
  simp [takesOpen, and_assoc]

theorem pairArrival_outOfService (veh : vehOf y g = some v) (out : v.entry.outOfService = true) : pairArrival g y = y := by
  rw [pairArrival, veh]
  exact if_pos out

theorem pairArrival_inService (veh : vehOf y g = some v) (inService : v.entry.outOfService = false) :
    pairArrival g y = match earliestDuty y (takesBlocked v) with
      | some d => pair g d y
      | none => match earliestDuty y (takesOpen v) with
        | some d => pair g d y
        | none => y := by
  rw [pairArrival, veh]
  exact if_neg (by simp [inService])

end Arrival

/-! ## The outbound gate -/

section Exit

variable {k : Site} {x w n : Nat} {y z : Yard} {l : Lane}

theorem apronStep_eq (k : Site) (x : Nat) (y : Yard) : apronStep k x y =
    if x ∈ y.apron then
      setState k x .departing (joinDeparting k (some x) none (roomEvent { y with apron := without y.apron x }))
    else y := by
  rw [apronStep]
  exact ite_congr_iff List.contains_iff_mem ..

/-- The four cases of a GATE_OUT read, after the apron step. -/
theorem exitRead_eq (step : apronStep k x y = z) : exitRead k x y =
    if ∃ e ∈ z.departing, e.vehicle = some x then
      settleDeparture k x { z with departing := dropDeparting (some x) z.departing }
    else if ∃ e ∈ z.departing, e.vehicle = none then
      settleDeparture k x (takeOut k x { z with departing := dropDeparting none z.departing })
    else match z.departing with
      | [] => unexpectedExit k x z
      | e :: _ => match e.vehicle with
        | some v => mismatch k x v e.lane z
        | none => z := by
  rw [exitRead, step]
  exact ite_congr (propext (by simp)) (fun _ => rfl) fun _ => ite_congr_iff (by simp) ..

theorem updLane_markDoubt (n : Nat) (g : Lane → Lane) (y : Yard) :
    markDoubt n (updLane n g y) = updLane n (fun l => { g l with doubt := true }) y := by
  rw [markDoubt, updLane, updLane, updLane, tmod_tmod]

theorem pushAtFront_full (lane : tget y.lanes n = some l) (full : 16 ≤ l.items.length + l.pendings.length) :
    pushAtFront k n w y = none := by
  rw [pushAtFront, lane]
  exact if_neg fun room => by
    rw [Bool.and_eq_true, decide_eq_true_eq, decide_eq_true_eq] at room
    exact Nat.not_lt.mpr full room.2

theorem pushAtFront_room (lane : tget y.lanes n = some l) (room : l.items.length + l.pendings.length < 16) :
    pushAtFront k n w y = some (report (moveBack k (frontVehicle l) (report (setState k w .parked
      (updLane n (fun l => { l with
        doubt := true
        items := { vehicle := some w, length := lengthOf y w, entered := presentTime k } :: l.items }) y))))) := by
  rw [pushAtFront, lane]
  dsimp only
  have fits : (decide (l.items.length < Config.laneCap) && decide (l.items.length + l.pendings.length < Config.laneCap)) =
      true := by
    rw [Bool.and_eq_true, decide_eq_true_eq, decide_eq_true_eq]
    exact ⟨Nat.lt_of_le_of_lt (Nat.le_add_right ..) room, room⟩
  rw [if_pos fits, updLane_markDoubt]
  rfl

theorem moveBack_called {g : Nat} (called : stateOf y g = some .called) :
    moveBack k (some g) y = report (setState k g .parked (withdrawCall g y)) := if_pos called

theorem moveBack_other {former : Option Nat} (other : ∀ g, former = some g → stateOf y g ≠ some .called) :
    moveBack k former y = y := by
  cases former with
  | none => rfl
  | some g => exact if_neg (other g rfl)

/-- What a custody mismatch comes to, from where the other vehicle was put. -/
theorem mismatch_inLane {u : Yard} (left : { z with departing := z.departing.drop 1 } = u) (lane : Option Nat)
    (holds : laneHolding u x = some n) :
    mismatch k x w lane z = raise .custodyMismatch (some x) (some (.lane n)) none
      (settleDeparture k x (swapDuties x w (replaceEntry k n x w u))) := by
  rw [mismatch, left]
  dsimp only
  rw [holds]
  rfl

theorem mismatch_pushed {u p : Yard} (left : { z with departing := z.departing.drop 1 } = u)
    (nowhere : laneHolding u x = none) (pushed : pushAtFront k n w (takeOut k x u) = some p) :
    mismatch k x w (some n) z = raise .custodyMismatch (some x) (some (.lane n)) none
      (settleDeparture k x (swapDuties x w p)) := by
  rw [mismatch, left]
  dsimp only
  rw [nowhere]
  dsimp only
  rw [Option.bind_some, pushed]
  rfl

theorem mismatch_unlocated {u : Yard} {lane : Option Nat} (left : { z with departing := z.departing.drop 1 } = u)
    (nowhere : laneHolding u x = none) (refused : (lane.bind fun n => pushAtFront k n w (takeOut k x u)) = none) :
    mismatch k x w lane z = raise .custodyMismatch (some x) none none
      (settleDeparture k x (swapDuties x w (setState k w .unlocated (takeOut k x u)))) := by
  have refused' : (lane.bind fun n => (pushAtFront k n w (takeOut k x u)).map fun y => (y, n)) = none := by
    cases lane with
    | none => rfl
    | some n =>
      rw [Option.bind_some] at refused
      rw [Option.bind_some, refused]
      rfl
  rw [mismatch, left]
  dsimp only
  rw [nowhere]
  dsimp only
  rw [refused']
  rfl

end Exit

/-! ## The statement -/

section Yard

variable {k : Site} {y : Yard} {g : Nat} {v : Vehicle} {sign : Option Nat}

theorem yardRead_placed (veh : vehOf y g = some v) (placed : v.state ≠ .unlocated) : yardRead k g sign y = (y, none) :=
  if_neg fun same => placed (Option.some.inj ((stateOf_eq veh).symm.trans same))

theorem yardRead_unlocated (veh : vehOf y g = some v) (lost : v.state = .unlocated) :
    yardRead k g sign y =
      (showSign k sign g (placement k g (setState k g .stowWait y)).2 (placement k g (setState k g .stowWait y)).1,
       some (placement k g (setState k g .stowWait y)).2) :=
  if_pos ((stateOf_eq veh).trans (congrArg some lost))

end Yard

theorem swapDuties_of_unpaired {x w : Nat} {y : Yard} (free : pairedNumber (withdrawCall x y) x = none) :
    swapDuties x w y = match pairedNumber (withdrawCall x y) w with
      | some d => updDuty d (fun r => { r with marks := { r.marks with swapped := true } })
          (pair x d (unpairRecords w (unpairRecords x (withdrawCall x y))))
      | none => unpairRecords w (unpairRecords x (withdrawCall x y)) := by
  unfold swapDuties
  dsimp only
  rewrite [free]
  rfl

/-- Settles O16: a read by its repeat test and its reader's role, an arrival by its steps, an exit by its four cases, and the
exchange and settlement of duties. -/
theorem tagRead : Obligations.TagRead := by
  refine ⟨fun s f rest st h => ?reads, fun k a g percent sign y v veh => ?arrival, fun g y v veh => ?pairing,
    fun k x y => ?exit, fun x w y => ?swap, fun k x y => ?settle⟩
  case reads =>
    intro fleet recorded k
    have repeats := isRepeat_iff s.site f.src.toNat fleet
    have read : ∀ {y : Yard} {dir : Option Direction}, ¬recorded →
        readTag k st.entry.role st.entry.sign f.src.toNat fleet (u8 f.payload 2) s.yard = (y, dir) →
        exec .tagRead s = .next (afterField s f rest k y (processed (some fleet) dir)) := fun fresh reads =>
      fieldStep_after h.head h.classify rfl (tagAct_read (mt repeats.mp fresh) rfl reads)
    refine ⟨fun again => fieldStep_after h.head h.classify rfl (tagAct_repeat (repeats.mpr again)),
      fun fresh unknown => read fresh (readTag_unknown unknown), fun v fresh veh role => ?_, fun v fresh veh role => ?_,
      fun v fresh veh role placed => ?_, fun v fresh veh role lost => ?_⟩
    · exact read fresh (by rw [readTag_rostered veh, role])
    · exact read fresh (by rw [readTag_rostered veh, role])
    · exact read fresh (by rw [readTag_rostered veh, role, ← yardRead_placed veh placed])
    · exact read fresh (by rw [readTag_rostered veh, role, ← yardRead_unlocated veh lost])
  case arrival =>
    intro caused place found night
    have relocated : relocate k a g y = found := relocate_eq veh k a
    rw [arrive, relocated]
    rfl
  case pairing =>
    intro blocked open_ first
    refine ⟨pairArrival_outOfService veh, fun inService => ⟨fun d ⟨before, after, order, takes, others⟩ => ?_,
      fun d none_blocked ⟨before, after, order, takes, others⟩ => ?_, fun neither => ?_⟩⟩
    all_goals
      have blocked_iff : ∀ e, blocked e ↔ ∃ r, dutyOf y e = some r ∧ takesBlocked v r = true := fun e => by
        simp only [takesBlocked_iff, blocked]
      have open_iff : ∀ e, open_ e ↔ ∃ r, dutyOf y e = some r ∧ takesOpen v r = true := fun e => by
        simp only [takesOpen_iff, open_]
      rw [pairArrival_inService veh inService]
    · rw [earliestDuty_first order ((blocked_iff d).mp takes) fun e mem => mt (blocked_iff e).mpr (others e mem)]
    · rw [earliestDuty_none fun e mem => mt (blocked_iff e).mpr (none_blocked e mem),
        earliestDuty_first order ((open_iff d).mp takes) fun e mem => mt (open_iff e).mpr (others e mem)]
    · rw [earliestDuty_none fun e mem => mt (blocked_iff e).mpr (neither e mem).1,
        earliestDuty_none fun e mem => mt (open_iff e).mpr (neither e mem).2]
  case exit =>
    intro z entryOf
    have read := exitRead_eq (show apronStep k x y = z from apronStep_eq k x y)
    refine ⟨fun before e after list own first => ?own, fun before e after list unknown first notOwn => ?unknown,
      fun e rest w list other notOwn notUnknown => ?mismatch, ?empty⟩
    case own =>
      rw [read, if_pos ⟨e, by rw [list]; simp, own⟩, list, dropDeparting_append own first]
    case unknown =>
      rw [read, if_neg notOwn, if_pos ⟨e, by rw [list]; simp, unknown⟩, list, dropDeparting_append unknown first]
    case mismatch =>
      intro u t ends
      rw [if_neg notOwn, if_neg notUnknown, list] at read
      dsimp only at read
      rw [other] at read
      have left : { z with departing := z.departing.drop 1 } = u := by rw [list]; rfl
      refine ⟨?inLane, ?pushed, ?unlocated⟩
      case inLane =>
        intro n holds p
        have replaced : replaceEntry k n x w u =
            if (tget u.lanes n).bind frontVehicle = some x then report p else p := by
          rw [replaceEntry, updLane_markDoubt]
          exact ite_congr_iff beq_iff_eq ..
        rw [← replaced]
        exact read.trans (mismatch_inLane left e.lane holds)
      case pushed =>
        intro n l nowhere lane found room p
        rw [lane] at read
        have pushed : pushAtFront k n w t = _ := pushAtFront_room found room
        refine ⟨fun g front called => read.trans ?_, fun other => read.trans ?_⟩
        · rw [front, moveBack_called called] at pushed
          exact mismatch_pushed left nowhere pushed
        · rw [moveBack_other other] at pushed
          exact mismatch_pushed left nowhere pushed
      case unlocated =>
        intro nowhere full
        refine read.trans (mismatch_unlocated left nowhere ?_)
        cases lane : e.lane with
        | none => rfl
        | some n =>
          cases found : tget t.lanes n with
          | none => exact (Option.bind_some ..).trans (by rw [pushAtFront, found])
          | some l => exact (Option.bind_some ..).trans (pushAtFront_full found (full n l lane found))
    case empty =>
      intro list gone
      rw [if_neg (by rw [list]; simp), if_neg (by rw [list]; simp), list] at read
      have exits : exitRead k x y = unexpectedExit k x z := read
      refine ⟨fun absent => exits.trans (if_pos absent), fun present => ?_⟩
      have ends : exitRead k x y = match pairedNumber z x with
          | some d => settleDuty d gone
          | none => gone := exits.trans (if_neg present)
      exact ⟨fun unpaired => by rw [ends, unpaired], fun d paired => by rw [ends, paired]⟩
  case swap =>
    intro a b c
    refine ⟨swapDuties_of_unpaired, fun d v paired veh => ?_⟩
    have owed : swapDuties x w y =
        oweIfWaiting d (if ((vehOf c w).map (·.entry.outOfService)).getD true then c else pair w d c) := by
      unfold swapDuties
      dsimp only
      rewrite [paired]
      rfl
    rw [owed, veh]
    rfl
  case settle =>
    intro z
    refine ⟨fun unpaired => ?_, fun r paired => ?_⟩
    · rw [settleDeparture, unpaired]
    · rw [settleDeparture, paired]

end Sys2Proof.Machine

/-! Loops, passages and the departing list (R46 to R58), and what the operations on the yard come to. -/

namespace Sys2Proof.Machine

/-! ## Mouths -/

section Mouths

variable {k : Site} {y : Yard} {n : Nat} {m : Mouth} {p : PairState}

theorem mouthFault_none (none_ : laneOfMouth y n = none) :
    mouthFault n y = raise .mouthFault none (some (.mouth n)) none y := by
  have same : laneOfMouth (raise .mouthFault none (some (.mouth n)) none y) n = none := none_
  unfold mouthFault
  dsimp only
  rw [same]

theorem mouthFault_some {g : Nat} {l : Lane} (found : laneOfMouth y n = some (g, l)) :
    mouthFault n y = markDoubt g (raise .mouthFault none (some (.mouth n)) none y) := by
  have same : laneOfMouth (raise .mouthFault none (some (.mouth n)) none y) n = some (g, l) := found
  unfold mouthFault
  dsimp only
  rw [same]

theorem accept_nothing (found : tget k.mouths n = some m) (quiet : (track m.tracker p).2 = .nothing) :
    accept n p k y = ({ k with mouths := tset k.mouths n (acceptMouth k p m) }, y) := by
  unfold accept
  rw [found]
  dsimp only
  rw [quiet]

theorem accept_fault (found : tget k.mouths n = some m) (fault : (track m.tracker p).2 = .fault) :
    accept n p k y = ({ k with mouths := tset k.mouths n (acceptMouth k p m) }, mouthFault n y) := by
  unfold accept
  rw [found]
  dsimp only
  rw [fault]

theorem accept_passed (found : tget k.mouths n = some m) {q : Passage} (passed : (track m.tracker p).2 = .passed q) :
    accept n p k y = ({ k with mouths := tset k.mouths n (acceptMouth k p m) },
      drain { k with mouths := tset k.mouths n (acceptMouth k p m) }
        (passage { k with mouths := tset k.mouths n (acceptMouth k p m) } n q y)) := by
  unfold accept
  rw [found]
  dsimp only
  rw [passed]

/-- An accepted state writes the mouths and nothing else of the site. -/
theorem accept_site (n : Nat) (p : PairState) (k : Site) (y : Yard) : ∃ t, (accept n p k y).1 = { k with mouths := t } := by
  unfold accept
  split
  · exact ⟨k.mouths, rfl⟩
  · dsimp only
    split <;> exact ⟨_, rfl⟩

theorem debounce_site (back : Bool) (n : Nat) (k : Site) (y : Yard) :
    ∃ t, (debounce back n k y).1 = { k with mouths := t } := by
  unfold debounce
  split
  · exact ⟨k.mouths, rfl⟩
  · dsimp only
    split
    · split
      · exact accept_site ..
      · exact ⟨_, rfl⟩
    · split
      · exact ⟨k.mouths, rfl⟩
      · split
        · exact accept_site ..
        · exact ⟨_, rfl⟩

theorem mouthReport_site (a : Nat) (back : Bool) (p : Site × Yard) (n : Nat) :
    ∃ t, (mouthReport a back p n).1 = { p.1 with mouths := t } := by
  unfold mouthReport
  split
  · exact ⟨p.1.mouths, rfl⟩
  · split
    · exact debounce_site ..
    · exact ⟨p.1.mouths, rfl⟩

theorem foldl_mouthReport_site (a : Nat) (back : Bool) (l : List Nat) (p : Site × Yard) :
    ∃ t, (l.foldl (mouthReport a back) p).1 = { p.1 with mouths := t } := by
  induction l generalizing p with
  | nil => exact ⟨p.1.mouths, rfl⟩
  | cons n l ih =>
    obtain ⟨t, first⟩ := mouthReport_site a back p n
    obtain ⟨u, rest⟩ := ih (mouthReport a back p n)
    exact ⟨u, by rw [List.foldl_cons, rest, first]⟩

theorem mouthReport_eq (a : Nat) (back : Bool) (found : tget k.mouths n = some m) :
    mouthReport a back (k, y) n =
      if (m.entry.stationA = a ∨ m.entry.stationB = a) ∧ silentAt k m.entry.stationA = false ∧
          silentAt k m.entry.stationB = false then debounce back n k y
      else (k, y) := by
  rw [mouthReport, found]
  exact ite_congr_iff (by simp [mouthOn, and_assoc]) ..

theorem debounce_eq (back : Bool) (found : tget k.mouths n = some m) :
    debounce back n k y =
      if rawState k m.entry = m.accepted then
        if back = true ∧ rawState k m.entry = .clear ∧ m.tracker = .uncertain then accept n .clear k y
        else ({ k with mouths := tset k.mouths n { m with candidate := none } }, y)
      else if m.candidate.map (·.1) = some (rawState k m.entry) then (k, y)
      else if m.entry.debounce = .none then accept n (rawState k m.entry) k y
      else ({ k with mouths := tset k.mouths n { m with candidate := some (rawState k m.entry, k.now) } }, y) := by
  rw [debounce, found]

theorem silentAt_iff (k : Site) (a : Nat) :
    silentAt k a = true ↔ ∃ c, tget k.concentrators a = some c ∧ c.silent = true := by
  unfold silentAt
  cases tget k.concentrators a <;> simp

end Mouths

/-- Settles O23: what the fold over the mouths leaves alone, one mouth's debounce table, and an accepted state's effects. -/
theorem loopStateStored : Obligations.LoopStateStored := by
  refine ⟨fun s f rest st h => ?stored, fun a n back k y m found => ?mouth, fun k e a b atA atB => ?raw,
    fun n p k y m found => ?accepted⟩
  case stored =>
    intro a c k back
    have runs : ∀ b, (b = true ↔ back) → exec .loopState s = .next (afterField s f rest
        ((s.site.mouths.map (·.1)).foldl (mouthReport a b) (k, s.yard)).1
        ((s.site.mouths.map (·.1)).foldl (mouthReport a b) (k, s.yard)).2 (.bare .processed)) := fun b same => by
      have silent : silentAt s.site a = b := Bool.eq_iff_iff.mpr ((silentAt_iff s.site a).trans same.symm)
      refine fieldStep_after (wants := (· == .loopState)) h.head h.classify (beq_self_eq_true _) ?_
      rw [← silent]
      rfl
    obtain ⟨t, site⟩ := foldl_mouthReport_site a (silentAt s.site a) (s.site.mouths.map (·.1)) (k, s.yard)
    refine ⟨⟨_, runs _ (silentAt_iff s.site a), rfl, ?_⟩, runs⟩
    simp only [afterField, State.withDesk, forward_site, settle_site, site]
    exact ⟨rfl, rfl, rfl, rfl⟩
  case mouth =>
    intro takes raw ends
    have reports : mouthReport a back (k, y) n = _ := mouthReport_eq a back found
    refine ⟨fun idle => reports.trans (if_neg idle), fun active => ?_⟩
    rw [if_pos active, debounce_eq back found] at reports
    refine ⟨fun same notBack => ?_, fun same isBack clear uncertain => ?_, fun differs known => ?_, fun differs fresh now => ?_,
      fun differs fresh later => ?_⟩
    · exact reports.trans ((if_pos same).trans (if_neg notBack))
    · exact reports.trans ((if_pos same).trans (if_pos ⟨isBack, clear, uncertain⟩))
    · exact reports.trans ((if_neg differs).trans (if_pos known))
    · exact reports.trans ((if_neg differs).trans ((if_neg fresh).trans (if_pos now)))
    · exact reports.trans ((if_neg differs).trans ((if_neg fresh).trans (if_neg later)))
  case raw =>
    have loopsA : loopsOf k e.stationA = a.loops := by rw [loopsOf, atA]; rfl
    have loopsB : loopsOf k e.stationB = b.loops := by rw [loopsOf, atB]; rfl
    refine ⟨by rw [silentAt, atA]; rfl, ?_⟩
    rw [rawState, loopsA, loopsB]
    cases a.loops.getLsbD e.indexA <;> cases b.loops.getLsbD e.indexB <;> rfl
  case accepted =>
    intro k'
    refine ⟨accept_nothing found, fun fault => ?_, fun q => accept_passed found⟩
    have faults := accept_fault (y := y) found fault
    refine ⟨fun none_ => ?_, fun g l lane => ?_⟩
    · rw [faults, mouthFault_none none_]
      rfl
    · rw [faults, mouthFault_some lane]
      rfl

/-! ## The timers of the loops -/

theorem execDebounceExpiry_due {m : Nat} {s : State} {e : Mouth} {p : PairState} {t0 : Nat}
    (found : tget s.site.mouths m = some e) (candidate : e.candidate = some (p, t0))
    (due : t0 + debounceTicks e.entry.debounce ≤ s.site.now) :
    exec (.debounceExpiry m) s = .next (afterTimer s (accept m p s.site s.yard).1 (accept m p s.site s.yard).2) := by
  show execDebounceExpiry m s = _
  rw [execDebounceExpiry, found]
  dsimp only
  rw [candidate]
  exact if_pos ((elapsed_iff ..).mpr due)

/-- Settles O25: each timer at its expiry, and an accepted state by its tracker's move. -/
theorem loopTimers : Obligations.LoopTimers := by
  refine ⟨by decide, fun m s e p t0 found candidate due => ?debounce, fun m s e t0 found started due => ?stuck,
    fun a s c t0 found started due => ?silence⟩
  case debounce =>
    intro e' k
    have runs := execDebounceExpiry_due found candidate due
    refine ⟨fun quiet => ?_, fun fault => ?_, fun q passed => ?_⟩
    · rw [runs, accept_nothing found quiet]
      rfl
    · rw [runs, accept_fault found fault]
      rfl
    · rw [runs, accept_passed found passed]
      rfl
  case stuck =>
    show execStuckTimerExpiry m s = _
    rw [execStuckTimerExpiry, found]
    dsimp only
    rw [started]
    exact if_pos ((elapsed_iff ..).mpr due)
  case silence =>
    show execSilenceTimerExpiry a s = _
    rw [execSilenceTimerExpiry, found]
    dsimp only
    rw [started]
    refine (if_pos ((elapsed_iff ..).mpr due)).trans ?_
    have mouths : (enterSilence a s.site).mouths = tmap s.site.mouths fun e =>
        if e.entry.stationA = a ∨ e.entry.stationB = a then { e with candidate := none, tracker := .uncertain } else e := by
      refine tmap_congr (t := s.site.mouths) (f := fun m =>
        if mouthOn a m.entry then { m with candidate := none, tracker := .uncertain } else m) fun q _ => ?_
      exact ite_congr_iff (by simp [mouthOn]) ..
    have site : enterSilence a s.site = { s.site with
        concentrators := (enterSilence a s.site).concentrators
        mouths := (enterSilence a s.site).mouths } := rfl
    rw [site, mouths]
    rfl

/-! ## Passages -/

section Passages

variable {k : Site} {y : Yard} {n m : Nat} {l : Lane}

theorem passage_entry (lane : laneOfMouth y m = some (n, l)) (entry : l.entry.entryMouth = m) :
    passage k m .forward y = pushBack k n y ∧ passage k m .reverse y = popBack k n y := by
  simp [passage, lane, entry]

theorem passage_exit (lane : laneOfMouth y m = some (n, l)) (exit : l.entry.entryMouth ≠ m) :
    passage k m .forward y = popFront k n y ∧ passage k m .reverse y = pushFront k n y := by
  have other : (l.entry.entryMouth == m) = false := by simpa using exit
  simp [passage, lane, other]

theorem pushBack_bind (found : tget y.lanes n = some l) {p : PendingItem} {rest : List PendingItem}
    (pending : l.pendings = p :: rest) :
    pushBack k n y =
      let z := park k p.fleet (updLane n (fun l => { l with
        items := l.items ++ [{ vehicle := some p.fleet, length := lengthOf y p.fleet, entered := presentTime k }]
        pendings := rest }) y)
      if l.items = [] then report z else z := by
  rw [pushBack, found]
  dsimp only
  rw [pending]

theorem pushBack_strange (found : tget y.lanes n = some l) (none_pending : l.pendings = []) (room : l.items.length < 16) :
    pushBack k n y =
      let z := raise .unexpectedEntry none (some (.lane n)) none
        (markDoubt n (updLane n (fun l => { l with items := l.items ++ [unidentified k l] }) y))
      if l.items = [] then report z else z := by
  rw [pushBack, found]
  dsimp only
  rw [none_pending]
  exact if_pos room

theorem pushBack_full (found : tget y.lanes n = some l) (none_pending : l.pendings = []) (full : 16 ≤ l.items.length) :
    pushBack k n y = overflow n (some (.lane n)) y := by
  rw [pushBack, found]
  dsimp only
  rw [none_pending]
  exact if_neg (Nat.not_lt.mpr full)

theorem pushFront_full (found : tget y.lanes n = some l) (full : 16 ≤ l.items.length) :
    pushFront k n y = overflow n none y := by
  rw [pushFront, found]
  exact if_neg (Nat.not_lt.mpr full)

theorem pushFront_room (found : tget y.lanes n = some l) (room : l.items.length < 16) :
    pushFront k n y = report (moveBack k (frontVehicle l) (displace k n (raise .unexpectedEntry none (some (.lane n)) none
      (markDoubt n (updLane n (fun l => { l with items := unidentified k l :: l.items }) y))))) := by
  rw [pushFront, found]
  exact if_pos room

theorem displace_fits (found : tget y.lanes n = some l) (fits : l.items.length + l.pendings.length ≤ 16) :
    displace k n y = y := by
  rw [displace, found]
  exact if_neg (Nat.not_lt.mpr fits)

theorem displace_exceeds (found : tget y.lanes n = some l) (exceeds : 16 < l.items.length + l.pendings.length) {p : PendingItem}
    (last : l.pendings.getLast? = some p) :
    displace k n y = roomEvent (raise .laneOverflow (some p.fleet) (some (.lane n)) none
      (setState k p.fleet .unlocated (updLane n (fun l => { l with pendings := l.pendings.dropLast }) y))) := by
  rw [displace, found]
  refine (if_pos exceeds).trans ?_
  rw [last]

theorem popBack_empty (found : tget y.lanes n = some l) (empty : l.items = []) : popBack k n y = underrun n y := by
  rw [popBack, found]
  dsimp only
  rw [empty, List.getLast?_nil]

theorem popFront_empty (found : tget y.lanes n = some l) (empty : l.items = []) : popFront k n y = underrun n y := by
  rw [popFront, found]
  dsimp only
  rw [empty]

/-- The vehicle of an entry popped at the entry mouth, if it is identified, goes UNLOCATED and loses its call (R54). -/
def losePopped (k : Site) : Option Nat → Yard → Yard
  | none, z => z
  | some f, z => setState k f .unlocated (if stateOf z f = some .called then withdrawCall f z else z)

theorem popBack_last (found : tget y.lanes n = some l) {i : LaneItem} (last : l.items.getLast? = some i) :
    popBack k n y =
      let z := losePopped k i.vehicle (roomEvent (updLane n (fun l => { l with items := l.items.dropLast }) y))
      if l.items.length = 1 then report z else z := by
  rw [popBack, found]
  dsimp only
  rw [last]
  dsimp only
  cases i.vehicle <;> rfl

/-- The vehicle of an entry popped at the exit mouth, if it is identified, goes DEPARTING (R55). -/
def departPopped (k : Site) : Option Nat → Yard → Yard
  | none, z => z
  | some f, z => setState k f .departing z

theorem popFront_first (found : tget y.lanes n = some l) {i : LaneItem} {rest : List LaneItem} (items : l.items = i :: rest) :
    popFront k n y = report (departPopped k i.vehicle
      (joinDeparting k i.vehicle (some n) (roomEvent (updLane n (fun l => { l with items := rest }) y)))) := by
  rw [popFront, found]
  dsimp only
  rw [items]
  dsimp only
  cases i.vehicle <;> rfl

theorem joinDeparting_room {vehicle lane : Option Nat} (room : y.departing.length < 8) :
    joinDeparting k vehicle lane y = { y with
      departing := y.departing ++ [{ vehicle := vehicle, lane := lane, popTime := presentTime k, started := k.now }] } := by
  unfold joinDeparting
  rw [if_neg (show ¬Config.departingCap ≤ _ from Nat.not_le.mpr room)]

theorem joinDeparting_full {vehicle lane : Option Nat} (full : 8 ≤ y.departing.length) :
    joinDeparting k vehicle lane y = { expireDeparting k y with
      departing := (expireDeparting k y).departing ++
        [{ vehicle := vehicle, lane := lane, popTime := presentTime k, started := k.now }] } := by
  unfold joinDeparting
  rw [if_pos (show Config.departingCap ≤ _ from full)]

end Passages

/-- Settles O26: each passage by its lane's lists, and a departing entry by the length of its list. -/
theorem entryPush : Obligations.EntryPush := by
  refine ⟨fun k m n l y lane => ⟨passage_entry lane, passage_exit lane⟩, fun k n l y found => ?passages,
    fun k vehicle lane y => ⟨joinDeparting_room, joinDeparting_full⟩⟩
  intro items doubt unknown full empty front bound strange
  refine ⟨fun p rest => pushBack_bind found, pushBack_strange found, pushBack_full found, pushFront_full found, ?front,
    fun none_ => ⟨popBack_empty found none_, popFront_empty found none_⟩, fun i last => ?popBack, fun i rest list => ?popFront⟩
  case front =>
    intro z room displaced
    let pushed : Yard := strange fun l => unknown l :: l.items
    have lane : tget pushed.lanes n = some { l with items := unknown l :: l.items, doubt := true } := by
      simp only [pushed, strange, doubt, items, raise_lanes, updLane_lanes, tget_tmod_same, found, Option.map_some]
    have moved : displace k n pushed = z := by
      obtain ⟨fits, rfl⟩ | ⟨exceeds, p, last, rfl⟩ := displaced
      · exact displace_fits lane fits
      · exact displace_exceeds lane exceeds last
    have pushes : pushFront k n y = report (moveBack k (frontVehicle l) z) := by
      rw [← moved]
      exact pushFront_room found room
    refine ⟨fun g isFront called => ?_, fun other => ?_⟩
    · rw [pushes, isFront, moveBack_called called]
    · rw [pushes, moveBack_other other]
  case popBack =>
    intro z left
    have pops : popBack k n y = left (losePopped k i.vehicle z) := popBack_last found last
    refine ⟨fun unidentified => ?_, fun g identified => ⟨fun called => ?_, fun other => ?_⟩⟩
    · rw [pops, unidentified, losePopped]
    · rw [pops, identified, losePopped, if_pos called]
    · rw [pops, identified, losePopped, if_neg other]
  case popFront =>
    intro z
    have pops : popFront k n y = report (departPopped k i.vehicle z) := popFront_first found list
    refine ⟨fun unidentified => ?_, fun g identified => ?_⟩
    · rw [pops, unidentified, departPopped]
    · rw [pops, identified, departPopped]

/-! ## The timers of the lanes, and the operations on the yard -/

theorem execPendingTimeout_due {n : Nat} {s : State} {l : Lane} {p : PendingItem} {rest : List PendingItem}
    (found : tget s.yard.lanes n = some l) (oldest : l.pendings = p :: rest)
    (due : p.joined + setting s.site 9 * 6000 ≤ s.site.now) :
    exec (.pendingTimeout n) s = .next (afterTimer s s.site (stowMissed s.site n s.yard)) := by
  show execPendingTimeout n s = _
  rw [execPendingTimeout, found]
  refine if_pos ?_
  rw [pendingDue, oldest]
  exact (elapsed_iff ..).mpr due

theorem stowMissed_eq {k : Site} {n : Nat} {y : Yard} {l : Lane} {p : PendingItem} {rest : List PendingItem}
    (found : tget y.lanes n = some l) (oldest : l.pendings = p :: rest) :
    stowMissed k n y = roomEvent (raise .stowMissed (some p.fleet) (some (.lane n)) none
      (setState k p.fleet .unlocated (updLane n (fun l => { l with pendings := rest }) y))) := by
  rw [stowMissed, found]
  dsimp only
  rw [oldest]

theorem execTransitTimeout_due {s : State} {e : DepartingItem} {rest : List DepartingItem} (oldest : s.yard.departing = e :: rest)
    (due : e.started + setting s.site 10 * 6000 ≤ s.site.now) :
    exec .transitTimeout s = .next (afterTimer s s.site (expireDeparting s.site s.yard)) := by
  show execTransitTimeout s = _
  rw [execTransitTimeout, oldest]
  exact if_pos ((elapsed_iff ..).mpr due)

/-- What the transit timeout of an entry makes of its vehicle and duty. -/
def expired (k : Site) (e : DepartingItem) (y : Yard) : Yard :=
  match e.vehicle with
  | none => y
  | some f =>
    match pairedDuty (setState k f .unlocated y) f with
    | none => setState k f .unlocated y
    | some r =>
      if r.state = .called then
        leaveCallList r.entry.number (updDuty r.entry.number
          (fun r => { r with state := .departed, marks := { r.marks with unconfirmed := true } }) (setState k f .unlocated y))
      else setState k f .unlocated y

theorem expireDeparting_eq {k : Site} {y : Yard} {e : DepartingItem} {rest : List DepartingItem}
    (oldest : y.departing = e :: rest) :
    expireDeparting k y = raise .transitTimeout e.vehicle (e.lane.map .lane) none (expired k e { y with departing := rest }) := by
  rw [expireDeparting, oldest]
  rfl

/-- A change of the entries that a test accepts. -/
theorem tmap_ite {α : Type} (t : Table α) (c : α → Prop) [DecidablePred c] (g : α → α) :
    tmap t (fun a => if c a then g a else a) = t.map fun p => if c p.2 then (p.1, g p.2) else p := by
  refine List.map_congr_left fun p _ => ?_
  dsimp only
  split <;> rfl

theorem recordOperations : RecordOperations := by
  refine ⟨fun k y g d => ⟨?vehicle, ?duty, rfl, rfl, rfl, fun v veh => ?length, fun v e loaded => ?cls⟩,
    fun g change y => ?change, fun d change y => ⟨fun isA => ?bankA, fun isB => ?bankB⟩, fun n y l i w => ⟨rfl, rfl, rfl⟩,
    fun g y => ⟨rfl, rfl⟩⟩
  case vehicle =>
    rw [vehOf, tfind_value]
    rfl
  case duty =>
    rw [dutyOf, tfind_value, duties]
    cases y.active <;> rfl
  case length =>
    rw [lengthOf, veh]
    rfl
  case cls =>
    rw [classOf, loaded]
    rfl
  case change =>
    rw [updVeh, tmap_ite]
  case bankA =>
    have written : updDuty d change y =
        setBank .a (tmap y.bankA fun r => if r.entry.number = d then change r else r) y := by
      rw [updDuty, duties, isA, bankOf]
    rw [written, tmap_ite]
    rfl
  case bankB =>
    have written : updDuty d change y =
        setBank .b (tmap y.bankB fun r => if r.entry.number = d then change r else r) y := by
      rw [updDuty, duties, isB, bankOf]
    rw [written, tmap_ite]
    rfl

theorem yardOperations : YardOperations := by
  refine ⟨fun k => ⟨rfl, rfl⟩, fun k g st y => ?state, fun kind fleet place duty y => rfl, fun y => ⟨rfl, rfl, rfl⟩⟩
  have written : (fun v : Vehicle => if v.entry.fleet = g then withState k st v else v) = fun v =>
      if v.entry.fleet = g ∧ v.state ≠ st then
        { v with state := st, since := { day := k.clock.day, second := k.clock.second } }
      else v := by
    funext v
    unfold withState
    by_cases named : v.entry.fleet = g <;> by_cases same : v.state = st <;> simp [named, same, presentTime]
  rw [setState, updVeh, written, tmap_ite]

/-- Settles O27: the two timeouts by what they remove, and the operations by their definitions. -/
theorem custodyTimeouts : Obligations.CustodyTimeouts := by
  refine ⟨fun n s l p rest found oldest due => ?pending, fun s e rest oldest due => ?transit, yardOperations,
    recordOperations⟩
  case pending => rw [execPendingTimeout_due found oldest due, stowMissed_eq found oldest]
  case transit =>
    intro gone y
    have runs := execTransitTimeout_due oldest due
    rw [expireDeparting_eq oldest] at runs
    refine ⟨fun unidentified => ?_, fun f identified => ?_⟩
    · have kept : expired s.site e y = y := by rw [expired, unidentified]
      exact runs.trans (by rw [kept])
    · intro z
      refine ⟨fun r paired called => ?_, fun other => ?_⟩
      · have settled : expired s.site e y = leaveCallList r.entry.number (updDuty r.entry.number
            (fun r => { r with state := .departed, marks := { r.marks with unconfirmed := true } }) z) := by
          rw [expired, identified]
          dsimp only
          rw [paired]
          exact if_pos called
        exact runs.trans (by rw [settled])
      · have kept : expired s.site e y = z := by
          rw [expired, identified]
          dsimp only
          split
          · rfl
          · next r paired => exact if_neg (other r paired)
        exact runs.trans (by rw [kept])

end Sys2Proof.Machine

/-! The census and the orders on a lane (R64, R65), and the office's way to an order's answer (R40, R41). -/

namespace Sys2Proof.Machine

/-! ## The command at the head -/

section Wanted

variable {s : State} {f : Frame} {rest : List Frame} {kind : Byte} {p : List Byte}

theorem CommandHead.ofKind (h : CommandHead s f rest kind p) : ofKind kind f = true := beq_iff_eq.mpr h.kind

theorem ofCode_iff {i len code last : Nat} : ofCode kind i len code last f = true ↔
    f.kind = kind ∧ (f.payload.length ≠ len ∨ u8 f.payload i = code ∨ u8 f.payload i < 1 ∨ last < u8 f.payload i) := by
  simp [ofCode, or_assoc]

theorem CommandHead.ofCode (h : CommandHead s f rest kind p) {i len code last : Nat}
    (fits : p.length ≠ len ∨ u8 p i = code ∨ u8 p i < 1 ∨ last < u8 p i) : ofCode kind i len code last f = true :=
  ofCode_iff.mpr ⟨h.kind, by rwa [h.payload]⟩

end Wanted

/-! ## Census -/

theorem noRepeats_iff (l : List Nat) : noRepeats l = true ↔ l.Nodup := by
  induction l with
  | nil => simp [noRepeats]
  | cons f l ih => simp [noRepeats, ih]

theorem censusLength_iff (n : Nat) : censusLength n = true ↔ 2 ≤ n ∧ n ≤ 50 ∧ (n - 2) % 3 = 0 := by
  simp [censusLength, and_assoc]

theorem censusStatus_none {n : Nat} (bad : n ≠ 1 ∧ n ≠ 2) : censusStatus n = none := by
  unfold censusStatus
  split <;> simp_all

theorem censusStatus_some {n : Nat} (good : ¬(n ≠ 1 ∧ n ≠ 2)) :
    censusStatus n = some (if n = 1 then .opened else .closed) := by
  obtain rfl | rfl : n = 1 ∨ n = 2 := by omega
  all_goals rfl

theorem clampTo_same_iff {lo hi n : Nat} (range : lo ≤ hi) : clampTo lo hi n = n ↔ lo ≤ n ∧ n ≤ hi := by
  rw [clampTo_eq range]
  omega

/-- Entries lose their vehicles, by the vehicles alone. -/
theorem foldl_loseEntry (k : Site) (items : List LaneItem) (y : Yard) :
    items.foldl (loseEntry k) y =
      (items.filterMap (·.vehicle)).foldl (fun z g => setState k g .unlocated (withdrawCall g z)) y := by
  rw [List.foldl_filterMap]
  congr 1
  funext z i
  unfold loseEntry
  cases i.vehicle <;> rfl

theorem filterMap_vehicle_filter {kept : List Nat} {p : LaneItem → Bool}
    (loses : ∀ i, p i = true ↔ ∃ g, i.vehicle = some g ∧ g ∉ kept) (items : List LaneItem) :
    (items.filter p).filterMap (·.vehicle) = (items.filterMap (·.vehicle)).filter fun g => g ∉ kept := by
  rw [List.filterMap_filter, List.filter_filterMap]
  refine filterMap_congr_mem fun i _ => ?_
  have test := loses i
  cases vehicle : i.vehicle with
  | none => split <;> rfl
  | some g =>
    by_cases named : g ∈ kept
    · simp [test, vehicle, named, Option.filter_some]
    · simp [test, vehicle, named, Option.filter_some]

/-- Settles O28: the tests in their order, then the census by the vehicles it drops and takes. -/
theorem census : Obligations.Census := by
  refine ⟨fun s f rest p h atLeast atMost thirds => ?tests, fun k n status entries y l loaded => ?effect⟩
  case tests =>
    intro n entries named badStatus
    have wants : ofKind kindCensus f = true := h.ofKind
    have fits := (censusLength_iff p.length).mpr ⟨atLeast, atMost, thirds⟩
    refine ⟨fun outside => ?_, fun first last missing => ?_, fun l first last loaded => ⟨fun bad => ?_, fun good distinct unknown => ?_,
      fun good distinct known => ⟨fun busy => ?_, fun closed empty => ?_⟩⟩⟩
    · exact officeStep_refusal (y := s.yard) h wants fits (if_pos outside) (by decide) (by decide)
    all_goals have inside : ¬(n < 1 ∨ 24 < n) := by omega
    · refine officeStep_refusal (y := s.yard) h wants fits ((if_neg inside).trans ?_) (by decide) (by decide)
      rw [missing]
    · refine officeStep_refusal (y := s.yard) h wants fits ((if_neg inside).trans ?_) (by decide) (by decide)
      rw [loaded]
      dsimp only
      by_cases status : badStatus
      · rw [censusStatus_none status]
      · rw [censusStatus_some status]
        exact if_pos (Bool.eq_false_iff.mpr (mt (noRepeats_iff named).mp (bad.resolve_left status)))
    all_goals have repeats : ¬noRepeats named = false := by simpa using (noRepeats_iff named).mpr distinct
    · refine officeStep_refusal (y := s.yard) h wants fits ((if_neg inside).trans ?_) (by decide) (by decide)
      rw [loaded]
      dsimp only
      rw [censusStatus_some good]
      have some_unknown : (named.any fun g => (vehOf s.yard g).isNone) = true := by simpa using unknown
      exact (if_neg repeats).trans (if_pos some_unknown)
    all_goals have all_known : ¬(named.any fun g => (vehOf s.yard g).isNone) = true := by simpa using known
    · refine officeStep_refusal (y := s.yard) h wants fits ((if_neg inside).trans ?_) (by decide) (by decide)
      rw [loaded]
      dsimp only
      rw [censusStatus_some good]
      exact (if_neg repeats).trans ((if_neg all_known).trans (if_pos busy))
    · refine officeStep_order h wants fits ((if_neg inside).trans ?_) ?_
      · rw [loaded]
        dsimp only
        rw [censusStatus_some good]
        refine (if_neg repeats).trans ((if_neg all_known).trans ((if_neg (by simp [closed, empty])).trans ?_))
        refine congrArg (Prod.mk _) (ite_congr_iff ?_ ..)
        simp [clampTo_same_iff, entries]
      · split
        · exact .inl rfl
        · exact .inr rfl
  case effect =>
    intro named old dropped taken
    have lengths : (entries.map fun e => { vehicle := e.1, length := clampTo 80 200 e.2, entered := presentTime k : LaneItem }) =
        entries.map fun e => { vehicle := e.1, length := max 80 (min 200 e.2), entered := presentTime k } :=
      List.map_congr_left fun e _ => by rw [clampTo_eq (by decide)]
    rw [takeCensus, loaded]
    dsimp only
    rw [lengths, foldl_loseEntry, filterMap_vehicle_filter (kept := named) fun i => ?_]
    · rfl
    · cases i.vehicle <;> simp [named]

/-! ## Orders on a lane -/

/-- What the order of a code does (R65). -/
def laneAct : Nat → Site → Nat → Lane → Yard → Yard × Result
  | 1 => laneOpen
  | 2 => laneClose
  | _ => laneEmpty

theorem exec_laneSet {c : Instr} {order : Nat}
    (row : (c, order) ∈ [(Instr.laneSetOpen, 1), (.laneSetClose, 2), (.laneSetDeclareEmpty, 3)]) (s : State) :
    exec c s = laneSetStep order (laneAct order) s := by
  simp only [List.mem_cons, Prod.mk.injEq, List.not_mem_nil, or_false] at row
  obtain ⟨rfl, rfl⟩ | ⟨rfl, rfl⟩ | ⟨rfl, rfl⟩ := row <;> rfl

section LaneOrders

variable {s : State} {f : Frame} {rest : List Frame} {p : List Byte} {c : Instr} {order : Nat} {l : Lane}

theorem laneSet_order {z : Yard} (row : (c, order) ∈ [(Instr.laneSetOpen, 1), (.laneSetClose, 2), (.laneSetDeclareEmpty, 3)])
    (h : CommandHead s f rest kindLaneSet p) (two : p.length = 2) (first : 1 ≤ u8 p 0) (last : u8 p 0 ≤ 24)
    (loaded : tget s.yard.lanes (u8 p 0) = some l) (code : u8 p 1 = order)
    (acts : laneAct order s.site (u8 p 0) l s.yard = (z, .ok)) : exec c s = .next (afterOrder s f rest z .ok) := by
  rw [exec_laneSet row]
  refine officeStep_order h (h.ofCode (.inr (.inl code))) (beq_iff_eq.mpr two) ((if_neg (by omega)).trans ?_) (.inl rfl)
  rw [loaded]
  exact (if_pos code).trans acts

theorem laneSet_refused {z : Yard} {r : Result}
    (row : (c, order) ∈ [(Instr.laneSetOpen, 1), (.laneSetClose, 2), (.laneSetDeclareEmpty, 3)])
    (h : CommandHead s f rest kindLaneSet p) (two : p.length = 2) (first : 1 ≤ u8 p 0) (last : u8 p 0 ≤ 24)
    (loaded : tget s.yard.lanes (u8 p 0) = some l) (code : u8 p 1 = order)
    (acts : laneAct order s.site (u8 p 0) l s.yard = (z, r)) (notOk : r ≠ .ok) (notClamped : r ≠ .okClamped) :
    exec c s = .next (afterRefusal s f rest r) := by
  rw [exec_laneSet row]
  refine officeStep_refusal (y := z) h (h.ofCode (.inr (.inl code))) (beq_iff_eq.mpr two) ((if_neg (by omega)).trans ?_) notOk
    notClamped
  rw [loaded]
  exact (if_pos code).trans acts

end LaneOrders

/-- Settles O29: the tests of the row, then the order's act by the lane's status. -/
theorem laneSet : Obligations.LaneSet := by
  refine ⟨fun s f rest p c order row h two fits => ?tests, fun k n y l loaded => ?empty⟩
  case tests =>
    intro n reopen close
    have wants : ofCode kindLaneSet 1 2 order 3 f = true := h.ofCode (.inr fits)
    refine ⟨fun outside => ?_, fun first last missing => ?_, fun l first last loaded => ⟨fun other => ?_, ?_⟩⟩
    · rw [exec_laneSet row]
      exact officeStep_refusal (y := s.yard) h wants (beq_iff_eq.mpr two) (if_pos outside) (by decide) (by decide)
    · rw [exec_laneSet row]
      refine officeStep_refusal (y := s.yard) h wants (beq_iff_eq.mpr two) ((if_neg (by omega)).trans ?_) (by decide) (by decide)
      rw [missing]
    · rw [exec_laneSet row]
      refine officeStep_refusal (y := s.yard) h wants (beq_iff_eq.mpr two) ((if_neg (by omega)).trans ?_) (by decide) (by decide)
      rw [loaded]
      exact if_neg other
    have acts : ∀ {m : Nat} {z : Yard}, u8 p 1 = m → 1 ≤ m → m ≤ 3 → laneAct m s.site n l s.yard = (z, .ok) →
        exec c s = .next (afterOrder s f rest z .ok) := fun {m z} code lo hi acts => by
      obtain rfl : m = order := by omega
      exact laneSet_order row h two first last loaded code acts
    have refuses : ∀ {m : Nat}, u8 p 1 = m → 1 ≤ m → m ≤ 3 → laneAct m s.site n l s.yard = (s.yard, .state) →
        exec c s = .next (afterRefusal s f rest .state) := fun {m} code lo hi acts => by
      obtain rfl : m = order := by omega
      exact laneSet_refused row h two first last loaded code acts (by decide) (by decide)
    refine ⟨fun one opened => acts one (by decide) (by decide) ?_, fun one closed => acts one (by decide) (by decide) ?_,
      fun two opened => acts two (by decide) (by decide) ?_, fun two closed => acts two (by decide) (by decide) ?_,
      fun either unverified => ?_, fun three verified => refuses three (by decide) (by decide) ?_,
      fun three unverified => acts three (by decide) (by decide) ?_⟩
    · rw [laneAct, laneOpen, opened]
    · rw [laneAct, laneOpen, closed]
    · rw [laneAct, laneClose, opened]
    · rw [laneAct, laneClose, closed]
    · obtain one | two := either
      · exact refuses one (by decide) (by decide) (by rw [laneAct, laneOpen, unverified])
      · exact refuses two (by decide) (by decide) (by rw [laneAct, laneClose, unverified])
    · show laneEmpty s.site n l s.yard = _
      rw [laneEmpty]
      cases status : l.status with
      | unverified => contradiction
      | opened => rfl
      | closed => rfl
    · show laneEmpty s.site n l s.yard = _
      rw [laneEmpty, unverified]
  case empty =>
    intro lost emptied
    have declares : declareEmpty k n y = if l.items = [] then emptied else report emptied := by
      rw [declareEmpty, loaded]
      dsimp only
      rw [foldl_loseEntry]
    exact ⟨fun none_ => declares.trans (if_pos none_), fun some_ => declares.trans (if_neg some_)⟩

end Sys2Proof.Machine

/-! The islands: counts, credits, the calling rule, faults and timers (R83 to R99). -/

namespace Sys2Proof.Machine

/-! ## What the shared operations leave of the islands -/

@[simp] theorem updService_islands (f : Nat) (g : Vehicle → Vehicle) (y : Yard) : (updService f g y).islands = y.islands := by
  unfold updService
  split
  · rfl
  · dsimp only
    split <;> split <;> rfl

@[simp] theorem sendOwn_islands (k : Site) (block : Block) (a : Nat) (kind : Byte) (p : List Byte) (y : Yard) :
    (sendOwn k block a kind p y).islands = y.islands := by
  unfold sendOwn
  split <;> rfl

@[simp] theorem islandCmd_islands (k : Site) (n c g limit : Nat) (y : Yard) :
    (islandCmd k n c g limit y).islands = y.islands := by
  unfold islandCmd
  split
  · rfl
  · exact sendOwn_islands ..

section Islands

variable {k : Site} {n : Nat} {y z : Yard} {i : Island}

/-- The work of an event keeps an island's sign (R18). -/
theorem islandSign_of_work (h : Work y z) (found : tget y.islands n = some i) : islandSign z n = i.entry.sign := by
  have entry : (tget z.islands n).map (·.entry) = some i.entry := by
    rw [← tget_tmap, h.islands, tget_tmap, found]
    rfl
  obtain ⟨j, loaded, same⟩ := Option.map_eq_some_iff.mp entry
  rw [islandSign, loaded, Option.bind_some, same]

theorem leaveIsland_of_work (h : Work y z) (found : tget y.islands n = some i) (f : Nat) :
    leaveIsland k n f z = route k i.entry.sign f (report z) := by
  rw [leaveIsland, islandSign_of_work h found]

theorem stopOnce_sent (found : tget y.islands n = some i) (sent : i.stopSent = true) : stopOnce k n y = y := by
  rw [stopOnce, found]
  exact if_pos sent

theorem stopOnce_clear (found : tget y.islands n = some i) (clear : i.stopSent = false) :
    stopOnce k n y = islandCmd k n 2 (orZero i.vehicle) 0 (updIsland n (fun i => { i with stopSent := true }) y) := by
  rw [stopOnce, found]
  exact if_neg (by simp [clear])

theorem tget_stopOnce (found : tget y.islands n = some i) :
    tget (stopOnce k n y).islands n = some { i with stopSent := true } := by
  cases sent : i.stopSent with
  | true =>
    rw [stopOnce_sent found sent, found, ← sent]
  | false =>
    rw [stopOnce_clear found sent, islandCmd_islands, updIsland_islands, tget_tmod_same, found]
    rfl

theorem authorised_iff (i : Island) : authorised i = true ↔ i.state = .authorized ∨ i.state = .dispensing := by
  simp [authorised]

/-- The credit of a turn: the litres dispensed, halves rounded up, above the level or above 0, and never above the tank (R94). -/
theorem credit_eq {g : Nat} (holds : i.vehicle = some g) (k : Site) (y : Yard) :
    credit k i y = updService g (fun v => { v with
      level := some (min (classOf k v).tank (v.level.getD 0 + (i.lastCount + i.turnFactor / 2) / i.turnFactor)) }) y := by
  rw [credit, holds]
  rfl

theorem hangNozzle_eq (found : tget y.islands n = some i) :
    hangNozzle k n y = credit k i (updIsland n (fun i => { i with state := .ending, timer := none }) y) := by
  rw [hangNozzle, found]

/-- The end of a turn, in a yard that the event's work has left the island's sign (R95). -/
theorem completeTurn_of_work (h : Work y z) (found : tget y.islands n = some i) (k : Site) (g : Nat) :
    completeTurn k n g z =
      let a := route k i.entry.sign g (report (updIsland n (fun i => { i with
          state := if i.closeAtEnd then .closed else .idle, vehicle := none, limit := 0, lastCount := 0, stopSent := false,
          timer := none, closeAtEnd := false })
        (updService g (fun v => { v with fuelDone := true }) z)))
      (fuelCalls k a.1, a.2) := by
  rw [completeTurn, leaveIsland_of_work ((h.markFuelDone g).updIsland (g := endTurn)) found]
  rfl

end Islands

/-! ## Counts -/

section Counts

variable {k : Site} {n c : Nat} {y : Yard} {i : Island}

/-- The island after a count that is progress, before STOP (R92). -/
def withCount (k : Site) (c : Nat) (i : Island) : Island :=
  { i with lastCount := c, timer := if i.stopSent then i.timer else some (k.now + setting k 14 * 100) }

def counted (k : Site) (n c : Nat) (y : Yard) : Yard := updIsland n (withCount k c) y

theorem count_still (found : tget y.islands n = some i) (still : c ≤ i.lastCount) : count k n c y = y := by
  rw [count, found]
  exact if_neg (Nat.not_lt.mpr still)

theorem count_progress (found : tget y.islands n = some i) (progress : i.lastCount < c)
    (goesOn : c < i.limit ∨ i.stopSent = true) : count k n c y = counted k n c y := by
  rw [count, found]
  refine (if_pos progress).trans (if_neg ?_)
  rintro ⟨reached, clear⟩
  obtain below | sent := goesOn
  · exact Nat.not_le.mpr below reached
  · exact Bool.noConfusion (clear.symm.trans sent)

theorem tget_counted (found : tget y.islands n = some i) :
    tget (counted k n c y).islands n = some (withCount k c i) := by
  rw [counted, updIsland_islands, tget_tmod_same, found]
  rfl

theorem count_limit (found : tget y.islands n = some i) (progress : i.lastCount < c) (reached : i.limit ≤ c)
    (clear : i.stopSent = false) :
    count k n c y = updIsland n (fun i => { i with timer := none })
      (islandCmd k n 2 (orZero i.vehicle) 0 (updIsland n (fun i => { i with stopSent := true }) (counted k n c y))) := by
  rw [count, found]
  refine (if_pos progress).trans ((if_pos ⟨reached, clear⟩).trans ?_)
  exact congrArg (updIsland n _) (stopOnce_clear (i := withCount k c i) (tget_counted found) clear)

/-- A count that is progress is the island's last count, and its turn is the same. -/
theorem tget_count (found : tget y.islands n = some i) (progress : i.lastCount < c) :
    ∃ j, tget (count k n c y).islands n = some j ∧ j.lastCount = c ∧ j.vehicle = i.vehicle ∧ j.turnFactor = i.turnFactor := by
  by_cases goesOn : c < i.limit ∨ i.stopSent = true
  · rw [count_progress found progress goesOn]
    exact ⟨withCount k c i, tget_counted found, rfl, rfl, rfl⟩
  · obtain ⟨reached, clear⟩ := not_or.mp goesOn
    rw [count_limit found progress (Nat.not_lt.mp reached) (Bool.not_eq_true _ ▸ clear)]
    refine ⟨{ withCount k c i with stopSent := true, timer := none }, ?_, rfl, rfl, rfl⟩
    rw [updIsland_islands, tget_tmod_same, islandCmd_islands, updIsland_islands, tget_tmod_same, tget_counted found]
    rfl

theorem reportVehicle_held {code : Nat} (other : code ≠ 1) (held : Option Nat) (g : Nat) : reportVehicle held code g = held := by
  cases held with
  | none => exact if_neg other
  | some f => rfl

end Counts

section Reports

variable {s : State} {f : Frame} {rest : List Frame} {st : Station} {n code : Nat} {i : Island} {act : IslandAct}

/-- A report of a code above 1 that its island takes, and one that it ignores. -/
theorem IslandHead.takes (h : IslandHead s f rest st n code i) (other : code ≠ 1) {y : Yard} {dir : Option Direction}
    (acts : act s.site n i (u16 f.payload 1) (u16 f.payload 3) s.yard = some (y, dir)) :
    islandStep code act s = .next (afterField s f rest s.site y (processed i.vehicle dir)) := by
  rw [islandStep_after h acts, reportVehicle_held other]

theorem IslandHead.ignores (h : IslandHead s f rest st n code i) (other : code ≠ 1)
    (acts : act s.site n i (u16 f.payload 1) (u16 f.payload 3) s.yard = none) :
    islandStep code act s = .next (afterField s f rest s.site s.yard (ignored i.vehicle)) := by
  rw [islandStep_ignored h acts, reportVehicle_held other]

end Reports

/-- Settles O31: a lifted nozzle by the island's state, a count by its place between the last count and the limit. -/
theorem nozzleAndMeter : Obligations.NozzleAndMeter := by
  intro s f rest st n i k stall lifted ends ignores
  refine ⟨fun h => ⟨fun authorized => h.takes (by decide) (if_pos authorized),
    fun other => h.ignores (by decide) (if_neg other)⟩, fun h => ?meter⟩
  intro c counted_
  have takes : ∀ {y : Yard}, meterCount k n i (u16 f.payload 1) c s.yard = some (y, none) → ends .meterCount y :=
    fun acts => h.takes (by decide) acts
  have leaves : meterCount k n i (u16 f.payload 1) c s.yard = none → ignores .meterCount :=
    fun acts => h.ignores (by decide) acts
  refine ⟨fun authorized zero => takes ?_, fun authorized above => takes ?_, fun dispensing below => leaves ?_,
    fun dispensing same => takes ?_, fun dispensing progress goesOn => takes ?_, fun dispensing progress reached clear => takes ?_,
    fun notAuthorized notDispensing => leaves ?_⟩
  · rw [meterCount, authorized]
    exact congrArg acted (if_pos zero)
  · rw [meterCount, authorized]
    exact congrArg acted (if_neg (Nat.pos_iff_ne_zero.mp above))
  · rw [meterCount, dispensing]
    exact if_pos below
  · rw [meterCount, dispensing]
    refine (if_neg (Nat.not_lt.mpr (Nat.le_of_eq same.symm))).trans ?_
    rw [count_still h.loaded (Nat.le_of_eq same), acted]
  · rw [meterCount, dispensing]
    refine (if_neg (Nat.not_lt.mpr (Nat.le_of_lt progress))).trans ?_
    rw [count_progress h.loaded progress goesOn, acted]
    rfl
  · rw [meterCount, dispensing]
    refine (if_neg (Nat.not_lt.mpr (Nat.le_of_lt progress))).trans ?_
    rw [count_limit h.loaded progress reached clear, acted]
    rfl
  · rw [meterCount]
    cases state : i.state <;> simp_all

/-- Settles O32: the final count, then the credit of the turn. -/
theorem nozzleHung_spec : Obligations.NozzleHung := by
  intro s f rest st n i h k c ends under
  have takes : ∀ {y : Yard}, under → hangNozzle k n (count k n c s.yard) = y → ends y := fun isUnder hangs =>
    h.takes (by decide) ((if_pos ((authorised_iff i).mpr isUnder)).trans (congrArg acted hangs))
  refine ⟨fun g isUnder holds still => takes isUnder ?_, fun g isUnder holds progress => takes isUnder ?_,
    fun other => h.ignores (by decide) (if_neg (mt (authorised_iff i).mp other))⟩
  · rw [count_still h.loaded still, hangNozzle_eq h.loaded, credit_eq holds]
  · obtain ⟨j, found, last, vehicle, factor⟩ := tget_count (k := k) h.loaded progress
    rw [hangNozzle_eq found, credit_eq (vehicle.trans holds), last, factor]

/-! ## The end of a turn and the calling rule -/

section Calls

variable {k : Site} {n : Nat} {y : Yard} {i : Island}

theorem callIsland_rests (found : tget y.islands n = some i)
    (rests : ¬(i.state = .idle ∧ ∃ st, stationOfRole k (.island n) = some st ∧ st.manual = false)) :
    callIsland k y n = y := by
  rw [callIsland, found]
  refine if_neg fun may => rests ?_
  rwa [Bool.and_eq_true, beq_iff_eq, roleInAuto_iff] at may

theorem callIsland_finds_none (found : tget y.islands n = some i)
    (none_fits : ∀ g ∈ y.fuelQ, ¬∃ v, vehOf y g = some v ∧ inMask i.entry.mask v.entry.cls = true) : callIsland k y n = y := by
  have nobody : y.fuelQ.find? (islandAccepts y i) = none :=
    List.find?_eq_none.mpr fun g mem => mt (islandAccepts_iff y i g).mp (none_fits g mem)
  rw [callIsland, found]
  dsimp only
  rw [nobody]
  split <;> rfl

theorem callIsland_calls (found : tget y.islands n = some i)
    (may : i.state = .idle ∧ ∃ st, stationOfRole k (.island n) = some st ∧ st.manual = false) {before after : List Nat} {g : Nat}
    (queue : y.fuelQ = before ++ g :: after) (fits : ∃ v, vehOf y g = some v ∧ inMask i.entry.mask v.entry.cls = true)
    (first : ∀ x ∈ before, ¬∃ v, vehOf y x = some v ∧ inMask i.entry.mask v.entry.cls = true) :
    callIsland k y n = showSign k i.entry.sign g (.island n)
      (updIsland n (fun i => { i with
          state := .called, vehicle := some g, limit := 0, lastCount := 0, stopSent := false,
          timer := some (k.now + setting k 12 * 6000) })
        (report (setState k g .fuelling { y with fuelQ := without y.fuelQ g }))) := by
  have called : y.fuelQ.find? (islandAccepts y i) = some g :=
    List.find?_eq_some_iff_append.mpr ⟨(islandAccepts_iff y i g).mpr fits, before, after, queue, fun x mem => by
      rw [Bool.not_eq_true', Bool.eq_false_iff]
      exact mt (islandAccepts_iff y i x).mp (first x mem)⟩
  rw [callIsland, found]
  dsimp only
  rw [called]
  exact if_pos (by rwa [Bool.and_eq_true, beq_iff_eq, roleInAuto_iff])

theorem sendOwn_manual {block : Block} {a : Nat} {kind : Byte} {p : List Byte} (manual : inManual k a = true) :
    sendOwn k block a kind p y = y := if_pos manual

theorem sendOwn_auto {block : Block} {a : Nat} {kind : Byte} {p : List Byte} (auto : inManual k a = false) :
    sendOwn k block a kind p y = { y with emits := y.emits ++
      [.own block { dest := byte a, src := byte (ownAddress k), kind := kind, payload := p }] } :=
  if_neg (by simp [auto])

end Calls

theorem islandCmdPayload_eq_sent (c g limit : Nat) : islandCmdPayload c g limit = sent [(1, c), (2, g), (2, limit)] := by
  simp [islandCmdPayload]

/-- Settles O33: a turn's end by the island's state, the calling rule by its first island and vehicle, and the command, STOP
and credit it uses. -/
theorem islandClear_spec : Obligations.IslandClear := by
  refine ⟨fun s f rest st n i h => ?report, fun k y => rfl, fun k y n => ?calls, fun k n c g limit y => ?command,
    fun k n y i found => ⟨stopOnce_sent found, stopOnce_clear found⟩, fun k i g y holds => credit_eq holds k y⟩
  case report =>
    intro k ended ends
    refine ⟨fun g holds ending => ?_, fun g holds under => ?_, fun notEnding notAuthorized notDispensing => ?_⟩
    · refine h.takes (by decide) ?_
      rw [islandClear, holds, ending]
      exact congrArg directed (completeTurn_of_work (.refl _) h.loaded k g)
    · have stopped := tget_stopOnce (k := k) h.loaded
      have hung : hangNozzle k n (stopOnce k n s.yard) =
          credit k i (updIsland n (fun i => { i with state := .ending, timer := none }) (stopOnce k n s.yard)) := by
        rw [hangNozzle_eq stopped]
        rfl
      have work : Work s.yard (hangNozzle k n (stopOnce k n s.yard)) := ((Work.refl _).stopOnce k n).hangNozzle k n
      have completes := completeTurn_of_work work h.loaded k g
      rw [hung] at completes
      refine h.takes (by decide) ?_
      rw [islandClear, holds]
      dsimp only
      rw [hung]
      obtain state | state := under
      · rw [state]
        exact congrArg directed completes
      · rw [state]
        exact congrArg directed completes
    · refine h.ignores (by decide) ?_
      rw [islandClear]
      cases i.vehicle <;> cases state : i.state <;> simp_all
  case calls =>
    intro run
    refine ⟨fun absent => ?_, fun i found => ?_⟩
    · show callIsland k y n = y
      rw [callIsland, absent]
    · exact ⟨callIsland_rests found, callIsland_finds_none found, fun before g after may => callIsland_calls found may⟩
  case command =>
    intro run
    refine ⟨fun absent => ?_, fun st found => ?_⟩
    · show islandCmd k n c g limit y = y
      rw [islandCmd, absent]
    · have sends : run = sendOwn k .fuelTurn st.entry.address kindIslandCmd (islandCmdPayload c g limit) y := by
        show islandCmd k n c g limit y = _
        rw [islandCmd, found]
      refine ⟨fun manual => sends.trans (sendOwn_manual manual), fun auto => sends.trans ?_⟩
      rw [sendOwn_auto auto, islandCmdPayload_eq_sent]
      rfl

/-! ## Faults -/

section Faults

variable {k : Site} {n g value : Nat} {y : Yard} {i : Island}

/-- A reported fault, the STOP and the credit apart (R96). -/
def faulted (n : Nat) (i : Island) (y : Yard) : Yard :=
  raise .islandFault i.vehicle (some (.island n)) none (updIsland n (freeIsland .closed) y)

/-- The STOP and the credit of a fault, by the island's state (R96). -/
def beforeFault (k : Site) (n : Nat) (i : Island) (y : Yard) : Yard :=
  let z := if authorised i then stopOnce k n y else y
  if i.state = .dispensing then credit k i z else z

theorem islandFault_eq (notClosed : i.state ≠ .closed) (notManual : i.state ≠ .manual) (fleet : Nat) :
    islandFault k n i fleet value y = match i.vehicle with
      | none => acted (faulted n i (beforeFault k n i y))
      | some g => directed (leaveIsland k n g (markFuelSkipped g (faulted n i (beforeFault k n i y)))) := by
  unfold islandFault
  split
  · contradiction
  · contradiction
  · rfl

theorem Work.beforeFault (k : Site) (n : Nat) (i : Island) (y : Yard) : Work y (Machine.beforeFault k n i y) := by
  unfold Machine.beforeFault
  split <;> dsimp only <;> split
  · exact ((Work.refl y).stopOnce k n).credit k i
  · exact (Work.refl y).stopOnce k n
  · exact (Work.refl y).credit k i
  · exact Work.refl y

end Faults

/-- Settles O34: the island's fault, after the STOP and the credit its state asks for. -/
theorem islandReportFault : Obligations.IslandReportFault := by
  intro s f rest st n i h k closed ends routed
  have routes : ∀ {g : Nat} {z : Yard}, i.vehicle = some g → i.state ≠ .closed → i.state ≠ .manual →
      beforeFault k n i s.yard = z → routed g z := fun {g z} holds notClosed notManual before => by
    have work : Work s.yard (markFuelSkipped g (faulted n i z)) := by
      rw [← before]
      exact (((Work.beforeFault k n i s.yard).updIsland (g := freeIsland .closed)).raise ..).markFuelSkipped g
    refine h.takes (by decide) ((islandFault_eq notClosed notManual _).trans ?_)
    rw [holds]
    dsimp only
    rw [before, leaveIsland_of_work work h.loaded]
    rfl
  refine ⟨fun g holds => ⟨fun calm => ?_, fun authorized => ?_, fun dispensing => ?_⟩, fun idle free => ?_, fun isClosed => ?_⟩
  · obtain state | state := calm <;>
    · refine routes holds (by simp [state]) (by simp [state]) ?_
      simp [beforeFault, authorised, state]
  · refine routes holds (by simp [authorized]) (by simp [authorized]) ?_
    simp [beforeFault, authorised, authorized]
  · refine routes holds (by simp [dispensing]) (by simp [dispensing]) ?_
    simp [beforeFault, authorised, dispensing]
  · refine h.takes (by decide) ((islandFault_eq (by simp [idle]) (by simp [idle]) _).trans ?_)
    rw [free]
    have before : beforeFault k n i s.yard = s.yard := by simp [beforeFault, authorised, idle]
    rw [before]
    rfl
  · refine h.ignores (by decide) ?_
    rw [islandFault, isClosed]

/-! ## The timers -/

section Timers

variable {s : State} {n : Nat} {i : Island} {t0 : Nat} {st : IslandState} {g : Site → Island → Yard → Yard}

theorem islandExpiry_due (found : tget s.yard.islands n = some i) (timer : i.timer = some t0) (due : t0 ≤ s.site.now)
    (state : i.state = st) : islandExpiry st n g s = .next (afterTimer s s.site (g s.site i s.yard)) := by
  rw [islandExpiry, found]
  dsimp only
  rw [timer]
  exact if_pos ⟨state, due⟩

theorem missCall_eq (f : Nat) (y : Yard) :
    missCall f y = updVeh f (fun v => { v with missedCalls := min 2 (v.missedCalls + 1) }) y := by
  simp only [missCall, satSucc_eq_min]

end Timers

/-- Settles O35: a missed call by its count and the join test, and the expiries of an authorisation and of the flow. -/
theorem islandTimers : Obligations.IslandTimers := by
  intro n s i g t0 found holds timer due k missed second routed joinable
  have missed_eq : updIsland n endTurn (missCall g s.yard) = missed := by rw [missCall_eq]
  have twice : missedTwice missed g = true ↔ second := missedTwice_iff missed g
  have joins : fuelJoinable missed g = true ↔ joinable := fuelJoinable_iff missed g
  have work : Work s.yard missed := by
    rw [← missed_eq]
    exact ((Work.refl _).missCall g).updIsland
  have arrives : ∀ {z : Yard}, i.state = .called → missIslandCall k n g s.yard = z →
      exec (.arrivalTimerExpiry n) s = .next (afterTimer s k (fuelCalls k z)) := fun {z} called misses => by
    refine (islandExpiry_due found timer due called).trans ?_
    rw [holds, ← misses]
  refine ⟨fun called once fits => ?_, fun called once refused => ?_, fun called isSecond => ?_, fun authorized => ?_,
    fun dispensing => ?_⟩
  · refine arrives called ?_
    rw [missIslandCall, missed_eq, if_neg (mt twice.mp once), returnOrSkip, if_pos (joins.mpr fits)]
    rfl
  · refine arrives called ?_
    rw [missIslandCall, missed_eq, if_neg (mt twice.mp once), returnOrSkip, if_neg (mt joins.mp refused),
      leaveIsland_of_work (work.skipFuel g) found]
    rfl
  · refine arrives called ?_
    rw [missIslandCall, missed_eq, if_pos (twice.mpr isSecond),
      leaveIsland_of_work ((work.markFuelSkipped g).raise ..) found]
  · refine (islandExpiry_due found timer due authorized).trans ?_
    rw [holds]
    dsimp only
    rw [authorisationEnds,
      leaveIsland_of_work ((((Work.refl _).stopOnce k n).markFuelSkipped g).updIsland (g := expireTurn)) found]
    rfl
  · refine (islandExpiry_due found timer due dispensing).trans ?_
    rw [stall, holds]

end Sys2Proof.Machine

/-! VEHICLE_PRESENT where a table of islands holds one number twice: the statement does not ask for a table in order, and it
writes each entry's limit with that entry's own meter factor, where the model writes the pulses of the authorised island (R89). -/

namespace Sys2Proof.Machine

/-- A CALLED island for vehicle 7, by its meter factor. -/
def calledIsland (meter : Nat) : Island :=
  { freshIsland { mask := 0xFF, meter := meter, sign := none, heldClosed := false } with
    state := .called, vehicle := some 7 }

/-- The report at station 11 that vehicle 7 is present, half full. -/
def presentReport : Frame := { dest := 250, src := 11, kind := kindIslandReport, payload := [1, 0, 7, 0, 50] }

def presentStation : Station := freshStation { address := 11, role := .island 1, sign := none, policy := .yields }

def presentVehicle : Vehicle :=
  freshVehicle { day := 0, second := 0 } { fleet := 7, cls := 0, length := 120, outOfService := false }

/-- A part whose table of islands names island 1 twice, with the meter factors 10 and 20. -/
def doubledIsland : State :=
  { State.reset with
    rx.field.ingress := [presentReport]
    site.classes := [(0, { tank := 300, reserve := 20, spareFuel := 100, washInterval := 3, washProgram := 1 })]
    site.stations := [(0, presentStation)]
    yard.roster := [(0, presentVehicle)]
    yard.islands := [(1, calledIsland 10), (1, calledIsland 20)] }

/-- The limits of the islands after a command. -/
def limitsAfter : Host.Outcome State Fault Refusal → List Nat
  | .next t => t.yard.islands.map fun p => p.2.limit
  | .fault _ => []
  | .refused _ => []

theorem doubledIsland_head : IslandHead doubledIsland presentReport [] presentStation 1 1 (calledIsland 10) where
  head := rfl
  station := rfl
  role := rfl
  auto := rfl
  loaded := rfl
  kind := rfl
  length := rfl
  code := rfl

/-- The model authorises 150 litres in the pulses of the first entry, and writes them to both. -/
theorem limitsAfter_doubledIsland : limitsAfter (exec .vehiclePresent doubledIsland) = [1500, 1500] := by decide

/-- Refutes O30: at a table that holds island 1 twice, the authorised limit of the second entry is 1500 in the model and, with
the entry's own factor, 3000 in the statement. -/
theorem not_vehiclePresent : ¬ Obligations.VehiclePresent := by
  rintro ⟨reports, -⟩
  obtain ⟨-, -, -, -, -, starts⟩ := reports _ _ _ _ _ _ doubledIsland_head
  have authorises := (starts { presentVehicle with level := some 150 } rfl rfl (by decide)).1 (by decide)
  have limits := congrArg limitsAfter authorises
  rw [limitsAfter_doubledIsland] at limits
  exact absurd limits (by decide)

end Sys2Proof.Machine

/-! The wash lanes: positions, stages, ends, faults and timers (R101 to R113). -/

namespace Sys2Proof.Machine

section WashLanes

variable {k : Site} {n : Nat} {y z : Yard} {l : WashLane}

/-- The work of an event keeps a wash lane's sign (R18). -/
theorem washSign_of_work (h : Work y z) (found : tget y.washLanes n = some l) : washSign z n = l.entry.sign := by
  have entry : (tget z.washLanes n).map (·.entry) = some l.entry := by
    rw [← tget_tmap, h.washLanes, tget_tmap, found]
    rfl
  obtain ⟨m, loaded, same⟩ := Option.map_eq_some_iff.mp entry
  rw [washSign, loaded, Option.bind_some, same]

theorem leaveWash_of_work (h : Work y z) (found : tget y.washLanes n = some l) (f : Nat) :
    leaveWash k n f z = route k l.entry.sign f (report z) := by
  rw [leaveWash, washSign_of_work h found]

/-- A wash that stops without its credit, in a yard that the event's work has left the lane's sign (R111, R112). -/
theorem faultWash_of_work (h : Work y z) (found : tget y.washLanes n = some l) {g : Nat} (holds : l.vehicle = some g) :
    faultWash k n l z =
      let a := route k l.entry.sign g (report (markWashIncomplete g
        (raise .washFault l.vehicle (some (.washLane n)) none (updWash n (freeWash .fault) z))))
      (a.1, some a.2) := by
  unfold faultWash
  rw [holds]
  dsimp only
  rw [leaveWash_of_work (((h.updWash (g := freeWash .fault)).raise ..).markWashIncomplete g) found]

theorem faultWash_free (free : l.vehicle = none) :
    faultWash k n l z = (raise .washFault l.vehicle (some (.washLane n)) none (updWash n (freeWash .fault) z), none) := by
  unfold faultWash
  rw [free]

end WashLanes

section WashReports

variable {s : State} {f : Frame} {rest : List Frame} {st : Station} {n code : Nat} {l : WashLane} {act : WashAct}

/-- A report of a code above 1 that its wash lane takes, and one that it ignores. -/
theorem WashHead.takes (h : WashHead s f rest st n code l) (other : code ≠ 1) {y : Yard} {dir : Option Direction}
    (acts : act s.site n l (u16 f.payload 1) (u8 f.payload 3) s.yard = some (y, dir)) :
    washStep code act s = .next (afterField s f rest s.site y (processed l.vehicle dir)) := by
  rw [washStep_after h acts, reportVehicle_held other]

theorem WashHead.ignores (h : WashHead s f rest st n code l) (other : code ≠ 1)
    (acts : act s.site n l (u16 f.payload 1) (u8 f.payload 3) s.yard = none) :
    washStep code act s = .next (afterField s f rest s.site s.yard (ignored l.vehicle)) := by
  rw [washStep_ignored h acts, reportVehicle_held other]

/-- The vehicle of a report of a presence: the one held, or the one named (R35). -/
theorem reportVehicle_present (held : Option Nat) (g : Nat) : reportVehicle held 1 g = some (held.getD g) := by
  cases held <;> rfl

end WashReports

/-! ## In position -/

section Start

variable {k : Site} {n g : Nat} {y : Yard} {l : WashLane} {v : Vehicle}

theorem startWash_stage (found : tget y.washLanes n = some l) (veh : vehOf y g = some v) {p : Stage} {ps : List Stage}
    (program : tget k.programs (classOf k v).washProgram = some (p :: ps)) :
    startWash k n g y =
      (orderStage k n 1 { kind := p.kind, time := stageTime v.entry.length l.entry.lref p }
        (updWash n (fun m => { m with plan := washPlan v.entry.length l.entry.lref (p :: ps) }) y), none) := by
  rw [startWash, found, veh]
  dsimp only
  rw [program]
  rfl

theorem startWash_skips (found : tget y.washLanes n = some l) (veh : vehOf y g = some v)
    (program : tget k.programs (classOf k v).washProgram = none) :
    startWash k n g y =
      let a := route k l.entry.sign g (report (skipAtLane n g (updWash n endWash y)))
      (washCalls k a.1, some a.2) := by
  have work : Work y (skipAtLane n g (updWash n endWash y)) := ((Work.refl y).updWash (g := endWash)).skipAtLane n g
  rw [startWash, found, veh]
  dsimp only
  rw [program, Option.map_none, leaveWash_of_work work found]

end Start

/-- Settles O37: the report by the lane's state, and the wash that a called vehicle starts. -/
theorem vehicleInPosition_spec : Obligations.VehicleInPosition := by
  refine ⟨fun length lref p => rfl, fun s f rest st n l h => ?_⟩
  intro g k ends ignores wrong queued
  have takes : ∀ {y : Yard} {dir : Option Direction},
      vehicleInPosition k n l g (u8 f.payload 3) s.yard = some (y, dir) → ends y dir := fun acts =>
    (washStep_after h acts).trans (by rw [reportVehicle_present])
  have leaves : vehicleInPosition k n l g (u8 f.payload 3) s.yard = none → ignores := fun acts =>
    (washStep_ignored h acts).trans (by rw [reportVehicle_present])
  have inQueue : (s.yard.washQ.contains g && washAccepts s.yard l g) = true ↔ queued := by
    rw [Bool.and_eq_true, List.contains_iff_mem]
  refine ⟨fun resting => leaves ?_, fun idle => takes ?_, fun busy => ⟨fun own => leaves ?_, fun other => takes ?_⟩,
    fun called other notQueued => takes ?_, fun c called holds other isQueued => takes ?_, fun v called own veh =>
    ⟨fun p ps program => takes ?_, fun program => takes ?_⟩⟩
  · rw [vehicleInPosition]
    obtain state | state | state := resting <;> rw [state]
  · rw [vehicleInPosition, idle]
    rfl
  · rw [vehicleInPosition]
    obtain state | state := busy <;>
    · rw [state]
      exact if_pos own
  · rw [vehicleInPosition]
    obtain state | state := busy <;>
    · rw [state]
      exact if_neg other
  · rw [vehicleInPosition, called]
    exact (if_neg other).trans (if_neg (mt inQueue.mp notQueued))
  · have notOwn : l.vehicle ≠ some g := fun own => other (Option.some.inj (holds.symm.trans own))
    rw [vehicleInPosition, called]
    refine (if_neg notOwn).trans ((if_pos (inQueue.mpr isQueued)).trans ?_)
    rw [impostorWash, holds]
    rfl
  · rw [vehicleInPosition, called]
    refine (if_pos own).trans ?_
    rw [startWash_stage h.loaded veh program]
    rfl
  · rw [vehicleInPosition, called]
    refine (if_pos own).trans ?_
    rw [startWash_skips h.loaded veh program]

/-- Settles O38: the number of the stage under way, and the plan's next entry. -/
theorem stageDone_spec : Obligations.StageDone := by
  intro s f rest st n l h j k note
  refine ⟨fun p running stage next => ?_, fun running stage last => ?_, fun other => ?_⟩
  · refine h.takes (by decide) ((if_pos ⟨running, stage⟩).trans ?_)
    rw [next]
    rfl
  · refine h.takes (by decide) ((if_pos ⟨running, stage⟩).trans ?_)
    rw [last]
    rfl
  · refine h.ignores (by decide) (if_neg ?_)
    rintro ⟨running, stage⟩
    obtain notRunning | another := other
    · exact notRunning running
    · exact another stage

/-! ## The end of a wash and the calling rule -/

section WashCalls

variable {k : Site} {n : Nat} {y : Yard} {l : WashLane}

theorem callWash_rests (found : tget y.washLanes n = some l)
    (rests : ¬(l.state = .idle ∧ ∃ st, stationOfRole k (.wash n) = some st ∧ st.manual = false)) :
    callWash k y n = y := by
  rw [callWash, found]
  refine if_neg fun may => rests ?_
  rwa [Bool.and_eq_true, beq_iff_eq, roleInAuto_iff] at may

theorem callWash_finds_none (found : tget y.washLanes n = some l)
    (none_fits : ∀ g ∈ y.washQ, ¬∃ v, vehOf y g = some v ∧ inMask l.entry.mask v.entry.cls = true ∧
      v.entry.length ≤ l.entry.maxLength) : callWash k y n = y := by
  have nobody : y.washQ.find? (washAccepts y l) = none :=
    List.find?_eq_none.mpr fun g mem => mt (washAccepts_iff y l g).mp (none_fits g mem)
  rw [callWash, found]
  dsimp only
  rw [nobody]
  split <;> rfl

theorem callWash_calls (found : tget y.washLanes n = some l)
    (may : l.state = .idle ∧ ∃ st, stationOfRole k (.wash n) = some st ∧ st.manual = false) {before after : List Nat} {g : Nat}
    (queue : y.washQ = before ++ g :: after)
    (fits : ∃ v, vehOf y g = some v ∧ inMask l.entry.mask v.entry.cls = true ∧ v.entry.length ≤ l.entry.maxLength)
    (first : ∀ x ∈ before, ¬∃ v, vehOf y x = some v ∧ inMask l.entry.mask v.entry.cls = true ∧
      v.entry.length ≤ l.entry.maxLength) :
    callWash k y n = showSign k l.entry.sign g (.wash n)
      (updWash n (fun l => { l with
          state := .called, vehicle := some g, stageIndex := none, plan := [],
          timer := some (k.now + setting k 15 * 6000) })
        (report (setState k g .washing { y with washQ := without y.washQ g }))) := by
  have called : y.washQ.find? (washAccepts y l) = some g :=
    List.find?_eq_some_iff_append.mpr ⟨(washAccepts_iff y l g).mpr fits, before, after, queue, fun x mem => by
      rw [Bool.not_eq_true', Bool.eq_false_iff]
      exact mt (washAccepts_iff y l x).mp (first x mem)⟩
  rw [callWash, found]
  dsimp only
  rw [called]
  exact if_pos (by rwa [Bool.and_eq_true, beq_iff_eq, roleInAuto_iff])

end WashCalls

theorem washCmdPayload_eq_sent (c stage kind time : Nat) :
    washCmdPayload c stage kind time = sent [(1, c), (1, stage), (1, kind), (2, time)] := by
  simp [washCmdPayload]

/-- Settles O39: a lane's end by its state, the calling rule by its first lane and vehicle, and the command it uses. -/
theorem laneClear_spec : Obligations.LaneClear := by
  refine ⟨fun s f rest st n l h => ?report, fun k y => rfl, fun k y n => ?calls, fun k n c stage kind time y => ?command⟩
  case report =>
    intro k ends
    refine ⟨fun g draining holds => ?_, fun g running holds => ?_, fun notDraining notRunning => ?_⟩
    · have work : Work s.yard (updWash n endWash (creditWash g s.yard)) :=
        ((Work.refl _).updService (g := fun v => { v with daysSinceWash := 0, washDone := true })).updWash (g := endWash)
      refine h.takes (by decide) ?_
      rw [laneClear, draining, holds]
      dsimp only
      rw [leaveWash_of_work work h.loaded]
      rfl
    · refine h.takes (by decide) ?_
      rw [laneClear, running]
      dsimp only
      rw [faultWash_of_work ((Work.refl _).abortWash k n) h.loaded holds, holds]
      rfl
    · refine h.ignores (by decide) ?_
      unfold laneClear
      split <;> simp_all
  case calls =>
    intro run
    refine ⟨fun absent => ?_, fun l found => ?_⟩
    · show callWash k y n = y
      rw [callWash, absent]
    · exact ⟨callWash_rests found, callWash_finds_none found, fun before g after may => callWash_calls found may⟩
  case command =>
    intro run
    refine ⟨fun absent => ?_, fun st found => ?_⟩
    · show washCmd k n c stage kind time y = y
      rw [washCmd, absent]
    · have sends : run = sendOwn k .washSequencer st.entry.address kindWashCmd (washCmdPayload c stage kind time) y := by
        show washCmd k n c stage kind time y = _
        rw [washCmd, found]
      refine ⟨fun manual => sends.trans (sendOwn_manual manual), fun auto => sends.trans ?_⟩
      rw [sendOwn_auto auto, washCmdPayload_eq_sent]
      rfl

/-! ## Faults and timers -/

theorem washExpiry_due {s : State} {n t0 : Nat} {l : WashLane} {st : WashState} {g : Site → WashLane → Yard → Yard}
    (found : tget s.yard.washLanes n = some l) (timer : l.timer = some t0) (due : t0 ≤ s.site.now) (state : l.state = st) :
    washExpiry st n g s = .next (afterTimer s s.site (g s.site l s.yard)) := by
  rw [washExpiry, found]
  dsimp only
  rw [timer]
  exact if_pos ⟨state, due⟩

/-- Settles O40: a fault by the lane's state and vehicle, the stage timer, and a missed call by its count and the queue. -/
theorem washStops : Obligations.WashStops := by
  intro n s l k fault stopped
  refine ⟨fun f rest st h => ?report, fun g t0 found holds timer due => ?timers⟩
  case report =>
    intro ends
    refine ⟨fun g holds working => ?_, fun free idle => ?_, fun resting => ?_⟩
    · refine h.takes (by decide) ?_
      have faults : faultWash k n l s.yard = ((stopped g s.yard).1, some (stopped g s.yard).2) :=
        faultWash_of_work (.refl _) h.loaded holds
      rw [washFault]
      obtain state | state | state := working <;>
      · rw [state, ← faults]
    · refine h.takes (by decide) ?_
      rw [washFault, idle]
      exact congrArg some (faultWash_free free)
    · refine h.ignores (by decide) ?_
      rw [washFault]
      obtain state | state := resting <;> rw [state]
  case timers =>
    intro missed second routed
    have missed_eq : updWash n endWash (missCall g s.yard) = missed := by rw [missCall_eq]
    have twice : missedTwice missed g = true ↔ second := missedTwice_iff missed g
    have work : Work s.yard missed := by
      rw [← missed_eq]
      exact ((Work.refl _).missCall g).updWash
    have calls : ∀ {z : Yard}, l.state = .called → missWashCall k n g s.yard = z →
        exec (.callTimerExpiry n) s = .next (afterTimer s k (washCalls k z)) := fun {z} called misses => by
      refine (washExpiry_due found timer due called).trans ?_
      rw [holds, ← misses]
    refine ⟨fun running => ?_, fun called once room => ?_, fun called once full => ?_, fun called isSecond => ?_⟩
    · refine (washExpiry_due found timer due running).trans ?_
      rw [faultWash_of_work ((Work.refl _).abortWash s.site n) found holds]
      rfl
    · refine calls called ?_
      rw [missWashCall, missed_eq, if_neg (mt twice.mp once)]
      exact if_pos room
    · refine calls called ?_
      rw [missWashCall, missed_eq, if_neg (mt twice.mp once)]
      refine (if_neg (Nat.not_lt.mpr full)).trans ?_
      rw [leaveWash_of_work (work.skipWash g) found]
      rfl
    · refine calls called ?_
      rw [missWashCall, missed_eq, if_pos (twice.mpr isSecond), leaveWash_of_work (work.skipAtLane n g) found]
      rfl

end Sys2Proof.Machine

/-! What a field frame's forwarding comes to for each action, and the frames that no block takes. -/

namespace Sys2Proof.Machine

/-! ## Forwarding, action by action -/

section Forwarding

variable {f : Frame} {d : Desk} {st : Station}

theorem forward_unknown (strange : stationAt d.site f.src.toNat = none ∨ 32 ≤ f.kind.toNat) (n : Note) :
    forward f n d = { d with out := offerForwarded d.site f d.out } :=
  if_pos (by rcases strange with h | h <;> simp [h])

/-- From a known source a field kind goes by its action. -/
theorem forward_known (known : stationAt d.site f.src.toNat = some st) (fieldKind : f.kind.toNat < 32) (n : Note) :
    forward f n d = match actionFor d.site f.kind.toNat with
      | .pass => { d with out := offerForwarded d.site f d.out }
      | .absorb => d
      | .annotate =>
        if f.payload.length ≤ annotateCap then
          { d with out := offerForwarded d.site { f with payload := f.payload ++ annotation d.yard n } d.out }
        else { d with out := offerForwarded d.site f d.out } :=
  if_neg (by simp [known, fieldKind])

theorem forward_pass (known : stationAt d.site f.src.toNat = some st) (fieldKind : f.kind.toNat < 32)
    (pass : actionFor d.site f.kind.toNat = .pass) (n : Note) :
    forward f n d = { d with out := offerForwarded d.site f d.out } := by
  rw [forward_known known fieldKind, pass]

theorem forward_absorb (known : stationAt d.site f.src.toNat = some st) (fieldKind : f.kind.toNat < 32)
    (absorb : actionFor d.site f.kind.toNat = .absorb) (n : Note) : forward f n d = d := by
  rw [forward_known known fieldKind, absorb]

theorem forward_annotate (known : stationAt d.site f.src.toNat = some st) (fieldKind : f.kind.toNat < 32)
    (annotate : actionFor d.site f.kind.toNat = .annotate) (fits : f.payload.length ≤ 48) (n : Note) :
    forward f n d =
      { d with out := offerForwarded d.site { f with payload := f.payload ++ annotation d.yard n } d.out } := by
  rw [forward_known known fieldKind, annotate]
  exact if_pos fits

theorem forward_annotate_long (known : stationAt d.site f.src.toNat = some st) (fieldKind : f.kind.toNat < 32)
    (annotate : actionFor d.site f.kind.toNat = .annotate) (long : 48 < f.payload.length) (n : Note) :
    forward f n d = { d with out := offerForwarded d.site f d.out } := by
  rw [forward_known known fieldKind, annotate]
  exact if_neg (Nat.not_le.mpr long)

/-- The eight bytes of the annotation, field by field (R163). -/
theorem annotation_eq_sent (y : Yard) (n : Note) :
    annotation y n =
      let v := n.fleet.bind (vehOf y)
      sent [(2, n.fleet.getD 0), (1, (v.map fun v => vehStateCode v.state).getD 0),
        (1, ((n.direction.map directionCode).getD 0).toNat), (1, (n.direction.map directionTarget).getD 0),
        (2, (v.bind (·.duty)).getD 0), (1, dispositionCode n.disposition)] := by
  simp [annotation, orZero]

/-- The code and the target of an annotated direction (R163). -/
theorem annotated_direction {dir : Option Direction} {code target : Nat}
    (listed : (dir, code, target) ∈
        [(none, 0, 0), (some .fuelRoad, 1, 0), (some .washRoad, 2, 0), (some .apron, 6, 0), (some .hold, 7, 0),
         (some .exit, 8, 0)] ∨ (dir = some (.island target) ∧ code = 3) ∨
        (dir = some (.wash target) ∧ code = 4) ∨ (dir = some (.lane target) ∧ code = 5)) :
    ((dir.map directionCode).getD 0).toNat = code ∧ (dir.map directionTarget).getD 0 = target := by
  cases dir with
  | none =>
    have zero : code = 0 ∧ target = 0 := by simpa using listed
    exact ⟨zero.1.symm, zero.2.symm⟩
  | some dir =>
    obtain listed | ⟨is, rfl⟩ | ⟨is, rfl⟩ | ⟨is, rfl⟩ := listed
    · exact directionCode_target (.inl (by simpa using listed))
    · exact directionCode_target (.inr (.inl ⟨rfl, Option.some.inj is⟩))
    · exact directionCode_target (.inr (.inr (.inl ⟨rfl, Option.some.inj is⟩)))
    · exact directionCode_target (.inr (.inr (.inr ⟨rfl, Option.some.inj is⟩)))

theorem disposition_code {disposed : Disposition} {did : Nat}
    (listed : (disposed, did) ∈ [(.processed, 0), (.repeated, 1), (.unprocessed, 2)]) :
    dispositionCode disposed = did := by
  cases disposed <;> simp_all [dispositionCode]

/-- The annotation of a frame that concerns no vehicle and is not acted on. -/
theorem annotation_bare (y : Yard) : annotation y (.bare .unprocessed) = [0, 0, 0, 0, 0, 0, 0, 2] := by
  simp [annotation, Note.bare, orZero, bytes2, byte, dispositionCode]

theorem offerForwarded_free {k : Site} {o : Out} (free : o.officeQ.length + o.reserved < 16) :
    offerForwarded k f o = { o with officeQ := o.officeQ ++ [{ cls := .forwarded, frame := f }] } :=
  if_pos ((officeFree_pos_iff o).mpr free)

theorem offerForwarded_full {k : Site} {o : Out} (full : 16 ≤ o.officeQ.length + o.reserved) :
    offerForwarded k f o = offerNotice k .egressFull none (some (.port .office none)) none o :=
  if_neg fun h => Nat.not_lt.mpr full ((officeFree_pos_iff o).mp h)

end Forwarding

/-! ## The frames no block takes -/

theorem ite_other_iff {c : Prop} [Decidable c] {r : FieldRow} (acts : r ≠ .other) :
    (if c then r else .other) = .other ↔ ¬c := by simp [acts]

/-- A frame is nobody's by its source, or by what its station's role sends. -/
theorem classify_other_iff (k : Site) (y : Yard) (f : Frame) :
    let sends (kind : Byte) (length : Nat) : Prop := f.kind = kind ∧ f.payload.length = length
    classify k y f = .other ↔ stationAt k f.src.toNat = none ∨ ∃ st, stationAt k f.src.toNat = some st ∧
      ((st.entry.role = .gateIn ∨ st.entry.role = .gateOut ∨ st.entry.role = .yard) ∧ ¬sends 0x01 3 ∨
        st.entry.role = .loops ∧ ¬sends 0x02 2 ∨
        (∃ n, st.entry.role = .island n ∧ (¬sends 0x03 5 ∨ st.manual = true ∨ tget y.islands n = none)) ∨
        (∃ n, st.entry.role = .wash n ∧ (¬sends 0x04 4 ∨ st.manual = true ∨ tget y.washLanes n = none)) ∨
        st.entry.role = .sign ∨ st.entry.role = .board) := by
  intro sends
  unfold classify
  cases source : stationAt k f.src.toNat with
  | none => simp
  | some st =>
    have reads : (f.kind = kindTagRead ∧ f.payload.length = 3) ↔ sends 0x01 3 := Iff.rfl
    have loops : (f.kind = kindLoopState ∧ f.payload.length = 2) ↔ sends 0x02 2 := Iff.rfl
    dsimp only
    simp only [reduceCtorEq, false_or, Option.some.injEq, exists_eq_left']
    cases role : st.entry.role with
    | gateIn => simp [reads]
    | gateOut => simp [reads]
    | yard => simp [reads]
    | loops => simp [loops]
    | island n =>
      dsimp only
      rw [ite_other_iff (r := .island n (u8 f.payload 0)) nofun]
      simp [sends, kindIslandReport, Classical.not_and_iff_not_or_not, or_assoc, -not_and]
    | wash n =>
      dsimp only
      rw [ite_other_iff (r := .wash n (u8 f.payload 0)) nofun]
      simp [sends, kindWashReport, Classical.not_and_iff_not_or_not, or_assoc, -not_and]
    | sign => simp
    | board => simp

/-- A frame that is not acted on is only forwarded. -/
theorem execUnprocessed_eq {s : State} {f : Frame} {rest : List Frame} (head : s.rx.field.ingress = f :: rest)
    (nobodys : isUnprocessedRow (classify s.site s.yard f) = true) :
    let note : Note :=
      { fleet := unprocessedVehicle s.yard (classify s.site s.yard f), direction := none, disposition := .unprocessed }
    exec .unprocessedFieldFrame s = next { s with rx.field.ingress := rest } (forward f note s.desk) :=
  fieldStep_take head nobodys (take := fun r f d =>
    forward f { fleet := unprocessedVehicle d.yard r, direction := none, disposition := .unprocessed } d)

/-- The row's end when its forwarding gives the desk a new egress. -/
theorem execUnprocessed_ends {s : State} {f : Frame} {rest : List Frame} {o : Out} (head : s.rx.field.ingress = f :: rest)
    (nobodys : isUnprocessedRow (classify s.site s.yard f) = true)
    (forwards : ∀ n : Note, n.fleet = unprocessedVehicle s.yard (classify s.site s.yard f) → n.direction = none →
      n.disposition = .unprocessed → forward f n s.desk = { s.desk with out := o }) :
    exec .unprocessedFieldFrame s = .next { s with rx.field.ingress := rest, out := o } := by
  rw [execUnprocessed_eq head nobodys, forwards _ rfl rfl rfl]
  rfl

/-- A report of a code in no table, from the station of a loaded island or wash lane. -/
theorem execUnprocessed_report {s : State} {f : Frame} {rest : List Frame} {st : Station} {held : Option Nat}
    (head : s.rx.field.ingress = f :: rest) (known : stationAt s.site f.src.toNat = some st)
    (fieldKind : f.kind.toNat < 32) (fits : f.payload.length ≤ 48)
    (nobodys : isUnprocessedRow (classify s.site s.yard f) = true)
    (vehicle : unprocessedVehicle s.yard (classify s.site s.yard f) = held) :
    let v := held.bind (vehOf s.yard)
    let note : List Byte := bytes2 (orZero held) ++ [byte ((v.map fun v => vehStateCode v.state).getD 0), 0, 0] ++
      bytes2 (orZero (v.bind (·.duty))) ++ [2]
    let ends (o : Out) : Prop :=
      exec .unprocessedFieldFrame s = .next { s with rx.field.ingress := rest, out := o }
    (actionFor s.site f.kind.toNat = .pass → ends (offerForwarded s.site f s.out)) ∧
    (actionFor s.site f.kind.toNat = .absorb → ends s.out) ∧
    (actionFor s.site f.kind.toNat = .annotate →
      ends (offerForwarded s.site { f with payload := f.payload ++ note } s.out)) := by
  intro v note ends
  refine ⟨fun action => ?_, fun action => ?_, fun action => ?_⟩
  · exact execUnprocessed_ends head nobodys fun n _ _ _ => forward_pass (d := s.desk) known fieldKind action n
  · exact execUnprocessed_ends head nobodys fun n _ _ _ => forward_absorb (d := s.desk) known fieldKind action n
  · refine execUnprocessed_ends head nobodys fun n fleet direction disposition => ?_
    have notes : annotation s.yard n = note := by
      rw [annotation, fleet, direction, disposition, vehicle]
      rfl
    rw [← notes]
    exact forward_annotate (d := s.desk) known fieldKind action fits n

/-- Settles O41: the classification by source and role, and the forwarding by the action of the frame's kind. -/
theorem unprocessedFieldFrame : Obligations.UnprocessedFieldFrame := by
  refine ⟨classify_other_iff, fun s f rest head other => ?frames, fun s f rest st n code held report => ?reports,
    fun f n d => ?forwards, fun k f o => ⟨offerForwarded_free, offerForwarded_full⟩⟩
  case frames =>
    intro ends
    have nobodys : isUnprocessedRow (classify s.site s.yard f) = true := by rw [other]; rfl
    have finish : ∀ {o : Out}, (∀ n : Note, n = .bare .unprocessed → forward f n s.desk = { s.desk with out := o }) →
        ends o := fun {o} forwards => execUnprocessed_ends head nobodys fun n fleet direction disposition =>
      forwards n (by rw [other] at fleet; cases n; simp_all [Note.bare, unprocessedVehicle])
    refine ⟨fun strange => finish fun n _ => forward_unknown (d := s.desk) strange n, fun st known fieldKind =>
      ⟨fun action => finish fun n _ => forward_pass (d := s.desk) known fieldKind action n,
        fun action => finish fun n _ => forward_absorb (d := s.desk) known fieldKind action n,
        fun action fits => finish fun n bare => ?_,
        fun action long => finish fun n _ => forward_annotate_long (d := s.desk) known fieldKind action long n⟩⟩
    refine (forward_annotate (d := s.desk) known fieldKind action fits n).trans ?_
    rw [bare, annotation_bare]
    rfl
  case reports =>
    obtain ⟨i, h, noCode, holds⟩ | ⟨l, h, noCode, holds⟩ := report
    · refine execUnprocessed_report h.head h.station (by rw [h.kind]; decide) (by rw [h.length]; decide) ?_ ?_
      · rw [h.classify]
        simpa [isUnprocessedRow] using noCode
      · rw [h.classify, unprocessedVehicle, h.loaded]
        exact holds
    · refine execUnprocessed_report h.head h.station (by rw [h.kind]; decide) (by rw [h.length]; decide) ?_ ?_
      · rw [h.classify]
        simpa [isUnprocessedRow] using noCode
      · rw [h.classify, unprocessedVehicle, h.loaded]
        exact holds
  case forwards =>
    intro known action offered v
    have source : known → ∃ st, stationAt d.site f.src.toNat = some st := fun h => Option.ne_none_iff_exists'.mp h.1
    refine ⟨fun strange => forward_unknown (Classical.or_iff_not_imp_left.mpr fun h => ?_) n,
      fun h pass => ?_, fun h absorb => ?_, fun h annotate long => ?_,
      fun code target did h annotate fits directed disposed => ?_⟩
    · exact Nat.not_lt.mp fun small => strange ⟨h, small⟩
    · obtain ⟨st, station⟩ := source h
      exact forward_pass station h.2 pass n
    · obtain ⟨st, station⟩ := source h
      exact forward_absorb station h.2 absorb n
    · obtain ⟨st, station⟩ := source h
      exact forward_annotate_long station h.2 annotate long n
    · obtain ⟨st, station⟩ := source h
      intro note
      obtain ⟨codes, targets⟩ := annotated_direction directed
      have notes : annotation d.yard n = note := by
        rw [annotation_eq_sent]
        simp only [codes, targets, disposition_code disposed]
        rfl
      rw [← notes]
      exact forward_annotate station h.2 annotate fits n

end Sys2Proof.Machine

/-! Office frames to the field, the yields they cause, and the lengths of the commands. -/

namespace Sys2Proof.Machine

/-! ## Yields -/

section Yields

variable {k : Site} {n : Nat} {y : Yard}

theorem yieldIsland_manual {i : Island} (found : tget y.islands n = some i) (manual : i.state = .manual) :
    yieldIsland k n y = y := by
  rw [yieldIsland, found]
  exact if_pos manual

theorem yieldIsland_free {i : Island} (found : tget y.islands n = some i) (auto : i.state ≠ .manual)
    (free : i.vehicle = none) : yieldIsland k n y = updIsland n (freeIsland .manual) y := by
  rw [yieldIsland, found]
  dsimp only
  rw [if_neg auto, free]

theorem yieldIsland_held {i : Island} {g : Nat} (found : tget y.islands n = some i) (auto : i.state ≠ .manual)
    (holds : i.vehicle = some g) :
    yieldIsland k n y = (route k i.entry.sign g (report (updService g
      (fun v => { v with level := none, fuelSkipped := true }) (updIsland n (freeIsland .manual) y)))).1 := by
  have work : Work y (updService g (fun v => { v with level := none, fuelSkipped := true })
      (updIsland n (freeIsland .manual) y)) := (Work.refl _).updIsland.updService
  rw [yieldIsland, found]
  dsimp only
  rw [if_neg auto, holds, ← leaveIsland_of_work work found]

theorem yieldWash_manual {l : WashLane} (found : tget y.washLanes n = some l) (manual : l.state = .manual) :
    yieldWash k n y = y := by
  rw [yieldWash, found]
  exact if_pos manual

theorem yieldWash_free {l : WashLane} (found : tget y.washLanes n = some l) (auto : l.state ≠ .manual)
    (free : l.vehicle = none) : yieldWash k n y = updWash n (freeWash .manual) y := by
  rw [yieldWash, found]
  dsimp only
  rw [if_neg auto, free]

theorem yieldWash_held {l : WashLane} {g : Nat} (found : tget y.washLanes n = some l) (auto : l.state ≠ .manual)
    (holds : l.vehicle = some g) :
    yieldWash k n y =
      (route k l.entry.sign g (report (markWashIncomplete g (updWash n (freeWash .manual) y)))).1 := by
  have work : Work y (markWashIncomplete g (updWash n (freeWash .manual) y)) :=
    (Work.refl _).updWash.markWashIncomplete g
  rw [yieldWash, found]
  dsimp only
  rw [if_neg auto, holds, ← leaveWash_of_work work found]

/-- What a yield removes of the part's own frames, and what the freed slots take (R38). -/
theorem dropOwn_eq (k : Site) (lines : List BoardLine) (a : Nat) (o : Out) :
    dropOwn k lines a o = releaseHeld k lines 16
      { o with
        fieldQ := o.fieldQ.filter fun i => ¬(i.own = true ∧ i.frame.dest.toNat = a)
        held := o.held.filter fun h => h.frame.dest.toNat ≠ a } := by
  have waiting : (o.fieldQ.filter fun i => !(i.own && i.frame.dest.toNat == a)) =
      o.fieldQ.filter fun i => ¬(i.own = true ∧ i.frame.dest.toNat = a) :=
    List.filter_congr fun i _ => by by_cases own : i.own <;> by_cases mine : i.frame.dest.toNat = a <;> simp [own, mine]
  have held : (o.held.filter fun h => h.frame.dest.toNat != a) = o.held.filter fun h => h.frame.dest.toNat ≠ a :=
    List.filter_congr fun h _ => by by_cases mine : h.frame.dest.toNat = a <;> simp [mine]
  rw [dropOwn, waiting, held]
  rfl

end Yields

/-! ## An office frame to the field -/

section OfficeToField

variable {s : State} {f : Frame} {rest : List Frame}

theorem execOfficeFrame_eq (head : s.rx.office.ingress = f :: rest) (other : f.dest.toNat ≠ ownAddress s.site) :
    exec .officeFrameToField s = next { s with rx.office.ingress := rest } (officeToField f s.desk) := by
  show execOfficeFrameToField s = _
  rw [execOfficeFrameToField, head]
  exact if_neg (by simpa [toPart] using other)

theorem officeToField_unknown {d : Desk} (unknown : stationAt d.site f.dest.toNat = none) :
    officeToField f d = { d with out := offerToField d.site f d.out } := by
  rw [officeToField, unknown]

theorem officeToField_free {d : Desk} {st : Station} (found : stationAt d.site f.dest.toNat = some st)
    (free : controllable st.entry.role = false ∨ st.manual = true) :
    officeToField f d = { d with out := offerToField d.site f d.out } := by
  rw [officeToField, found]
  exact if_neg (by obtain h | h := free <;> simp [h])

/-- To a driven station in AUTO the frame goes by the station's policy (R37). -/
theorem officeToField_guards {d : Desk} {st : Station} (found : stationAt d.site f.dest.toNat = some st)
    (driven : controllable st.entry.role = true) (auto : st.manual = false) (policy : st.entry.policy = .guards) :
    officeToField f d = notify .controlConflict (some (.station st.entry.address)) d := by
  rw [officeToField, found]
  dsimp only
  rw [if_pos (by simp [driven, auto]), policy]

theorem officeToField_yields {d : Desk} {st : Station} (found : stationAt d.site f.dest.toNat = some st)
    (driven : controllable st.entry.role = true) (auto : st.manual = false) (policy : st.entry.policy = .yields) :
    officeToField f d = yieldStation f st d := by
  rw [officeToField, found]
  dsimp only
  rw [if_pos (by simp [driven, auto]), policy]

/-- A yield by its steps, when what it frees and what its owner releases are known (R38). -/
theorem yieldStation_of {d : Desk} {st : Station} {k : Site} {freed : Out} {yielded : Yard}
    (mode : setMode st.entry.address true d.site = k) (frees : dropOwn k d.yard.callList st.entry.address d.out = freed)
    (yields : yieldRole k st.entry.role d.yard = yielded) :
    let e := flush { out := freed, site := k, yard := yielded }
    yieldStation f st d = settle { e with
      out := offerNotice k .stationYielded none (some (.station st.entry.address)) none (offerToField k f e.out) } := by
  subst mode frees yields
  rfl

theorem offerToField_room {k : Site} {o : Out} (none_held : o.held = []) (room : o.fieldQ.length ≤ 12) :
    offerToField k f o = { o with fieldQ := o.fieldQ ++ [{ frame := f, own := false }] } :=
  if_pos ⟨none_held, Nat.add_le_add_right room 4⟩

theorem offerToField_full {k : Site} {o : Out} (full : o.held ≠ [] ∨ 12 < o.fieldQ.length) :
    offerToField k f o = offerNotice k .egressFull none (some (.port .field none)) none o := by
  refine if_neg fun ⟨none_held, room⟩ => ?_
  obtain held | long := full
  · exact held none_held
  · exact absurd (show o.fieldQ.length + 4 ≤ 16 from room) (by omega)

end OfficeToField

/-! ## The office rows by kind and length -/

/-- A row of the office port that takes frames of one kind alone. -/
def TakesKind (c : Instr) (kind : Byte) : Prop :=
  ∃ wants lengthOk h, (∀ s, exec c s = officeStep wants lengthOk h s) ∧ ∀ f, wants f = true → f.kind = kind

/-- A row that takes every frame of its kind whose length is not listed, to refuse it. -/
def RefusesLength (c : Instr) (kind : Byte) (lengths : List Nat) : Prop :=
  ∃ wants lengthOk h, (∀ s, exec c s = officeStep wants lengthOk h s) ∧ (∀ f, wants f = true → f.kind = kind) ∧
    ∀ f, f.kind = kind → f.payload.length ∉ lengths → wants f = true ∧ lengthOk f.payload.length = false

section OfficeRows

variable {c : Instr} {kind : Byte} {lengths : List Nat} {lengthOk : Nat → Bool} {h : Handler}

theorem RefusesLength.takesKind (row : RefusesLength c kind lengths) : TakesKind c kind := by
  obtain ⟨wants, lengthOk, h, runs, kinds, _⟩ := row
  exact ⟨wants, lengthOk, h, runs, kinds⟩

theorem RefusesLength.ofKind (runs : ∀ s, exec c s = officeStep (ofKind kind) lengthOk h s)
    (bad : ∀ n, n ∉ lengths → lengthOk n = false) : RefusesLength c kind lengths :=
  ⟨_, _, _, runs, fun _ wanted => eq_of_beq wanted, fun _ is wrong => ⟨beq_iff_eq.mpr is, bad _ wrong⟩⟩

theorem RefusesLength.ofCode {i len code last : Nat}
    (runs : ∀ s, exec c s = officeStep (ofCode kind i len code last) (· == len) h s) : RefusesLength c kind [len] :=
  ⟨_, _, _, runs, fun _ wanted => (ofCode_iff.mp wanted).1, fun f is wrong =>
    have other : f.payload.length ≠ len := fun e => wrong (by simp [e])
    ⟨ofCode_iff.mpr ⟨is, .inl other⟩, beq_eq_false_iff_ne.mpr other⟩⟩

theorem TakesKind.ofQuery {variant : Nat} (runs : ∀ s, exec c s = officeStep (isQuery variant) lengthOk h s) :
    TakesKind c kindQuery :=
  ⟨_, _, _, runs, fun f wanted => by
    simp only [isQuery, Bool.and_eq_true, beq_iff_eq] at wanted
    exact wanted.1⟩

theorem length_of_beq {len : Nat} : ∀ n, n ∉ [len] → (n == len) = false := fun n other =>
  beq_eq_false_iff_ne.mpr fun e => other (by simp [e])

/-- A census has a length R164 lists when it holds up to sixteen entries of three bytes. -/
theorem length_of_census : ∀ n, n ∉ (List.range 17).map (fun n => 2 + 3 * n) → censusLength n = false := fun n other => by
  rw [Bool.eq_false_iff, ne_eq, censusLength_iff]
  rintro ⟨two, most, whole⟩
  exact other (List.mem_map.mpr ⟨(n - 2) / 3, List.mem_range.mpr (by omega), by omega⟩)

variable {s : State} {f : Frame} {rest : List Frame} {p : List Byte}

theorem RefusesLength.answer (row : RefusesLength c kind lengths) (h : CommandHead s f rest kind p)
    (wrong : p.length ∉ lengths) : exec c s = .next (afterRefusal s f rest .badLength) := by
  obtain ⟨wants, lengthOk, handler, runs, _, refuses⟩ := row
  obtain ⟨wanted, bad⟩ := refuses f h.kind (by rw [h.payload]; exact wrong)
  rw [h.payload] at bad
  exact (runs s).trans (officeStep_badLength h wanted bad)

/-- With no free slot, or with no command of its kind at the head, a row changes nothing (R29, log 2). -/
theorem TakesKind.leaves (row : TakesKind c kind)
    (idle : 16 ≤ s.out.officeQ.length + s.out.reserved ∨
      ¬(∃ f rest, s.rx.office.ingress = f :: rest ∧ f.dest.toNat = ownAddress s.site ∧ f.kind = kind)) :
    exec c s = .next s := by
  obtain ⟨wants, lengthOk, handler, runs, kinds⟩ := row
  refine (runs s).trans (officeStep_leave (idle.imp (fun full => ?_) fun absent f rest head toUs => ?_))
  · exact Nat.sub_eq_zero_of_le full
  · rw [Bool.eq_false_iff]
    exact fun wanted => absent ⟨f, rest, head, eq_of_beq toUs, kinds f wanted⟩

end OfficeRows

/-- The rows of the office port with the lengths R164 lists for them. -/
def officeRows : List (Instr × Byte × List Nat) :=
  [(.tableOpen, 0x80, [3]), (.tableRead, 0x82, [4]), (.commit, 0x83, [0]), (.bankActivateAtRollover, 0x84, [1]),
   (.bankActivateNow, 0x84, [1]), (.bankActivateCancel, 0x84, [1]), (.time, 0x85, [5]),
   (.census, 0x86, (List.range 17).map fun n => 2 + 3 * n), (.laneSetOpen, 0x87, [2]), (.laneSetClose, 0x87, [2]),
   (.laneSetDeclareEmpty, 0x87, [2]), (.vehicleSetOutOfService, 0x88, [3]), (.vehicleSetClearOutOfService, 0x88, [3]),
   (.vehicleSetMarkUnlocated, 0x88, [3]), (.vehicleSetSendToFuel, 0x88, [3]), (.vehicleSetSendToWash, 0x88, [3]),
   (.dutyCancel, 0x89, [2]), (.dutyCall, 0x8A, [4]), (.stationResume, 0x8B, [1]), (.yardClear, 0x8D, [0])]

/-- The rows whose commands have no one length. -/
def variableRows : List (Instr × Byte) :=
  [(.tableData, 0x81), (.queryVehicle, 0x8C), (.queryLane, 0x8C), (.queryDuty, 0x8C), (.queryIsland, 0x8C),
   (.queryWash, 0x8C), (.queryQueues, 0x8C), (.queryCalls, 0x8C), (.queryStatus, 0x8C)]

theorem officeRows_refuse : ∀ r ∈ officeRows, RefusesLength r.1 r.2.1 r.2.2 := by
  have one {c : Instr} {kind : Byte} {len : Nat} {h : Handler}
      (runs : ∀ s, exec c s = officeStep (ofKind kind) (· == len) h s) : RefusesLength c kind [len] :=
    .ofKind runs length_of_beq
  simp only [officeRows, List.forall_mem_cons]
  exact ⟨one fun _ => rfl, one fun _ => rfl, one fun _ => rfl, .ofCode fun _ => rfl, .ofCode fun _ => rfl,
    .ofCode fun _ => rfl, one fun _ => rfl, .ofKind (fun _ => rfl) length_of_census, .ofCode fun _ => rfl,
    .ofCode fun _ => rfl, .ofCode fun _ => rfl, .ofCode fun _ => rfl, .ofCode fun _ => rfl, .ofCode fun _ => rfl,
    .ofCode fun _ => rfl, .ofCode fun _ => rfl, one fun _ => rfl, one fun _ => rfl, one fun _ => rfl,
    one fun _ => rfl, nofun⟩

theorem variableRows_take : ∀ r ∈ variableRows, TakesKind r.1 r.2 := by
  simp only [variableRows, List.forall_mem_cons]
  exact ⟨⟨_, _, _, fun _ => rfl, fun _ wanted => eq_of_beq wanted⟩, .ofQuery fun _ => rfl, .ofQuery fun _ => rfl,
    .ofQuery fun _ => rfl, .ofQuery fun _ => rfl, .ofQuery fun _ => rfl, .ofQuery fun _ => rfl, .ofQuery fun _ => rfl,
    .ofQuery fun _ => rfl, nofun⟩

theorem replyLayout : ReplyLayout := by
  intro result code listed
  have codes : resultCode result = code := by
    simp only [List.mem_cons, Prod.mk.injEq, List.not_mem_nil, or_false] at listed
    obtain ⟨rfl, rfl⟩ | ⟨rfl, rfl⟩ | ⟨rfl, rfl⟩ | ⟨rfl, rfl⟩ | ⟨rfl, rfl⟩ | ⟨rfl, rfl⟩ | ⟨rfl, rfl⟩ | ⟨rfl, rfl⟩ |
      ⟨rfl, rfl⟩ | ⟨rfl, rfl⟩ | ⟨rfl, rfl⟩ := listed <;> rfl
  subst codes
  exact ⟨fun _ _ _ _ => rfl, fun _ _ => rfl, fun _ _ _ => rfl⟩

/-- Settles O42: the office frame by its station, the yields by what they release, and the commands by kind and length. -/
theorem officeFrames : Obligations.OfficeFrames := by
  refine ⟨fun s f rest head other => ?field, fun k n y i found => ?islands, fun k n y l found => ?washes,
    fun s f rest kind p h noCommand => ?badKind, fun k f o => ⟨offerToField_room, offerToField_full⟩, ?lengths, replyLayout⟩
  case field =>
    intro ends
    have run := execOfficeFrame_eq head other
    refine ⟨fun unknown => run.trans ?_, fun st found => ⟨fun free => run.trans ?_, fun driven auto policy => run.trans ?_,
      fun driven auto policy => ?_⟩⟩
    · rw [officeToField_unknown unknown]
      rfl
    · rw [officeToField_free found free]
      rfl
    · rw [officeToField_guards found driven auto policy]
      rfl
    · intro a k freed yielded d offered
      refine run.trans ?_
      have yields : yieldRole k st.entry.role s.yard = yielded := rfl
      have frees : dropOwn k s.yard.callList a s.out = freed := dropOwn_eq ..
      rw [officeToField_yields found driven auto policy, yieldStation_of (k := k) rfl frees yields]
      rfl
  case islands =>
    intro z
    exact ⟨yieldIsland_manual found, yieldIsland_free found, fun g => yieldIsland_held found⟩
  case washes =>
    intro z
    exact ⟨yieldWash_manual found, yieldWash_free found, fun g => yieldWash_held found⟩
  case badKind =>
    refine officeStep_answer h ?_ rfl rfl
    rw [h.kind, isCommandKind]
    obtain low | high := noCommand
    · simp [Nat.not_le.mpr low]
    · simp [Nat.not_le.mpr high]
  case lengths =>
    intro rows variable_
    refine ⟨fun s f rest p c kind lengths row h wrong => (officeRows_refuse _ row).answer h wrong, fun s f rest h => ?_,
      fun s c kind row idle => ?_, fun s full => officeStep_leave (.inl (Nat.sub_eq_zero_of_le full))⟩
    · exact officeStep_badLength h h.ofKind rfl
    · obtain row | row := List.mem_append.mp row
      · obtain ⟨r, mem, e⟩ := List.mem_map.mp row
        obtain ⟨rfl, rfl⟩ := Prod.mk.inj e
        exact (officeRows_refuse r mem).takesKind.leaves idle
      · exact (variableRows_take _ row).leaves idle

end Sys2Proof.Machine

/-! The tables as the office reads them: their shapes and codes, the cursor, the entries of a reply, and the commit. -/

namespace Sys2Proof.Machine

/-! ## Shapes and codes -/

/-- The places of a decoded field whose values a list gives. -/
theorem some_iff_of_listed {α : Type} {g : Nat → Option α} {l : List (Nat × α)}
    (listed : ∀ p ∈ l, g p.1 = some p.2) (others : ∀ n v, g n = some v → (n, v) ∈ l) (n : Nat) (v : α) :
    g n = some v ↔ (n, v) ∈ l :=
  ⟨others n v, fun mem => listed _ mem⟩

theorem roleOf_listed (n : Nat) (r : Role) (h : roleOf n = some r) : (n, r) ∈
    [(1, .gateIn), (2, .gateOut), (3, .yard), (4, .loops), (5, .sign), (6, .board), (0x11, .island 1), (0x12, .island 2),
     (0x13, .island 3), (0x14, .island 4), (0x21, .wash 1), (0x22, .wash 2)] := by
  unfold roleOf at h
  split at h <;> simp_all

theorem policyOf_listed (n : Nat) (c : Policy) (h : policyOf n = some c) : (n, c) ∈ [(1, .yields), (2, .guards)] := by
  unfold policyOf at h
  split at h <;> simp_all

theorem actionOf_listed (n : Nat) (a : Action) (h : actionOf n = some a) :
    (n, a) ∈ [(1, .pass), (2, .absorb), (3, .annotate)] := by
  unfold actionOf at h
  split at h <;> simp_all

theorem debounceOf_listed (n : Nat) (b : Debounce) (h : debounceOf n = some b) :
    (n, b) ∈ [(0, .none), (1, .ms200), (2, .ms500), (3, .ms1000)] := by
  unfold debounceOf at h
  split at h <;> simp_all

theorem stageKindOf_listed (n : Nat) (g : StageKind) (h : stageKindOf n = some g) : (n, g) ∈
    [(1, .preRinse), (2, .chemical), (3, .brush), (4, .rinse), (5, .dry), (6, .underbody)] := by
  unfold stageKindOf at h
  split at h <;> simp_all

theorem flagOf_listed (n : Nat) (b : Bool) (h : flagOf n = some b) : (n, b) ∈ [(0, false), (1, true)] := by
  unfold flagOf at h
  split at h <;> simp_all

theorem tableOf_inside {c : Nat} {t : TableId} (h : tableOf c = some t) : 1 ≤ c ∧ c ≤ 12 := by
  unfold tableOf at h
  split at h <;> simp_all

theorem tableOf_outside {c : Nat} (outside : c < 1 ∨ 12 < c) : tableOf c = none := by
  cases read : tableOf c with
  | none => rfl
  | some t =>
    have inside := tableOf_inside read
    omega

theorem tableShapes : TableShapes := by
  refine ⟨fun c t first last size mem => ?tables, fun c => tableOf_outside, fun n lo hi standard mem => ?settings,
    fun _ _ => rfl, some_iff_of_listed (by decide) roleOf_listed, some_iff_of_listed (by decide) policyOf_listed,
    some_iff_of_listed (by decide) actionOf_listed, some_iff_of_listed (by decide) debounceOf_listed,
    some_iff_of_listed (by decide) stageKindOf_listed, some_iff_of_listed (by decide) flagOf_listed⟩
  case tables =>
    exact (by decide : ∀ r : Nat × TableId × Nat × Nat × Nat, r ∈
      [(1, TableId.roster, 0, 256, 6), (2, .classes, 0, 8, 8), (3, .lanes, 1, 25, 8), (4, .loopMap, 1, 49, 6),
       (5, .stations, 0, 64, 5), (6, .forwarding, 0, 32, 2), (7, .islands, 1, 5, 5), (8, .washLanes, 1, 3, 6),
       (9, .programs, 1, 9, 26), (10, .settings, 0, 23, 3), (11, .bankA, 0, 192, 10), (12, .bankB, 0, 192, 10)] →
      tableOf r.1 = some r.2.1 ∧ firstIndex r.2.1 = r.2.2.1 ∧ endIndex r.2.1 = r.2.2.2.1 ∧
        entrySize r.2.1 = r.2.2.2.2) (c, t, first, last, size) mem
  case settings =>
    exact (by decide : ∀ r : Nat × Nat × Nat × Nat, r ∈
      [(0, 241, 254, 250), (1, 0, 50, 15), (2, 0, 4095, 600), (3, 0, 255, 16), (4, 0, 255, 8), (5, 0, 255, 0),
       (6, 0, 239, 0), (7, 60, 3600, 600), (8, 1, 30, 5), (9, 2, 30, 10), (10, 1, 30, 10), (11, 5, 120, 30),
       (12, 1, 15, 5), (13, 1, 10, 3), (14, 10, 255, 60), (15, 1, 15, 5), (16, 10, 120, 30), (17, 1, 60, 10),
       (18, 0, 30, 5), (19, 1, 12, 12), (20, 30, 600, 120), (21, 1, 5, 1), (22, 1, 10, 2)] →
      settingRange r.1 = (r.2.1, r.2.2.1) ∧ settingDefault r.1 = r.2.2.2) (n, lo, hi, standard) mem

theorem sentCodes : SentCodes := by
  refine ⟨by decide, by decide, by decide, by decide, by decide, by decide, by decide, fun n => ⟨rfl, rfl⟩, rfl, rfl, rfl, rfl,
    rfl, rfl, rfl, rfl, rfl, by decide⟩

/-! ## Reading and writing a place -/

theorem tget_eq_head {α : Type} (t : Table α) (n : Nat) :
    tget t n = (t.filter fun p => p.1 = n).head?.map (·.2) := by
  induction t with
  | nil => rfl
  | cons p t ih =>
    obtain ⟨j, w⟩ := p
    by_cases here : j = n <;> simp [tget_cons, here, ih]

theorem tget_tset {α : Type} (t : Table α) (n m : Nat) (v : α) :
    tget (tset t n v) m = if m = n then some v else tget t m := by
  by_cases same : m = n
  · rw [if_pos same, same, tget_tset_same]
  · rw [if_neg same, tget_tset_ne _ _ same]

theorem tableOperations : TableOperations := fun α t n v f =>
  ⟨tget_eq_head t n, rfl, fun m => tget_tset t n m v, tget_terase t n, fun m => (tget_tmod t n m f).trans (by split <;> simp [*])⟩

/-! ## The cursor -/

section Cursor

variable {s : State} {f : Frame} {rest : List Frame} {p : List Byte} {t : TableId}

theorem indexIn_iff (i : Nat) : indexIn t i = true ↔ firstIndex t ≤ i ∧ i ≤ endIndex t := by simp [indexIn]

theorem indexIn_outside {i : Nat} (outside : i < firstIndex t ∨ endIndex t < i) : indexIn t i = false :=
  Bool.eq_false_iff.mpr fun inside => by
    obtain ⟨low, high⟩ := (indexIn_iff i).mp inside
    omega

/-- Settles O43: the shapes by their lists, the places by their rules, and the command by its table and index. -/
theorem tableOpen : Obligations.TableOpen := by
  refine ⟨tableShapes, tableOperations, fun s f rest p h three => ?_⟩
  have answer {d : Desk} {r : Result} (handles : openHandler p f (reservedDesk s) = (d, some (r, []))) :
      exec .tableOpen s = .next (afterCommand s f rest d r []) :=
    officeStep_answer h h.ofKind (beq_iff_eq.mpr three) handles
  refine ⟨fun unknown => answer ?_, fun t known outside => answer ?_, fun t known low high => answer ?_⟩
  · rw [openHandler, unknown]
    rfl
  · rw [openHandler, known]
    dsimp only
    rw [if_neg (by simp [indexIn_outside outside])]
    rfl
  · rw [openHandler, known]
    dsimp only
    rw [if_pos ((indexIn_iff _).mpr ⟨low, high⟩)]
    rfl

end Cursor

/-! ## The entries of a reply -/

section Entries

theorem sent_cons (w v : Nat) (l : List (Nat × Nat)) : sent ((w, v) :: l) = sent [(w, v)] ++ sent l :=
  sent_append [(w, v)] l

/-- Values of one byte each are sent as they are. -/
theorem sent_bytes {α : Type} (l : List α) (g : α → Byte) : sent (l.map fun b => (1, (g b).toNat)) = l.map g := by
  induction l with
  | nil => rfl
  | cons a l ih => simp [ih]

theorem flagByte_eq (b : Bool) : flagByte b = byte (if b then 1 else 0) := by cases b <;> rfl

theorem maskByte_eq (m : Byte) : BitVec.ofNat 8 m.toNat = m := byte_toNat m

/-- The fields of an empty entry: a header 0 and free values (log 17). -/
theorem emptyBytes_eq_sent (n j size : Nat) :
    emptyBytes n j size =
      sent ((1, 0) :: (List.range (size - 1)).map fun b => (1, (Config.openByte n (.emptyEntry j b)).toNat)) := by
  rw [sent_one, sent_bytes]
  rfl

theorem dutyEntryBytes_eq_sent (e : DutyEntry) : dutyEntryBytes e = sent (dutyFields e) := by
  simp [dutyEntryBytes, dutyFields, flagByte_eq, orZero]

/-- A place's bytes are its fields, when a full place's are and an empty one has the empty fields. -/
theorem placeBytes_sent {α : Type} {n j size : Nat} {g : α → List Byte} {place : Option α} {fields : List (Nat × Nat)}
    (absent : place = none → fields =
      (1, 0) :: (List.range (size - 1)).map fun b => (1, (Config.openByte n (.emptyEntry j b)).toNat))
    (present : ∀ a, place = some a → g a = sent fields) : placeBytes n j size g place = sent fields := by
  cases place with
  | none => rw [absent rfl, ← emptyBytes_eq_sent]; rfl
  | some a => exact present a rfl

theorem lowBit_eq (b : Byte) : b &&& 1#8 = byte (b.toNat % 2) := by
  apply BitVec.eq_of_toNat_eq
  simp [byte, Nat.and_one_is_mod]
  omega

theorem entryLayouts : EntryLayouts := by
  intro n j i d free empty flag gives
  refine ⟨placeBytes_sent (fun e => by rw [e]) fun v e => ?roster, placeBytes_sent (fun e => by rw [e]) fun v e => ?classes,
    placeBytes_sent (fun e => by rw [e]) fun v e => ?lanes, placeBytes_sent (fun e => by rw [e]) fun v e => ?loopMap,
    placeBytes_sent (fun e => by rw [e]) fun v e => ?stations, placeBytes_sent (fun e => by rw [e]) fun v e => ?forwarding,
    placeBytes_sent (fun e => by rw [e]) fun v e => ?islands, placeBytes_sent (fun e => by rw [e]) fun v e => ?washLanes,
    placeBytes_sent (fun e => by rw [e]) fun v e => ?programs, ?settings,
    placeBytes_sent (fun e => by rw [e]) fun v e => ?bankA, placeBytes_sent (fun e => by rw [e]) fun v e => ?bankB⟩
  case roster => simp [e, rosterBytes, full, flagByte_eq, flag, byte]
  case classes => simp [e, classBytes, full, byte]
  case lanes => simp [e, laneBytes, full, byte, orZero]
  case loopMap => simp [e, loopBytes, full, byte]
  case stations => simp [e, stationBytes, full, byte, orZero]
  case forwarding => simp [e, full, byte]
  case islands => simp [e, islandEntryBytes, full, flagByte_eq, flag, byte, orZero]
  case washLanes => simp [e, washEntryBytes, full, flagByte_eq, flag, byte, orZero]
  case programs =>
    rw [e]
    refine Eq.trans ?_ (sent_append _ _).symm
    rw [sent_flatMap]
    show [1, byte v.length] ++ (List.range 6).flatMap (stageBytes v) = _
    have length_ : sent [(1, 1), (1, v.length)] = [1, byte v.length] := by simp [byte]
    rw [length_]
    refine congrArg ([1, byte v.length] ++ ·) (flatMap_congr_mem fun g _ => ?_)
    cases stage : v[g]? with
    | none => simp [stageBytes, stage, sent_zeros]
    | some s => simp [stageBytes, stage, flagByte_eq, flag]
  case settings =>
    show settingBytes n j i (tget d.site.settings i) = _
    cases tget d.site.settings i with
    | none => simp [settingBytes, lowBit_eq]
    | some v => simp [settingBytes, full, byte]
  case bankA => simp [e, full, dutyEntryBytes_eq_sent, byte]
  case bankB => simp [e, full, dutyEntryBytes_eq_sent, byte]

/-- Settles O45: the command by its table, its index and its count; the entries place by place. -/
theorem tableRead : Obligations.TableRead := by
  refine ⟨fun s f rest p h four => ?_, entryLayouts, sentCodes⟩
  have answer {d : Desk} {r : Result} {data : List Byte} (handles : readHandler p f (reservedDesk s) = (d, some (r, data))) :
      exec .tableRead s = .next (afterCommand s f rest d r data) :=
    officeStep_answer h h.ofKind (beq_iff_eq.mpr four) handles
  refine ⟨fun unknown => answer ?_, fun t known => ⟨fun outside => answer ?_, fun low high some_asked fits => ?_⟩⟩
  · rw [readHandler, unknown]
    rfl
  · rw [readHandler, known]
    dsimp only
    by_cases index : indexIn t (u16 p 1) = true
    · have count : u8 p 3 < 1 ∨ readCap t < u8 p 3 := by
        obtain ⟨low, high⟩ := (indexIn_iff _).mp index
        obtain h | h | h | h := outside
        · omega
        · omega
        · exact .inl h
        · exact .inr h
      rw [if_neg (by simp [index]), if_pos count]
      rfl
    · rw [if_pos (by simpa using index)]
      rfl
  · intro m
    refine answer ?_
    rw [readHandler, known]
    dsimp only
    rw [if_neg (by simp [(indexIn_iff _).mpr ⟨low, high⟩]),
      if_neg fun bad => bad.elim (Nat.not_lt.mpr some_asked) (Nat.not_lt.mpr fits)]
    rfl

end Entries

/-! ## The commit -/

/-- Settles O46: the commit by whether one is in flight, and its end by the time since it began. -/
theorem commitCycle : Obligations.CommitCycle := by
  refine ⟨fun s f rest h => ⟨fun idle => ?_, fun busy => ?_⟩, fun s c inFlight => ⟨fun early => ?_, fun late => ?_⟩⟩
  · refine (officeStep_take h h.ofKind).trans ?_
    rw [takeCommand, h.payload]
    exact congrArg (fun r => next { s with rx.office.ingress := rest } (reply f r.2 r.1))
      (if_neg (by simp [idle]) : commitHandler [] f (reservedDesk s) = _)
  · refine officeStep_answer h h.ofKind rfl ?_
    exact if_pos (Option.isSome_iff_ne_none.mpr busy)
  · show execCommitComplete s = _
    rw [execCommitComplete, inFlight]
    dsimp only
    exact if_neg (by rw [elapsed_iff]; exact Nat.not_le.mpr early)
  · show execCommitTimeout s = _
    rw [execCommitTimeout, inFlight]
    dsimp only
    exact if_pos ((elapsed_iff ..).mpr late)

end Sys2Proof.Machine

/-! What one entry of the roster or of the class table writes. -/

namespace Sys2Proof.Machine

/-! ## The tests shared by the tables -/

section Tests

theorem clampTo_zero (hi n : Nat) : clampTo 0 hi n = min hi n := by
  rw [clampTo_eq (Nat.zero_le hi)]
  exact Nat.max_eq_right (Nat.zero_le _)

theorem outOf_iff {lo hi n : Nat} (range : lo ≤ hi) : outOf lo hi n = true ↔ n < lo ∨ hi < n := by
  simp only [outOf, bne_iff_ne, ne_eq, clampTo_same_iff range]
  omega

theorem outOf_eq {lo hi n : Nat} (range : lo ≤ hi) : outOf lo hi n = decide (n < lo ∨ hi < n) := by
  rw [Bool.eq_iff_iff, outOf_iff range, decide_eq_true_eq]

theorem outOf_zero (hi n : Nat) : outOf 0 hi n = decide (hi < n) := by
  rw [outOf_eq (Nat.zero_le hi)]
  simp

theorem flagOf_high {n : Nat} (high : 1 < n) : flagOf n = none := by
  cases read : flagOf n with
  | none => rfl
  | some b =>
    have listed := flagOf_listed n b read
    simp only [List.mem_cons, Prod.mk.injEq, List.not_mem_nil, or_false] at listed
    omega

theorem flagOf_low {n : Nat} (low : n ≤ 1) : flagOf n = some (decide (n = 1)) := by
  obtain rfl | rfl : n = 0 ∨ n = 1 := by omega
  · rfl
  · rfl

theorem heldElsewhere_iff {α : Type} (t : Table α) (slot : Nat) (p : α → Bool) :
    heldElsewhere t slot p = true ↔ ∃ q ∈ t, q.1 ≠ slot ∧ p q.2 = true := by
  simp [heldElsewhere]

theorem tany_iff {α : Type} (t : Table α) (p : α → Bool) : tany t p = true ↔ ∃ q ∈ t, p q.2 = true := by
  simp [tany]

end Tests

/-! ## Roster -/

section Roster

theorem present_iff (v : Vehicle) : present v = true ↔ v.state ≠ .absent ∧ v.state ≠ .unlocated := by
  simp [present]

variable {n : Nat} {p : List Byte} {d : Desk}

theorem writeRoster_empty (empty : u8 p 0 = 0) (place : tget d.yard.roster n = none) : writeRoster n p d = .wrote d false := by
  rw [writeRoster, if_pos empty, place]

theorem writeRoster_present {v : Vehicle} (empty : u8 p 0 = 0) (place : tget d.yard.roster n = some v)
    (stands : present v = true) : writeRoster n p d = .refused .inUse := by
  rw [writeRoster, if_pos empty, place]
  exact if_pos stands

theorem writeRoster_removes {v : Vehicle} (empty : u8 p 0 = 0) (place : tget d.yard.roster n = some v)
    (gone : ¬present v = true) :
    writeRoster n p d = wroteYard d false (removeVehicle n v.entry.fleet d.yard) := by
  rw [writeRoster, if_pos empty, place]
  exact if_neg gone

/-- A full entry's record. -/
def rosterEntry (p : List Byte) : RosterEntry :=
  { fleet := u16 p 1, cls := u8 p 3, length := max 80 (min 200 (u8 p 4)), outOfService := decide (u8 p 5 = 1) }

/-- A full entry, past the tests that need the flag alone. -/
theorem writeRoster_full (full : u8 p 0 = 1) (flag : u8 p 5 ≤ 1) :
    writeRoster n p d =
      if u16 p 1 < 1 ∨ 65534 < u16 p 1 then .refused .range
      else if (tget d.site.classes (u8 p 3)).isNone then .refused .notFound
      else if heldElsewhere d.yard.roster n fun v => v.entry.fleet == u16 p 1 then .refused .inUse
      else (tget d.yard.roster n).elim
        (wroteYard d (decide (u8 p 4 < 80 ∨ 200 < u8 p 4)) (createVehicle d.site n (rosterEntry p) d.yard))
        fun v =>
          if v.entry.fleet = u16 p 1 then rewriteVehicle v (rosterEntry p) (decide (u8 p 4 < 80 ∨ 200 < u8 p 4)) d
          else if present v then .refused .inUse
          else wroteYard d (decide (u8 p 4 < 80 ∨ 200 < u8 p 4))
            (createVehicle d.site n (rosterEntry p) (removeVehicle n v.entry.fleet d.yard)) := by
  rw [writeRoster, if_neg (by omega), flagOf_low flag]
  simp only [outOf_eq (show 80 ≤ 200 by decide), clampTo_eq (show 80 ≤ 200 by decide)]
  cases tget d.yard.roster n <;> rfl

theorem writeRoster_fits (full : u8 p 0 = 1) (good : ¬(u16 p 1 < 1 ∨ 65534 < u16 p 1 ∨ 1 < u8 p 5))
    (class_ : tget d.site.classes (u8 p 3) ≠ none) (free : ¬∃ q ∈ d.yard.roster, q.1 ≠ n ∧ q.2.entry.fleet = u16 p 1) :
    writeRoster n p d = (tget d.yard.roster n).elim
        (wroteYard d (decide (u8 p 4 < 80 ∨ 200 < u8 p 4)) (createVehicle d.site n (rosterEntry p) d.yard))
        fun v =>
          if v.entry.fleet = u16 p 1 then rewriteVehicle v (rosterEntry p) (decide (u8 p 4 < 80 ∨ 200 < u8 p 4)) d
          else if present v then .refused .inUse
          else wroteYard d (decide (u8 p 4 < 80 ∨ 200 < u8 p 4))
            (createVehicle d.site n (rosterEntry p) (removeVehicle n v.entry.fleet d.yard)) := by
  rw [writeRoster_full full (by omega), if_neg (by omega), if_neg (by simpa using class_),
    if_neg (by simpa only [heldElsewhere_iff, beq_iff_eq] using free)]

theorem rewriteVehicle_held {v : Vehicle} {e : RosterEntry} {clamped : Bool} (stands : present v = true)
    (held : e.cls ≠ v.entry.cls ∨ e.length ≠ v.entry.length ∨
      (v.state = .departing ∧ e.outOfService ≠ v.entry.outOfService)) :
    rewriteVehicle v e clamped d = .refused .inUse := by
  rw [rewriteVehicle, if_pos stands, if_neg]
  rintro ⟨cls, length, service⟩
  obtain h | h | ⟨h, other⟩ := held
  · exact h cls
  · exact h length
  · exact other (service h)

theorem rewriteVehicle_service {v : Vehicle} {e : RosterEntry} {clamped : Bool} (stands : present v = true)
    (open_ : ¬(e.cls ≠ v.entry.cls ∨ e.length ≠ v.entry.length ∨
      (v.state = .departing ∧ e.outOfService ≠ v.entry.outOfService))) :
    rewriteVehicle v e clamped d = wroteYard d clamped (changeService d.site v e.outOfService d.yard) := by
  simp only [not_or, not_and, Classical.not_not] at open_
  rw [rewriteVehicle, if_pos stands, if_pos open_]

/-- The record of a vehicle that is ABSENT or UNLOCATED takes the whole entry. -/
theorem rewriteVehicle_whole {v : Vehicle} {e : RosterEntry} {clamped : Bool} (gone : ¬present v = true) :
    rewriteVehicle v e clamped d =
      let y := updVeh e.fleet (fun v => { v with entry := e }) (changeService d.site v e.outOfService d.yard)
      wroteYard d clamped (if e.cls = v.entry.cls then y else relimit d.site e.fleet y) := by
  rw [rewriteVehicle, if_neg gone]

theorem rosterWrites : RosterWrites := by
  intro n p d run present' removed g e clamped fresh bad elsewhere
  have stands (v : Vehicle) : present v = true ↔ present' v := present_iff v
  refine ⟨fun empty => ?empty, fun full => ?full⟩
  case empty =>
    have runs : run = writeRoster n p d := if_neg (by omega)
    exact ⟨fun place => runs.trans (writeRoster_empty empty place), fun v place =>
      ⟨fun here => runs.trans (writeRoster_present empty place ((stands v).mpr here)), fun gone =>
        runs.trans (writeRoster_removes empty place (mt (stands v).mp gone))⟩⟩
  case full =>
    have runs : run = writeRoster n p d := if_neg (by omega)
    refine ⟨fun isBad => runs.trans ?_, fun good unknown => runs.trans ?_, fun good known taken => runs.trans ?_,
      fun good known free => ?_⟩
    · by_cases flag : 1 < u8 p 5
      · rw [writeRoster, if_neg (by omega), flagOf_high flag]
      · rw [writeRoster_full full (Nat.not_lt.mp flag)]
        exact if_pos (by omega)
    · rw [writeRoster_full full (by omega), if_neg (by omega)]
      exact if_pos (Option.isNone_iff_eq_none.mpr unknown)
    · rw [writeRoster_full full (by omega), if_neg (by omega), if_neg (by simpa using known)]
      exact if_pos (by simpa only [heldElsewhere_iff, beq_iff_eq] using taken)
    · have fits := runs.trans (writeRoster_fits full good known free)
      refine ⟨fun place => fits.trans (by rw [place]; rfl), fun v place => ?_⟩
      intro service held rewritten
      rw [place] at fits
      have same (fleet : v.entry.fleet = g) : run = rewriteVehicle v e clamped d := fits.trans (if_pos fleet)
      have changes (fleet : v.entry.fleet = g) (y : Yard) : changeService d.site v e.outOfService y = service y := by
        rw [changeService, fleet]
        simp only [eq_comm (a := v.entry.outOfService)]
        rfl
      refine ⟨fun here kept => ?_, fun here free => ?_, fun gone fleet cls => ?_, fun gone fleet cls => ?_,
        fun gone fleet => ?_⟩
      · by_cases fleet : v.entry.fleet = g
        · exact (same fleet).trans (rewriteVehicle_held ((stands v).mpr here) (kept.resolve_left (Classical.not_not.mpr fleet)))
        · exact fits.trans ((if_neg fleet).trans (if_pos ((stands v).mpr here)))
      · have fleet : v.entry.fleet = g := Classical.not_not.mp fun h => free (.inl h)
        rw [same fleet, rewriteVehicle_service ((stands v).mpr here) fun h => free (.inr h), changes fleet]
        rfl
      · rw [same fleet, rewriteVehicle_whole (mt (stands v).mp gone)]
        dsimp only
        rw [if_pos cls, changes fleet]
        rfl
      · rw [same fleet, rewriteVehicle_whole (mt (stands v).mp gone)]
        dsimp only
        rw [if_neg cls, changes fleet]
        rfl
      · exact fits.trans ((if_neg fleet).trans (if_neg (mt (stands v).mp gone)))

end Roster

/-! ## Classes -/

section Classes

theorem lowerLevels_eq (k : Site) (c : Nat) (y : Yard) :
    lowerLevels k c y =
      ((y.roster.filter fun q => q.2.entry.cls = c).map (·.2.entry.fleet)).foldl (fun z g => relimit k g z) y := by
  rw [lowerLevels]
  congr 1
  induction y.roster with
  | nil => rfl
  | cons q t ih => by_cases named : q.2.entry.cls = c <;> simp [named, ih]

theorem classWrites : ClassWrites := by
  intro n p d run named e clamped k limit fleets
  have names : tany d.yard.roster (fun v => v.entry.cls == n) = true ↔ named := by
    simpa only [beq_iff_eq] using tany_iff d.yard.roster fun v => v.entry.cls == n
  refine ⟨fun empty taken => ?_, fun empty free => ?_, fun full => ?_⟩
  · refine (if_neg (by omega)).trans ((if_pos empty).trans ?_)
    exact if_pos (names.mpr taken)
  · refine (if_neg (by omega)).trans ((if_pos empty).trans ?_)
    exact if_neg (mt names.mp free)
  · refine (if_neg (by omega)).trans ((if_neg (by omega)).trans ?_)
    have entry : ClassEntry.mk (clampTo 50 900 (u16 p 1)) (clampTo 0 200 (u8 p 3)) (clampTo 0 900 (u16 p 4))
        (clampTo 0 7 (u8 p 6)) (clampTo 1 8 (u8 p 7)) = e := by
      simp only [clampTo_zero, clampTo_eq (show 50 ≤ 900 by decide), clampTo_eq (show 1 ≤ 8 by decide)]
      rfl
    have clamps : (outOf 50 900 (u16 p 1) || outOf 0 200 (u8 p 3) || outOf 0 900 (u16 p 4) || outOf 0 7 (u8 p 6) ||
        outOf 1 8 (u8 p 7)) = clamped := by
      simp only [outOf_zero, outOf_eq (show 50 ≤ 900 by decide), outOf_eq (show 1 ≤ 8 by decide), ← Bool.decide_or,
        or_assoc]
      rfl
    dsimp only
    rw [entry, clamps, lowerLevels_eq]
    rfl

end Classes

end Sys2Proof.Machine

/-! What one entry of the lanes or of the loop map writes. -/

namespace Sys2Proof.Machine

/-! ## Lanes -/

section Lanes

variable {n : Nat} {p : List Byte} {d : Desk}

/-- A full entry's record. -/
def laneEntry (p : List Byte) : LaneEntry :=
  { capacity := max 100 (min 2500 (u16 p 1)), mask := BitVec.ofNat 8 (u8 p 3),
    unknownLength := if u8 p 4 = 0 then 180 else max 80 (min 200 (u8 p 4)),
    entryMouth := u8 p 5, exitMouth := u8 p 6, frontSign := optional (u8 p 7) }

/-- The entry was clamped. -/
def laneClamped (p : List Byte) : Bool :=
  decide (u16 p 1 < 100 ∨ 2500 < u16 p 1 ∨ (u8 p 4 ≠ 0 ∧ (u8 p 4 < 80 ∨ 200 < u8 p 4)))

theorem addsClass_iff (old new : ClassMask) :
    addsClass old new = true ↔ ∃ c, inMask new c = true ∧ inMask old c = false := by
  simp only [addsClass, bne_iff_ne, ne_eq, inMask]
  constructor
  · intro adds
    refine Classical.byContradiction fun none_new => ?_
    refine adds (BitVec.eq_of_getLsbD_eq fun c small => ?_)
    simp only [not_exists, not_and, Bool.not_eq_false] at none_new
    by_cases has : new.getLsbD c = true
    · simp [has, none_new c has]
    · simp [has]
  · rintro ⟨c, has, lacks⟩ same
    have bit : (new &&& ~~~old).getLsbD c = true := by
      have small : c < 8 := BitVec.lt_of_getLsbD has
      rw [BitVec.getLsbD_and, BitVec.getLsbD_not, has, lacks]
      simp [small]
    rw [same] at bit
    simp at bit

/-- The mouths with those of a list reset. -/
def resetIn (l : List Nat) (t : Table Mouth) : Table Mouth :=
  t.map fun q => if q.1 ∈ l then (q.1, resetMouth q.2.entry) else q

theorem resetIn_nil (t : Table Mouth) : resetIn [] t = t := by simp [resetIn]

/-- A mouth reset twice is reset. -/
theorem resetIn_resetIn (l m : List Nat) (t : Table Mouth) : resetIn l (resetIn m t) = resetIn (l ++ m) t := by
  simp only [resetIn, List.map_map, List.mem_append]
  refine List.map_congr_left fun q _ => ?_
  by_cases first : q.1 ∈ l <;> by_cases second : q.1 ∈ m <;> simp [first, second, resetMouth]

theorem resetMouthAt_eq (k : Site) (m : Nat) : resetMouthAt k m = { k with mouths := resetIn [m] k.mouths } := by
  simp [resetMouthAt, resetIn, tmod]

theorem changeMouth_eq (a b : Nat) (k : Site) :
    changeMouth a b k = { k with mouths := resetIn (if a = b then [] else [a, b]) k.mouths } := by
  unfold changeMouth
  split
  · rw [resetIn_nil]
  · rw [resetMouthAt_eq, resetMouthAt_eq]
    dsimp only
    rw [resetIn_resetIn]
    refine congrArg (fun t => { k with mouths := t }) ?_
    simp [resetIn, or_comm]

/-- Both mouths of a lane, reset where the lane changed them (R150). -/
theorem changeMouth_mouths (k : Site) (a b c d : Nat) :
    let changed : List Nat := (if a = b then [] else [a, b]) ++ (if c = d then [] else [c, d])
    changeMouth a b (changeMouth c d k) = { k with mouths := resetIn changed k.mouths } := by
  rw [changeMouth_eq, changeMouth_eq]
  dsimp only
  rw [resetIn_resetIn]

/-- A full entry, test by test. -/
theorem writeLane_full (full : u8 p 0 = 1) :
    writeLane n p d =
      if u8 p 5 < 1 ∨ 48 < u8 p 5 ∨ u8 p 6 < 1 ∨ 48 < u8 p 6 then .refused .range
      else if u8 p 5 = u8 p 6 ∨ heldElsewhere d.yard.lanes n (namesMouth (u8 p 5)) ∨
          heldElsewhere d.yard.lanes n (namesMouth (u8 p 6)) then .refused .inUse
      else (tget d.yard.lanes n).elim
        (wroteYard d (laneClamped p) { d.yard with lanes := tset d.yard.lanes n (freshLane (laneEntry p)) })
        fun l =>
          let y := { d.yard with lanes := tset d.yard.lanes n { l with entry := laneEntry p } }
          .wrote
            { d with
              site := changeMouth l.entry.entryMouth (u8 p 5) (changeMouth l.entry.exitMouth (u8 p 6) d.site)
              yard := if l.entry.capacity < (laneEntry p).capacity ∨ addsClass l.entry.mask (laneEntry p).mask = true
                then roomEvent y else y } (laneClamped p) := by
  have clamps : (outOf 100 2500 (u16 p 1) || (u8 p 4 != 0 && outOf 80 200 (u8 p 4))) = laneClamped p := by
    rw [Bool.eq_iff_iff]
    simp [laneClamped, outOf_iff, or_assoc]
  rw [writeLane, if_neg (by omega)]
  simp only [clampTo_eq (show 100 ≤ 2500 by decide), clampTo_eq (show 80 ≤ 200 by decide), clamps]
  cases tget d.yard.lanes n <;> rfl

theorem laneWrites : LaneWrites := by
  intro n p d run a b e clamped fresh bad taken
  refine ⟨fun empty => ?empty, fun full => ?full⟩
  case empty =>
    have runs : run = writeLane n p d := if_neg (by omega)
    refine ⟨fun place => ?_, fun l place => ⟨fun used => ?_, fun items pendings => ?_⟩⟩
    · rw [runs, writeLane, if_pos empty, place]
    · rw [runs, writeLane, if_pos empty, place]
      exact if_neg fun ⟨items, pendings⟩ => used.elim (· items) (· pendings)
    · rw [runs, writeLane, if_pos empty, place]
      exact if_pos ⟨items, pendings⟩
  case full =>
    have runs : run = writeLane n p d := if_neg (by omega)
    have takes : (u8 p 5 = u8 p 6 ∨ heldElsewhere d.yard.lanes n (namesMouth (u8 p 5)) = true ∨
        heldElsewhere d.yard.lanes n (namesMouth (u8 p 6)) = true) ↔ taken := by
      simp only [heldElsewhere_iff, namesMouth, Bool.or_eq_true, beq_iff_eq, taken, ← exists_or]
      refine or_congr Iff.rfl (exists_congr fun q => ?_)
      rewrite [← and_or_left, ← and_or_left, or_assoc]
      rfl
    refine ⟨fun isBad => ?_, fun good isTaken => ?_, fun good free => ?_⟩
    · rw [runs, writeLane_full full]
      exact if_pos isBad
    · rw [runs, writeLane_full full]
      exact (if_neg good).trans (if_pos (takes.mpr isTaken))
    · have fits := runs.trans ((writeLane_full full).trans ((if_neg good).trans (if_neg (mt takes.mp free))))
      refine ⟨fun place => fits.trans (by rw [place]; rfl), fun l place => ?_⟩
      intro changed k y room
      have rooms : (l.entry.capacity < e.capacity ∨ addsClass l.entry.mask e.mask = true) ↔ room :=
        or_congr Iff.rfl (addsClass_iff ..)
      have mouths : changeMouth l.entry.entryMouth a (changeMouth l.entry.exitMouth b d.site) = k := changeMouth_mouths ..
      rw [place] at fits
      refine ⟨fun opens => fits.trans ?_, fun stays => fits.trans ?_⟩
      · exact congr (congrArg (fun k y => Written.wrote { d with site := k, yard := y } clamped) mouths) (if_pos (rooms.mpr opens))
      · exact congr (congrArg (fun k y => Written.wrote { d with site := k, yard := y } clamped) mouths)
          (if_neg (mt rooms.mp stays))

end Lanes

/-! ## Loop map -/

section LoopMap

theorem isLoops_iff (k : Site) (a : Nat) :
    isLoops k a = true ↔ ∃ st, stationAt k a = some st ∧ st.entry.role = .loops := by
  unfold isLoops
  cases stationAt k a with
  | none => simp
  | some st => simp

theorem namedIn_iff (mouths : Table Mouth) (a : Nat) : namedIn mouths a = true ↔ a ∈ namedConcentrators mouths := by
  simp [namedIn, tany_iff, mouthOn, mem_namedConcentrators]

theorem mem_distinct_fold (l acc : List Nat) (a : Nat) :
    a ∈ l.foldl (fun acc a => if acc.contains a then acc else a :: acc) acc ↔ a ∈ acc ∨ a ∈ l := by
  induction l generalizing acc with
  | nil => simp
  | cons b l ih =>
    rw [List.foldl_cons, ih]
    by_cases seen : b ∈ acc
    · simp only [List.contains_iff_mem, seen, if_true, List.mem_cons]
      constructor
      · exact Or.imp_right .inr
      · rintro (h | rfl | h)
        · exact .inl h
        · exact .inl seen
        · exact .inr h
    · simp only [List.contains_iff_mem, seen, if_false, List.mem_cons]
      rw [or_comm (a := a = b), or_assoc]

theorem nodup_distinct_fold (l : List Nat) {acc : List Nat} (nodup : acc.Nodup) :
    (l.foldl (fun acc a => if acc.contains a then acc else a :: acc) acc).Nodup := by
  induction l generalizing acc with
  | nil => exact nodup
  | cons b l ih =>
    rw [List.foldl_cons]
    by_cases seen : b ∈ acc
    · exact ih (by simpa [seen] using nodup)
    · exact ih (by simpa [seen] using nodup)

theorem mem_distinct (l : List Nat) (a : Nat) : a ∈ distinct l ↔ a ∈ l := by
  rw [distinct, mem_distinct_fold]
  simp

theorem nodup_distinct (l : List Nat) : (distinct l).Nodup := nodup_distinct_fold l List.nodup_nil

/-- A list without repeats is no longer than one that holds it. -/
theorem length_distinct_le {l m : List Nat} (holds : ∀ a ∈ l, a ∈ m) : (distinct l).length ≤ m.length :=
  length_le_of_nodup (nodup_distinct l) fun a mem => holds a ((mem_distinct l a).mp mem)

theorem le_length_distinct {l m : List Nat} (nodup : m.Nodup) (holds : ∀ a ∈ m, a ∈ l) :
    m.length ≤ (distinct l).length :=
  length_le_of_nodup nodup fun a mem => (mem_distinct l a).mpr (holds a mem)

theorem tget_map_indexed {α : Type} (t : Table α) (g : Nat → α → α) (a : Nat) :
    tget (t.map fun q => (q.1, g q.1 q.2)) a = (tget t a).map (g a) := by
  induction t with
  | nil => rfl
  | cons q t ih =>
    obtain ⟨j, w⟩ := q
    by_cases here : j = a
    · simp [tget_cons, here]
    · simp [tget_cons, here, ih]

/-- Writing the places of a list, but for those a test passes over. -/
theorem tget_foldl_tset_unless {α : Type} (skip : Nat → Bool) (v : Nat → α) (l : List Nat) (t : Table α) (a : Nat) :
    tget (l.foldl (fun t b => if skip b then t else tset t b (v b)) t) a =
      if a ∈ l ∧ skip a = false then some (v a) else tget t a := by
  induction l generalizing t with
  | nil => simp
  | cons b l ih =>
    rw [List.foldl_cons, ih]
    by_cases skipped : skip b = true
    · rw [if_pos skipped]
      by_cases here : a = b
      · simp [here, skipped]
      · simp [here]
    · rw [if_neg skipped]
      by_cases here : a = b
      · simp [here, skipped]
      · simp [here, tget_tset]

/-- The concentrators' records after the loop map changed (R46, R49, log 29). -/
theorem tget_syncConcentrators (before : Table Mouth) (k : Site) (a : Nat) :
    tget (syncConcentrators before k).concentrators a =
      if namedIn k.mouths a = true ∧ namedIn before a = false then
        some { loops := loopsOf k a, timer := some (silenceDeadline k), silent := false }
      else (tget k.concentrators a).map fun c =>
        if namedIn k.mouths a then c else { c with timer := none, silent := false } := by
  have kept : (k.concentrators.map fun q =>
      if namedIn k.mouths q.1 then q else (q.1, { q.2 with timer := none, silent := false })) =
      k.concentrators.map fun q =>
        (q.1, if namedIn k.mouths q.1 then q.2 else { q.2 with timer := none, silent := false }) :=
    List.map_congr_left fun q _ => by split <;> rfl
  simp only [syncConcentrators, kept]
  rw [tget_foldl_tset_unless (namedIn before)
      fun b => Concentrator.mk (loopsOf k b) (some (silenceDeadline k)) false,
    tget_map_indexed k.concentrators fun b c =>
      if namedIn k.mouths b then c else Concentrator.mk c.loops none false]
  simp only [namedIn_iff]

/-- A full entry of a loop pair whose debounce time is defined. -/
theorem writeLoop_full {n : Nat} {p : List Byte} {d : Desk} {t : Debounce} (full : u8 p 0 = 1)
    (time : debounceOf (u8 p 5) = some t) :
    let e : LoopEntry :=
      { stationA := u8 p 1, indexA := min 15 (u8 p 2), stationB := u8 p 3, indexB := min 15 (u8 p 4), debounce := t }
    let mouths := tset d.site.mouths n (resetMouth e)
    writeLoop n p d =
      if isLoops d.site e.stationA = false ∨ isLoops d.site e.stationB = false then .refused .notFound
      else if 8 < (distinct (namedConcentrators mouths)).length then .refused .inUse
      else .wrote { d with site := syncConcentrators d.site.mouths { d.site with mouths := mouths } }
        (decide (15 < u8 p 2 ∨ 15 < u8 p 4)) := by
  rw [writeLoop, if_neg (by omega), time]
  simp only [clampTo_zero, outOf_zero, ← Bool.decide_or]
  rfl

theorem loopWrites : LoopWrites := by
  refine ⟨fun n p d => ?_, fun before k => ?_⟩
  · intro run loops sync
    have isLoops_false (a : Nat) : isLoops d.site a = false ↔ ¬loops a := by
      rw [← Bool.not_eq_true, isLoops_iff]
    refine ⟨fun empty => ?_, fun full undefined => ?_, fun full t time => ?_⟩
    · exact (if_neg (by omega)).trans (if_pos empty)
    · refine (if_neg (by omega)).trans ((if_neg (by omega)).trans ?_)
      cases read : debounceOf (u8 p 5) with
      | none => rfl
      | some t =>
        have listed := debounceOf_listed _ t read
        simp only [List.mem_cons, Prod.mk.injEq, List.not_mem_nil, or_false] at listed
        omega
    · intro e mouths named
      have runs : run = writeLoop n p d := if_neg (by omega)
      have found (first : loops e.stationA) (second : loops e.stationB) :
          ¬(isLoops d.site e.stationA = false ∨ isLoops d.site e.stationB = false) := fun strange =>
        strange.elim (fun h => (isLoops_false _).mp h first) fun h => (isLoops_false _).mp h second
      refine ⟨fun strange => ?_, fun first second => ⟨fun many => ?_, fun few => ?_⟩⟩
      · rw [runs, writeLoop_full full time]
        exact if_pos (strange.imp (isLoops_false _).mpr (isLoops_false _).mpr)
      · obtain ⟨l, nodup, nine, mem⟩ := many
        rw [runs, writeLoop_full full time]
        exact (if_neg (found first second)).trans (if_pos (Nat.le_trans (Nat.le_of_eq nine.symm) (le_length_distinct nodup mem)))
      · obtain ⟨l, eight, mem⟩ := few
        rw [runs, writeLoop_full full time]
        exact (if_neg (found first second)).trans (if_neg (Nat.not_lt.mpr (Nat.le_trans (length_distinct_le mem) eight)))
  · intro z
    refine ⟨rfl, fun a => ⟨fun named was => ?_, fun named new => ?_, fun unnamed => ?_⟩⟩
    · rw [tget_syncConcentrators]
      simp [named, was]
    · rw [tget_syncConcentrators, if_pos ⟨named, new⟩]
      rfl
    · rw [tget_syncConcentrators]
      simp [unnamed]

end LoopMap

end Sys2Proof.Machine

/-! What one entry of the stations, of the forwarding table or of the wash programs writes. -/

namespace Sys2Proof.Machine

/-! ## Stations -/

section Stations

/-- The record keeps its role: in MANUAL, or while its island or wash lane holds a vehicle (R31, R150). -/
def KeepsRole (y : Yard) (s : Station) : Prop :=
  (controllable s.entry.role = true ∧ s.manual = true) ∨
  (∃ m i, s.entry.role = .island m ∧ tget y.islands m = some i ∧ i.vehicle ≠ none) ∨
  ∃ m l, s.entry.role = .wash m ∧ tget y.washLanes m = some l ∧ l.vehicle ≠ none

theorem roleBusy_iff (y : Yard) (r : Role) :
    roleBusy y r = true ↔ (∃ m i, r = .island m ∧ tget y.islands m = some i ∧ i.vehicle ≠ none) ∨
      ∃ m l, r = .wash m ∧ tget y.washLanes m = some l ∧ l.vehicle ≠ none := by
  cases r with
  | island n => cases h : tget y.islands n <;> simp [roleBusy, h, Option.isSome_iff_ne_none]
  | wash n => cases h : tget y.washLanes n <;> simp [roleBusy, h, Option.isSome_iff_ne_none]
  | _ => simp [roleBusy]

theorem mayChangeRole_iff (y : Yard) (s : Station) : mayChangeRole y s = true ↔ ¬KeepsRole y s := by
  rw [KeepsRole, ← roleBusy_iff]
  simp [mayChangeRole, not_or, ← Bool.not_eq_true, -not_and, Classical.not_and_iff_not_or_not]

theorem mayRemoveStation_iff (k : Site) (y : Yard) (s : Station) : mayRemoveStation k y s = true ↔
    ¬(KeepsRole y s ∨ (s.entry.role = .loops ∧ namedIn k.mouths s.entry.address = true)) := by
  rw [mayRemoveStation, Bool.and_eq_true, mayChangeRole_iff]
  simp [not_or, ← Bool.not_eq_true, -not_and, Classical.not_and_iff_not_or_not]

/-- A role that the other records leave no room for (R31). -/
theorem roleTaken_iff (t : Table Station) (n : Nat) (role : Role) :
    let others := t.filter fun q => q.1 ≠ n
    roleTaken t n role = true ↔
      (∃ q ∈ others, q.2.entry.role = role ∧ ((∃ m, role = .island m) ∨ ∃ m, role = .wash m)) ∨
      (role = .board ∧ 4 ≤ (others.filter fun q => q.2.entry.role = .board).length) := by
  intro others
  have counted : (t.filter fun e => e.1 != n && e.2.entry.role == .board) =
      others.filter fun q => q.2.entry.role = .board := by
    rw [List.filter_filter]
    refine List.filter_congr fun q _ => ?_
    by_cases here : q.1 = n <;> by_cases board : q.2.entry.role = .board <;> simp [here, board]
  cases role with
  | island m => simp [roleTaken, heldElsewhere_iff, others, and_assoc]
  | wash m => simp [roleTaken, heldElsewhere_iff, others, and_assoc]
  | board => simp [roleTaken, counted, Config.boardCap]
  | _ => simp [roleTaken]

/-- A record written, when `k` is the site after it, with its effects (R87, R105, R130). -/
def stationWritten (n : Nat) (role : Role) (d : Desk) (k : Site) : Written :=
  .wrote { d with
    site := k, yard := stationEffects k ((tget d.site.stations n).map (·.entry.role)) (some role) d.yard } false

/-- The site with a record written to its place. -/
def withStation (n : Nat) (s : Station) (k : Site) : Site := { k with stations := tset k.stations n s }

theorem forgetReader_some (a : Nat) (role : Role) (k : Site) :
    forgetReader a (some role) k =
      { k with tagMemory := if isReader role = true then k.tagMemory else terase k.tagMemory a } := by
  by_cases reader : isReader role = true <;> simp [forgetReader, reader]

variable {n : Nat} {p : List Byte} {d : Desk}

theorem writeStation_full {role : Role} {policy : Policy} (full : u8 p 0 = 1) (roles : roleOf (u8 p 2) = some role)
    (policies : policyOf (u8 p 4) = some policy) :
    let a := u8 p 1
    let e : StationEntry := { address := a, role := role, sign := optional (u8 p 3), policy := policy }
    writeStation n p d =
      if a < 1 ∨ 239 < a then .refused .range
      else if heldElsewhere d.site.stations n fun s => s.entry.address == a then .refused .inUse
      else if roleTaken d.site.stations n role then .refused .inUse
      else (tget d.site.stations n).elim
        (stationWritten n role d (forgetReader a (some role) (withStation n (freshStation e) d.site))) fun s =>
        if s.entry.address = a then
          if s.entry.role = role ∨ mayChangeRole d.yard s = true then
            stationWritten n role d (forgetReader a (some role) (withStation n { s with entry := e } d.site))
          else .refused .inUse
        else if mayRemoveStation d.site d.yard s then
          stationWritten n role d (forgetReader s.entry.address none (withStation n (freshStation e) d.site))
        else .refused .inUse := by
  intro a e
  rw [writeStation, if_neg (by omega), roles, policies]
  cases place : tget d.site.stations n <;> simp only [stationWritten, place] <;> rfl

/-- The calling rule of an island's or wash lane's new record (R87, R105). -/
def roleCalls (k : Site) (role : Role) (y : Yard) : Yard :=
  match role with
  | .island _ => fuelCalls k y
  | .wash _ => washCalls k y
  | _ => y

theorem stationEffects_eq (k : Site) (old : Option Role) (role : Role) (y : Yard) :
    stationEffects k old (some role) y =
      roleCalls k role (if role = .board ∨ old = some .board then boardsChanged y else y) := by
  unfold stationEffects
  simp only [Option.some.injEq, or_comm]
  cases role <;> rfl

theorem stationWrites : StationWrites := by
  intro n p d run keeps stays boards calls
  have changes (s : Station) : mayChangeRole d.yard s = true ↔ ¬keeps s := mayChangeRole_iff d.yard s
  have removes (s : Station) : mayRemoveStation d.site d.yard s = true ↔ ¬stays s := mayRemoveStation_iff ..
  have runs (header : u8 p 0 ≤ 1) : run = writeStation n p d := if_neg (by omega)
  refine ⟨fun empty => ⟨fun place => ?_, fun s place => ⟨fun fixed => ?_, fun free => ?_⟩⟩, fun full => ?full⟩
  · rw [runs (by omega), writeStation, if_pos empty, place]
  · rw [runs (by omega), writeStation, if_pos empty, place]
    exact if_neg (mt (removes s).mp (Classical.not_not.mpr fixed))
  · rw [runs (by omega), writeStation, if_pos empty, place]
    refine (if_pos ((removes s).mpr free)).trans ?_
    simp [stationEffects, forgetReader]
  case full =>
    refine ⟨fun undefined => ?_, fun role policy roles policies => ?_⟩
    · rw [runs (by omega), writeStation, if_neg (by omega)]
      obtain h | h := undefined
      · rw [h]
      · rw [h]
        cases roleOf (u8 p 2) <;> rfl
    · intro e others bad taken ends kept
      have written {k : Site} (s : Station) (memory : Table TagRecord)
          (site : k = { d.site with stations := tset d.site.stations n s, tagMemory := memory })
          (is : run = stationWritten n role d k) : ends s memory := by
        refine is.trans ?_
        rw [stationWritten, stationEffects_eq, site]
        cases role <;> rfl
      have takes : taken ↔ heldElsewhere d.site.stations n (fun s => s.entry.address == u8 p 1) = true ∨
          roleTaken d.site.stations n role = true := by
        refine or_congr ?_ (roleTaken_iff d.site.stations n role).symm
        rw [heldElsewhere_iff]
        simp [others, and_assoc]
      refine ⟨fun isBad => ?_, fun good isTaken => ?_, fun good free => ?_⟩
      · rw [runs (by omega), writeStation_full full roles policies]
        exact if_pos isBad
      · rw [runs (by omega), writeStation_full full roles policies]
        by_cases address : heldElsewhere d.site.stations n (fun s => s.entry.address == u8 p 1) = true
        · exact (if_neg good).trans (if_pos address)
        · exact (if_neg good).trans ((if_neg address).trans (if_pos ((takes.mp isTaken).resolve_left address)))
      · have fits := (runs (by omega)).trans ((writeStation_full full roles policies).trans ((if_neg good).trans
          ((if_neg fun h => free (takes.mpr (.inl h))).trans (if_neg fun h => free (takes.mpr (.inr h))))))
        refine ⟨fun place => written _ _ (forgetReader_some ..) (fits.trans (by rw [place]; rfl)), fun s place => ?_⟩
        rw [place] at fits
        refine ⟨fun same may => ?_, fun same other fixed => ?_, fun other fixed => ?_, fun other free => ?_⟩
        · exact written _ _ (forgetReader_some ..) (fits.trans ((if_pos same).trans (if_pos (may.imp_right (changes s).mpr))))
        · exact fits.trans ((if_pos same).trans
            (if_neg fun may => may.elim other fun h => (changes s).mp h fixed))
        · exact fits.trans ((if_neg other).trans (if_neg (mt (removes s).mp (Classical.not_not.mpr fixed))))
        · exact written _ _ rfl (fits.trans ((if_neg other).trans (if_pos ((removes s).mpr free))))

end Stations

/-! ## Forwarding and wash programs -/

section Programs

variable {p : List Byte}

theorem stageOf_some {i : Nat} {kind : StageKind} (kinds : stageKindOf (u8 p (2 + 4 * i)) = some kind)
    (flag : u8 p (5 + 4 * i) ≤ 1) :
    stageOf p i = some
      { kind := kind, base := max 1 (min 600 (u16 p (3 + 4 * i))), scales := decide (u8 p (5 + 4 * i) = 1) } := by
  rw [stageOf, kinds, flagOf_low flag]
  dsimp only
  rw [clampTo_eq (by decide)]

theorem stageOf_none {i : Nat} (undefined : stageKindOf (u8 p (2 + 4 * i)) = none ∨ 1 < u8 p (5 + 4 * i)) :
    stageOf p i = none := by
  obtain kind | flag := undefined
  · rw [stageOf, kind]
  · rw [stageOf, flagOf_high flag]
    cases stageKindOf (u8 p (2 + 4 * i)) <;> rfl

theorem stagesOf_none {i : Nat} {l : List Nat} (mem : i ∈ l) (undefined : stageOf p i = none) : stagesOf p l = none := by
  induction l with
  | nil => exact absurd mem List.not_mem_nil
  | cons j l ih =>
    obtain rfl | mem := List.mem_cons.mp mem
    · rw [stagesOf, undefined]
    · rw [stagesOf, ih mem]
      cases stageOf p j <;> rfl

theorem stagesOf_some {l : List Nat} {m : List Stage} (defined : l.map (stageOf p) = m.map some) :
    stagesOf p l = some m := by
  induction l generalizing m with
  | nil =>
    obtain rfl : m = [] := by simpa using defined.symm
    rfl
  | cons i l ih =>
    cases m with
    | nil => simp at defined
    | cons s m =>
      obtain ⟨first, rest⟩ := List.cons.inj defined
      rw [stagesOf, first, ih rest]

theorem forwardingAndProgramWrites : ForwardingAndProgramWrites := by
  intro n p d
  have forwards (header : u8 p 0 ≤ 1) : writeEntry .forwarding n p d = writeForwarding n p d := if_neg (by omega)
  have programs (header : u8 p 0 ≤ 1) : writeEntry .programs n p d = writeProgram n p d := if_neg (by omega)
  refine ⟨fun empty => ⟨?_, ?_⟩, fun full => ⟨fun undefined => ?_, fun a action => ?_, fun outside => ?_,
    fun undefined => ?_, fun l low high len stages => ?_⟩⟩
  · rw [forwards (by omega)]
    exact if_pos empty
  · rw [programs (by omega)]
    exact if_pos empty
  · rw [forwards (by omega), writeForwarding, if_neg (by omega), undefined]
  · rw [forwards (by omega), writeForwarding, if_neg (by omega), action]
  · rw [programs (by omega)]
    exact (if_neg (by omega)).trans (if_pos outside)
  · rw [programs (by omega), writeProgram, if_neg (by omega)]
    by_cases outside : u8 p 1 < 1 ∨ 6 < u8 p 1
    · exact if_pos outside
    · obtain ⟨i, small, undefined⟩ := undefined
      dsimp only
      rw [if_neg outside, stagesOf_none (List.mem_range.mpr small) (stageOf_none undefined)]
  · have all : (List.range (u8 p 1)).map (stageOf p) = l.map some := by
      refine List.ext_getElem (by simp [len]) fun i small _ => ?_
      have below : i < u8 p 1 := by simpa using small
      obtain ⟨kind, kinds, flag, at_⟩ := stages i below
      rw [List.getElem_map, List.getElem_range, stageOf_some kinds flag, ← at_]
      simp [List.getElem?_eq_getElem (show i < l.length by omega)]
    have clamps : ((List.range (u8 p 1)).any fun i => outOf 1 600 (u16 p (3 + 4 * i))) =
        decide (∃ i < u8 p 1, u16 p (3 + 4 * i) < 1 ∨ 600 < u16 p (3 + 4 * i)) := by
      rw [Bool.eq_iff_iff]
      simp [outOf_iff]
    rw [programs (by omega), writeProgram, if_neg (by omega)]
    dsimp only
    rw [if_neg (by omega), stagesOf_some all, clamps]

end Programs

end Sys2Proof.Machine

/-! What one entry of the islands, of the wash lanes or of the settings writes. -/

namespace Sys2Proof.Machine

/-! ## Islands -/

section Islands

variable {k : Site} {y : Yard} {g : Nat}

theorem retestFuelOf_stays (accepted : g ∉ y.fuelQ ∨ ∃ q ∈ y.islands, islandAccepts y q.2 g = true) :
    retestFuelOf k y g = y := by
  refine if_neg fun h => ?_
  simp only [Bool.and_eq_true, List.contains_iff_mem, Bool.not_eq_true', ← Bool.not_eq_true, tany_iff] at h
  exact accepted.elim (· h.1) h.2

theorem retestFuelOf_leaves (refused : ¬(g ∉ y.fuelQ ∨ ∃ q ∈ y.islands, islandAccepts y q.2 g = true)) :
    retestFuelOf k y g = (route k none g (skipFuel g { y with fuelQ := without y.fuelQ g })).1 := by
  obtain ⟨queued, none_accepts⟩ := not_or.mp refused
  refine if_pos ?_
  simp only [Bool.and_eq_true, List.contains_iff_mem, Bool.not_eq_true', ← Bool.not_eq_true, tany_iff]
  exact ⟨Classical.not_not.mp queued, none_accepts⟩

theorem retestWashOf_stays (accepted : g ∉ y.washQ ∨ ∃ q ∈ y.washLanes, washAccepts y q.2 g = true) :
    retestWashOf k y g = y := by
  refine if_neg fun h => ?_
  simp only [Bool.and_eq_true, List.contains_iff_mem, Bool.not_eq_true', ← Bool.not_eq_true, tany_iff] at h
  exact accepted.elim (· h.1) h.2

theorem retestWashOf_leaves (refused : ¬(g ∉ y.washQ ∨ ∃ q ∈ y.washLanes, washAccepts y q.2 g = true)) :
    retestWashOf k y g = (route k none g (skipWash g { y with washQ := without y.washQ g })).1 := by
  obtain ⟨queued, none_accepts⟩ := not_or.mp refused
  refine if_pos ?_
  simp only [Bool.and_eq_true, List.contains_iff_mem, Bool.not_eq_true', ← Bool.not_eq_true, tany_iff]
  exact ⟨Classical.not_not.mp queued, none_accepts⟩

/-- A full entry's record of an island. -/
def islandEntry (p : List Byte) : IslandEntry :=
  { mask := BitVec.ofNat 8 (u8 p 1), meter := max 1 (min 72 (u8 p 2)), sign := optional (u8 p 3),
    heldClosed := decide (u8 p 4 = 1) }

theorem writeIsland_full {n : Nat} {p : List Byte} {d : Desk} (full : u8 p 0 = 1) (flag : u8 p 4 ≤ 1) :
    writeIsland n p d = (tget d.yard.islands n).elim
      (wroteYard d (decide (u8 p 2 < 1 ∨ 72 < u8 p 2)) (fuelCalls d.site
        { d.yard with islands := tset d.yard.islands n (freshIsland (islandEntry p)) }))
      fun i => wroteYard d (decide (u8 p 2 < 1 ∨ 72 < u8 p 2)) (retestFuel d.site
        { d.yard with islands := tset d.yard.islands n (holdIsland (islandEntry p) i) }) := by
  rw [writeIsland, if_neg (by omega), flagOf_low flag]
  simp only [clampTo_eq (show 1 ≤ 72 by decide), outOf_eq (show 1 ≤ 72 by decide)]
  cases tget d.yard.islands n <;> rfl

theorem islandWrites : IslandWrites := by
  refine ⟨fun n p d => ?_, fun k y turn turns => ?_⟩
  · intro run e clamped written
    have runs (header : u8 p 0 ≤ 1) : run = writeIsland n p d := if_neg (by omega)
    refine ⟨fun empty => ⟨fun place => ?_, fun i place => ⟨fun holds => ?_, fun free => ?_⟩⟩, fun full undefined => ?_,
      fun full flag => ?full⟩
    · rw [runs (by omega), writeIsland, if_pos empty, place]
    · rw [runs (by omega), writeIsland, if_pos empty, place]
      exact if_pos (Option.isSome_iff_ne_none.mpr holds)
    · rw [runs (by omega), writeIsland, if_pos empty, place]
      exact if_neg (by simp [free])
    · rw [runs (by omega), writeIsland, if_neg (by omega), flagOf_high undefined]
    case full =>
      have fits := (runs (by omega)).trans (writeIsland_full full flag)
      refine ⟨fun place => ?_, fun i place => ?_⟩
      · rw [place] at fits
        exact fits
      · intro ends
        rw [place] at fits
        have ended {j : Island} (holds : holdIsland e i = j) : ends j := by
          rw [← holds]
          exact fits
        refine ⟨fun same => ended ?_, fun opens closed => ended ?_, fun closes opened => ⟨fun idle => ended ?_,
          fun rests => ended ?_, fun notIdle notClosed notManual => ended ?_⟩⟩
        · exact if_pos same
        · simp [holdIsland, opens, closed]
        · simp [holdIsland, closes, opened, idle]
        · obtain state | state := rests <;> simp [holdIsland, closes, opened, state]
        · cases state : i.state with
          | closed => exact absurd state notClosed
          | idle => exact absurd state notIdle
          | manual => exact absurd state notManual
          | _ => simp [holdIsland, closes, opened, state]
  · have same : retestFuelOf k = turn := by
      funext z g
      obtain ⟨stays, leaves⟩ := turns z g
      by_cases accepted : g ∉ z.fuelQ ∨ ∃ q ∈ z.islands, islandAccepts z q.2 g = true
      · rw [stays accepted, retestFuelOf_stays accepted]
      · rw [leaves accepted, retestFuelOf_leaves accepted]
        rfl
    rw [retestFuel, same]

end Islands

/-! ## Wash lanes -/

section WashLanes

/-- A full entry's record of a wash lane. -/
def washLaneEntry (p : List Byte) : WashLaneEntry :=
  { mask := BitVec.ofNat 8 (u8 p 1), maxLength := max 80 (min 200 (u8 p 2)),
    lref := if u8 p 3 = 0 then 120 else max 60 (min 200 (u8 p 3)), sign := optional (u8 p 4),
    heldClosed := decide (u8 p 5 = 1) }

/-- The entry was clamped. -/
def washLaneClamped (p : List Byte) : Bool :=
  decide (u8 p 2 < 80 ∨ 200 < u8 p 2 ∨ (u8 p 3 ≠ 0 ∧ (u8 p 3 < 60 ∨ 200 < u8 p 3)))

theorem writeWashLane_full {n : Nat} {p : List Byte} {d : Desk} (full : u8 p 0 = 1) (flag : u8 p 5 ≤ 1) :
    writeWashLane n p d = wroteYard d (washLaneClamped p) (washWritten d.site (tget d.yard.washLanes n) (washLaneEntry p)
      { d.yard with washLanes := tset d.yard.washLanes n ((tget d.yard.washLanes n).elim (freshWash (washLaneEntry p))
        (holdWash (washLaneEntry p))) }) := by
  have clamps : (outOf 80 200 (u8 p 2) || (u8 p 3 != 0 && outOf 60 200 (u8 p 3))) = washLaneClamped p := by
    rw [Bool.eq_iff_iff]
    simp [washLaneClamped, outOf_iff, or_assoc]
  rw [writeWashLane, if_neg (by omega), flagOf_low flag]
  simp only [clampTo_eq (show 80 ≤ 200 by decide), clampTo_eq (show 60 ≤ 200 by decide), clamps]
  cases tget d.yard.washLanes n <;> rfl

theorem washLaneWrites : WashLaneWrites := by
  refine ⟨fun n p d => ?_, fun k y turn turns => ?_⟩
  · intro run e clamped written
    have runs (header : u8 p 0 ≤ 1) : run = writeWashLane n p d := if_neg (by omega)
    refine ⟨fun empty => ⟨fun place => ?_, fun l place => ⟨fun holds => ?_, fun free => ?_⟩⟩, fun full undefined => ?_,
      fun full flag => ?full⟩
    · rw [runs (by omega), writeWashLane, if_pos empty, place]
    · rw [runs (by omega), writeWashLane, if_pos empty, place]
      exact if_pos (Option.isSome_iff_ne_none.mpr holds)
    · rw [runs (by omega), writeWashLane, if_pos empty, place]
      exact if_neg (by simp [free])
    · rw [runs (by omega), writeWashLane, if_neg (by omega), flagOf_high undefined]
    case full =>
      have fits := (runs (by omega)).trans (writeWashLane_full full flag)
      refine ⟨fun place => ?_, fun l m place is => ?_⟩
      · rw [place] at fits
        exact fits
      · rw [place] at fits
        have holds : holdWash e l = m := by
          obtain ⟨rfl, closes, opened, idle⟩ | ⟨rfl, stays⟩ := is
          · exact if_pos ⟨closes, opened, idle⟩
          · exact if_neg stays
        rw [← holds]
        intro same
        refine ⟨fun isSame => fits.trans ?_, fun other => fits.trans ?_⟩
        · exact congrArg (wroteYard d clamped) (if_pos isSame)
        · exact congrArg (wroteYard d clamped) (if_neg other)
  · have same : retestWashOf k = turn := by
      funext z g
      obtain ⟨stays, leaves⟩ := turns z g
      by_cases accepted : g ∉ z.washQ ∨ ∃ q ∈ z.washLanes, washAccepts z q.2 g = true
      · rw [stays accepted, retestWashOf_stays accepted]
      · rw [leaves accepted, retestWashOf_leaves accepted]
        rfl
    rw [retestWash, same]

end WashLanes

/-! ## Settings -/

section Settings

variable {n : Nat} {before : Site} {d : Desk}

theorem holdoverDue_iff (k : Site) :
    holdoverDue k = true ↔ ∃ t, k.clock.holdover = some t ∧ t + setting k 20 * 100 ≤ k.now := by
  unfold holdoverDue
  cases k.clock.holdover with
  | none => simp
  | some t => simp [elapsed_iff, Config.second]

theorem settingEffects_same (same : setting before n = setting d.site n) : settingEffects n before d = d := if_pos same

theorem settingEffects_other (other : n ∉ [1, 5, 17, 18, 19, 20]) : settingEffects n before d = d := by
  simp only [List.mem_cons, List.not_mem_nil, or_false, not_or] at other
  obtain ⟨h1, h5, h17, h18, h19, h20⟩ := other
  simp [settingEffects, h1, h5, h17, h18, h19, h20]

theorem settingEffects_room (room : n = 1 ∨ n = 5) (changed : setting before n ≠ setting d.site n) :
    settingEffects n before d = { d with yard := roomEvent d.yard } :=
  (if_neg changed).trans (if_pos room)

theorem settingEffects_duties (times : n = 17 ∨ n = 18) (changed : setting before n ≠ setting d.site n) :
    settingEffects n before d = { d with yard := reconsiderDuties before d.site d.yard } :=
  (if_neg changed).trans ((if_neg (by omega)).trans (if_pos times))

theorem settingEffects_boards (changed : setting before 19 ≠ setting d.site 19) :
    settingEffects 19 before d = { d with yard := boardsChanged d.yard } := if_neg changed

theorem settingEffects_holdover (changed : setting before 20 ≠ setting d.site 20) :
    settingEffects 20 before d =
      if d.site.clock.state = .locked ∧ holdoverDue d.site = true then enterHoldover d else d := if_neg changed

theorem batchTest_other (other : n ≠ 21 ∧ n ≠ 22) (d : Desk) : batchTest n d = d := if_neg (by omega)

theorem settingWrites : SettingWrites := by
  intro n p d run lo hi written
  have runs (header : u8 p 0 ≤ 1) : run = writeSetting n p d := if_neg (by omega)
  refine ⟨fun full apron high => ?_, fun v c given range => ?_⟩
  · rw [runs (by omega)]
    exact (if_neg (by omega)).trans (if_pos ⟨apron, high⟩)
  · intro k w changed
    have wrote : run = .wrote (batchTest n (settingEffects n d.site w)) c := by
      obtain ⟨empty, rfl, rfl⟩ | ⟨full, good, rfl, rfl⟩ := given
      · rw [runs (by omega)]
        exact if_pos empty
      · rw [runs (by omega)]
        refine (if_neg (by omega)).trans ((if_neg good).trans ?_)
        rw [clampTo_eq range, outOf_eq range]
    have plainly (other : n ≠ 21 ∧ n ≠ 22) {e : Desk} (effects : settingEffects n d.site w = e) : run = .wrote e c := by
      rw [wrote, effects, batchTest_other other]
    refine ⟨fun _ empty => ?_, fun u full => ?_, fun quiet => ?_, fun room has => ?_, fun times has => ?_, fun boards has => ?_,
      fun holdover has => ?_, fun batch => ?_⟩
    · subst empty
      show (tget (terase d.site.settings n) n).getD _ = _
      rw [tget_terase, if_pos rfl]
      rfl
    · subst full
      show (tget (tset d.site.settings n u) n).getD _ = u
      rw [tget_tset_same]
      rfl
    · obtain unlisted | ⟨same, other⟩ := quiet
      · simp only [List.mem_cons, List.not_mem_nil, or_false, not_or] at unlisted
        exact plainly (by omega) (settingEffects_other (by simp; omega))
      · exact plainly other (settingEffects_same (Classical.not_not.mp same))
    · exact plainly (by omega) (settingEffects_room room has)
    · exact plainly (by omega) (settingEffects_duties times has)
    · subst boards
      exact plainly (by omega) (settingEffects_boards has)
    · subst holdover
      intro due h
      have dues : (k.clock.state = .locked ∧ holdoverDue k = true) ↔ due := and_congr Iff.rfl (holdoverDue_iff k)
      refine ⟨fun isDue => plainly (by omega) ?_, fun notDue => plainly (by omega) ?_⟩
      · exact (settingEffects_holdover has).trans (if_pos (dues.mpr isDue))
      · exact (settingEffects_holdover has).trans (if_neg (mt dues.mp notDue))
    · rw [wrote, settingEffects_other (by obtain rfl | rfl := batch <;> decide)]
      exact congrArg (Written.wrote · c) (if_pos batch)

end Settings

end Sys2Proof.Machine

/-! What one entry of a duty bank writes, and TABLE_DATA's entries one after another. -/

namespace Sys2Proof.Machine

/-! ## Duty banks -/

section Duties

variable {bk : Bank} {n : Nat} {p : List Byte} {d : Desk}

/-- A full entry's record. -/
def dutyEntry (p : List Byte) : DutyEntry :=
  { number := u16 p 1, mask := BitVec.ofNat 8 (u8 p 3), departure := min 1439 (u16 p 4), fuel := min 900 (u16 p 6),
    wash := decide (u8 p 8 = 1), lead := if u8 p 9 = 0 then none else some (min 60 (u8 p 9)) }

/-- The entry was clamped. -/
def dutyClamped (p : List Byte) : Bool := decide (1439 < u16 p 4 ∨ 900 < u16 p 6 ∨ 60 < u8 p 9)

/-- A record written to its place, when `y` is the yard before. -/
def dutyPlaced (bk : Bank) (n : Nat) (p : List Byte) (d : Desk) (r : Duty) (late : Bool) (y : Yard) : Written :=
  let z := setBank bk (tset (bankOf y bk) n r) y
  wroteYard d (dutyClamped p) (if bk = z.active then dutyWritten d.site (u16 p 1) late z else z)

theorem writeDuty_full (full : u8 p 0 = 1) (flag : u8 p 8 ≤ 1) :
    writeDuty bk n p d =
      if u16 p 1 < 1 ∨ 9999 < u16 p 1 then .refused .range
      else if heldElsewhere (bankOf d.yard bk) n fun r => r.entry.number == u16 p 1 then .refused .inUse
      else (tget (bankOf d.yard bk) n).elim (dutyPlaced bk n p d (freshDuty (dutyEntry p)) true d.yard) fun r =>
        if mayEditDuty d.yard bk r then
          if r.entry.number = u16 p 1 then
            dutyPlaced bk n p d { r with entry := dutyEntry p }
              (lateMinute d.site (dutyEntry p) != lateMinute d.site r.entry) d.yard
          else dutyPlaced bk n p d (freshDuty (dutyEntry p)) true (removeDuty bk n r d.yard)
        else .refused .inUse := by
  have lead : (if u8 p 9 = 0 then none else some (clampTo 1 60 (u8 p 9))) =
      if u8 p 9 = 0 then none else some (min 60 (u8 p 9)) := by
    split
    · rfl
    · rw [clampTo_eq (by decide), Nat.max_eq_right (by omega)]
  have clamps : (outOf 0 1439 (u16 p 4) || outOf 0 900 (u16 p 6) || (u8 p 9 != 0 && outOf 1 60 (u8 p 9))) =
      dutyClamped p := by
    rw [Bool.eq_iff_iff]
    simp only [dutyClamped, outOf_zero, Bool.or_eq_true, decide_eq_true_eq, Bool.and_eq_true, bne_iff_ne,
      outOf_iff (show 1 ≤ 60 by decide)]
    omega
  rw [writeDuty, if_neg (by omega), flagOf_low flag]
  simp only [lead, clamps, clampTo_zero]
  cases tget (bankOf d.yard bk) n <;> rfl

theorem mayEditDuty_iff (y : Yard) (bk : Bank) (r : Duty) : mayEditDuty y bk r = true ↔
    ¬(bk = y.active ∧ (r.state = .called ∨ r.state = .departed ∨ r.state = .cancelled)) := by
  simp only [mayEditDuty, Bool.or_eq_true, bne_iff_ne, evaluable_iff]
  cases r.state <;> simp

theorem unpairRecords_active (g : Nat) (y : Yard) : (unpairRecords g y).active = y.active := by
  unfold unpairRecords
  cases pairedNumber y g with
  | none => rfl
  | some d => simp

theorem removeDuty_active (r : Duty) (y : Yard) : (removeDuty bk n r y).active = y.active := by
  unfold removeDuty
  rw [setBank_active]
  split
  · cases r.vehicle with
    | none => rfl
    | some g => exact unpairRecords_active g y
  · rfl

theorem dutyPlaced_eq (r : Duty) (late : Bool) {y : Yard} (active : y.active = d.yard.active) :
    let z := setBank bk (tset (bankOf y bk) n r) y
    dutyPlaced bk n p d r late y =
      wroteYard d (dutyClamped p) (if bk = d.yard.active then dutyWritten d.site (u16 p 1) late z else z) := by
  rw [dutyPlaced, setBank_active, active]

/-- What the removal of a duty leaves of its vehicle's pairing. -/
theorem removeDuty_eq (r : Duty) (y : Yard) :
    let free : Yard := match r.vehicle with
      | some g => if bk = y.active then unpairRecords g y else y
      | none => y
    removeDuty bk n r y = setBank bk (terase (bankOf free bk) n) free := by
  unfold removeDuty
  by_cases here : bk = y.active <;> cases r.vehicle <;> simp [here]

/-! ## What an entry written to the active bank sets off -/

theorem dutyWritten_free {k : Site} (free : k.clock.state = .free) (g : Nat) (late : Bool) (y : Yard) :
    dutyWritten k g late y = y := if_pos (by simp [clockFree, free])

theorem dutyWritten_runs {k : Site} {g : Nat} {late : Bool} {y : Yard} {r : Duty} (runs : k.clock.state ≠ .free)
    (found : dutyOf y g = some r) :
    dutyWritten k g late y =
      let z :=
        if dueMinute k r.entry ≤ presentMinute k then drain k (evaluate k false g y)
        else if waiting r.state then updDuty g (fun r => { r with state := .opened, reason := none }) y
        else y
      if late then lateAfterWrite k g z else z := by
  rw [dutyWritten, if_neg (by simpa [clockFree] using runs), found]

theorem lateAfterWrite_eq {k : Site} {g : Nat} {y : Yard} {r : Duty} (found : dutyOf y g = some r) :
    lateAfterWrite k g y =
      if (r.state = .opened ∨ r.state = .held ∨ r.state = .blocked) ∧ r.marks.late = false ∧
          lateMinute k r.entry ≤ presentMinute k then
        raise .dutyLate none none none (setLate g y)
      else y := by
  rw [lateAfterWrite, found]
  dsimp only
  refine ite_congr_iff ?_ ..
  simp only [Bool.and_eq_true, evaluable_iff, Bool.not_eq_true', decide_eq_true_eq, and_assoc]

theorem dutyWrites : DutyWrites := by
  refine ⟨fun bk n p d => ?entry, fun k g late y r found => ?written, fun k g y r found => ?late,
    fun before k y turn unknown turns => ?reconsider⟩
  case entry =>
    intro run bank free removed fixed g e clamped fresh bad elsewhere ends
    have runs (header : u8 p 0 ≤ 1) : run = writeDuty bk n p d := by
      cases bk <;> exact if_neg (by omega)
    have edits (r : Duty) : mayEditDuty d.yard bk r = true ↔ ¬fixed r := mayEditDuty_iff ..
    have frees (r : Duty) : removeDuty bk n r d.yard = removed r := removeDuty_eq r d.yard
    refine ⟨fun empty => ⟨fun place => ?_, fun r place => ⟨fun isFixed => ?_, fun open_ => ?_⟩⟩, fun full =>
      ⟨fun isBad => ?_, fun good taken => ?_, fun good alone => ?_⟩⟩
    · rw [runs (by omega), writeDuty, if_pos empty, place]
    · rw [runs (by omega), writeDuty, if_pos empty, place]
      exact if_neg (mt (edits r).mp (Classical.not_not.mpr isFixed))
    · rw [runs (by omega), writeDuty, if_pos empty, place, ← frees]
      exact if_pos ((edits r).mpr open_)
    · by_cases flag : 1 < u8 p 8
      · rw [runs (by omega), writeDuty, if_neg (by omega), flagOf_high flag]
      · rw [runs (by omega), writeDuty_full full (Nat.not_lt.mp flag)]
        exact if_pos (by omega)
    · rw [runs (by omega), writeDuty_full full (by omega), if_neg (by omega)]
      exact if_pos (by simpa only [heldElsewhere_iff, beq_iff_eq] using taken)
    · have fits := (runs (by omega)).trans ((writeDuty_full full (by omega)).trans ((if_neg (by omega)).trans
        (if_neg (by simpa only [heldElsewhere_iff, beq_iff_eq] using alone))))
      have placed {r : Duty} {late : Bool} {y : Yard} (active : y.active = d.yard.active)
          (is : run = dutyPlaced bk n p d r late y) : ends r late y := is.trans (dutyPlaced_eq r late active)
      refine ⟨fun place => ?_, fun r place => ⟨fun isFixed => ?_, fun open_ same => ?_, fun open_ other => ?_⟩⟩
      · exact placed rfl (fits.trans (by rw [place]; rfl))
      · rw [place] at fits
        exact fits.trans (if_neg (mt (edits r).mp (Classical.not_not.mpr isFixed)))
      · rw [place] at fits
        have late : (lateMinute d.site e != lateMinute d.site r.entry) =
            decide (lateMinute d.site e ≠ lateMinute d.site r.entry) := by rw [Bool.eq_iff_iff]; simp
        rw [← late]
        exact placed rfl (fits.trans ((if_pos ((edits r).mpr open_)).trans (if_pos same)))
      · rw [place] at fits
        rw [← frees]
        exact placed (removeDuty_active r d.yard) (fits.trans ((if_pos ((edits r).mpr open_)).trans (if_neg other)))
  case written =>
    intro due marked run
    refine ⟨fun free => dutyWritten_free free g late y, fun runs isDue => ?_, fun runs notDue rests => ?_,
      fun runs notDue notHeld notBlocked => ?_⟩
    · exact (dutyWritten_runs runs found).trans (congrArg marked (if_pos isDue))
    · exact (dutyWritten_runs runs found).trans
        (congrArg marked ((if_neg notDue).trans (if_pos ((waiting_iff _).mpr rests))))
    · exact (dutyWritten_runs runs found).trans
        (congrArg marked ((if_neg notDue).trans (if_neg (by rw [waiting_iff]; exact not_or.mpr ⟨notHeld, notBlocked⟩))))
  case late =>
    intro late
    exact ⟨fun isLate => (lateAfterWrite_eq found).trans (if_pos isLate),
      fun notLate => (lateAfterWrite_eq found).trans (if_neg notLate)⟩
  case reconsider =>
    have same : reconsider before k = turn := by
      funext z g
      cases found : dutyOf z g with
      | none => rw [unknown z g found, reconsider, found]
      | some r =>
        obtain ⟨due, notDue⟩ := turns z g r found
        rw [reconsider, found]
        dsimp only
        by_cases isDue : presentMinute k < dueMinute before r.entry ∧ dueMinute k r.entry ≤ presentMinute k
        · rw [due isDue, if_pos isDue]
        · rw [notDue isDue, if_neg isDue]
    refine ⟨fun free => if_pos (by simp [clockFree, free]), fun runs => ?_⟩
    rw [← same]
    exact if_neg (by simpa [clockFree] using runs)

end Duties

/-! ## The entries of a frame -/

section Load

variable {t : TableId} {l : Load} {p : List Byte}

theorem loadEntry_stopped (stopped : l.refusal ≠ none) : loadEntry t l p = l := by
  obtain ⟨r, stop⟩ := Option.ne_none_iff_exists'.mp stopped
  rw [loadEntry, stop]

theorem loadEntry_end (goesOn : l.refusal = none) (atEnd : l.cursor = endIndex t) :
    loadEntry t l p = { l with refusal := some .tableEnd } := by
  rw [loadEntry, goesOn]
  exact if_pos atEnd

theorem loadEntry_refused {r : Result} (goesOn : l.refusal = none) (room : l.cursor ≠ endIndex t)
    (refused : writeEntry t l.cursor p l.desk = .refused r) : loadEntry t l p = { l with refusal := some r } := by
  rw [loadEntry, goesOn]
  dsimp only
  rw [if_neg room, refused]

theorem loadEntry_wrote {d : Desk} {c : Bool} (goesOn : l.refusal = none) (room : l.cursor ≠ endIndex t)
    (wrote : writeEntry t l.cursor p l.desk = .wrote d c) :
    loadEntry t l p =
      { desk := settle d, written := l.written + 1, cursor := l.cursor + 1, clamped := l.clamped || c,
        refusal := none } := by
  rw [loadEntry, goesOn]
  dsimp only
  rw [if_neg room, wrote]

/-- A frame that has stopped writes nothing more. -/
theorem foldl_loadEntry_stopped (stopped : l.refusal ≠ none) (entries : List (List Byte)) :
    entries.foldl (loadEntry t) l = l := by
  induction entries with
  | nil => rfl
  | cons p entries ih => rw [List.foldl_cons, loadEntry_stopped stopped, ih]

variable {s : State} {f : Frame} {rest : List Frame}

/-- A TABLE_DATA whose entries are reached: they are written one after another from the cursor. -/
theorem execTableData_load {i : Nat} (h : CommandHead s f rest kindTableData p) (idle : s.site.commit = none)
    (known : tableOf (u8 p 0) = some t) (long : 1 < p.length) (whole : (p.length - 1) % entrySize t = 0)
    (cursor : tget s.site.cursors (u8 p 0) = some i) :
    let entries := (List.range ((p.length - 1) / entrySize t)).map fun j =>
      (p.drop (1 + entrySize t * j)).take (entrySize t)
    let l := entries.foldl (loadEntry t)
      { desk := reservedDesk s, written := 0, cursor := i, clamped := false, refusal := none }
    exec .tableData s = .next (afterCommand s f rest (setCursor (u8 p 0) l.cursor l.desk) (loadResult l)
      (byte l.written :: bytes2 l.cursor)) := by
  intro entries l
  have cut : entriesOf (entrySize t) (p.drop 1) ((p.drop 1).length / entrySize t) = entries := by
    rw [entriesOf_eq, List.length_drop]
    refine List.map_congr_left fun j _ => ?_
    rw [List.drop_drop]
  have handles : dataHandler p f (reservedDesk s) = (setCursor (u8 p 0) l.cursor l.desk,
      some (loadResult l, byte l.written :: bytes2 l.cursor)) := by
    rw [dataHandler, if_neg (by simp [idle]), known]
    dsimp only
    rw [if_neg (by omega), reservedDesk_site, cursor]
    dsimp only
    rw [load, cut]
    rfl
  exact officeStep_answer h h.ofKind (by simp; omega) handles

end Load

theorem settingEffects_settings (n : Nat) (before : Site) (d : Desk) :
    (settingEffects n before d).site.settings = d.site.settings := by
  unfold settingEffects
  dsimp only
  repeat' split
  all_goals rfl

/-- A written setting holds the nearest limit of its range. -/
theorem writeSetting_clamps {n : Nat} {p : List Byte} {d : Desk} (other : n ≠ 6) (small : n < 23) (full : u8 p 0 = 1) :
    let lo := (settingRange n).1
    let hi := (settingRange n).2
    ∃ e c, writeEntry .settings n p d = .wrote e c ∧
      setting e.site n = max lo (min hi (u16 p 1)) ∧ (c = true ↔ u16 p 1 < lo ∨ hi < u16 p 1) := by
  intro lo hi
  have range : lo ≤ hi := (by decide : ∀ n < 23, (settingRange n).1 ≤ (settingRange n).2) n small
  refine ⟨_, _, (if_neg (by omega)).trans ((if_neg (by omega)).trans (if_neg (by omega))), ?_, outOf_iff range⟩
  have batch (d : Desk) : (batchTest n d).site = d.site := by
    unfold batchTest
    split <;> rfl
  rw [setting, batch, settingEffects_settings]
  dsimp only
  rw [tget_tset_same, clampTo_eq range]
  rfl

/-- A TABLE_DATA that its tests refuse. -/
theorem execTableData_refused {s : State} {f : Frame} {rest : List Frame} {p : List Byte} {r : Result}
    (h : CommandHead s f rest kindTableData p) (long : 1 ≤ p.length)
    (refuses : dataHandler p f (reservedDesk s) = (reservedDesk s, plain r)) :
    exec .tableData s = .next (afterRefusal s f rest r) :=
  officeStep_answer h h.ofKind (decide_eq_true long) refuses

/-- A frame that fits its table holds an entry. -/
theorem entries_pos (t : TableId) {length : Nat} (more : 1 < length) (whole : (length - 1) % entrySize t = 0) :
    0 < (length - 1) / entrySize t := by
  have pos : 0 < entrySize t := by cases t <;> decide
  exact Nat.div_pos (Nat.le_of_dvd (by omega) (Nat.dvd_of_mod_eq_zero whole)) pos

/-- Settles O44: the tests before the entries, the entries one after another, and one entry table by table. -/
theorem tableData : Obligations.TableData := by
  refine ⟨fun s f rest p h long => ⟨fun busy => ?_, fun idle unknown => ?_, fun t idle known =>
      ⟨fun bad => ?_, fun more whole => ⟨fun closed => ?_, fun atEnd => ?_⟩⟩, fun b a i idle is action cursor small => ?_⟩,
    fun n p d small other full => writeSetting_clamps other small full,
    fun s f rest p t i h idle known long whole cursor => ?_,
    fun t l p => ⟨loadEntry_stopped, loadEntry_end, fun goesOn room =>
      ⟨fun r => loadEntry_refused goesOn room, fun d c => loadEntry_wrote goesOn room⟩⟩,
    fun t i p d header => if_pos header,
    rosterWrites, classWrites, laneWrites, loopWrites, stationWrites, forwardingAndProgramWrites, islandWrites,
    washLaneWrites, settingWrites, dutyWrites⟩
  · exact execTableData_refused h long (if_pos (Option.isSome_iff_ne_none.mpr busy))
  · refine execTableData_refused h long ?_
    rw [dataHandler, if_neg (by simp [idle]), unknown]
  · refine execTableData_refused h long ?_
    rw [dataHandler, if_neg (by simp [idle]), known]
    exact if_pos (by omega)
  · refine execTableData_refused h long ?_
    rw [dataHandler, if_neg (by simp [idle]), known]
    dsimp only
    rw [if_neg (by omega), reservedDesk_site, closed]
  · refine (execTableData_load h idle known more whole atEnd).trans ?_
    obtain ⟨j, count⟩ : ∃ j, (p.length - 1) / entrySize t = j + 1 :=
      ⟨(p.length - 1) / entrySize t - 1, by have := entries_pos t more whole; omega⟩
    rw [count, List.range_succ_eq_map, List.map_cons, List.foldl_cons, loadEntry_end rfl rfl,
      foldl_loadEntry_stopped (by simp)]
    rfl
  · subst is
    refine (execTableData_load (t := .forwarding) h idle rfl (by simp) (show (3 - 1) % 2 = 0 by decide) cursor).trans ?_
    have wrote : writeEntry .forwarding i [1, b] (reservedDesk s) = .wrote { reservedDesk s with
        site := { s.site with forwarding := tset s.site.forwarding i a } } false := by
      refine (if_neg (show ¬1 < 1 by decide)).trans ((if_neg (show ¬1 = 0 by decide)).trans ?_)
      have read : actionOf (u8 [1, b] 1) = some a := action
      rw [read]
      rfl
    have one : (List.range (([6, 1, b].length - 1) / entrySize .forwarding)).map (fun j =>
        ([6, 1, b].drop (1 + entrySize .forwarding * j)).take (entrySize .forwarding)) = [[1, b]] := by
      simp [entrySize, List.range_succ]
    rw [one, List.foldl_cons, List.foldl_nil, loadEntry_wrote rfl (Nat.ne_of_lt small) wrote]
    rfl
  · intro entries l
    refine (execTableData_load h idle known long whole cursor).trans ?_
    have result : loadResult l = match l.refusal with
        | some r => r
        | none => if l.clamped then .okClamped else .ok := rfl
    exact congrArg (fun r => Host.Outcome.next (afterCommand s f rest (setCursor (u8 p 0) l.cursor l.desk) r
      (byte l.written :: bytes2 l.cursor))) result

end Sys2Proof.Machine

/-! Evaluation: the row of a duty, the substitution and its candidates, and what an event runs at its end. -/

namespace Sys2Proof.Machine

theorem vehOf_fleet {y : Yard} {g : Nat} {v : Vehicle} (found : vehOf y g = some v) : v.entry.fleet = g := by
  obtain ⟨q, find, rfl⟩ := Option.map_eq_some_iff.mp found
  simpa using (mem_of_tfind find).2

theorem dutyOf_number {y : Yard} {d : Nat} {r : Duty} (found : dutyOf y d = some r) : r.entry.number = d := by
  obtain ⟨q, find, rfl⟩ := Option.map_eq_some_iff.mp found
  simpa using (mem_of_tfind find).2

/-! ## Substitution -/

section Substitution

variable {k : Site} {y : Yard} {r : Duty} {reason : BlockedReason}

/-- Vehicle g may take duty r, its own departure being t (R123). -/
def Fits (y : Yard) (r : Duty) (g t : Nat) : Prop :=
  ∃ v, vehOf y g = some v ∧ (atFront y v).isSome = true ∧ ready v r = true ∧
    ((v.duty = none ∧ t = 1440) ∨
      ∃ n e, v.duty = some n ∧ dutyOf y n = some e ∧ e.state = .opened ∧ r.entry.departure < e.entry.departure ∧
        t = e.entry.departure)

theorem candidacy_iff (g t : Nat) : candidacy y r g = some t ↔ Fits y r g t := by
  unfold candidacy Fits
  cases veh : vehOf y g with
  | none => simp
  | some v =>
    by_cases stands : (atFront y v).isSome = true ∧ ready v r = true
    · cases own : v.duty with
      | none =>
        simp [stands.1, stands.2, Config.noDeparture, own]
        exact eq_comm
      | some n =>
        cases e : dutyOf y n with
        | none => simp [stands.1, stands.2, own, e]
        | some e' =>
          simp [stands.1, stands.2, own, e, and_assoc]
          exact fun _ _ => eq_comm
    · simp only [Option.some.injEq, exists_eq_left', Bool.and_eq_true]
      rw [if_neg stands]
      simp only [reduceCtorEq, false_iff]
      exact fun h => stands ⟨h.1, h.2.1⟩

/-- One vehicle taken into account among the candidates. -/
def better (y : Yard) (r : Duty) (best : Option (Nat × Nat)) (g : Nat) : Option (Nat × Nat) :=
  match candidacy y r g with
  | some t => betterCandidate best t g
  | none => best

theorem better_none {g : Nat} (unfit : candidacy y r g = none) (best : Option (Nat × Nat)) : better y r best g = best := by
  rw [better, unfit]

theorem better_some {g t : Nat} (fit : candidacy y r g = some t) (best : Option (Nat × Nat)) :
    better y r best g = betterCandidate best t g := by
  rw [better, fit]

theorem foldl_better_none {l : List Nat} (none_fits : ∀ g ∈ l, candidacy y r g = none) (best : Option (Nat × Nat)) :
    l.foldl (better y r) best = best := by
  induction l with
  | nil => rfl
  | cons g l ih =>
    rw [List.foldl_cons, better_none (none_fits g (by simp))]
    exact ih fun h mem => none_fits h (by simp [mem])

/-- The best so far departs before t. -/
def Below (t : Nat) (best : Option (Nat × Nat)) : Prop := ∀ p, best = some p → p.1 < t

theorem below_foldl_better {t : Nat} {l : List Nat} {best : Option (Nat × Nat)} (start : Below t best)
    (earlier : ∀ g ∈ l, ∀ u, candidacy y r g = some u → u < t) : Below t (l.foldl (better y r) best) := by
  induction l generalizing best with
  | nil => exact start
  | cons g l ih =>
    refine ih ?_ fun h mem => earlier h (by simp [mem])
    cases fit : candidacy y r g with
    | none => rwa [better_none fit]
    | some u =>
      have first : u < t := earlier g (by simp) u fit
      rw [better_some fit]
      cases best with
      | none =>
        rintro p ⟨⟩
        exact first
      | some b =>
        intro p is
        unfold betterCandidate at is
        dsimp only at is
        split at is
        · cases is
          exact first
        · cases is
          exact start _ rfl

theorem foldl_better_stays {c t : Nat} {l : List Nat} (later : ∀ g ∈ l, ∀ u, candidacy y r g = some u → u ≤ t) :
    l.foldl (better y r) (some (t, c)) = some (t, c) := by
  induction l with
  | nil => rfl
  | cons g l ih =>
    have stays : better y r (some (t, c)) g = some (t, c) := by
      cases fit : candidacy y r g with
      | none => exact better_none fit _
      | some u => exact (better_some fit _).trans (if_neg (Nat.not_lt.mpr (later g (by simp) u fit)))
    rw [List.foldl_cons, stays]
    exact ih fun h mem => later h (by simp [mem])

theorem bestCandidate_none (none_fits : ∀ g ∈ frontOrder y, ∀ t, ¬Fits y r g t) : bestCandidate y r = none := by
  have unfit : ∀ g ∈ frontOrder y, candidacy y r g = none := fun g mem =>
    Option.eq_none_iff_forall_ne_some.mpr fun t fit => none_fits g mem t ((candidacy_iff g t).mp fit)
  exact congrArg (Option.map (·.2)) (foldl_better_none unfit none)

/-- The candidate of latest own departure, the first on a tie (R123). -/
theorem bestCandidate_some {before after : List Nat} {c t : Nat} (order : frontOrder y = before ++ c :: after)
    (fits : Fits y r c t) (earlier : ∀ g ∈ before, ∀ u, Fits y r g u → u < t)
    (later : ∀ g ∈ after, ∀ u, Fits y r g u → u ≤ t) : bestCandidate y r = some c := by
  have fold : (frontOrder y).foldl (better y r) none = some (t, c) := by
    have below : Below t (before.foldl (better y r) none) :=
      below_foldl_better (fun p is => by cases is) fun g mem u fit => earlier g mem u ((candidacy_iff g u).mp fit)
    have takes : better y r (before.foldl (better y r) none) c = some (t, c) := by
      rw [better_some ((candidacy_iff c t).mpr fits)]
      cases best : before.foldl (better y r) none with
      | none => rfl
      | some p => exact if_pos (below p best)
    rw [order, List.foldl_append, List.foldl_cons, takes]
    exact foldl_better_stays fun g mem u fit => later g mem u ((candidacy_iff g u).mp fit)
  exact congrArg (Option.map (·.2)) fold

theorem mayTakeDuty_iff (w : Option Nat) :
    mayTakeDuty y w = true ↔ ∃ g, w = some g ∧ stateOf y g ≠ some .absent := by
  cases w <;> simp [mayTakeDuty]

theorem substitute_none (none_fits : bestCandidate y r = none) :
    substitute k r reason y = block r.entry.number r reason y := by
  rw [substitute, none_fits]

theorem callFromFront_of {c d : Nat} {stand : Stand} (front : (vehOf y c).bind (atFront y) = some stand) :
    callFromFront k d c y = callVehicle k d c stand y := by
  rw [callFromFront, front]

/-- A substitution by the best candidate, from the front it stood at. -/
theorem substitute_some {c : Nat} {keep : Bool} {v : Vehicle} {stand : Stand} (best : bestCandidate y r = some c)
    (keeps : keep = true ↔ ∃ w, r.vehicle = some w ∧ stateOf y w ≠ some .absent) (veh : vehOf y c = some v)
    (front : atFront y v = some stand) :
    let d := r.entry.number
    substitute k r reason y = callVehicle k d c stand (raise .swap (some c) none (some d)
      (updDuty d (fun r => { r with marks := { r.marks with swapped := true } }) (exchange c d keep y))) := by
  intro d
  have may : mayTakeDuty y r.vehicle = keep := by rw [Bool.eq_iff_iff, keeps, mayTakeDuty_iff]
  have stands : SameStands y (raise .swap (some c) none (some d)
      (updDuty d (fun r => { r with marks := { r.marks with swapped := true } }) (exchange c d keep y))) :=
    ((SameStands.exchange c d keep y).trans (.updDuty ..)).trans ⟨rfl, rfl, rfl⟩
  rw [substitute, best]
  dsimp only
  rw [may]
  refine callFromFront_of ?_
  rw [stands.atFront_eq c, veh]
  exact front

theorem block_same (same : r.state = .blocked ∧ r.reason = some reason) (d : Nat) : block d r reason y = y := if_pos same

theorem block_enters (enters : r.state ≠ .blocked ∨ r.reason ≠ some reason) (d : Nat) :
    block d r reason y = raise .dutyBlocked r.vehicle none (some d)
      (updDuty d (fun r => { r with state := .blocked, reason := some reason }) y) :=
  if_neg fun same => enters.elim (· same.1) (· same.2)

end Substitution

/-! ## Evaluation -/

section Evaluate

variable {k : Site} {y : Yard} {r : Duty} {v : Vehicle} {collect : Bool} {d g : Nat}

theorem evaluate_free (free : k.clock.state = .free) : evaluate k collect d y = y := if_pos (by simp [clockFree, free])

theorem evaluate_settled (found : dutyOf y d = some r) (settled : ¬evaluable r.state = true) :
    evaluate k collect d y = y := by
  rw [evaluate, found]
  dsimp only
  rw [if_neg settled, ite_self]

theorem evaluate_runs (runs : k.clock.state ≠ .free) (found : dutyOf y d = some r) (open_ : evaluable r.state = true) :
    evaluate k collect d y = (r.vehicle.bind (vehOf y)).elim (substitute k r .noVehicle y)
      fun v => evaluateFor k r v collect y := by
  rw [evaluate, if_neg (by simpa [clockFree] using runs), found]
  dsimp only
  rw [if_pos open_]
  cases r.vehicle.bind (vehOf y) <;> rfl

theorem atFront_none (notParked : v.state ≠ .parked) (notApron : v.state ≠ .apron) : atFront y v = none := by
  unfold atFront
  split
  · next h => exact absurd h notParked
  · next h => exact absurd h notApron
  · rfl

theorem evaluateFor_front {stand : Stand} (front : atFront y v = some stand) :
    evaluateFor k r v collect y =
      if ready v r then callVehicle k r.entry.number v.entry.fleet stand y else substitute k r .notReady y := by
  rw [evaluateFor, front]

/-- The vehicle is in a service or on its way to its stand, so the duty is held (R122). -/
def InService (v : Vehicle) : Prop :=
  v.state = .fuelling ∨ v.state = .washing ∨ v.state = .stowPending ∨ v.state = .fuelWait ∨ v.state = .washWait

theorem evaluateFor_service (serves : InService v) : evaluateFor k r v collect y = hold k r v collect y := by
  obtain state | state | state | state | state := serves <;>
  · rw [evaluateFor, atFront_none (by rw [state]; decide) (by rw [state]; decide), state]

theorem evaluateFor_departing (state : v.state = .departing) :
    evaluateFor k r v collect y = callInPlace k r.entry.number v.entry.fleet y := by
  rw [evaluateFor, atFront_none (by rw [state]; decide) (by rw [state]; decide), state]

theorem evaluateFor_buried (state : v.state = .parked) (buried : atFront y v = none) :
    evaluateFor k r v collect y = substitute k r .buried y := by
  rw [evaluateFor, buried, state]

theorem evaluateFor_away (away : v.state = .stowWait ∨ v.state = .unlocated ∨ v.state = .absent ∨ v.state = .apron ∨
    v.state = .called) (front : atFront y v = none) : evaluateFor k r v collect y = substitute k r .noVehicle y := by
  obtain state | state | state | state | state := away <;>
  · rw [evaluateFor, front, state]

theorem hold_held (held : r.state = .held) : hold k r v collect y = y := if_pos held

theorem hold_enters (enters : r.state ≠ .held) :
    hold k r v collect y =
      let z := updDuty r.entry.number (fun r => { r with state := .held, reason := none }) y
      let urgent (fuel : Bool) (y : Yard) : Yard := { y with todo.urgent := y.todo.urgent ++ [(fuel, v.entry.fleet)] }
      match v.state with
      | .fuelWait => if collect then urgent true z else fuelCalls k (fuelUrgent v.entry.fleet z)
      | .washWait =>
        if r.entry.wash then
          if collect then urgent false z else washCalls k (washUrgent v.entry.fleet z)
        else washCalls k (defer k collect v.entry.fleet z)
      | _ => z := if_neg enters

end Evaluate

/-! ## What an event runs at its end -/

section Rounds

variable {k : Site} {y : Yard}

theorem drainDuty_done (lost : y.todo.lost = []) (rounds : y.todo.dutyRounds = 0) (bound : Nat) :
    drainDuty k bound y = y := by
  cases bound with
  | zero => rfl
  | succ n => rw [drainDuty, lost, rounds]

theorem drainDuty_round {m : Nat} (lost : y.todo.lost = []) (rounds : y.todo.dutyRounds = m + 1) (bound : Nat) :
    drainDuty k (bound + 1) y = drainDuty k bound (dutyRound k { y with todo.dutyRounds := m }) := by
  rw [drainDuty, lost, rounds]

theorem drainDuty_lost {d : Nat} {rest : List Nat} (lost : y.todo.lost = d :: rest) (bound : Nat) :
    drainDuty k (bound + 1) y = drainDuty k bound (evaluate k false d { y with todo.lost := rest }) := by
  rw [drainDuty, lost]

/-- The duties a withdrawn call returned, where their due minute has come, are owed an evaluation (R127). -/
theorem takeReturned_eq (k : Site) (y : Yard) :
    let due := y.todo.returned.filter fun d => (dutyOf y d).any fun r => dueMinute k r.entry ≤ presentMinute k
    takeReturned k y = { y with todo.returned := [], todo.lost := y.todo.lost ++ due } := by
  intro due
  have same : (y.todo.returned.filter fun d => match dutyOf y d with
      | some r => decide (dueMinute k r.entry ≤ presentMinute k)
      | none => false) = due :=
    List.filter_congr fun d _ => by cases dutyOf y d <;> rfl
  rw [← same]
  rfl

theorem drainFor_succ (bound : Nat) :
    let z := drainDuty k 4096 (takeReturned k y)
    (z.todo.roomRounds = 0 → drainFor k (bound + 1) y = z) ∧
    (∀ m, z.todo.roomRounds = m + 1 →
      drainFor k (bound + 1) y = drainFor k bound (retryRound k { z with todo.roomRounds := m })) := by
  intro z
  have run : drainFor k (bound + 1) y = match z.todo.roomRounds with
      | 0 => z
      | m + 1 => drainFor k bound (retryRound k { z with todo.roomRounds := m }) := rfl
  refine ⟨fun done => ?_, fun m owed => ?_⟩
  · rw [run, done]
  · rw [run, owed]

theorem dutyRound_eq {turn : Yard → Nat → Yard}
    (waits : ∀ z d, (∃ r, dutyOf z d = some r ∧ (r.state = .held ∨ r.state = .blocked)) → turn z d = evaluate k false d z)
    (rests : ∀ z d, (∀ r, dutyOf z d = some r → r.state ≠ .held ∧ r.state ≠ .blocked) → turn z d = z) :
    dutyRound k y = (dutyOrder y).foldl turn y := by
  refine congrArg (fun step => (dutyOrder y).foldl step y) (funext fun z => funext fun d => ?_)
  cases found : dutyOf z d with
  | none =>
    rw [rests z d (by simp [found])]
    simp [dutyStateOf, found]
  | some r =>
    by_cases waiting : r.state = .held ∨ r.state = .blocked
    · rw [waits z d ⟨r, found, waiting⟩]
      simp [dutyStateOf, found, (waiting_iff r.state).mpr waiting]
    · have idle : ¬Machine.waiting r.state = true := mt (waiting_iff r.state).mp waiting
      rw [rests z d fun e is => by rw [found] at is; cases is; exact not_or.mp waiting]
      simp [dutyStateOf, found, idle]

end Rounds

/-! ## A deferral -/

section Deferral

variable {k : Site} {y : Yard} {f : Nat}

theorem defer_absent (absent : f ∉ y.washQ) (collect : Bool) : defer k collect f y = y := if_neg (by simpa using absent)

theorem defer_queued (queued : f ∈ y.washQ) (collect : Bool) :
    let a := routeCases k (placement k) f (markWashIncomplete f { y with washQ := without y.washQ f })
    (a.2 ≠ .fuelRoad → defer k collect f y = a.1) ∧ (a.2 = .fuelRoad → defer k collect f y = fuelJoined k collect f a.1) := by
  intro a
  have run : defer k collect f y = match a with
      | (y, .fuelRoad) => fuelJoined k collect f y
      | (y, _) => y := if_pos (by simpa using queued)
  obtain ⟨z, dir⟩ := a
  refine ⟨fun other => ?_, fun fuel => ?_⟩
  · rw [run]
    cases dir with
    | fuelRoad => exact absurd rfl other
    | _ => rfl
  · dsimp only at fuel
    rw [run, fuel]

theorem fuelJoined_collected (held : ∃ r, pairedDuty y f = some r ∧ r.state = .held) :
    fuelJoined k true f y = fuelCalls k { y with todo.urgent := y.todo.urgent ++ [(true, f)] } := by
  rw [fuelJoined, if_pos ((dutyHeld_iff y f).mpr held)]
  rfl

theorem fuelJoined_unheld (free : ¬∃ r, pairedDuty y f = some r ∧ r.state = .held) (collect : Bool) :
    fuelJoined k collect f y = fuelCalls k y := by
  rw [fuelJoined, if_neg (mt (dutyHeld_iff y f).mp free)]

end Deferral

/-- Settles O48: the row of a duty by its vehicle's state, the substitution by its candidates, and the rounds by what is owed. -/
theorem evaluation : Obligations.Evaluation := by
  refine ⟨fun k collect d r y found => ?row, fun k r reason y => ?substitution, fun y => sortBy_inOrder _,
    fun k y turn turns => dutyRound_eq (fun z d => (turns z d).1) fun z d => (turns z d).2,
    fun k bound y => ⟨fun lost rounds => drainDuty_done lost rounds bound, fun m lost rounds =>
      drainDuty_round lost rounds bound, fun d rest lost => drainDuty_lost lost bound⟩,
    fun k bound y => ?drain, fun f y => ⟨fun queued => if_pos (by simpa using queued), fun absent =>
      if_neg (by simpa using absent), fun queued => if_pos (by simpa using queued), fun absent =>
      if_neg (by simpa using absent)⟩, fun k collect f y => ?deferral⟩
  case row =>
    intro run
    have open_iff := evaluable_iff r.state
    refine ⟨fun free => evaluate_free free, fun settled => evaluate_settled found ?_, fun runs opens => ⟨fun free => ?_,
      fun g v holds veh => ?_⟩⟩
    · rw [open_iff]
      obtain h | h | h := settled <;> simp [h]
    · refine (evaluate_runs runs found (open_iff.mpr opens)).trans ?_
      rw [free]
      rfl
    · intro held urgent
      have fleet := vehOf_fleet veh
      have number := dutyOf_number found
      have row : run = evaluateFor k r v collect y := by
        refine (evaluate_runs runs found (open_iff.mpr opens)).trans ?_
        rw [holds, Option.bind_some, veh]
        rfl
      have service (serves : InService v) : run = hold k r v collect y := row.trans (evaluateFor_service serves)
      have enters (serves : InService v) (notHeld : r.state ≠ .held) := (service serves).trans (hold_enters notHeld)
      refine ⟨fun stand front isReady => ?_, fun stand front notReady => ?_, fun departing => ?_,
        fun serves notHeld => ?_, fun waits notHeld => ?_, fun waits wash notHeld => ?_, fun waits noWash notHeld => ?_,
        fun serves isHeld => (service serves).trans (hold_held isHeld), fun parked buried => row.trans (evaluateFor_buried parked buried),
        fun away => row.trans (evaluateFor_away (away.imp id (.imp id .inl)) ?_),
        fun away front => row.trans (evaluateFor_away (.inr (.inr (.inr away))) front)⟩
      · rw [row, evaluateFor_front front, if_pos isReady, number, fleet]
      · rw [row, evaluateFor_front front, if_neg (by simp [notReady])]
      · rw [row, evaluateFor_departing departing, number, fleet]
      · refine (enters (serves.imp id (.imp id .inl)) notHeld).trans ?_
        rw [number]
        obtain state | state | state := serves <;> simp only [state] <;> rfl
      · refine (enters (.inr (.inr (.inr (.inl waits)))) notHeld).trans ?_
        rw [number, fleet, waits]
      · refine (enters (.inr (.inr (.inr (.inr waits)))) notHeld).trans ?_
        rw [number, fleet, waits]
        exact if_pos wash
      · refine (enters (.inr (.inr (.inr (.inr waits)))) notHeld).trans ?_
        rw [number, fleet, waits]
        exact if_neg (by simp [noWash])
      · obtain state | state | state := away <;> exact atFront_none (by rw [state]; decide) (by rw [state]; decide)
  case substitution =>
    intro d order fits run
    refine ⟨fun none_fits => ?_, fun before c after t keep v stand split fit earlier later keeps => ?_⟩
    · have blocks : run = block d r reason y := substitute_none (bestCandidate_none none_fits)
      exact ⟨fun state same => blocks.trans (block_same ⟨state, same⟩ d), fun enters => blocks.trans (block_enters enters d)⟩
    · intro z veh front
      exact substitute_some (bestCandidate_some split fit earlier later) keeps veh front
  case drain =>
    intro due z
    have taken : takeReturned k y = { y with todo.returned := [], todo.lost := y.todo.lost ++ due } := takeReturned_eq k y
    have run := drainFor_succ (k := k) (y := y) bound
    rw [taken] at run
    exact ⟨rfl, run⟩
  case deferral =>
    intro a z held run
    refine ⟨fun absent => defer_absent absent collect, fun queued => ?_⟩
    obtain ⟨elsewhere, fuel⟩ := defer_queued (k := k) queued collect
    refine ⟨elsewhere, fun road free => (fuel road).trans (fuelJoined_unheld free collect), fun road isHeld now => ?_,
      fun road isHeld later => ?_⟩
    · exact (fuel road).trans (by rw [now]; exact fuelJoined_held isHeld)
    · exact (fuel road).trans (by rw [later]; exact fuelJoined_collected isHeld)

end Sys2Proof.Machine

/-! The orders on the banks and on one duty: BANK_ACTIVATE, the bank step and DUTY_CANCEL. -/

namespace Sys2Proof.Machine

/-! ## Bank step -/

section BankStep

variable {k : Site} {y : Yard} {role : Bank}

/-- A duty at the start of its day, paired or not (R135). -/
def Fresh (r : Duty) : Prop :=
  r.state = .opened ∧ r.reason = none ∧ r.callTime = none ∧
    r.marks = { late := false, early := false, unconfirmed := false, swapped := false }

/-- The start of a day: no call and no pending activation, every duty fresh, and the shadow bank unpaired (R135). -/
structure DayStart (role : Bank) (y : Yard) : Prop where
  active : y.active = role
  activation : y.activation = false
  callList : y.callList = []
  fresh : ∀ bk, ∀ e ∈ bankOf y bk, Fresh e.2
  shadow : ∀ e ∈ bankOf y (otherBank role), e.2.vehicle = none

theorem otherBank_ne (bk : Bank) : otherBank bk ≠ bk := by cases bk <;> decide

namespace DayStart

/-- What changes neither bank, role, activation nor call list keeps the start of the day. -/
theorem of_eq {z : Yard} (h : DayStart role y) (active : z.active = y.active) (activation : z.activation = y.activation)
    (callList : z.callList = y.callList) (banks : ∀ bk, bankOf z bk = bankOf y bk) : DayStart role z where
  active := active.trans h.active
  activation := activation.trans h.activation
  callList := callList.trans h.callList
  fresh bk := by rw [banks]; exact h.fresh bk
  shadow := by rw [banks]; exact h.shadow

theorem updDuty {change : Duty → Duty} (h : DayStart role y) (keeps : ∀ r, Fresh r → Fresh (change r)) (d : Nat) :
    DayStart role (updDuty d change y) where
  active := (updDuty_active ..).trans h.active
  activation := (updDuty_activation ..).trans h.activation
  callList := (updDuty_callList ..).trans h.callList
  fresh bk e mem := by
    by_cases here : bk = y.active
    · rw [here, Machine.updDuty, bankOf_setBank_same, tmap, List.mem_map] at mem
      obtain ⟨q, mem, rfl⟩ := mem
      have was := h.fresh y.active q mem
      dsimp only
      split
      · exact keeps _ was
      · exact was
    · rw [bankOf_updDuty_ne _ _ _ here] at mem
      exact h.fresh bk e mem
  shadow e mem := by
    rw [bankOf_updDuty_ne _ _ _ (by rw [h.active]; exact otherBank_ne role)] at mem
    exact h.shadow e mem

theorem pair (h : DayStart role y) (f d : Nat) : DayStart role (pair f d y) :=
  DayStart.updDuty (change := fun r => { r with vehicle := some f })
    (h.of_eq (z := updVeh f (fun v => { v with duty := some d }) y) rfl rfl rfl fun bk => by cases bk <;> rfl)
    (fun _ fresh => fresh) d

theorem pairArrival (h : DayStart role y) (f : Nat) : DayStart role (pairArrival f y) := by
  unfold Machine.pairArrival
  split
  · exact h
  · split
    · exact h
    · split
      · exact h.pair ..
      · split
        · exact h.pair ..
        · exact h

theorem foldl_pairArrival (h : DayStart role y) (l : List Nat) :
    DayStart role (l.foldl (fun w g => Machine.pairArrival g w) y) := by
  induction l generalizing y with
  | nil => exact h
  | cons g l ih => exact ih (h.pairArrival g)

end DayStart

/-- The banks' roles, their duties and every vehicle's pairing at the start of the bank step (R135, steps 1 to 3). -/
def unpairedBanks (swap : Bool) (y : Yard) : Yard :=
  let y := resetBanks (if swap || y.activation then { y with active := otherBank y.active, activation := false } else y)
  { y with roster := tmap y.roster fun v => { v with duty := none } }

theorem unpairedBanks_eq (swap : Bool) (y : Yard) :
    let swapped := swap = true ∨ y.activation = true
    unpairedBanks swap y = { y with
      active := if swapped then otherBank y.active else y.active
      activation := false
      bankA := tmap y.bankA fun r => freshDuty r.entry
      bankB := tmap y.bankB fun r => freshDuty r.entry
      roster := tmap y.roster fun v => { v with duty := none } } := by
  intro swapped
  unfold unpairedBanks
  by_cases is : swapped
  · have h : (swap || y.activation) = true := by simpa using is
    rw [if_pos h, if_pos is]
    rfl
  · have h : (swap || y.activation) = false := by simpa [swapped, ← Bool.not_eq_true] using is
    obtain ⟨_, pending⟩ := Bool.or_eq_false_iff.mp h
    rw [if_neg (by simp [h]), if_neg is]
    cases y
    cases pending
    rfl

/-- The end of a call leaves the banks, their roles and the activation (R135). -/
theorem endCall_banks (y : Yard) (l : BoardLine) :
    (endCall k y l).active = y.active ∧ (endCall k y l).activation = y.activation ∧
      ∀ bk, bankOf (endCall k y l) bk = bankOf y bk := by
  unfold endCall standDown
  split
  · exact ⟨rfl, rfl, fun bk => by cases bk <;> rfl⟩
  · exact ⟨rfl, rfl, fun bk => by cases bk <;> rfl⟩

theorem foldl_endCall_banks (l : List BoardLine) (y : Yard) :
    (l.foldl (endCall k) y).active = y.active ∧ (l.foldl (endCall k) y).activation = y.activation ∧
      ∀ bk, bankOf (l.foldl (endCall k) y) bk = bankOf y bk := by
  induction l generalizing y with
  | nil => exact ⟨rfl, rfl, fun _ => rfl⟩
  | cons c l ih =>
    obtain ⟨active, activation, banks⟩ := endCall_banks (k := k) y c
    obtain ⟨active', activation', banks'⟩ := ih (endCall k y c)
    exact ⟨active'.trans active, activation'.trans activation, fun bk => (banks' bk).trans (banks bk)⟩

theorem freshDuty_fresh (e : DutyEntry) : Fresh (freshDuty e) := ⟨rfl, rfl, rfl, rfl⟩

/-- Before the pairing, the bank step has brought about the start of the day. -/
theorem dayStart_emptied (k : Site) (swap : Bool) (y : Yard) :
    DayStart (if swap = true ∨ y.activation = true then otherBank y.active else y.active)
      (boardsChanged { (y.callList.foldl (endCall k) (unpairedBanks swap y)) with callList := [] }) := by
  obtain ⟨active, activation, banks⟩ := foldl_endCall_banks (k := k) y.callList (unpairedBanks swap y)
  have at_ (bk : Bank) : bankOf (boardsChanged
      { (y.callList.foldl (endCall k) (unpairedBanks swap y)) with callList := [] }) bk =
      tmap (bankOf y bk) fun r => freshDuty r.entry := by
    refine Eq.trans (by cases bk <;> rfl) ((banks bk).trans ?_)
    rw [unpairedBanks_eq]
    cases bk <;> rfl
  have each {bk : Bank} {e : Nat × Duty} (mem : e ∈ bankOf (boardsChanged
      { (y.callList.foldl (endCall k) (unpairedBanks swap y)) with callList := [] }) bk) :
      ∃ q ∈ bankOf y bk, e.2 = freshDuty q.2.entry := by
    rw [at_, tmap, List.mem_map] at mem
    obtain ⟨q, mem, rfl⟩ := mem
    exact ⟨q, mem, rfl⟩
  refine ⟨active.trans ?_, activation.trans ?_, rfl, fun bk e mem => ?_, fun e mem => ?_⟩
  · rw [unpairedBanks_eq]
  · rw [unpairedBanks_eq]
  · obtain ⟨q, _, is⟩ := each mem
    rw [is]
    exact freshDuty_fresh _
  · obtain ⟨q, _, is⟩ := each mem
    rw [is]
    rfl

/-- Settles O50: the steps before the pairing bring about the start of a day, and pairing at arrival keeps it. -/
theorem bankStep_spec : Obligations.BankStep := by
  intro k swap y z
  have day : DayStart (if swap = true ∨ y.activation = true then otherBank y.active else y.active) z :=
    (dayStart_emptied k swap y).foldl_pairArrival _
  refine ⟨day.active, day.activation, day.callList, fun e mem => ?_, ?_, ?_⟩
  · have fresh : Fresh e.2 := (List.mem_append.mp mem).elim (day.fresh .a e) (day.fresh .b e)
    exact fresh
  · rw [day.active]
    exact day.shadow
  · intro fresh swapped unpaired ended called emptied order
    have steps : endCall k = ended := by
      funext w l
      unfold endCall standDown
      have state : stateOf (raise .callWithdrawn (some l.fleet) none (some l.duty) w) l.fleet = stateOf w l.fleet := rfl
      simp only [state, raise_apron, List.contains_iff_mem]
      rfl
    have start : unpairedBanks swap y = unpaired := unpairedBanks_eq swap y
    show (pairingOrder (boardsChanged { (y.callList.foldl (endCall k) (unpairedBanks swap y)) with callList := [] })).foldl
      (fun w g => pairArrival g w)
      (boardsChanged { (y.callList.foldl (endCall k) (unpairedBanks swap y)) with callList := [] }) = _
    rw [steps, start]
    rfl

end BankStep

/-! ## BANK_ACTIVATE and DUTY_CANCEL -/

section Orders

variable {s : State} {f : Frame} {rest : List Frame} {p : List Byte}

/-- A BANK_ACTIVATE in the mode of its row. -/
theorem bankStepCommand_order {mode : Nat} {act : Site → Yard → Yard × Result} {y : Yard}
    (h : CommandHead s f rest kindBankActivate p) (one : p.length = 1) (is : u8 p 0 = mode)
    (acts : act s.site s.yard = (y, .ok)) : bankStepCommand mode act s = .next (afterOrder s f rest y .ok) :=
  officeStep_order h (h.ofCode (.inr (.inl is))) (beq_iff_eq.mpr one) ((if_pos is).trans acts) (.inl rfl)

theorem bankStepCommand_range {mode : Nat} {act : Site → Yard → Yard × Result}
    (h : CommandHead s f rest kindBankActivate p) (one : p.length = 1) (outside : u8 p 0 < 1 ∨ 3 < u8 p 0)
    (inside : 1 ≤ mode ∧ mode ≤ 3) : bankStepCommand mode act s = .next (afterRefusal s f rest .range) :=
  officeStep_refusal (y := s.yard) h (h.ofCode (.inr (.inr outside))) (beq_iff_eq.mpr one) (if_neg (by omega)) (by decide)
    (by decide)

/-- Settles O49: the three modes, and NOW by the calls and the clock. -/
theorem bankActivate : Obligations.BankActivate := by
  intro s f rest p h one called
  have calls : tany (duties s.yard) (fun r => r.state == .called) = true ↔ called := by
    simpa only [beq_iff_eq] using tany_iff (duties s.yard) fun r => r.state == .called
  refine ⟨fun mode => bankStepCommand_order h one mode rfl, fun mode isCalled => ?_, fun mode none_called free => ?_,
    fun mode none_called runs => ?_, fun mode => bankStepCommand_order h one mode rfl, fun outside c row => ?_⟩
  · exact officeStep_refusal (y := s.yard) h (h.ofCode (.inr (.inl mode))) (beq_iff_eq.mpr one)
      ((if_pos mode).trans (if_pos (calls.mpr isCalled))) (by decide) (by decide)
  · refine bankStepCommand_order h one mode ((if_neg (mt calls.mp none_called)).trans ?_)
    dsimp only
    rw [if_pos (by simp [clockFree, free])]
  · refine bankStepCommand_order h one mode ((if_neg (mt calls.mp none_called)).trans ?_)
    dsimp only
    rw [if_neg (by simpa [clockFree] using runs)]
  · simp only [List.mem_cons, List.not_mem_nil, or_false] at row
    obtain rfl | rfl | rfl := row
    · exact bankStepCommand_range h one outside (by decide)
    · exact bankStepCommand_range h one outside (by decide)
    · exact bankStepCommand_range h one outside (by decide)

/-- Settles O51: the duty's number, its record, and its state in turn. -/
theorem dutyCancel : Obligations.DutyCancel := by
  intro s f rest p h two d
  refine ⟨fun outside => ?_, fun low high unknown => ?_, fun r low high found =>
    ⟨fun departed => ?_, fun cancelled => ?_, fun notDeparted notCancelled => ?_⟩⟩
  · exact officeStep_refusal (y := s.yard) h h.ofKind (beq_iff_eq.mpr two) (if_pos outside) (by decide) (by decide)
  · refine officeStep_refusal (y := s.yard) (r := .notFound) h h.ofKind (beq_iff_eq.mpr two) ?_ (by decide) (by decide)
    dsimp only
    rw [if_neg (by omega), unknown]
  · refine officeStep_refusal (y := s.yard) (r := .state) h h.ofKind (beq_iff_eq.mpr two) ?_ (by decide) (by decide)
    dsimp only
    rw [if_neg (by omega), found]
    dsimp only
    rw [departed]
  · refine officeStep_order h h.ofKind (beq_iff_eq.mpr two) ?_ (.inl rfl)
    dsimp only
    rw [if_neg (by omega), found]
    dsimp only
    rw [cancelled]
  · intro free
    refine officeStep_order h h.ofKind (beq_iff_eq.mpr two) ?_ (.inl rfl)
    have cancels : cancelDuty s.site r s.yard =
        leaveCallList d (updDuty d (fun r => { r with state := .cancelled, reason := none }) free) := by
      rewrite [cancelDuty, dutyOf_number found]
      show leaveCallList d (updDuty d _ _) = leaveCallList d (updDuty d _ (match r.vehicle with
        | some g => standDown s.site g (unpairRecords g s.yard)
        | none => s.yard))
      cases r.vehicle <;> rfl
    dsimp only
    rw [if_neg (by omega), found, ← cancels]
    dsimp only
    cases state : r.state with
    | departed => exact absurd state notDeparted
    | cancelled => exact absurd state notCancelled
    | _ => rfl

end Orders

end Sys2Proof.Machine

/-! DUTY_CALL: the exchange of duties, the call, and the departure boards. -/

namespace Sys2Proof.Machine

/-! ## The boards -/

section Boards

variable {k : Site} {lines : List BoardLine} {a : Nat}

/-- The lines of an image that differ from what the board should show, ascending. -/
def differs (k : Site) (lines : List BoardLine) (image : List ImageLine) : List Nat :=
  (List.range image.length).filter fun i => image[i]? ≠ some (boardTarget k lines i)

theorem mem_differs {image : List ImageLine} {j : Nat} :
    j ∈ differs k lines image ↔ j < image.length ∧ image[j]? ≠ some (boardTarget k lines j) := by
  simp [differs]

/-- The lowest line that differs. -/
theorem firstDiff_head (image : List ImageLine) : firstDiff k lines 0 image = (differs k lines image).head? := by
  rw [firstDiff_eq, differs, List.head?_filter]
  simp only [Nat.zero_add, Option.map_id']
  refine congrArg (List.find? · _) (funext fun i => ?_)
  rw [Bool.eq_iff_iff]
  simp

/-- A line brought to what it should show differs no more, and the others are as they were. -/
theorem differs_set {image : List ImageLine} {i : Nat} {rest : List Nat} (first : differs k lines image = i :: rest) :
    differs k lines (image.set i (boardTarget k lines i)) = rest := by
  have nodup : (i :: rest).Nodup := first ▸ List.nodup_range.filter _
  have shown : differs k lines (image.set i (boardTarget k lines i)) = (differs k lines image).filter fun j => j ≠ i := by
    simp only [differs, List.length_set, List.filter_filter]
    refine List.filter_congr fun j mem => ?_
    by_cases here : j = i
    · have inside : i < image.length := by simpa [here] using mem
      simp [here, inside]
    · simp [here, List.getElem?_set_ne (Ne.symm here)]
  rw [shown, first, List.filter_cons_of_neg (by simp)]
  exact List.filter_eq_self.mpr fun j mem => decide_eq_true fun is => (List.nodup_cons.mp nodup).1 (is ▸ mem)

theorem boardRun_same {n : Nat} {o : Out} {image : List ImageLine} (found : tget o.images a = some image)
    (same : differs k lines image = []) : boardRun k lines a n o = o := by
  cases n with
  | zero => rfl
  | succ n =>
    rw [boardRun, found, Option.getD_some, firstDiff_head, same]
    split <;> rfl

variable {o : Out} {image : List ImageLine} {i n : Nat} {rest : List Nat}

theorem boardRun_step (works : inManual k a = false) (free : heldForBoard o a = false)
    (found : tget o.images a = some image) (first : differs k lines image = i :: rest) :
    boardRun k lines a (n + 1) o = boardRun k lines a n (issue (boardFrame k lines a i) o) := by
  rw [boardRun, found, Option.getD_some, firstDiff_head, first, if_neg (by simp [works, free])]
  rfl

theorem boardFrame_dest (station : a < 256) (i : Nat) : (boardFrame k lines a i).frame.dest.toNat = a := by
  simp [boardFrame, byte, Nat.mod_eq_of_lt station]

/-- The frame of a line that must wait is held, and the comparison ends. -/
theorem boardRun_holds (station : a < 256) (works : inManual k a = false) (free : heldForBoard o a = false)
    (busy : o.held ≠ [] ∨ 16 ≤ o.fieldQ.length) (found : tget o.images a = some image)
    (first : differs k lines image = i :: rest) :
    boardRun k lines a (n + 1) o = { o with held := o.held ++ [boardFrame k lines a i] } := by
  have held : heldForBoard { o with held := o.held ++ [boardFrame k lines a i] } a = true :=
    (heldForBoard_iff ..).mpr ⟨boardFrame k lines a i, by simp, rfl, boardFrame_dest station i⟩
  rw [boardRun_step works free found first, issue_boardFrame_holds station free busy, boardRun_waits _ _ _ _ held]

theorem heldForBoard_none (none_held : o.held = []) : heldForBoard o a = false := by simp [heldForBoard, none_held]

/-- The lines that find a slot are placed, and the board's image takes them. -/
theorem boardRun_places (station : a < 256) (works : inManual k a = false) (l : List Nat) :
    ∀ (o : Out) (image : List ImageLine) (tail : List Nat), tget o.images a = some image → o.held = [] →
      differs k lines image = l ++ tail → o.fieldQ.length + l.length ≤ 16 →
      ∃ t shown, boardRun k lines a (n + l.length) o = boardRun k lines a n
          { o with
            images := t
            fieldQ := o.fieldQ ++ l.map fun j => { frame := (boardFrame k lines a j).frame, own := true } } ∧
        tget t a = some shown ∧ differs k lines shown = tail ∧ shown.length = image.length ∧
        (∀ j, j < image.length → shown[j]? = if j ∈ l then some (boardTarget k lines j) else image[j]?) ∧
        ∀ b, b ≠ a → tget t b = tget o.images b := by
  induction l with
  | nil =>
    intro o image tail found none_held split room
    exact ⟨o.images, image, by simp, found, by simpa using split, rfl, by simp, fun _ _ => rfl⟩
  | cons i l ih =>
    intro o image tail found none_held split room
    have slot : o.fieldQ.length < 16 := by simp at room; omega
    let image' := image.set i (boardTarget k lines i)
    let o' := placeFrame (boardFrame k lines a i) o
    have images : o'.images = tmod o.images a fun lines' => lines'.set i (boardTarget k lines i) :=
      congrArg (fun b => tmod o.images b fun lines' => lines'.set i (boardTarget k lines i)) (boardFrame_dest station i)
    have found' : tget o'.images a = some image' := by rw [images, tget_tmod_same, found]; rfl
    obtain ⟨t, shown, run, at_, differ, length, showing, others⟩ := ih o' image' tail found' none_held (differs_set split)
      (by simp [o', placeFrame] at room ⊢; omega)
    have lines_i : i < image.length := (mem_differs.mp (split ▸ List.mem_cons_self : i ∈ differs k lines image)).1
    refine ⟨t, shown, ?_, at_, differ, length.trans (by simp [image']), fun j inside => ?_, fun b other => ?_⟩
    · rw [List.length_cons, ← Nat.add_assoc, boardRun_step works (heldForBoard_none none_held) found split,
        issue_places none_held slot, run]
      simp [o', placeFrame]
    · rw [showing j (by simpa [image'] using inside)]
      by_cases mem : j ∈ l
      · simp [mem]
      · by_cases here : j = i
        · simp [here, image', lines_i]
        · simp [mem, here, image', List.getElem?_set_ne (Ne.symm here)]
    · rw [others b other, images, tget_tmod, if_neg other]

/-- The comparison of a board (R130), when `target` and `frame` are what its lines should show and their frames. -/
theorem compareBoard_rule (station : a < 256) (found : tget o.images a = some image) (twelve : image.length = 12)
    {target : Nat → ImageLine} (targets : boardTarget k lines = target) :
    let differ := (List.range 12).filter fun i => image[i]? ≠ some (target i)
    let hold (i : Nat) : Held := boardFrame k lines a i
    (inManual k a = true → compareBoard k lines o a = o) ∧
    (inManual k a = false → o.held = [] → o.fieldQ.length + differ.length ≤ 16 →
      ∃ t, compareBoard k lines o a =
          { o with images := t, fieldQ := o.fieldQ ++ differ.map fun i => { frame := (hold i).frame, own := true } } ∧
        tget t a = some ((List.range 12).map target) ∧ ∀ b, b ≠ a → tget t b = tget o.images b) ∧
    (∀ i rest, inManual k a = false → o.held = [] → 16 ≤ o.fieldQ.length → differ = i :: rest →
      compareBoard k lines o a = { o with held := [hold i] }) ∧
    (∀ before i after, inManual k a = false → o.held = [] → differ = before ++ i :: after →
      o.fieldQ.length + before.length = 16 →
      ∃ t shown, compareBoard k lines o a =
          { o with
            images := t, held := [hold i]
            fieldQ := o.fieldQ ++ before.map fun j => { frame := (hold j).frame, own := true } } ∧
        tget t a = some shown ∧ (∀ j, shown[j]? = if j ∈ before then some (target j) else image[j]?) ∧
        ∀ b, b ≠ a → tget t b = tget o.images b) ∧
    (inManual k a = false → o.held ≠ [] →
      let waits := ∃ h ∈ o.held, h.block = .departure ∧ h.frame.dest.toNat = a
      (waits ∨ differ = [] → compareBoard k lines o a = o) ∧
      (∀ i rest, ¬waits → differ = i :: rest → compareBoard k lines o a = { o with held := o.held ++ [hold i] })) := by
  intro differ hold
  have same : differ = differs k lines image := by
    rw [differs, targets, twelve]
  have short : differ.length ≤ 12 := Nat.le_trans (List.length_filter_le ..) (by simp)
  refine ⟨fun manual => compareBoard_rests (.inl manual), fun works none_held room => ?_,
    fun i rest works none_held full first => ?_, fun before i after works none_held split full => ?_,
    fun works others => ?waiting⟩
  · obtain ⟨t, shown, run, at_, none_left, length, showing, elsewhere⟩ := boardRun_places (n := 13 - differ.length) station
      works differ o image [] found none_held (by rw [List.append_nil, same]) room
    refine ⟨t, ?_, ?_, elsewhere⟩
    · have fuel : 13 = 13 - differ.length + differ.length := by omega
      show boardRun k lines a 13 o = _
      rw [fuel, run, boardRun_same at_ none_left]
    · rw [at_]
      refine congrArg some (List.ext_getElem? fun j => ?_)
      by_cases inside : j < 12
      · rw [showing j (by omega), List.getElem?_map, List.getElem?_range inside]
        by_cases mem : j ∈ differ
        · rw [if_pos mem, targets]
          rfl
        · rw [if_neg mem]
          have shows : image[j]? = some (target j) := by
            refine Classical.byContradiction fun other => ?_
            exact mem (List.mem_filter.mpr ⟨List.mem_range.mpr inside, by simpa using other⟩)
          rw [shows]
          rfl
      · rw [List.getElem?_eq_none (by omega), List.getElem?_eq_none (by simpa using inside)]
  · have run := boardRun_holds (n := 12) station works (heldForBoard_none none_held) (.inr full) found
      (same.symm.trans first)
    rw [none_held] at run
    exact run
  · obtain ⟨t, shown, run, at_, left, length, showing, elsewhere⟩ := boardRun_places (n := 12 - before.length + 1) station
      works before o image (i :: after) found none_held (same.symm.trans split) (by omega)
    have few : before.length < 12 := by rw [split] at short; simp at short; omega
    refine ⟨t, shown, ?_, at_, fun j => ?_, elsewhere⟩
    · have fuel : 13 = 12 - before.length + 1 + before.length := by omega
      show boardRun k lines a 13 o = _
      rw [fuel, run]
      refine (boardRun_holds station works ?_ (.inr ?_) at_ left).trans ?_
      · exact heldForBoard_none none_held
      · simp; omega
      · simp [none_held, hold]
    · by_cases inside : j < 12
      · rw [showing j (by omega), targets]
      · have apart : j ∉ before := fun mem => by
          have listed : j ∈ differ := by rw [split]; simp [mem]
          exact inside (List.mem_range.mp (List.mem_filter.mp listed).1)
        rw [if_neg apart, List.getElem?_eq_none (by omega), List.getElem?_eq_none (by omega)]
  case waiting =>
    intro waits
    refine ⟨fun idle => ?_, fun i rest free first => ?_⟩
    · obtain held | none_differs := idle
      · exact compareBoard_rests (.inr ((heldForBoard_iff ..).mpr held))
      · exact boardRun_same found (same.symm.trans none_differs)
    · exact boardRun_holds (n := 12) station works (Bool.eq_false_iff.mpr (mt (heldForBoard_iff ..).mp free))
        (.inl others) found (same.symm.trans first)

end Boards

/-! ## The exchange of duties and the call -/

section Calls

variable {k : Site} {y : Yard} {r : Duty} {d g f : Nat}

theorem passesOn_iff (w : Option Nat) (e : Option Duty) : passesOn y w e = true ↔
    (∃ v, w = some v ∧ stateOf y v ≠ some .absent) ∧
      ∃ q, e = some q ∧ (q.state = .opened ∨ q.state = .held ∨ q.state = .blocked) := by
  unfold passesOn
  rw [Bool.and_eq_true, mayTakeDuty_iff]
  cases e <;> simp [evaluable_iff]

theorem takeDuty_own (own : r.vehicle = some g) : takeDuty k g r y = y := if_pos own

/-- The exchange that a DUTY_CALL makes of another vehicle (R132). -/
theorem takeDuty_other {keep : Bool} (other : r.vehicle ≠ some g)
    (keeps : keep = true ↔ (∃ w, r.vehicle = some w ∧ stateOf y w ≠ some .absent) ∧
      ∃ e, pairedDuty y g = some e ∧ (e.state = .opened ∨ e.state = .held ∨ e.state = .blocked)) :
    let z := raise .swap none none none (updDuty r.entry.number
      (fun r => { r with marks := { r.marks with swapped := true } }) (exchange g r.entry.number keep y))
    takeDuty k g r y = (pairedDuty y g).elim z fun e =>
      if (dutyStateOf z e.entry.number).any waiting then evaluate k false e.entry.number z else z := by
  intro z
  have keep_eq : passesOn y r.vehicle (pairedDuty y g) = keep := by rw [Bool.eq_iff_iff, keeps, passesOn_iff]
  rw [takeDuty, if_neg other]
  dsimp only
  rw [keep_eq]
  cases pairedDuty y g <;> rfl

theorem any_waiting_iff (s : Option DutyState) : s.any waiting = true ↔ s = some .held ∨ s = some .blocked := by
  cases s with
  | none => simp
  | some s => simp [waiting_iff]

theorem unpairRecords_free (free : pairedNumber y f = none) : unpairRecords f y = y := by rw [unpairRecords, free]

theorem unpair_free (free : pairedNumber y f = none) : unpair f y = y := by rw [unpair, free]

theorem unpairRecords_paired (paired : pairedNumber y f = some d) : unpairRecords f y =
    updDuty d (fun r => { r with vehicle := none }) (updVeh f (fun v => { v with duty := none }) y) := by
  rw [unpairRecords, paired]

theorem unpair_paired (paired : pairedNumber y f = some d) : unpair f y = oweIfWaiting d (unpairRecords f y) := by
  rw [unpair, paired]

theorem oweIfWaiting_eq (waits : ∃ r, dutyOf y d = some r ∧ (r.state = .held ∨ r.state = .blocked)) :
    oweIfWaiting d y = { y with todo.lost := y.todo.lost ++ [d] } := by
  obtain ⟨r, found, waits⟩ := waits
  rw [oweIfWaiting, found]
  exact if_pos ((waiting_iff _).mpr waits)

theorem oweIfWaiting_rests (rests : ¬∃ r, dutyOf y d = some r ∧ (r.state = .held ∨ r.state = .blocked)) :
    oweIfWaiting d y = y := by
  cases found : dutyOf y d with
  | none => rw [oweIfWaiting, found]
  | some r =>
    rw [oweIfWaiting, found]
    exact if_neg fun waits => rests ⟨r, found, (waiting_iff _).mp waits⟩

/-- A duty that joins the call list (R125, R126). -/
theorem enterCallList_eq (found : dutyOf y d = some r) (k : Site) (f : Nat) (stand : Stand) (verify : Bool) :
    enterCallList k d f stand verify y =
      let z := updDuty d (fun r => { r with state := .called, reason := none, callTime := some (presentTime k) }) y
      { z with
        callList := z.callList ++
          [{ duty := d, fleet := f, departure := r.entry.departure, stand := stand, verify := verify }] } := by
  rw [enterCallList, found]
  rfl

theorem callVehicle_eq (k : Site) (d f : Nat) (stand : Stand) (y : Yard) :
    callVehicle k d f stand y = boardsChanged ((callSign k y stand).elim
      (setState k f .called (enterCallList k d f stand (laneDoubt y stand) y)) fun a =>
        sendOwn k .departure a 0x40
          (sent [(2, f), (1, 9), (1, standNumber stand), (2, d),
            (1, bit (laneDoubt y stand) 0 + bit (k.clock.state == .holdover) 1)])
          (setState k f .called (enterCallList k d f stand (laneDoubt y stand) y))) := by
  have lanes : (setState k f .called (enterCallList k d f stand (laneDoubt y stand) y)).lanes = y.lanes := by
    simp [enterCallList]
  have signs : callSign k (setState k f .called (enterCallList k d f stand (laneDoubt y stand) y)) stand =
      callSign k y stand := by
    cases stand with
    | lane n => simp only [callSign, lanes]
    | _ => rfl
  rw [callVehicle, signs]
  cases callSign k y stand with
  | none => rfl
  | some a =>
    rw [signPayload_eq_sent]
    rfl

theorem withdrawCall_unpaired (unpaired : pairedDuty y f = none) : withdrawCall f y = y := by rw [withdrawCall, unpaired]

theorem withdrawCall_paired (paired : pairedDuty y f = some r) :
    withdrawCall f y = if r.state = .called then
      let z := leaveCallList r.entry.number (updDuty r.entry.number (fun r => { r with state := .opened, callTime := none })
        (raise .callWithdrawn (some f) none (some r.entry.number) y))
      { z with todo.returned := z.todo.returned ++ [r.entry.number] }
    else y := by
  rw [withdrawCall, paired]

theorem standDown_eq : standDown k f y = if stateOf y f = some .called then
    report (setState k f (if f ∈ y.apron then .apron else .parked) y) else y := by
  rw [standDown]
  simp only [List.contains_iff_mem]

theorem leaveCallList_eq : leaveCallList d y = if ∃ l ∈ y.callList, l.duty = d then
    boardsChanged { y with callList := y.callList.filter fun l => l.duty ≠ d } else y := by
  have kept : (y.callList.filter fun l => l.duty != d) = y.callList.filter fun l => l.duty ≠ d :=
    List.filter_congr fun l _ => by rw [Bool.eq_iff_iff]; simp
  rw [leaveCallList, kept]
  refine ite_congr_iff ?_ ..
  simp

theorem settleDuty_unknown (unknown : dutyOf y d = none) : settleDuty d y = y := by rw [settleDuty, unknown]

theorem settleDuty_found (found : dutyOf y d = some r) :
    settleDuty d y = if r.state = .called then leaveCallList d (updDuty d (fun r => { r with state := .departed }) y)
      else if r.state = .opened ∨ r.state = .held ∨ r.state = .blocked then
        updDuty d (fun r => { r with state := .departed, reason := none, marks := { r.marks with early := true } }) y
      else y := by
  rw [settleDuty, found]
  simp only [evaluable_iff]

theorem callFromFront_none (none_ : ∀ stand, ¬∃ w, vehOf y f = some w ∧ atFront y w = some stand) :
    callFromFront k d f y = y := by
  have front : (vehOf y f).bind (atFront y) = none :=
    Option.eq_none_iff_forall_ne_some.mpr fun stand at_ => none_ stand (Option.bind_eq_some_iff.mp at_)
  rw [callFromFront, front]

/-- The DUTY_CALL of a vehicle that may take the duty. -/
theorem execDutyCall_calls {s : State} {h : Frame} {rest : List Frame} {p : List Byte} {v : Vehicle}
    (head : CommandHead s h rest kindDutyCall p) (four : p.length = 4) (low : 1 ≤ u16 p 0) (high : u16 p 0 ≤ 9999)
    (found : dutyOf s.yard (u16 p 0) = some r) (veh : vehOf s.yard (u16 p 2) = some v)
    (may : ¬(s.site.clock.state = .free ∨ ¬(r.state = .opened ∨ r.state = .held ∨ r.state = .blocked) ∨
      atFront s.yard v = none ∨ v.entry.outOfService = true ∨ inMask r.entry.mask v.entry.cls = false)) :
    exec .dutyCall s = .next (afterOrder s h rest
      (callFromFront s.site (u16 p 0) (u16 p 2) (takeDuty s.site (u16 p 2) r s.yard)) .ok) := by
  obtain ⟨runs, may⟩ := not_or.mp may
  obtain ⟨open_, may⟩ := not_or.mp may
  obtain ⟨front, may⟩ := not_or.mp may
  obtain ⟨inService, inMask_⟩ := not_or.mp may
  obtain ⟨stand, at_⟩ := Option.ne_none_iff_exists'.mp front
  refine officeStep_order head head.ofKind (beq_iff_eq.mpr four) ?_ (.inl rfl)
  dsimp only
  rw [if_neg (by omega), found, veh]
  dsimp only
  rw [if_neg (by simp [clockFree, runs, (evaluable_iff r.state).mpr (Classical.not_not.mp open_)]), at_]
  dsimp only
  rw [if_neg (by simp [inService, inMask_])]

/-- Settles O52: the command by its tests and its vehicle, then each operation that a call is made of. -/
theorem dutyCall_spec : Obligations.DutyCall := by
  refine ⟨fun s h rest p head four => ?command, fun k g r y keep => ?takes, fun f d y => rfl,
    fun f y => ⟨fun free => ⟨unpairRecords_free free, unpair_free free⟩, fun d paired => ⟨unpairRecords_paired paired, ?unpairs⟩⟩,
    fun d y => ⟨oweIfWaiting_eq, oweIfWaiting_rests⟩, fun c d keep y => ?exchanges, fun k d f y r found => ?calls,
    fun k f y => ⟨withdrawCall_unpaired, ?withdraws, fun called => standDown_eq.trans (if_pos called),
      fun other => standDown_eq.trans (if_neg other)⟩,
    fun d y => ⟨fun listed => leaveCallList_eq.trans (if_pos listed), fun unlisted => leaveCallList_eq.trans (if_neg unlisted),
      settleDuty_unknown, fun r found => ⟨fun called => ?_, fun waits => ?_, fun left => ?_⟩⟩,
    fun k lines o => ?hands, fun k o => ?syncs, fun k lines a o image station found twelve => ?compares⟩
  case command =>
    intro d g
    refine ⟨fun outside => ?_, fun low high unknown => ?_, fun r v low high found veh => ?_⟩
    · exact officeStep_refusal (y := s.yard) head head.ofKind (beq_iff_eq.mpr four) (if_pos outside) (by decide) (by decide)
    · refine officeStep_refusal (y := s.yard) (r := .notFound) head head.ofKind (beq_iff_eq.mpr four) ?_ (by decide)
        (by decide)
      dsimp only
      rw [if_neg (by omega)]
      obtain duty | vehicle := unknown
      · rw [duty]
      · rw [vehicle]
        cases dutyOf s.yard (u16 p 0) <;> rfl
    · intro front barred
      refine ⟨fun isBarred => ?_, fun stand free at_ own => ?_, fun free other => ?_⟩
      · refine officeStep_refusal (y := s.yard) (r := .state) head head.ofKind (beq_iff_eq.mpr four) ?_ (by decide)
          (by decide)
        dsimp only
        rw [if_neg (by omega), found, veh]
        dsimp only
        by_cases first : s.site.clock.state = .free ∨ ¬(r.state = .opened ∨ r.state = .held ∨ r.state = .blocked)
        · refine if_pos ?_
          rw [← evaluable_iff] at first
          simpa [clockFree] using first
        · obtain ⟨runs, open_⟩ := not_or.mp first
          rw [if_neg (by simp [clockFree, runs, (evaluable_iff r.state).mpr (Classical.not_not.mp open_)])]
          cases at_ : atFront s.yard v with
          | none => rfl
          | some stand =>
            refine if_pos ?_
            have last : v.entry.outOfService = true ∨ inMask r.entry.mask v.entry.cls = false := by
              obtain h | h | h | h := isBarred
              · exact absurd h runs
              · exact absurd h open_
              · exact absurd (at_.symm.trans h) (by simp)
              · exact h
            simpa using last
      · rw [execDutyCall_calls head four low high found veh free, takeDuty_own own]
        rw [callFromFront_of (stand := stand) (by rw [veh]; exact at_)]
      · intro z stood
        have calls := execDutyCall_calls head four low high found veh free
        refine ⟨fun stand ⟨w, at_, front⟩ => ?_, fun nowhere => ?_⟩
        · rw [calls, callFromFront_of (stand := stand) (by rw [at_]; exact front)]
        · rw [calls, callFromFront_none nowhere]
  case takes =>
    intro d keeps z
    refine ⟨takeDuty_own, fun other unpaired => ?_, fun e other paired => ?_⟩
    · rw [takeDuty_other other keeps, unpaired]
      rfl
    · rw [takeDuty_other other keeps, paired]
      exact ite_congr_iff (any_waiting_iff _) ..
  case unpairs =>
    rw [unpair_paired paired, unpairRecords_paired paired]
  case exchanges =>
    refine ⟨fun w e holder paired kept => ?_, fun alone => ?_⟩
    · unfold exchange
      simp only [holder, paired, kept, if_true]
    · unfold exchange
      cases holder : (dutyOf y d).bind (·.vehicle) with
      | none => cases pairedNumber y c <;> rfl
      | some w =>
        cases paired : pairedNumber y c with
        | none => rfl
        | some e =>
          have notKept : keep = false := (alone.resolve_left (by simp [holder])).resolve_left (by simp [paired])
          rewrite [notKept]
          rfl
  case calls =>
    intro listed show_
    refine ⟨fun n l lane => ?_, ?_, ?_, ?_⟩
    · have sign : callSign k y (.lane n) = l.entry.frontSign := by simp [callSign, lane]
      have doubt : laneDoubt y (.lane n) = l.doubt := by simp [laneDoubt, lane]
      rw [callVehicle_eq, sign, doubt, enterCallList_eq found]
      cases l.entry.frontSign <;> rfl
    · have sign : callSign k y .apron = optional (setting k 6) := rfl
      have clear : laneDoubt y .apron = false := rfl
      rw [callVehicle_eq, sign, clear, enterCallList_eq found]
      cases optional (setting k 6) <;> rfl
    · rewrite [callInPlace, enterCallList_eq found]
      rfl
    · rewrite [directRelease, enterCallList_eq found]
      rfl
  case withdraws =>
    intro r paired d z
    exact ⟨fun other => (withdrawCall_paired paired).trans (if_neg other), fun called =>
      (withdrawCall_paired paired).trans (if_pos called)⟩
  case hands =>
    have addresses : boardAddresses k = (k.stations.filter fun s => s.2.entry.role = .board).map (·.2.entry.address) := by
      simp only [boardAddresses, Bool.beq_eq_decide_eq]
    show updateBoards k lines o = _
    rw [updateBoards, addresses]
  case syncs =>
    refine ⟨(syncImages k o).images, rfl, fun a => ⟨fun board => ?_, fun other => ?_⟩⟩
    · rw [tget_syncImages, if_pos ((mem_boardAddresses k a).mpr board)]
      rfl
    · rw [tget_syncImages, if_neg (mt (mem_boardAddresses k a).mp other)]
  case compares =>
    intro target frame differ
    have targets : boardTarget k lines = target := funext (boardTarget_eq k lines)
    have holds : (fun i => boardFrame k lines a i) =
        fun i => { block := .departure, frame := frame i, image := some (i, target i) } := by
      funext i
      rw [boardFrame, targets, imageLineBytes_eq_sent, ← sent_one]
      rfl
    have rule := compareBoard_rule (o := o) station found twelve targets
    rw [holds] at rule
    exact rule
  · exact (settleDuty_found found).trans (if_pos called)
  · have notCalled : r.state ≠ .called := by obtain h | h | h := waits <;> simp [h]
    exact (settleDuty_found found).trans ((if_neg notCalled).trans (if_pos waits))
  · have notCalled : r.state ≠ .called := by obtain h | h := left <;> simp [h]
    exact (settleDuty_found found).trans ((if_neg notCalled).trans (if_neg (by obtain h | h := left <;> simp [h])))

end Calls

end Sys2Proof.Machine

/-! The Yard Clock: TIME, the running second and the holdover timer. -/

namespace Sys2Proof.Machine

/-! ## TIME -/

section Time

variable {day second : Nat} {d : Desk}

/-- The site an accepted TIME leaves, with the minute it has processed. -/
def lockedAt (day second : Nat) (k : Site) (m : Option Nat) : Site :=
  { k with clock := { day := day, second := second, phase := 0, state := .locked, processed := m, holdover := some k.now } }

/-- What a TIME offers before all it causes. -/
def toldLocked (day second : Nat) (d : Desk) : Out :=
  if d.site.clock.state = .locked then d.out
  else offerNotice (lockedAt day second d.site d.site.clock.processed) .clockLocked none none none d.out

/-- The desk of an accepted TIME whose effects leave the yard `y`, up to and including the present minute. -/
def timeReaches (day second : Nat) (d : Desk) (y : Yard) : Desk :=
  { settle { out := toldLocked day second d, site := lockedAt day second d.site d.site.clock.processed, yard := y } with
    site := lockedAt day second d.site (some (second / 60)) }

theorem announceLock_eq (was : ClockState) (d : Desk) : announceLock was d =
    { d with out := if was = .locked then d.out else offerNotice d.site .clockLocked none none none d.out } := by
  cases was <;> rfl

/-- The announcement of a TIME, with the clock already set. -/
theorem announceLock_setClock (day second : Nat) (d : Desk) :
    announceLock d.site.clock.state { d with site := setClock day second d.site } =
      { out := toldLocked day second d, site := lockedAt day second d.site d.site.clock.processed, yard := d.yard } :=
  announceLock_eq ..

theorem takeTime_free (free : d.site.clock.state = .free) : takeTime day second d =
    timeReaches day second d (catchUp (lockedAt day second d.site d.site.clock.processed) d.yard) := by
  have steps : takeTime day second d =
      lockClock (announceLock d.site.clock.state { d with site := setClock day second d.site }) := if_pos free
  rewrite [steps, announceLock_setClock]
  rfl

theorem takeTime_across (runs : d.site.clock.state ≠ .free) (later : d.site.clock.day < day) : takeTime day second d =
    timeReaches day second d
      (deliverAfterRollover (lockedAt day second d.site d.site.clock.processed) 0 (second / 60)
        (rollover (lockedAt day second d.site d.site.clock.processed) d.yard)) := by
  have steps : takeTime day second d =
      stepAcross (announceLock d.site.clock.state { d with site := setClock day second d.site }) :=
    (if_neg runs).trans (if_pos later)
  rewrite [steps, announceLock_setClock]
  rfl

theorem takeTime_within (runs : d.site.clock.state ≠ .free) (same : day ≤ d.site.clock.day) : takeTime day second d =
    stepWithin { out := toldLocked day second d, site := lockedAt day second d.site d.site.clock.processed, yard := d.yard } := by
  have steps : takeTime day second d =
      stepWithin (announceLock d.site.clock.state { d with site := setClock day second d.site }) :=
    (if_neg runs).trans (if_neg (by omega))
  rw [steps, announceLock_setClock]

/-- A step within the day that reaches a minute not yet processed. -/
theorem takeTime_delivers (runs : d.site.clock.state ≠ .free) (same : day ≤ d.site.clock.day)
    (reached : firstMinute d.site ≤ second / 60) : takeTime day second d =
    timeReaches day second d (deliver (lockedAt day second d.site d.site.clock.processed) (firstMinute d.site) (second / 60)
      d.yard) :=
  (takeTime_within runs same).trans (if_pos reached)

theorem takeTime_delivers_none (runs : d.site.clock.state ≠ .free) (same : day ≤ d.site.clock.day)
    (ahead : ¬firstMinute d.site ≤ second / 60) : takeTime day second d =
    { out := toldLocked day second d, site := lockedAt day second d.site d.site.clock.processed, yard := d.yard } :=
  (takeTime_within runs same).trans (if_neg ahead)

theorem firstMinute_none {k : Site} (none_ : k.clock.processed = none) : firstMinute k = 0 := by rw [firstMinute, none_]

theorem firstMinute_some {k : Site} {m : Nat} (some_ : k.clock.processed = some m) : firstMinute k = m + 1 := by
  rw [firstMinute, some_]

/-- A TIME stays in the processed minute where it steps within the day to a minute not beyond it. -/
def timeStays (day second : Nat) (k : Site) : Prop :=
  k.clock.state ≠ .free ∧ day = k.clock.day ∧ ∃ m, k.clock.processed = some m ∧ second / 60 ≤ m

theorem takeTime_site_of_stays (stays : timeStays day second d.site) :
    (takeTime day second d).site = lockedAt day second d.site d.site.clock.processed := by
  obtain ⟨runs, same, m, processed, ahead⟩ := stays
  rw [takeTime_delivers_none runs (by omega) (by rw [firstMinute_some processed]; omega)]

theorem takeTime_site_of_moves (forward_ : d.site.clock.state ≠ .free → d.site.clock.day ≤ day)
    (moves : ¬timeStays day second d.site) :
    (takeTime day second d).site = lockedAt day second d.site (some (second / 60)) := by
  by_cases free : d.site.clock.state = .free
  · rw [takeTime_free free]
    rfl
  obtain later | same : d.site.clock.day < day ∨ day = d.site.clock.day := by have := forward_ free; omega
  · rw [takeTime_across free later]
    rfl
  · have reached : firstMinute d.site ≤ second / 60 := by
      rcases processed : d.site.clock.processed with _ | m
      · rw [firstMinute_none processed]; omega
      · have short : ¬second / 60 ≤ m := fun ahead => moves ⟨free, same, m, processed, ahead⟩
        rw [firstMinute_some processed]
        omega
    rw [takeTime_delivers free (by omega) reached]
    rfl

/-- Settles O53: the desk of an accepted TIME in each of its four cases, which also gives the clock it leaves. -/
theorem time : Obligations.Time := by
  refine ⟨fun s f rest p head five => ?_, fun day second d => ⟨takeTime_free,
    fun runs same => ⟨?unprocessed, ?beyond, ?reached⟩, takeTime_across⟩⟩
  · intro day second c refused stays t site
    have answer {e : Desk} {r : Result} (handles : timeHandler p f (reservedDesk s) = (e, plain r)) :
        exec .time s = .next (afterCommand s f rest e r []) :=
      officeStep_answer head head.ofKind (beq_iff_eq.mpr five) handles
    refine ⟨fun bad => answer ?_, fun good => ⟨answer ?_, takeTime_site_of_stays (d := reservedDesk s),
      takeTime_site_of_moves (d := reservedDesk s) fun runs => ?_⟩⟩
    · by_cases beyond : 86399 < second
      · exact if_pos beyond
      · obtain ⟨runs, earlier⟩ := bad.resolve_left beyond
        exact (if_neg beyond).trans (if_pos ⟨by simpa [clockFree] using runs, earlier⟩)
    · obtain ⟨inDay, notEarlier⟩ := not_or.mp good
      refine (if_neg inDay).trans (if_neg fun earlier => notEarlier ⟨by simpa [clockFree] using earlier.1, earlier.2⟩)
    · exact Nat.le_of_not_lt fun earlier => good (.inr ⟨runs, earlier⟩)
  case unprocessed =>
    intro processed
    have first := firstMinute_none processed
    have runs' := takeTime_delivers (second := second) runs same (by omega)
    rwa [first] at runs'
  case beyond =>
    intro m processed short
    have first := firstMinute_some processed
    have runs' := takeTime_delivers (second := second) runs same (by omega)
    rwa [first] at runs'
  case reached =>
    intro m processed ahead
    exact takeTime_delivers_none runs same (by rw [firstMinute_some processed]; omega)

end Time

/-! ## The running clock -/

section Running

variable {s : State}

/-- The desk at the next whole second of the timebase, with its clock not yet moved. -/
def atNextSecond (s : State) : Desk := { s.desk with site := toNextSecond s.site }

theorem secondAdvance_free (inDay : s.site.clock.second < 86399) (free : s.site.clock.state = .free) :
    exec .yardSecondAdvance s = .next { s with site := nextSecond (toNextSecond s.site) } := by
  have step : advanceSecond (atNextSecond s) = { s.desk with site := nextSecond (toNextSecond s.site) } :=
    (if_neg (Nat.not_le_of_lt inDay)).trans (if_pos (beq_iff_eq.mpr free))
  exact congrArg (next s) step

theorem secondAdvance_free_midnight (midnight : s.site.clock.second = 86399) (free : s.site.clock.state = .free) :
    exec .yardSecondAdvance s = .next { s with site := nextDay (toNextSecond s.site) } := by
  have step : advanceSecond (atNextSecond s) = { s.desk with site := nextDay (toNextSecond s.site) } :=
    (if_pos (Nat.le_of_eq midnight.symm)).trans (if_pos (beq_iff_eq.mpr free))
  exact congrArg (next s) step

/-- A running clock within the day delivers the minute it reaches, if that is beyond the processed one. -/
theorem secondAdvance_runs (inDay : s.site.clock.second < 86399) (runs : s.site.clock.state ≠ .free) :
    exec .yardSecondAdvance s = next s (enterMinute { s.desk with site := nextSecond (toNextSecond s.site) }) := by
  have step : advanceSecond (atNextSecond s) = enterMinute { s.desk with site := nextSecond (toNextSecond s.site) } :=
    (if_neg (Nat.not_le_of_lt inDay)).trans (if_neg (mt beq_iff_eq.mp runs))
  exact congrArg (next s) step

theorem secondAdvance_rollover (midnight : s.site.clock.second = 86399) (runs : s.site.clock.state ≠ .free) :
    exec .yardSecondAdvance s = next s (rolloverDesk (atNextSecond s)) := by
  have step : advanceSecond (atNextSecond s) = rolloverDesk (atNextSecond s) :=
    (if_pos (Nat.le_of_eq midnight.symm)).trans (if_neg (mt beq_iff_eq.mp runs))
  exact congrArg (next s) step

theorem enterMinute_beyond {d : Desk} (beyond : firstMinute d.site ≤ presentMinute d.site) : enterMinute d =
    setProcessed (presentMinute d.site) (settle { d with yard := minuteEvent d.site d.yard (presentMinute d.site) }) :=
  if_pos beyond

theorem enterMinute_processed {d : Desk} (processed : ¬firstMinute d.site ≤ presentMinute d.site) : enterMinute d = d :=
  if_neg processed

end Running

/-! ## Minute events -/

section Minutes

variable {k : Site} {y : Yard} {d : Nat}

theorem dutiesWhere_eq (y : Yard) (p : Duty → Bool) :
    dutiesWhere y p = (dutyOrder y).filter fun d => (dutyOf y d).any p := by
  refine List.filter_congr fun d _ => ?_
  cases dutyOf y d <;> rfl

theorem minuteEvent_eq (k : Site) (y : Yard) (m : Nat) :
    let after := (dutiesWhere y fun r => decide (dueMinute k r.entry = m)).foldl (dueEvent k true) y
    let urgent := drain k (issueUrgent k after)
    minuteEvent k y m = (dutiesWhere urgent fun r => decide (lateMinute k r.entry = m)).foldl (fun z d => lateEvent d z) urgent := by
  simp only [minuteEvent, Bool.beq_eq_decide_eq]

/-- A catch-up passes over the duties already marked late. -/
theorem catchUp_eq (k : Site) (y : Yard) :
    let caught := (dutiesWhere y fun r => decide (dueMinute k r.entry ≤ presentMinute k)).foldl (dueEvent k false) y
    catchUp k y = (dutiesWhere caught fun r => decide (lateMinute k r.entry ≤ presentMinute k)).foldl
      (fun z d => if (dutyOf z d).any (·.marks.late) then z else lateEvent d z) caught := by
  intro caught
  have marked (z : Yard) (d : Nat) : (dutyOf z d).map (·.marks.late) = some true ↔ (dutyOf z d).any (·.marks.late) = true := by
    cases dutyOf z d <;> simp
  simp only [catchUp, marked]
  rfl

theorem lateEvent_unknown (unknown : dutyOf y d = none) : lateEvent d y = y := by rw [lateEvent, unknown]

variable {r : Duty}

theorem lateEvent_found (found : dutyOf y d = some r) : lateEvent d y =
    if evaluable r.state then markLate d r y
    else if r.state = .called ∧ (r.vehicle.bind (stateOf y)) = some .called then raise .callOverdue r.vehicle none (some d) y
    else y := by
  rw [lateEvent, found]

theorem lateEvent_evaluable (found : dutyOf y d = some r) (waits : r.state = .opened ∨ r.state = .held ∨ r.state = .blocked) :
    lateEvent d y = markLate d r y :=
  (lateEvent_found found).trans (if_pos ((evaluable_iff _).mpr waits))

theorem lateEvent_called (found : dutyOf y d = some r) (called : r.state = .called)
    (stands : ∃ g, r.vehicle = some g ∧ stateOf y g = some .called) :
    lateEvent d y = raise .callOverdue r.vehicle none (some d) y :=
  (lateEvent_found found).trans ((if_neg (by rw [called]; decide)).trans (if_pos ⟨called, Option.bind_eq_some_iff.mpr stands⟩))

/-- The late minute of a duty that neither waits nor is called by a vehicle standing called passes without effect. -/
theorem lateEvent_passes (found : dutyOf y d = some r) (left : evaluable r.state = false)
    (gone : ¬(r.state = .called ∧ ∃ g, r.vehicle = some g ∧ stateOf y g = some .called)) : lateEvent d y = y := by
  rw [lateEvent_found found, left, if_neg Bool.false_ne_true, if_neg]
  rwa [Option.bind_eq_some_iff]

end Minutes

/-- Settles O54: the running clock by its hour, the minute event and the catch-up by the duties they reach, and the holdover
timer. -/
theorem clockRuns : Obligations.ClockRuns := by
  refine ⟨?second, fun k e => ⟨rfl, rfl⟩, ?minutes, ?events, ?holdover⟩
  case second =>
    intro s _ now c minute midnight later run
    refine ⟨secondAdvance_free, secondAdvance_free_midnight, fun inDay runs => ⟨?_, ?_⟩, secondAdvance_rollover⟩
    · intro m processed ahead
      have first : firstMinute (nextSecond (toNextSecond s.site)) = m + 1 := firstMinute_some processed
      refine (secondAdvance_runs inDay runs).trans (congrArg (next s) (enterMinute_processed ?_))
      rw [first]
      exact Nat.not_le_of_lt (Nat.lt_succ_of_le ahead)
    · intro unprocessed
      refine (secondAdvance_runs inDay runs).trans (congrArg (next s) (enterMinute_beyond ?_))
      obtain none_ | ⟨m, processed, short⟩ := unprocessed
      · have first : firstMinute (nextSecond (toNextSecond s.site)) = 0 := firstMinute_none none_
        exact first ▸ Nat.zero_le _
      · have first : firstMinute (nextSecond (toNextSecond s.site)) = m + 1 := firstMinute_some processed
        exact first ▸ short
  case minutes =>
    intro k m y where_ after urgent caught
    have reaches (z : Yard) (p : Duty → Bool) : where_ z p = dutiesWhere z p := (dutiesWhere_eq z p).symm
    refine ⟨(minuteEvent_eq k y m).trans ?_, (catchUp_eq k y).trans ?_⟩
    · simp only [urgent, after, reaches]
      rfl
    · simp only [caught, reaches]
  case events =>
    intro k collect d y
    refine ⟨fun opened => if_pos opened, fun other => if_neg other, lateEvent_unknown, fun r found =>
      ⟨lateEvent_evaluable found, lateEvent_called found, ?_, ?_⟩⟩
    · intro called gone
      exact lateEvent_passes found (by rw [called]; rfl) fun stands => gone stands.2
    · intro left
      refine lateEvent_passes found (by obtain h | h := left <;> rw [h] <;> rfl) fun stands => ?_
      obtain h | h := left <;> exact absurd (h.symm.trans stands.1) (by decide)
  case holdover =>
    intro s t0 timer due k
    have isDue : holdoverDue s.site = true := (holdoverDue_iff _).mpr ⟨t0, timer, due⟩
    refine ⟨fun locked => if_pos ⟨locked, isDue⟩, fun holdover => if_neg fun both => ?_⟩
    exact absurd (holdover.symm.trans both.1) (by decide)

end Sys2Proof.Machine

/-! VEHICLE_SET: a vehicle taken out of its holder, and the five orders. -/

namespace Sys2Proof.Machine

/-! ## Out of a holder -/

section Holders

variable {k : Site} {g n : Nat} {y : Yard}

theorem outOfLane_eq {l : Lane} (found : tget y.lanes n = some l) :
    let z := roomEvent (updLane n (fun l => { l with items := l.items.filter fun i => i.vehicle ≠ some g, doubt := true }) y)
    outOfLane n g y = if frontVehicle l = some g then report z else z := by
  have differ (v : Option Nat) : (v != some g) = decide (v ≠ some g) := by simp only [bne, Bool.beq_eq_decide_eq, decide_not]
  simp only [outOfLane, found, Option.bind_some, beq_iff_eq, differ]

theorem outOfPending_eq : outOfPending n g y =
    roomEvent (updLane n (fun l => { l with pendings := l.pendings.filter fun p => p.fleet ≠ g }) y) := by
  simp only [outOfPending, bne, Bool.beq_eq_decide_eq, decide_not]

theorem withdrawIsland_found {i : Island} (found : tget y.islands n = some i) : withdrawIsland k n y =
    fuelCalls k (report (updIsland n endTurn (if authorised i then stopOnce k n y else y))) := by
  rw [withdrawIsland, found]

/-- The STOP of a withdrawal goes only where an authorisation runs and none has gone before. -/
theorem withdrawIsland_stops {i : Island} (found : tget y.islands n = some i)
    (stops : (i.state = .authorized ∨ i.state = .dispensing) ∧ i.stopSent = false) : withdrawIsland k n y =
    fuelCalls k (report (updIsland n endTurn (islandCmd k n 2 (orZero i.vehicle) 0
      (updIsland n (fun i => { i with stopSent := true }) y)))) := by
  rw [withdrawIsland_found found, if_pos ((authorised_iff i).mpr stops.1), stopOnce_clear found stops.2]

theorem withdrawIsland_silent {i : Island} (found : tget y.islands n = some i)
    (silent : ¬((i.state = .authorized ∨ i.state = .dispensing) ∧ i.stopSent = false)) : withdrawIsland k n y =
    fuelCalls k (report (updIsland n endTurn y)) := by
  rw [withdrawIsland_found found]
  by_cases under : authorised i = true
  · have sent : i.stopSent = true := by simpa using fun clear => silent ⟨(authorised_iff i).mp under, clear⟩
    rw [if_pos under, stopOnce_sent found sent]
  · rw [if_neg under]

theorem withdrawWash_found {l : WashLane} (found : tget y.washLanes n = some l) : withdrawWash k n y =
    washCalls k (report (updWash n endWash (if l.state = .running then abortWash k n y else y))) := by
  rw [withdrawWash, found]

theorem takeOut_lane (lane : laneHolding y g = some n) : takeOut k g y = outOfLane n g y := by rw [takeOut, lane]

theorem takeOut_pending (lane : laneHolding y g = none) (pending : pendingHolding y g = some n) :
    takeOut k g y = outOfPending n g y := by
  simp only [takeOut, lane, pending]

theorem takeOut_island (lane : laneHolding y g = none) (pending : pendingHolding y g = none)
    (island : islandHolding y g = some n) : takeOut k g y = withdrawIsland k n y := by
  simp only [takeOut, lane, pending, island]

theorem takeOut_wash (lane : laneHolding y g = none) (pending : pendingHolding y g = none)
    (island : islandHolding y g = none) (wash : washHolding y g = some n) : takeOut k g y = withdrawWash k n y := by
  simp only [takeOut, lane, pending, island, wash]

theorem takeOut_unheld (lane : laneHolding y g = none) (pending : pendingHolding y g = none)
    (island : islandHolding y g = none) (wash : washHolding y g = none) : takeOut k g y =
    if y.apron.contains g then roomEvent (leaveApron g y)
    else { y with
      departing := y.departing.filter fun e => e.vehicle != some g
      fuelQ := without y.fuelQ g
      washQ := without y.washQ g } := by
  simp only [takeOut, lane, pending, island, wash]

end Holders

/-! ## The five orders -/

section Orders

/-- What the order of a code does with a rostered vehicle. -/
def orderAct : Nat → OrderAct
  | 1 => orderOutOfService
  | 2 => orderInService
  | 3 => orderUnlocated
  | 4 => orderToFuel
  | _ => orderToWash

theorem exec_vehicleSet {c : Instr} {order : Nat} (s : State)
    (row : (c, order) ∈ [(Instr.vehicleSetOutOfService, 1), (.vehicleSetClearOutOfService, 2), (.vehicleSetMarkUnlocated, 3),
      (.vehicleSetSendToFuel, 4), (.vehicleSetSendToWash, 5)]) : exec c s = orderStep order (orderAct order) s := by
  simp only [List.mem_cons, Prod.mk.injEq, List.not_mem_nil, or_false] at row
  obtain ⟨rfl, rfl⟩ | ⟨rfl, rfl⟩ | ⟨rfl, rfl⟩ | ⟨rfl, rfl⟩ | ⟨rfl, rfl⟩ := row <;> rfl

variable {s : State} {f : Frame} {rest : List Frame} {p : List Byte} {order : Nat} {act : OrderAct} {v : Vehicle}

theorem orderStep_outside (head : CommandHead s f rest kindVehicleSet p) (three : p.length = 3)
    (inside : 1 ≤ order ∧ order ≤ 5) (outside : u8 p 2 < 1 ∨ 5 < u8 p 2) :
    orderStep order act s = .next (afterRefusal s f rest .range) :=
  officeStep_refusal (y := s.yard) head (head.ofCode (.inr (.inr outside))) (beq_iff_eq.mpr three)
    (if_neg (by omega)) (by decide) (by decide)

theorem orderStep_unknown (head : CommandHead s f rest kindVehicleSet p) (three : p.length = 3) (code : u8 p 2 = order)
    (unknown : vehOf s.yard (u16 p 0) = none) : orderStep order act s = .next (afterRefusal s f rest .notFound) := by
  refine officeStep_refusal (y := s.yard) head (head.ofCode (.inr (.inl code))) (beq_iff_eq.mpr three)
    ((if_pos code).trans ?_) (by decide) (by decide)
  rw [unknown]

theorem orderStep_done (head : CommandHead s f rest kindVehicleSet p) (three : p.length = 3) (code : u8 p 2 = order)
    (found : vehOf s.yard (u16 p 0) = some v) {z : Yard} (acts : act s.site v s.yard = (z, .ok)) :
    orderStep order act s = .next (afterOrder s f rest z .ok) := by
  refine officeStep_order head (head.ofCode (.inr (.inl code))) (beq_iff_eq.mpr three) ((if_pos code).trans ?_) (.inl rfl)
  rw [found]
  exact acts

theorem orderStep_state (head : CommandHead s f rest kindVehicleSet p) (three : p.length = 3) (code : u8 p 2 = order)
    (found : vehOf s.yard (u16 p 0) = some v) (acts : act s.site v s.yard = (s.yard, .state)) :
    orderStep order act s = .next (afterRefusal s f rest .state) := by
  refine officeStep_refusal (y := s.yard) head (head.ofCode (.inr (.inl code))) (beq_iff_eq.mpr three)
    ((if_pos code).trans ?_) (by decide) (by decide)
  rw [found]
  exact acts

end Orders

section Acts

variable {k : Site} {v : Vehicle} {y : Yard} {g : Nat}

theorem standing_iff : standing v = true ↔ v.state = .parked ∨ v.state = .apron := by simp [standing]

theorem orderOutOfService_serves (found : vehOf y g = some v) (stays : v.state ≠ .departing)
    (serves : v.entry.outOfService = false) : orderOutOfService k v y =
      (updVeh g (fun v => { v with entry.outOfService := true })
        (unpair g (if v.state = .called then standDown k g (withdrawCall g y) else y)), .ok) := by
  refine (if_neg stays).trans ((if_neg (by simp [serves])).trans ?_)
  rw [vehOf_fleet found, takeOutOfService, stateOf_eq found]
  simp only [Option.some.injEq]

theorem orderToFuel_joins (found : vehOf y g = some v) (stands : v.state = .parked ∨ v.state = .apron)
    (joins : fuelJoinable y g = true) : orderToFuel k v y =
      (fuelJoined k false g (joinFuel k g
        (updService g (fun v => { v with fuelDone := false, fuelSkipped := false }) (takeOut k g y))), .ok) := by
  rw [orderToFuel, vehOf_fleet found]
  exact if_pos (by rw [standing_iff.mpr stands, joins]; rfl)

theorem orderToWash_joins (found : vehOf y g = some v) (stands : v.state = .parked ∨ v.state = .apron)
    (joins : washJoinable y g = true) : orderToWash k v y =
      (washJoined k g (joinWash k g
        (updService g (fun v => { v with washDone := false, washIncomplete := false }) (takeOut k g y))), .ok) := by
  rw [orderToWash, vehOf_fleet found]
  exact if_pos (by rw [standing_iff.mpr stands, joins]; rfl)

/-- What refuses an order to a service: the vehicle does not stand, or may not join. -/
theorem standing_and_refused {joinable : Bool} (refused : ¬(v.state = .parked ∨ v.state = .apron) ∨ joinable = false) :
    ¬(standing v && joinable) = true := by
  rw [Bool.and_eq_true, standing_iff]
  rintro ⟨stands, joins⟩
  obtain off | full := refused
  · exact off stands
  · exact Bool.false_ne_true (full.symm.trans joins)

theorem orderToFuel_refuses (found : vehOf y g = some v)
    (refused : ¬(v.state = .parked ∨ v.state = .apron) ∨ fuelJoinable y g = false) : orderToFuel k v y = (y, .state) := by
  rw [orderToFuel, vehOf_fleet found]
  exact if_neg (standing_and_refused refused)

theorem orderToWash_refuses (found : vehOf y g = some v)
    (refused : ¬(v.state = .parked ∨ v.state = .apron) ∨ washJoinable y g = false) : orderToWash k v y = (y, .state) := by
  rw [orderToWash, vehOf_fleet found]
  exact if_neg (standing_and_refused refused)

/-- An order that finds the vehicle already as ordered changes nothing. -/
theorem orderAct_idle {order : Nat} (idle : (order = 1 ∧ v.state ≠ .departing ∧ v.entry.outOfService = true) ∨
    (order = 2 ∧ v.entry.outOfService = false) ∨ (order = 3 ∧ v.state = .unlocated)) : orderAct order k v y = (y, .ok) := by
  obtain ⟨rfl, stays, out⟩ | ⟨rfl, serves⟩ | ⟨rfl, lost⟩ := idle
  · exact (if_neg stays).trans (if_pos out)
  · exact if_neg (by simp [serves])
  · exact if_pos lost

end Acts

/-- Settles O55: the tests of each order before its act, and the holder a vehicle is taken out of, one by one. -/
theorem vehicleSet : Obligations.VehicleSet := by
  refine ⟨?orders, ?holders⟩
  case orders =>
    intro s f rest p c order row head three g k y refused ends
    have step : exec c s = orderStep order (orderAct order) s := exec_vehicleSet s row
    have inside : 1 ≤ order ∧ order ≤ 5 := by
      simp only [List.mem_cons, Prod.mk.injEq, List.not_mem_nil, or_false] at row
      omega
    refine ⟨fun outside => step.trans (orderStep_outside head three inside outside),
      fun code unknown => step.trans (orderStep_unknown head three code unknown), fun v code found => ?_⟩
    have done {z : Yard} (acts : orderAct order k v y = (z, .ok)) : ends z := step.trans (orderStep_done head three code found acts)
    have bars (acts : orderAct order k v y = (y, .state)) : refused .state :=
      step.trans (orderStep_state head three code found acts)
    have fleet : v.entry.fleet = g := vehOf_fleet found
    refine ⟨?leaving, ?outOfService, ?inService, ?unlocated, fun idle => done (orderAct_idle idle), ?fuel, ?wash, ?noFuel, ?noWash⟩
    case leaving =>
      rintro rfl leaving
      exact bars (if_pos leaving)
    case outOfService =>
      rintro rfl stays serves
      exact done (orderOutOfService_serves found stays serves)
    case inService =>
      rintro rfl out
      exact done ((if_pos out).trans (by rw [fleet, returnToService]))
    case unlocated =>
      rintro rfl located
      exact done ((if_neg located).trans (by rw [fleet]))
    case fuel =>
      rintro rfl stands joins
      exact done (orderToFuel_joins found stands joins)
    case wash =>
      rintro rfl stands joins
      exact done (orderToWash_joins found stands joins)
    case noFuel =>
      rintro rfl bar
      exact bars (orderToFuel_refuses found bar)
    case noWash =>
      rintro rfl bar
      exact bars (orderToWash_refuses found bar)
  case holders =>
    intro k g y run
    refine ⟨fun n l lane found => (takeOut_lane lane).trans (outOfLane_eq found), fun lane =>
      ⟨fun n pending => (takeOut_pending lane pending).trans outOfPending_eq, fun pending => ⟨?island, fun island => ⟨?wash,
        fun wash => ⟨?apron, ?elsewhere⟩⟩⟩⟩⟩
    case island =>
      intro n i island found stops freed
      exact ⟨fun sends => (takeOut_island lane pending island).trans (withdrawIsland_stops found sends),
        fun silent => (takeOut_island lane pending island).trans (withdrawIsland_silent found silent)⟩
    case wash =>
      intro n l wash found freed
      have withdraws := (takeOut_wash (k := k) lane pending island wash).trans (withdrawWash_found found)
      exact ⟨fun running => withdraws.trans (by rewrite [if_pos running]; rfl),
        fun rests => withdraws.trans (by rewrite [if_neg rests]; rfl)⟩
    case apron =>
      intro stands
      exact (takeOut_unheld lane pending island wash).trans (if_pos (List.contains_iff_mem.mpr stands))
    case elsewhere =>
      intro away
      refine (takeOut_unheld lane pending island wash).trans ((if_neg (mt List.contains_iff_mem.mp away)).trans ?_)
      simp only [bne, Bool.beq_eq_decide_eq, decide_not]

end Sys2Proof.Machine

/-! STATION_RESUME. -/

namespace Sys2Proof.Machine

section Resume

/-- The first `n` entries of a list are replaced by `a`, and the others kept. -/
theorem getElem?_replicate_drop {α : Type} (l : List α) (n : Nat) (a : α) {i : Nat} (inside : i < l.length) :
    (List.replicate (min n l.length) a ++ l.drop n)[i]? = if i < n then some a else l[i]? := by
  by_cases first : i < n
  · rw [List.getElem?_append_left (by simp; omega), List.getElem?_replicate, if_pos (by omega), if_pos first]
  · rw [List.getElem?_append_right (by simp; omega), List.getElem?_drop, List.length_replicate, if_neg first]
    congr 1
    omega

theorem markUnsent_images (k : Site) (a : Nat) (o : Out) : ∃ t, markUnsent k a o = { o with images := t } ∧
    (∀ b, b ≠ a → tget t b = tget o.images b) ∧ (tget o.images a = none → tget t a = none) ∧
    (∀ image, tget o.images a = some image → ∃ marked, tget t a = some marked ∧ marked.length = image.length ∧
      ∀ i < image.length, marked[i]? = if i < setting k 19 then some .unsent else image[i]?) := by
  refine ⟨_, rfl, fun b other => (tget_tmod ..).trans (if_neg other), fun missing => ?_, fun image found =>
    ⟨List.replicate (min (setting k 19) image.length) .unsent ++ image.drop (setting k 19), ?_, ?_,
      fun i inside => getElem?_replicate_drop image _ _ inside⟩⟩
  · rw [tget_tmod_same, missing]
    rfl
  · rw [tget_tmod_same, found]
    rfl
  · simp
    omega

variable {st : Station} {d : Desk} {n : Nat}

theorem resumeRole_island (role : st.entry.role = .island n) :
    resumeRole st d = { d with yard := resumeIsland d.site n d.yard } := by rw [resumeRole, role]

theorem resumeRole_wash (role : st.entry.role = .wash n) :
    resumeRole st d = { d with yard := resumeWash d.site n d.yard } := by rw [resumeRole, role]

theorem resumeRole_board (role : st.entry.role = .board) : resumeRole st d =
    { d with out := markUnsent d.site st.entry.address d.out, yard := boardsChanged d.yard } := by rw [resumeRole, role]

theorem resumeRole_sign (role : st.entry.role = .sign) : resumeRole st d = d := by rw [resumeRole, role]

theorem reopenRole_island {i : Island} (role : st.entry.role = .island n) (found : tget d.yard.islands n = some i) :
    reopenRole st d = if i.state = .closed then { d with yard := resumeIsland d.site n d.yard } else d := by
  simp only [reopenRole, role, found, Option.map_some, Option.some.injEq]

theorem reopenRole_wash {l : WashLane} (role : st.entry.role = .wash n) (found : tget d.yard.washLanes n = some l) :
    reopenRole st d = if l.state = .closed ∨ l.state = .fault then { d with yard := resumeWash d.site n d.yard } else d := by
  simp only [reopenRole, role, found, Option.map_some, Option.some.injEq]

theorem reopenRole_other (role : st.entry.role = .sign ∨ st.entry.role = .board) : reopenRole st d = d := by
  obtain role | role := role <;> rw [reopenRole, role]

end Resume

/-- Settles O56: the resumption of a station of each role, and the reopening of one already in AUTO. -/
theorem stationResume : Obligations.StationResume := by
  refine ⟨markUnsent_images, fun s f rest p head one => ?_⟩
  intro y ends
  have answer {d : Desk} {r : Result} (handles : resumeHandler p f (reservedDesk s) = (d, plain r)) :
      exec .stationResume s = .next (afterCommand s f rest d r []) :=
    officeStep_answer head head.ofKind (beq_iff_eq.mpr one) handles
  refine ⟨fun unknown => answer ?_, fun st found => ?_⟩
  · rw [resumeHandler, reservedDesk_site, unknown]
  intro k auto
  have handles : resumeHandler p f (reservedDesk s) =
      if controllable st.entry.role then
        (settle (if st.manual then resumeRole st auto else reopenRole st (reservedDesk s)), plain .ok)
      else (reservedDesk s, plain .state) := by
    rw [resumeHandler, reservedDesk_site, found]
    rfl
  have resumes {d : Desk} (manual : st.manual = true) (takes : controllable st.entry.role = true) (is : resumeRole st auto = d) :
      ends d := answer (handles.trans ((if_pos takes).trans (by rw [if_pos manual, is])))
  have reopens {d : Desk} (inAuto : st.manual = false) (takes : controllable st.entry.role = true)
      (is : reopenRole st (reservedDesk s) = d) : ends d :=
    answer (handles.trans ((if_pos takes).trans (by rw [inAuto, if_neg Bool.false_ne_true, is])))
  refine ⟨fun other => answer (handles.trans (if_neg (by simp [other]))), fun manual => ⟨?_, ?_, ?_, ?_⟩,
    fun inAuto => ⟨?closedIsland, ?openIsland, ?closedWash, ?openWash, ?quiet⟩⟩
  · exact fun n role => resumes manual (by rw [role]; rfl) (resumeRole_island role)
  · exact fun n role => resumes manual (by rw [role]; rfl) (resumeRole_wash role)
  · exact fun role => resumes manual (by rw [role]; rfl) (resumeRole_board role)
  · exact fun role => resumes manual (by rw [role]; rfl) (resumeRole_sign role)
  case closedIsland =>
    exact fun n i role loaded closed => reopens inAuto (by rw [role]; rfl) ((reopenRole_island role loaded).trans (if_pos closed))
  case openIsland =>
    exact fun n i role loaded opened => reopens inAuto (by rw [role]; rfl) ((reopenRole_island role loaded).trans (if_neg opened))
  case closedWash =>
    exact fun n l role loaded closed => reopens inAuto (by rw [role]; rfl) ((reopenRole_wash role loaded).trans (if_pos closed))
  case openWash =>
    exact fun n l role loaded notClosed notFault => reopens inAuto (by rw [role]; rfl)
      ((reopenRole_wash role loaded).trans (if_neg (not_or.mpr ⟨notClosed, notFault⟩)))
  case quiet =>
    exact fun role => reopens inAuto (by obtain role | role := role <;> rw [role] <;> rfl) (reopenRole_other role)

end Sys2Proof.Machine

/-! QUERY: the layouts of its replies and the tests of its variants. -/

namespace Sys2Proof.Machine

/-! ## The data of the replies -/

section Data

/-- Two numbers equal modulo 65536 have the same two bytes. -/
theorem bytes2_congr {a b : Nat} (same : a % 65536 = b % 65536) : bytes2 a = bytes2 b := by
  have high : byte (a / 256) = byte (b / 256) := by
    apply BitVec.eq_of_toNat_eq
    simp [byte]
    omega
  have low : byte a = byte b := by
    apply BitVec.eq_of_toNat_eq
    simp [byte]
    omega
  rw [bytes2, bytes2, high, low]

theorem signedBytes2_eq (a b : Nat) : signedBytes2 a b = bytes2 (BitVec.ofInt 16 ((a : Int) - b)).toNat := by
  refine bytes2_congr ?_
  rw [BitVec.toNat_ofInt]
  omega

/-- The four bytes of one entry of a lane list, at a position counted from 1. -/
def itemPiece (n : Nat) (k : Site) (i : Nat) (e : LaneItem) : List Byte :=
  bytes2 (orZero e.vehicle) ++ [byte e.length, ageByte n i k e.entered]

theorem itemPiece_placeFields {n : Nat} {k : Site} {l : Lane} {i : Nat} {e : LaneItem} (stands : l.items[i]? = some e) :
    itemPiece n k (i + 1) e = sent (placeFields n k l i) := by
  rw [placeFields, stands]
  by_cases late : timeSeconds (presentTime k) < timeSeconds e.entered <;>
    simp only [timeSeconds, presentTime] at late <;>
    simp [itemPiece, ageByte, timeSeconds, presentTime, orZero, late]

/-- Eight entries of a lane list from place `first`, whatever list holds them, padded with zeros. -/
theorem padded_itemBytes {n : Nat} {k : Site} {l : Lane} {first : Nat} {q : List LaneItem}
    (shows : ∀ j < 8, q[j]? = l.items[first + j]?) :
    padded 32 (itemBytes n k (first + 1) q) = sent ((List.range 8).flatMap fun i => placeFields n k l (first + i)) := by
  have pieces := padded_pieces 4 (itemPiece n k) (fun _ _ => rfl) (itemBytes n k) (fun _ => rfl) (fun _ _ _ => rfl) 8
    (first + 1) q
  rw [sent_flatMap]
  refine pieces.trans (flatMap_congr_mem fun j inside => ?_)
  rw [shows j (List.mem_range.mp inside)]
  cases stands : l.items[first + j]? with
  | none => simp [placeFields, stands, sent_zeros]
  | some e =>
    rw [← itemPiece_placeFields stands, show first + 1 + j = first + j + 1 by omega]
    rfl

/-- Values of two bytes each from a list padded with zeros. -/
theorem padded_values {α : Type} (m : Nat) (g : α → Nat) (l : List α) : padded (2 * m) (l.flatMap fun a => bytes2 (g a)) =
    sent ((List.range m).map fun i => (2, (l[i]?.map g).getD 0)) := by
  rw [padded_flatMap 2 m (fun a => bytes2 (g a)) (fun _ => rfl), List.map_eq_flatMap, sent_flatMap]
  refine flatMap_congr_mem fun i _ => ?_
  cases l[i]? <;> simp [bytes2, byte]

theorem roleManual_eq (k : Site) (r : Role) : roleManual k r = ((stationOfRole k r).map (·.manual)).getD false := by
  unfold roleManual
  cases stationOfRole k r <;> rfl

theorem queryLayouts : QueryLayouts := by
  refine ⟨fun n y v => ?vehicle, fun n k y l => ⟨?part1, ?part2⟩, fun n k r => ?duty, fun k n i => ?island,
    fun n k w l => ?wash, fun l first => ?calls, fun d => ?status⟩
  case vehicle =>
    intro number position place
    have placed : [byte (placeKind (placeOf y v.entry.fleet)), placeByte n (placeOf y v.entry.fleet),
        positionByte n (placeOf y v.entry.fleet)] = sent place := by
      simp only [place]
      cases placeOf y v.entry.fleet with
      | none => simp [placeKind, placeByte, positionByte, number, position]
      | some p => cases p <;> simp [placeKind, placeByte, positionByte, number, position]
    rw [sent_append, sent_append, ← placed]
    simp [vehicleBytes, timeBytes, orZero]
  case part1 =>
    have items := padded_itemBytes (n := n) (k := k) (l := l) (first := 0) (q := l.items.take 8)
      (fun j inside => by rw [List.getElem?_take, if_pos inside, Nat.zero_add])
    have pendings := padded_values 4 (fun p : PendingItem => p.fleet) l.pendings
    simp only [Nat.zero_add] at items
    rw [sent_append, sent_append, ← pendings, ← items]
    simp [lanePart1, signedBytes2_eq, stationByte, orZero]
  case part2 =>
    have items := padded_itemBytes (n := n) (k := k) (l := l) (first := 8) (q := l.items.drop 8)
      (fun j _ => List.getElem?_drop)
    rw [sent_one, ← items]
    rfl
  case duty =>
    intro time
    have called : callTimeBytes n r.callTime = sent time := by
      simp only [time]
      cases r.callTime with
      | none => exact (sent_bytes _ _).symm
      | some t => simp [callTimeBytes, timeBytes]
    rw [sent_append, sent_append, sent_append, ← called, ← dutyEntryBytes_eq_sent]
    simp [dutyBytes, orZero, marksByte]
  case island => simp [islandBytes, orZero, roleManual_eq]
  case wash =>
    intro index mode
    have indexed : stageIndexByte n l.stageIndex = byte index := by
      simp only [index]
      cases l.stageIndex <;> simp [stageIndexByte]
    have moded : washModeByte n k w = Config.openByte n (.controlMode mode) := by
      cases station : stationOfRole k (.wash w) <;> simp [washModeByte, mode, station]
    have times := padded_values 6 (fun g : PlanStage => g.time) l.plan
    rw [sent_append, sent_append, ← times]
    simp [washBytes, indexed, moded, orZero]
  case calls =>
    intro line
    rw [sixLines, sent_flatMap, show 48 = 8 * 6 from rfl, padded_flatMap 8 6 boardLineBytes (fun _ => rfl)]
    refine flatMap_congr_mem fun i inside => ?_
    rw [List.getElem?_take, if_pos (List.mem_range.mp inside), List.getElem?_drop]
    simp only [line]
    cases l[first + i]? with
    | none => simp [sent_zeros]
    | some b => simp [boardLineBytes_eq_sent]
  case status =>
    intro c
    cases state : d.site.clock.state <;>
      simp [statusBytes, statusByte, clockStateCode, timeBytes, presentTime, c, state]

end Data

/-! ## The tests of a query -/

section Tests

variable {s : State} {f : Frame} {rest : List Frame} {p : List Byte}

/-- The rows of the queries whose replies may hold free values, each with its variant and its length. -/
def openQueries : List (Instr × Nat × Nat) :=
  [(.queryVehicle, 1, 3), (.queryLane, 2, 3), (.queryDuty, 3, 4), (.queryIsland, 4, 2), (.queryWash, 5, 2),
   (.queryQueues, 6, 2), (.queryCalls, 7, 2)]

theorem exec_openQuery : ∀ row ∈ openQueries,
    1 ≤ row.2.1 ∧ row.2.1 ≤ 8 ∧ ∃ act, ∀ s, exec row.1 s = queryStep row.2.1 row.2.2 act s := by
  simp only [openQueries, List.forall_mem_cons]
  exact ⟨⟨by decide, by decide, _, fun _ => rfl⟩, ⟨by decide, by decide, _, fun _ => rfl⟩,
    ⟨by decide, by decide, _, fun _ => rfl⟩, ⟨by decide, by decide, _, fun _ => rfl⟩, ⟨by decide, by decide, _, fun _ => rfl⟩,
    ⟨by decide, by decide, _, fun _ => rfl⟩, ⟨by decide, by decide, _, fun _ => rfl⟩, nofun⟩

/-- The desk of a reply that may hold free values. -/
def openDesk (s : State) : Desk :=
  { reservedDesk s with out := { reserveSlot s.out with openCount := s.out.openCount + 1 } }

theorem CommandHead.ofQuery (h : CommandHead s f rest kindQuery p) {variant : Nat}
    (fits : p.length < 1 ∨ 4 < p.length ∨ u8 p 0 = variant ∨ u8 p 0 < 1 ∨ 8 < u8 p 0) : isQuery variant f = true := by
  simp only [isQuery, h.kind, h.payload, Bool.and_eq_true, Bool.or_eq_true, beq_iff_eq, decide_eq_true_eq, true_and]
  omega

theorem queryLength_iff (n : Nat) : queryLength n = true ↔ 1 ≤ n ∧ n ≤ 4 := by simp [queryLength]

variable {variant len : Nat} {act : QueryAct}

theorem queryHandler_range {d : Desk} (other : u8 p 0 ≠ variant) : queryHandler variant len act p f d = (d, plain .range) :=
  if_neg other

theorem queryHandler_badLength {d : Desk} (is : u8 p 0 = variant) (wrong : p.length ≠ len) :
    queryHandler variant len act p f d = (d, plain .badLength) := (if_pos is).trans (if_neg wrong)

theorem queryHandler_reads {d : Desk} (is : u8 p 0 = variant) (fits : p.length = len) :
    queryHandler variant len act p f d = (d, some (act p d)) := (if_pos is).trans (if_pos fits)

/-- A query answers what its tests and its reading answer, and its reply is counted. -/
theorem queryStep_answer (h : CommandHead s f rest kindQuery p) (least : 1 ≤ p.length) (most : p.length ≤ 4)
    (fits : u8 p 0 = variant ∨ u8 p 0 < 1 ∨ 8 < u8 p 0) {r : Result} {data : List Byte}
    (handles : queryHandler variant len act p f (reservedDesk s) = (reservedDesk s, some (r, data))) :
    queryStep variant len act s = .next (afterCommand s f rest (openDesk s) r data) := by
  refine officeStep_answer h (h.ofQuery (.inr (.inr fits))) ((queryLength_iff _).mpr ⟨least, most⟩) ?_
  rw [openQueryHandler, handles]
  rfl

/-- A length outside 1 to 4 is refused by every row. -/
theorem queryRow_badLength (h : CommandHead s f rest kindQuery p) (bad : p.length < 1 ∨ 4 < p.length) {handler : Handler} :
    officeStep (isQuery variant) queryLength handler s = .next (afterRefusal s f rest .badLength) := by
  refine officeStep_badLength h (h.ofQuery (bad.imp_right .inl)) ?_
  rw [Bool.eq_false_iff, ne_eq, queryLength_iff]
  omega

/-- A query of its variant and length is read. -/
theorem queryStep_reads (h : CommandHead s f rest kindQuery p) (fits : p.length = len) (small : 1 ≤ len ∧ len ≤ 4)
    (is : u8 p 0 = variant) {r : Result} {data : List Byte} (reads : act p (reservedDesk s) = (r, data)) :
    queryStep variant len act s = .next (afterCommand s f rest (openDesk s) r data) :=
  queryStep_answer h (by omega) (by omega) (.inl is) (by rw [queryHandler_reads is fits, reads])

theorem queueOf_outside {y : Yard} {n : Nat} (outside : n < 1 ∨ 3 < n) : queueOf y n = none := by
  unfold queueOf
  split
  · omega
  · omega
  · omega
  · rfl

theorem queueOf_inside {y : Yard} {n : Nat} {l : List Nat}
    (inside : n = 1 ∧ l = y.fuelQ ∨ n = 2 ∧ l = y.washQ ∨ n = 3 ∧ l = y.apron) : queueOf y n = some l := by
  obtain ⟨rfl, rfl⟩ | ⟨rfl, rfl⟩ | ⟨rfl, rfl⟩ := inside <;> rfl

variable {d : Desk}

theorem execQueryStatus_answer (h : CommandHead s f rest kindQuery p) (least : 1 ≤ p.length) (most : p.length ≤ 4)
    (fits : u8 p 0 = 8 ∨ u8 p 0 < 1 ∨ 8 < u8 p 0) {r : Result} {data : List Byte}
    (handles : statusHandler p f (reservedDesk s) = (d, some (r, data))) :
    exec .queryStatus s = .next (afterCommand s f rest d r data) :=
  officeStep_answer h (h.ofQuery (.inr (.inr fits))) ((queryLength_iff _).mpr ⟨least, most⟩) handles

/-- The status is reported with the overflow flag as it stood, and the flag is then cleared. -/
theorem statusHandler_reads (is : u8 p 0 = 8) (one : p.length = 1) : statusHandler p f d =
    ({ d with out := { d.out with overflow := false } }, some (.ok, statusBytes d)) := by
  rw [statusHandler, queryHandler_reads is one]

end Tests

/-- Settles O57: the tests of variant and length, and the reading of each variant. -/
theorem queriesAnswer : Obligations.QueriesAnswer := by
  refine ⟨fun s f rest p head => ?_, queryLayouts, sentCodes⟩
  intro n d gives refuses seven
  refine ⟨fun least most outside => ⟨fun c listed => ?_, ?_⟩, fun bad c listed => ?_, fun least most => ⟨?_, ?_⟩,
    ?vehicle, ?lane, ?duty, ?island, ?wash, ?queues, ?calls, ?status⟩
  · obtain ⟨row, isRow, rfl⟩ : ∃ row ∈ openQueries, row.1 = c := List.mem_map.mp listed
    obtain ⟨low, high, act, runs⟩ := exec_openQuery row isRow
    exact (runs s).trans (queryStep_answer head least most (.inr outside) (queryHandler_range (by omega)))
  · refine execQueryStatus_answer head least most (.inr outside) ?_
    rw [statusHandler, queryHandler_range (by omega)]
    rfl
  · obtain rfl | listed := List.mem_cons.mp listed
    · exact queryRow_badLength head bad
    · obtain ⟨row, isRow, rfl⟩ : ∃ row ∈ openQueries, row.1 = c := List.mem_map.mp listed
      obtain ⟨_, _, act, runs⟩ := exec_openQuery row isRow
      exact (runs s).trans (queryRow_badLength head bad)
  · intro c variant length listed is wrong
    obtain ⟨_, _, act, runs⟩ := exec_openQuery (c, variant, length) listed
    exact (runs s).trans (queryStep_answer head least most (.inl is) (queryHandler_badLength is wrong))
  · intro is wrong
    refine execQueryStatus_answer head least most (.inl is) ?_
    rw [statusHandler, queryHandler_badLength is wrong]
    rfl
  case vehicle =>
    intro three is
    have reads {r : Result} {data : List Byte} : readVehicle p (reservedDesk s) = (r, data) →
        exec .queryVehicle s = .next (afterCommand s f rest d r data) := queryStep_reads head three (by decide) is
    refine ⟨fun outside => reads (if_pos outside), fun low high unknown => reads ((if_neg (by omega)).trans ?_),
      fun v low high found => reads ((if_neg (by omega)).trans ?_)⟩
    · rw [reservedDesk_yard, unknown]
    · rw [reservedDesk_yard, found]
      rfl
  case lane =>
    intro three is
    have reads {r : Result} {data : List Byte} : readLane p (reservedDesk s) = (r, data) →
        exec .queryLane s = .next (afterCommand s f rest d r data) := queryStep_reads head three (by decide) is
    refine ⟨fun outside => reads (if_pos outside), fun low high least most unknown => reads ((if_neg (by omega)).trans ?_),
      fun l low high found => ⟨fun one => reads ((if_neg (by omega)).trans ?_), fun two => reads ((if_neg (by omega)).trans ?_)⟩⟩
    · rw [reservedDesk_yard, unknown]
    · rw [reservedDesk_yard, found]
      exact congrArg (Result.ok, ·) (if_pos one)
    · rw [reservedDesk_yard, found]
      exact congrArg (Result.ok, ·) (if_neg (by omega))
  case duty =>
    intro four is bank
    have reads {r : Result} {data : List Byte} : readDuty p (reservedDesk s) = (r, data) →
        exec .queryDuty s = .next (afterCommand s f rest d r data) := queryStep_reads head four (by decide) is
    have banks : (if u8 p 1 = 1 then (reservedDesk s).yard.bankA else (reservedDesk s).yard.bankB) = bank := rfl
    refine ⟨fun outside => reads (if_pos outside), fun low high least most =>
      ⟨fun unknown => reads ((if_neg (by omega)).trans ?_), fun r found => reads ((if_neg (by omega)).trans ?_)⟩⟩
    · rw [banks, unknown]
    · rw [banks, found]
      rfl
  case island =>
    intro two is
    have reads {r : Result} {data : List Byte} : readIsland p (reservedDesk s) = (r, data) →
        exec .queryIsland s = .next (afterCommand s f rest d r data) := queryStep_reads head two (by decide) is
    refine ⟨fun outside => reads (if_pos outside), fun low high unknown => reads ((if_neg (by omega)).trans ?_),
      fun i low high found => reads ((if_neg (by omega)).trans ?_)⟩
    · rw [reservedDesk_yard, unknown]
    · rw [reservedDesk_yard, found]
      rfl
  case wash =>
    intro two is
    have reads {r : Result} {data : List Byte} : readWash p (reservedDesk s) = (r, data) →
        exec .queryWash s = .next (afterCommand s f rest d r data) := queryStep_reads head two (by decide) is
    refine ⟨fun outside => reads (if_pos outside), fun low high unknown => reads ((if_neg (by omega)).trans ?_),
      fun l low high found => reads ((if_neg (by omega)).trans ?_)⟩
    · rw [reservedDesk_yard, unknown]
    · rw [reservedDesk_yard, found]
      rfl
  case queues =>
    intro two is
    have reads {r : Result} {data : List Byte} : readQueues p (reservedDesk s) = (r, data) →
        exec .queryQueues s = .next (afterCommand s f rest d r data) := queryStep_reads head two (by decide) is
    refine ⟨fun outside => reads ?_, fun l inside => reads ?_⟩
    · rw [readQueues, queueOf_outside outside]
    · rw [readQueues, queueOf_inside (y := (reservedDesk s).yard) inside]
  case calls =>
    intro two is
    have reads {r : Result} {data : List Byte} : readCalls p (reservedDesk s) = (r, data) →
        exec .queryCalls s = .next (afterCommand s f rest d r data) := queryStep_reads head two (by decide) is
    have part {first : Nat} (at_ : (if u8 p 1 = 1 then 0 else 6) = first) (inside : ¬(u8 p 1 < 1 ∨ 2 < u8 p 1)) :
        readCalls p (reservedDesk s) = (.ok, byte s.yard.callList.length :: sixLines s.yard.callList first) :=
      (if_neg inside).trans (by rw [at_]; rfl)
    exact ⟨fun outside => reads (if_pos outside), fun one => reads (part (if_pos one) (by omega)),
      fun two => reads (part (if_neg (by omega)) (by omega))⟩
  case status =>
    exact fun one is => execQueryStatus_answer head (by omega) (by omega) (.inl is) (statusHandler_reads is one)

end Sys2Proof.Machine

/-! What the queries, TABLE_READ and the link commands leave unchanged. -/

namespace Sys2Proof.Machine

/-! ## The office side and the field side of the ports -/

section Sides

/-- What an offer of a notice and the test for a batch may write. -/
def NoticeSide (o p : Out) : Prop :=
  ∃ n q c v, p = { o with notices := n, officeQ := q, openCount := c, overflow := v }

/-- What own frames, held frames and board images may write. -/
def FieldSide (o p : Out) : Prop := ∃ q h i x, p = { o with fieldQ := q, held := h, images := i, fieldTx := x }

variable {k : Site} {lines : List BoardLine} {o p q : Out}

theorem tryBatch_writes (k : Site) (o : Out) : ∃ n q c, tryBatch k o = { o with notices := n, officeQ := q, openCount := c } := by
  unfold tryBatch
  split
  · exact ⟨_, _, _, rfl⟩
  · exact ⟨_, _, _, rfl⟩

theorem offerNotice_noticeSide (k : Site) (kind : NoticeKind) (fleet : Option Nat) (place : Option NoticePlace)
    (duty : Option Nat) (o : Out) : NoticeSide o (offerNotice k kind fleet place duty o) := by
  unfold offerNotice
  dsimp only
  split
  · exact ⟨_, _, _, _, rfl⟩
  · split
    · obtain ⟨n, q, c, forms⟩ := tryBatch_writes k { o with notices := o.notices ++ [_] }
      exact ⟨n, q, c, _, forms⟩
    · exact ⟨_, _, _, _, rfl⟩

theorem officeSend_writes (k : Site) (o : Out) : ∃ n q c r x,
    officeSend k o = { o with notices := n, officeQ := q, openCount := c, runCount := r, officeTx := x } := by
  unfold officeSend
  split
  · exact ⟨_, _, _, _, _, rfl⟩
  · split
    · exact ⟨_, _, _, _, _, rfl⟩
    · obtain ⟨n, q, c, forms⟩ := tryBatch_writes k _
      exact ⟨n, q, c, _, _, forms⟩

namespace FieldSide

theorem refl (o : Out) : FieldSide o o := ⟨_, _, _, _, rfl⟩

theorem trans (h : FieldSide o p) (g : FieldSide p q) : FieldSide o q := by
  obtain ⟨_, _, _, _, rfl⟩ := h
  obtain ⟨_, _, _, _, rfl⟩ := g
  exact ⟨_, _, _, _, rfl⟩

theorem placeFrame (h : Held) (o : Out) : FieldSide o (placeFrame h o) := ⟨_, _, _, _, rfl⟩

theorem issue (h : Held) (o : Out) : FieldSide o (issue h o) := by
  unfold Machine.issue
  split
  · exact placeFrame h o
  · exact ⟨_, _, _, _, rfl⟩

theorem boardRun (k : Site) (lines : List BoardLine) (a n : Nat) (o : Out) : FieldSide o (boardRun k lines a n o) := by
  induction n generalizing o with
  | zero => exact refl o
  | succ n ih =>
    unfold Machine.boardRun
    split
    · exact refl o
    · split
      · exact refl o
      · exact (issue _ o).trans (ih _)

theorem compareBoard (k : Site) (lines : List BoardLine) (o : Out) (a : Nat) : FieldSide o (compareBoard k lines o a) :=
  boardRun ..

theorem updateBoards (k : Site) (lines : List BoardLine) (o : Out) : FieldSide o (updateBoards k lines o) := by
  have compares (l : List Nat) (o : Out) : FieldSide o (l.foldl (Machine.compareBoard k lines) o) := by
    induction l generalizing o with
    | nil => exact refl o
    | cons a l ih => exact (compareBoard k lines o a).trans (ih _)
  have synced : FieldSide o (syncImages k o) := ⟨_, _, _, _, rfl⟩
  exact synced.trans (compares _ _)

theorem releaseHeld (k : Site) (lines : List BoardLine) (n : Nat) (o : Out) : FieldSide o (releaseHeld k lines n o) := by
  induction n generalizing o with
  | zero => exact refl o
  | succ n ih =>
    unfold Machine.releaseHeld
    split
    · exact refl o
    · next h rest _ =>
      split
      · have placed : FieldSide o (Machine.placeFrame h { o with held := rest }) := ⟨_, _, _, _, rfl⟩
        dsimp only
        split
        · exact (placed.trans (compareBoard ..)).trans (ih _)
        · exact placed.trans (ih _)
      · exact refl o

theorem fieldSend (k : Site) (lines : List BoardLine) (o : Out) : FieldSide o (fieldSend k lines o) := by
  unfold Machine.fieldSend
  split
  · exact refl o
  · next i q _ =>
    have sent : FieldSide o { o with fieldQ := q, fieldTx := wire i.frame } := ⟨_, _, _, _, rfl⟩
    exact sent.trans (releaseHeld ..)

end FieldSide

/-- NOTICE_HOLD_EXPIRY makes the test for a batch, or nothing. -/
theorem execNoticeHoldExpiry_writes (s : State) : ∃ n q c,
    exec .noticeHoldExpiry s = .next { s with out := { s.out with notices := n, officeQ := q, openCount := c } } := by
  show ∃ n q c, execNoticeHoldExpiry s = _
  unfold execNoticeHoldExpiry
  split
  · exact ⟨_, _, _, rfl⟩
  · split
    · obtain ⟨n, q, c, forms⟩ := tryBatch_writes s.site s.out
      exact ⟨n, q, c, congrArg (fun o => Host.Outcome.next { s with out := o }) forms⟩
    · exact ⟨_, _, _, rfl⟩

end Sides

/-! ## Reading commands -/

section Reading

variable {quiet : Prop} {s t : State} {d e : Desk}

/-- A desk after a reading command: the reply count may have moved, and the overflow flag where the command is not quiet. -/
def Reads (quiet : Prop) (d e : Desk) : Prop :=
  ∃ c v, e = { d with out := { d.out with openCount := c, overflow := v } } ∧ (quiet → v = d.out.overflow)

theorem Reads.refl (quiet : Prop) (d : Desk) : Reads quiet d d := ⟨_, _, rfl, fun _ => rfl⟩

theorem Reads.countOpen (quiet : Prop) (d : Desk) : Reads quiet d (countOpen d) := ⟨_, _, rfl, fun _ => rfl⟩

/-- A state after a reading command: its frame has left, and its reply waits. -/
def ReplyOnly (quiet : Prop) (s t : State) : Prop :=
  ∃ rest q r c v,
    t = { s with
      rx := { s.rx with office := { s.rx.office with ingress := rest } }
      out := { s.out with officeQ := q, reserved := r, openCount := c, overflow := v } } ∧
    (quiet → v = s.out.overflow)

theorem reply_replyOnly {rest : List Frame} (f : Frame) (a : Answer)
    (reads : Reads quiet { s.desk with out := reserveSlot s.out } d) :
    ReplyOnly quiet s (({ s with rx.office.ingress := rest } : State).withDesk (reply f a d)) := by
  obtain ⟨c, v, rfl, kept⟩ := reads
  cases a with
  | none => exact ⟨rest, _, _, c, v, rfl, kept⟩
  | some answer => exact ⟨rest, _, _, c, v, rfl, kept⟩

/-- An office row whose handler only reads. -/
theorem officeStep_reads {wants : Frame → Bool} {lengthOk : Nat → Bool} {h : Handler}
    (reads : ∀ p f d, Reads quiet d (h p f d).1) (runs : officeStep wants lengthOk h s = .next t) : ReplyOnly quiet s t := by
  obtain idle | ⟨f, rest, _, _, taken⟩ := officeStep_cases wants lengthOk h s
  · obtain rfl : s = t := Host.Outcome.next.inj (idle.symm.trans runs)
    exact ⟨s.rx.office.ingress, _, _, _, _, rfl, fun _ => rfl⟩
  · obtain rfl := Host.Outcome.next.inj (taken.symm.trans runs)
    unfold takeCommand
    dsimp only
    split
    · exact reply_replyOnly f _ (reads ..)
    · exact reply_replyOnly f _ (.refl ..)

theorem queryStep_replyOnly {variant len : Nat} {act : QueryAct} (runs : queryStep variant len act s = .next t) :
    ReplyOnly quiet s t := by
  refine officeStep_reads (fun p f d => ?_) runs
  show Reads quiet d (countOpen (queryHandler variant len act p f d).1)
  rw [(queryHandler_fst variant len act p f d).1]
  exact .countOpen ..

theorem readHandler_reads (p : List Byte) (f : Frame) (d : Desk) : Reads quiet d (readHandler p f d).1 := by
  unfold readHandler
  dsimp only
  split
  · exact .refl ..
  · split
    · exact .refl ..
    · split
      · exact .refl ..
      · exact .countOpen ..

theorem statusHandler_writes (p : List Byte) (f : Frame) (d : Desk) : Reads False d (statusHandler p f d).1 := by
  have same := (queryHandler_fst 8 1 (fun _ d => (.ok, statusBytes d)) p f d).1
  unfold statusHandler
  generalize queryHandler 8 1 (fun _ d => (.ok, statusBytes d)) p f d = z at same
  obtain ⟨e, a⟩ := z
  cases same
  split
  · next taken =>
    cases taken
    exact ⟨_, _, rfl, nofun⟩
  · next taken =>
    cases taken
    exact .refl ..

/-- Each of the eight queries and TABLE_READ only reads, and QUERY_STATUS alone may write the overflow flag. -/
theorem readingRows {c : Instr} (listed : c ∈ [Instr.queryVehicle, .queryLane, .queryDuty, .queryIsland, .queryWash,
    .queryQueues, .queryCalls, .queryStatus, .tableRead]) (runs : exec c s = .next t) : ReplyOnly (c ≠ .queryStatus) s t := by
  simp only [List.mem_cons, List.not_mem_nil, or_false] at listed
  obtain rfl | rfl | rfl | rfl | rfl | rfl | rfl | rfl | rfl := listed
  · exact queryStep_replyOnly runs
  · exact queryStep_replyOnly runs
  · exact queryStep_replyOnly runs
  · exact queryStep_replyOnly runs
  · exact queryStep_replyOnly runs
  · exact queryStep_replyOnly runs
  · exact queryStep_replyOnly runs
  · obtain ⟨rest, q, r, c, v, is, _⟩ := officeStep_reads statusHandler_writes runs
    exact ⟨rest, q, r, c, v, is, fun other => absurd rfl other⟩
  · exact officeStep_reads readHandler_reads runs

end Reading

/-! ## The receiving side -/

/-- A port's receipt of a byte or of a gap. -/
theorem receive_writes (p : Port) (a : Assembly × RxEvent) (s : State) :
    ∃ r o, receive p a s = { s with rx := setPort p r s.rx, out := o } ∧ NoticeSide s.out o := by
  unfold receive
  dsimp only
  split
  · exact ⟨_, _, rfl, _, _, _, _, rfl⟩
  · split
    · exact ⟨_, _, rfl, _, _, _, _, rfl⟩
    · exact ⟨_, _, rfl, offerNotice_noticeSide ..⟩
  · exact ⟨_, _, rfl, offerNotice_noticeSide ..⟩

/-- Settles O58: the fields each command may write, and all others kept. -/
theorem siteAndYardKept : Obligations.SiteAndYardKept := by
  intro s t
  refine ⟨fun c listed runs => ?reading, fun c listed runs => ?links, fun runs => ?field, fun c listed runs => ?office,
    fun runs => ?hold, fun p b runs => ?receiving⟩
  case reading =>
    obtain ⟨rest, q, r, n, v, rfl, kept⟩ := readingRows listed runs
    exact ⟨rfl, rfl, rfl, rfl, rfl, rfl, rfl, rfl, rfl, rfl, rfl, kept, rfl, rfl⟩
  case links =>
    simp only [List.mem_cons, List.not_mem_nil, or_false] at listed
    obtain rfl | rfl | rfl := listed
    · obtain rfl := Host.Outcome.next.inj runs
      obtain ⟨_, _, _, _, sends⟩ := FieldSide.fieldSend s.site s.yard.callList s.out
      rw [sends]
      exact ⟨rfl, rfl, rfl, rfl, rfl, rfl⟩
    · obtain rfl := Host.Outcome.next.inj runs
      obtain ⟨_, _, _, _, _, sends⟩ := officeSend_writes s.site s.out
      rw [sends]
      exact ⟨rfl, rfl, rfl, rfl, rfl, rfl⟩
    · obtain ⟨_, _, _, forms⟩ := execNoticeHoldExpiry_writes s
      obtain rfl := Host.Outcome.next.inj (forms.symm.trans runs)
      exact ⟨rfl, rfl, rfl, rfl, rfl, rfl⟩
  case field =>
    obtain rfl := Host.Outcome.next.inj runs
    obtain ⟨_, _, _, _, sends⟩ := FieldSide.fieldSend s.site s.yard.callList s.out
    rw [sends]
    exact ⟨rfl, rfl, rfl, rfl, rfl⟩
  case office =>
    simp only [List.mem_cons, List.not_mem_nil, or_false] at listed
    obtain rfl | rfl := listed
    · obtain rfl := Host.Outcome.next.inj runs
      obtain ⟨_, _, _, _, _, sends⟩ := officeSend_writes s.site s.out
      rw [sends]
      exact ⟨rfl, rfl, rfl, rfl⟩
    · obtain ⟨_, _, _, forms⟩ := execNoticeHoldExpiry_writes s
      obtain rfl := Host.Outcome.next.inj (forms.symm.trans runs)
      exact ⟨rfl, rfl, rfl, rfl⟩
  case hold =>
    obtain ⟨_, _, _, forms⟩ := execNoticeHoldExpiry_writes s
    obtain rfl := Host.Outcome.next.inj (forms.symm.trans runs)
    exact ⟨rfl, rfl⟩
  case receiving =>
    obtain ⟨a, is⟩ : ∃ a, receive p a s = t := by
      obtain byte_ | gap_ := runs
      · exact ⟨_, Host.Outcome.next.inj byte_⟩
      · exact ⟨_, Host.Outcome.next.inj gap_⟩
    obtain ⟨r, o, writes, _, _, _, _, rfl⟩ := receive_writes p a s
    rw [writes] at is
    subst is
    cases p
    · exact ⟨rfl, rfl, rfl, rfl, fun _ => rfl, nofun, rfl, rfl, rfl, rfl, rfl, rfl, rfl⟩
    · exact ⟨rfl, rfl, rfl, rfl, nofun, fun _ => rfl, rfl, rfl, rfl, rfl, rfl, rfl, rfl⟩

end Sys2Proof.Machine

/-! YARD_CLEAR: the frames it makes, and the state it leaves. -/

namespace Sys2Proof.Machine

/-! ## The frames made -/

section Frames

variable {k : Site} {y : Yard}

/-- The own frame for the station of a role, unless there is none or it is in MANUAL. -/
def ownEmits (k : Site) (block : Block) (role : Role) (kind : Byte) (payload : List Byte) : List Emission :=
  match stationOfRole k role with
  | some st =>
    if inManual k st.entry.address then []
    else [.own block { dest := byte st.entry.address, src := byte (ownAddress k), kind := kind, payload := payload }]
  | none => []

/-- The STOP of one island. -/
def stopEmits (k : Site) (y : Yard) (n : Nat) : List Emission :=
  match tget y.islands n with
  | some i =>
    if (i.state = .authorized ∨ i.state = .dispensing) ∧ i.stopSent = false then
      ownEmits k .fuelTurn (.island n) kindIslandCmd (islandCmdPayload 2 (orZero i.vehicle) 0)
    else []
  | none => []

/-- The ABORT of one wash lane. -/
def abortEmits (k : Site) (y : Yard) (n : Nat) : List Emission :=
  match tget y.washLanes n with
  | some l => if l.state = .running then ownEmits k .washSequencer (.wash n) kindWashCmd (washCmdPayload 2 0 0 0) else []
  | none => []

theorem sendOwn_emits (k : Site) (block : Block) (a : Nat) (kind : Byte) (p : List Byte) (y : Yard) :
    sendOwn k block a kind p y = { y with emits := y.emits ++ if inManual k a then []
      else [.own block { dest := byte a, src := byte (ownAddress k), kind := kind, payload := p }] } := by
  unfold sendOwn
  split
  · rw [List.append_nil]
  · rfl

theorem islandCmd_emits (k : Site) (n c g limit : Nat) (y : Yard) : islandCmd k n c g limit y =
    { y with emits := y.emits ++ ownEmits k .fuelTurn (.island n) kindIslandCmd (islandCmdPayload c g limit) } := by
  unfold islandCmd ownEmits
  cases stationOfRole k (.island n) with
  | none => simp
  | some st => exact sendOwn_emits ..

theorem washCmd_emits (k : Site) (n c stage kind time : Nat) (y : Yard) : washCmd k n c stage kind time y =
    { y with emits := y.emits ++ ownEmits k .washSequencer (.wash n) kindWashCmd (washCmdPayload c stage kind time) } := by
  unfold washCmd ownEmits
  cases stationOfRole k (.wash n) with
  | none => simp
  | some st => exact sendOwn_emits ..

/-- STOP for one island, where it is authorised. -/
def stopIsland (k : Site) (y : Yard) (n : Nat) : Yard :=
  match tget y.islands n with
  | some i => if authorised i then stopOnce k n y else y
  | none => y

/-- ABORT for one wash lane, where it is running. -/
def abortLane (k : Site) (y : Yard) (n : Nat) : Yard :=
  match tget y.washLanes n with
  | some l => if l.state = .running then abortWash k n y else y
  | none => y

theorem stopAll_eq (k : Site) (y : Yard) : stopAll k y = [1, 2, 3, 4].foldl (stopIsland k) y := rfl

theorem abortAll_eq (k : Site) (y : Yard) : abortAll k y = [1, 2].foldl (abortLane k) y := rfl

/-- The islands `t` are `u` but for the fields of the islands `ns` that no entry holds. -/
structure StopsOnly (ns : List Nat) (u t : Table Island) : Prop where
  entries : tmap t (·.entry) = tmap u (·.entry)
  others : ∀ m, m ∉ ns → tget t m = tget u m

/-- One island's STOP is made, and no other island has changed. -/
theorem stopIsland_eq (k : Site) (y : Yard) (n : Nat) : ∃ t, StopsOnly [n] y.islands t ∧
    stopIsland k y n = { y with emits := y.emits ++ stopEmits k y n, islands := t } := by
  have unchanged (none_ : stopEmits k y n = []) (same : stopIsland k y n = y) : ∃ t, StopsOnly [n] y.islands t ∧
      stopIsland k y n = { y with emits := y.emits ++ stopEmits k y n, islands := t } :=
    ⟨y.islands, ⟨rfl, fun _ _ => rfl⟩, by rw [same, none_, List.append_nil]⟩
  cases found : tget y.islands n with
  | none => exact unchanged (by simp only [stopEmits, found]) (by simp only [stopIsland, found])
  | some i =>
    by_cases under : authorised i = true
    · have stops : stopIsland k y n = stopOnce k n y := by simp only [stopIsland, found, under, if_true]
      cases sent : i.stopSent with
      | true => exact unchanged (by simp [stopEmits, found, sent]) (stops.trans (stopOnce_sent found sent))
      | false =>
        refine ⟨tmod y.islands n fun i => { i with stopSent := true }, ⟨tmap_tmod _ _ _ _ fun _ => rfl, fun m other => ?_⟩, ?_⟩
        · rw [tget_tmod, if_neg (by simpa using other)]
        · have makes : stopEmits k y n =
              ownEmits k .fuelTurn (.island n) kindIslandCmd (islandCmdPayload 2 (orZero i.vehicle) 0) := by
            simp only [stopEmits, found]
            exact if_pos ⟨(authorised_iff i).mp under, sent⟩
          rw [stops, stopOnce_clear found sent, islandCmd_emits, makes]
          rfl
    · refine unchanged ?_ (by simp only [stopIsland, found]; exact if_neg under)
      simp only [stopEmits, found]
      exact if_neg fun stops => under ((authorised_iff i).mpr stops.1)

theorem stopEmits_others {ns : List Nat} {n : Nat} {z : Yard} (stops : StopsOnly ns y.islands z.islands) (other : n ∉ ns) :
    stopEmits k z n = stopEmits k y n := by
  rw [stopEmits, stops.others n other]
  rfl

/-- The STOPs of different islands, in order. -/
theorem stopIslands_eq (k : Site) (ns : List Nat) (different : ns.Nodup) (y : Yard) : ∃ t, StopsOnly ns y.islands t ∧
    ns.foldl (stopIsland k) y = { y with emits := y.emits ++ ns.flatMap (stopEmits k y), islands := t } := by
  induction ns generalizing y with
  | nil => exact ⟨y.islands, ⟨rfl, fun _ _ => rfl⟩, by simp⟩
  | cons n ns ih =>
    obtain ⟨fresh, different⟩ := List.nodup_cons.mp different
    obtain ⟨t, first, is⟩ := stopIsland_eq k y n
    obtain ⟨u, later, are⟩ := ih different (stopIsland k y n)
    rw [is] at later are
    refine ⟨u, ⟨later.entries.trans first.entries, fun m other => ?_⟩, ?_⟩
    · obtain ⟨notFirst, notLater⟩ := not_or.mp (mt List.mem_cons.mpr other)
      exact (later.others m notLater).trans (first.others m (by simpa using notFirst))
    · have made : ns.flatMap (stopEmits k { y with emits := y.emits ++ stopEmits k y n, islands := t }) =
          ns.flatMap (stopEmits k y) :=
        flatMap_congr_mem fun m among => stopEmits_others (ns := [n]) first (by rintro h; simp_all)
      rw [List.foldl_cons, is, are, made, List.flatMap_cons, List.append_assoc]

theorem abortLane_eq (k : Site) (y : Yard) (n : Nat) :
    abortLane k y n = { y with emits := y.emits ++ abortEmits k y n } := by
  unfold abortLane abortEmits
  cases tget y.washLanes n with
  | none => simp
  | some l =>
    dsimp only
    split
    · exact washCmd_emits ..
    · simp

theorem abortLanes_eq (k : Site) (ns : List Nat) (y : Yard) :
    ns.foldl (abortLane k) y = { y with emits := y.emits ++ ns.flatMap (abortEmits k y) } := by
  induction ns generalizing y with
  | nil => simp
  | cons n ns ih =>
    rw [List.foldl_cons, abortLane_eq, ih, List.flatMap_cons, ← List.append_assoc]
    rfl

/-- The frames YARD_CLEAR makes. -/
def clearEmits (k : Site) (y : Yard) : List Emission := [1, 2, 3, 4].flatMap (stopEmits k y) ++ [1, 2].flatMap (abortEmits k y)

theorem stopped_eq (k : Site) (y : Yard) : ∃ t, tmap t (·.entry) = tmap y.islands (·.entry) ∧
    abortAll k (stopAll k y) = { y with emits := y.emits ++ clearEmits k y, islands := t } := by
  obtain ⟨t, stops, is⟩ := stopIslands_eq k [1, 2, 3, 4] (by decide) y
  refine ⟨t, stops.entries, ?_⟩
  rw [stopAll_eq, is, abortAll_eq, abortLanes_eq, List.append_assoc]
  rfl

/-- The emission is an own frame. -/
def IsOwn (e : Emission) : Prop := ∃ b f, e = .own b f

theorem ownEmits_own {block : Block} {role : Role} {kind : Byte} {p : List Byte} :
    ∀ e ∈ ownEmits k block role kind p, IsOwn e := by
  unfold ownEmits
  split
  · split
    · exact List.forall_mem_nil _
    · exact fun e among => ⟨_, _, List.mem_singleton.mp among⟩
  · exact List.forall_mem_nil _

theorem stopEmits_own (n : Nat) : ∀ e ∈ stopEmits k y n, IsOwn e := by
  unfold stopEmits
  split
  · split
    · exact ownEmits_own
    · exact List.forall_mem_nil _
  · exact List.forall_mem_nil _

theorem abortEmits_own (n : Nat) : ∀ e ∈ abortEmits k y n, IsOwn e := by
  unfold abortEmits
  split
  · split
    · exact ownEmits_own
    · exact List.forall_mem_nil _
  · exact List.forall_mem_nil _

theorem clearEmits_own : ∀ e ∈ clearEmits k y, IsOwn e := by
  intro e among
  obtain stop | abort := List.mem_append.mp among
  · obtain ⟨n, _, made⟩ := List.mem_flatMap.mp stop
    exact stopEmits_own n e made
  · obtain ⟨n, _, made⟩ := List.mem_flatMap.mp abort
    exact abortEmits_own n e made

theorem FieldSide.officeQ {o p : Out} (h : FieldSide o p) : p.officeQ = o.officeQ := by
  obtain ⟨_, _, _, _, rfl⟩ := h
  rfl

theorem FieldSide.runCount {o p : Out} (h : FieldSide o p) : p.runCount = o.runCount := by
  obtain ⟨_, _, _, _, rfl⟩ := h
  rfl

/-- Own frames are handed over on the field side. -/
theorem handOverAll_fieldSide {l : List Emission} (own : ∀ e ∈ l, IsOwn e) (o : Out) : FieldSide o (handOverAll k l o) := by
  induction l generalizing o with
  | nil => exact .refl o
  | cons e l ih =>
    have first : FieldSide o (handOver k o e) := by
      obtain ⟨b, f, rfl⟩ := own e List.mem_cons_self
      unfold handOver
      dsimp only
      split
      · exact .refl o
      · exact .issue ..
    exact first.trans (ih (fun e among => own e (List.mem_cons_of_mem _ among)) _)

end Frames

/-! ## The cleared desk -/

section Cleared

variable {d : Desk} {l : List Emission} {t : Table Island}

/-- The islands are cleared from their entries alone. -/
theorem clearYard_islands (y : Yard) (entries : tmap t (·.entry) = tmap y.islands (·.entry)) :
    tmap t (fun i => freshIsland i.entry) = tmap y.islands fun i => freshIsland i.entry := by
  have fresh := congrArg (tmap · freshIsland) entries
  simpa only [tmap_tmap] using fresh

/-- What YARD_CLEAR leaves, with the frames it made handed over. -/
theorem clearDesk_eq (d : Desk) (handed : d.yard.emits = []) : clearDesk d =
    { out := { handOver (clearSite d.site)
        (handOverAll d.site (clearEmits d.site d.yard) { d.out with held := [] }) (.boards []) with
        notices := [], overflow := false }
      site := clearSite d.site
      yard := { clearYard d.yard with emits := [] } } := by
  obtain ⟨t, entries, is⟩ := stopped_eq d.site d.yard
  rw [handed, List.nil_append] at is
  have islands := clearYard_islands d.yard entries
  unfold clearDesk
  dsimp only
  rewrite [is]
  simp only [clearYard, resetBanks, boardsChanged, flush, islands]
  rfl

theorem forall_tmap {α β : Type} {t : Table α} {f : α → β} {P : β → Prop} (each : ∀ a, P (f a)) : ∀ p ∈ tmap t f, P p.2 := by
  intro p among
  obtain ⟨a, _, is⟩ := mem_tmap among
  exact is ▸ each a

theorem clearSite_stations (k : Site) : ∀ p ∈ (clearSite k).stations, p.2.manual = false :=
  forall_tmap (t := k.stations) (f := fun st => { st with manual := false }) (P := fun st => st.manual = false) fun _ => rfl

theorem clearSite_mouths (k : Site) : ∀ p ∈ (clearSite k).mouths,
    p.2.accepted = .clear ∧ p.2.candidate = none ∧ p.2.stuck = none ∧ p.2.tracker = .idle :=
  forall_tmap (t := k.mouths) (f := fun m => resetMouth m.entry)
    (P := fun m => m.accepted = .clear ∧ m.candidate = none ∧ m.stuck = none ∧ m.tracker = .idle) fun _ => ⟨rfl, rfl, rfl, rfl⟩

/-- Each record is the fresh record of its entry. -/
theorem fresh_records {α β : Type} (t : Table α) (entry : α → β) (fresh : β → α) (kept : ∀ e, entry (fresh e) = e) :
    ∀ p ∈ tmap t (fun a => fresh (entry a)), p.2 = fresh (entry p.2) :=
  forall_tmap (P := fun a => a = fresh (entry a)) fun a => by rw [kept]

theorem clearYard_roster (y : Yard) : ∀ p ∈ (clearYard y).roster, p.2 = freshVehicle { day := 0, second := 0 } p.2.entry :=
  fresh_records y.roster (·.entry) (freshVehicle { day := 0, second := 0 }) fun _ => rfl

theorem clearYard_lanes (y : Yard) : ∀ p ∈ (clearYard y).lanes, p.2 = freshLane p.2.entry :=
  fresh_records y.lanes (·.entry) freshLane fun _ => rfl

theorem clearYard_freshIslands (y : Yard) : ∀ p ∈ (clearYard y).islands, p.2 = freshIsland p.2.entry :=
  fresh_records y.islands (·.entry) freshIsland fun _ => rfl

theorem clearYard_washLanes (y : Yard) : ∀ p ∈ (clearYard y).washLanes, p.2 = freshWash p.2.entry :=
  fresh_records y.washLanes (·.entry) freshWash fun _ => rfl

theorem clearYard_duties (y : Yard) : ∀ p ∈ (clearYard y).bankA ++ (clearYard y).bankB, p.2 = freshDuty p.2.entry := fun p among =>
  (List.mem_append.mp among).elim (fresh_records y.bankA (·.entry) freshDuty (fun _ => rfl) p)
    (fresh_records y.bankB (·.entry) freshDuty (fun _ => rfl) p)

theorem clearYard_bankA (y : Yard) : tmap (clearYard y).bankA (·.entry) = tmap y.bankA (·.entry) := by
  simp [clearYard, resetBanks, freshDuty]

theorem clearYard_bankB (y : Yard) : tmap (clearYard y).bankB (·.entry) = tmap y.bankB (·.entry) := by
  simp [clearYard, resetBanks, freshDuty]

theorem clearYard_image (k : Site) (y : Yard) (o p : Out) :
    imageOf { out := p, site := clearSite k, yard := { clearYard y with emits := [] } } =
      imageOf { out := o, site := k, yard := y } := by
  simp [imageOf, clearYard, clearSite, resetMouth, freshVehicle, freshLane, freshIsland, freshWash]

theorem namedConcentrators_clear (k : Site) : namedConcentrators (clearSite k).mouths = namedConcentrators k.mouths := by
  simp [namedConcentrators, clearSite, tmap, resetMouth, List.flatMap_map]

theorem tget_clearSite_concentrators (k : Site) (a : Nat) : tget (clearSite k).concentrators a =
    if namedIn k.mouths a = true then some { loops := 0, timer := some (k.now + setting k 8 * 100), silent := false }
    else none := by
  refine (tget_freshConcentrators _ a).trans ?_
  have named := namedConcentrators_clear k
  simp only [namedIn_iff, ← named]
  rfl

end Cleared

/-- Settles O60: the frames made, then the cleared desk field by field. -/
theorem yardClear : Obligations.YardClear := by
  intro s f rest head handed
  have clears : exec .yardClear s = .next (afterCommand s f rest (clearDesk (reservedDesk s)) .ok []) :=
    officeStep_answer (p := []) head head.ofKind rfl rfl
  have silent := handOverAll_fieldSide (k := s.site) (clearEmits_own (k := s.site) (y := s.yard))
    { reserveSlot s.out with held := [] }
  have side : FieldSide { reserveSlot s.out with held := [] } (handOver (clearSite s.site)
      (handOverAll s.site (clearEmits s.site s.yard) { reserveSlot s.out with held := [] }) (.boards [])) :=
    silent.trans (.updateBoards ..)
  rw [clearDesk_eq (reservedDesk s) handed] at clears
  refine ⟨_, clears, rfl, clearYard_image .., rfl, rfl, rfl, rfl, rfl, ?stations, ?mouths, ?concentrators, ?roster, ?lanes, rfl,
    rfl, rfl, rfl, rfl, ?islands, ?washes, ?duties, ?bankA, ?bankB, rfl, rfl, rfl, rfl, ?run, ?frames, ?reply⟩
  case stations => exact clearSite_stations s.site
  case mouths => exact clearSite_mouths s.site
  case concentrators =>
    intro a
    have record := tget_clearSite_concentrators s.site a
    exact ⟨fun named => record.trans (if_pos named), fun other => record.trans (if_neg (by simp [other]))⟩
  case roster =>
    intro p among
    rw [clearYard_roster s.yard p among]
    exact ⟨rfl, rfl, rfl, rfl, rfl, rfl, rfl, rfl, rfl, rfl⟩
  case lanes =>
    intro p among
    rw [clearYard_lanes s.yard p among]
    exact ⟨rfl, rfl, rfl, rfl⟩
  case islands => exact clearYard_freshIslands s.yard
  case washes => exact clearYard_washLanes s.yard
  case duties =>
    intro p among
    rw [clearYard_duties s.yard p among]
    exact ⟨rfl, rfl, rfl, rfl, rfl⟩
  case bankA => exact clearYard_bankA s.yard
  case bankB => exact clearYard_bankB s.yard
  case run => exact side.runCount
  case frames =>
    intro own stop abort made shown
    exact ⟨rfl, rfl, rfl⟩
  case reply =>
    have waits := congrArg (· ++ [{ cls := .reply, frame := replyFrame f.src f.dest f.kind .ok [] }]) side.officeQ
    refine waits.trans ?_
    rw [replyFrame, head.kind]
    rfl

end Sys2Proof.Machine

/-! The frame of the service reports and the timers, and the rows whose premise does not hold. -/

namespace Sys2Proof.Machine

/-! ## What the service reports and the yard timers may write -/

section Stays

variable {s t : State}

/-- The site, the office side of the receiver and the assemblies are as they were, and at most the head of field ingress has
been taken. -/
def SiteStays (s t : State) : Prop :=
  ∃ l o y, t = { s with rx := { s.rx with field := { s.rx.field with ingress := l } }, out := o, yard := y } ∧
    (l = s.rx.field.ingress ∨ l = s.rx.field.ingress.tail)

theorem SiteStays.of_idle (runs : (.next s : Host.Outcome State Fault Refusal) = .next t) : SiteStays s t := by
  obtain rfl := Host.Outcome.next.inj runs
  exact ⟨_, _, _, rfl, .inl rfl⟩

theorem SiteStays.of_onYard {g : Site → Yard → Yard} (runs : next s (onYard g s.desk) = .next t) : SiteStays s t := by
  obtain rfl := Host.Outcome.next.inj runs
  exact ⟨s.rx.field.ingress, _, _, rfl, .inl rfl⟩

theorem takeFieldFrame_site (act : FieldAct) (r : FieldRow) (f : Frame) (d : Desk) :
    (takeFieldFrame act r f d).site = (act r f d.site d.yard).1 := forward_site ..

/-- A field row whose owner keeps the site. -/
theorem SiteStays.of_fieldStep {wants : FieldRow → Bool} {act : FieldAct} (keeps : ∀ r f k y, (act r f k y).1 = k)
    (runs : fieldStep wants (takeFieldFrame act) s = .next t) : SiteStays s t := by
  obtain idle | ⟨f, rest, head, _, taken⟩ := fieldStep_cases wants (takeFieldFrame act) s
  · exact .of_idle (idle.symm.trans runs)
  · obtain rfl := Host.Outcome.next.inj (taken.symm.trans runs)
    have site := (takeFieldFrame_site act (classify s.site s.yard f) f s.desk).trans (keeps ..)
    generalize takeFieldFrame act (classify s.site s.yard f) f s.desk = d at site
    refine ⟨rest, d.out, d.yard, ?_, .inr (by rw [head]; rfl)⟩
    rewrite [State.withDesk, site]
    rfl

theorem takenReport_site (fleet : Option Nat) (k : Site) (y : Yard) (a : Acted) : (takenReport fleet k y a).1 = k := by
  unfold takenReport
  split <;> rfl

theorem islandReport_site (g : IslandAct) (r : FieldRow) (f : Frame) (k : Site) (y : Yard) : (islandReport g r f k y).1 = k := by
  unfold islandReport
  split
  · split
    · rfl
    · exact takenReport_site ..
  · rfl

theorem washReport_site (g : WashAct) (r : FieldRow) (f : Frame) (k : Site) (y : Yard) : (washReport g r f k y).1 = k := by
  unfold washReport
  split
  · split
    · rfl
    · exact takenReport_site ..
  · rfl

theorem SiteStays.of_islandStep {code : Nat} {g : IslandAct} (runs : islandStep code g s = .next t) : SiteStays s t :=
  .of_fieldStep (islandReport_site g) runs

theorem SiteStays.of_washStep {code : Nat} {g : WashAct} (runs : washStep code g s = .next t) : SiteStays s t :=
  .of_fieldStep (washReport_site g) runs

theorem SiteStays.of_islandExpiry {st : IslandState} {n : Nat} {g : Site → Island → Yard → Yard}
    (runs : islandExpiry st n g s = .next t) : SiteStays s t := by
  unfold islandExpiry at runs
  split at runs
  · exact .of_idle runs
  · split at runs
    · exact .of_idle runs
    · split at runs
      · exact .of_onYard runs
      · exact .of_idle runs

theorem SiteStays.of_washExpiry {st : WashState} {n : Nat} {g : Site → WashLane → Yard → Yard}
    (runs : washExpiry st n g s = .next t) : SiteStays s t := by
  unfold washExpiry at runs
  split at runs
  · exact .of_idle runs
  · split at runs
    · exact .of_idle runs
    · split at runs
      · exact .of_onYard runs
      · exact .of_idle runs

theorem SiteStays.of_transitTimeout (runs : exec .transitTimeout s = .next t) : SiteStays s t := by
  change execTransitTimeout s = .next t at runs
  unfold execTransitTimeout at runs
  split at runs
  · exact .of_idle runs
  · split at runs
    · exact .of_onYard runs
    · exact .of_idle runs

theorem SiteStays.of_pendingTimeout {n : Nat} (runs : exec (.pendingTimeout n) s = .next t) : SiteStays s t := by
  change execPendingTimeout n s = .next t at runs
  unfold execPendingTimeout at runs
  split at runs
  · exact .of_idle runs
  · split at runs
    · exact .of_onYard runs
    · exact .of_idle runs

theorem SiteStays.of_report {c : Instr} (listed : c ∈ [Instr.vehiclePresent, .nozzleLifted, .meterCount, .nozzleHung,
    .islandClear, .islandReportFault, .vehicleInPosition, .stageDone, .laneClear, .washReportFault, .transitTimeout])
    (runs : exec c s = .next t) : SiteStays s t := by
  simp only [List.mem_cons, List.not_mem_nil, or_false] at listed
  obtain rfl | rfl | rfl | rfl | rfl | rfl | rfl | rfl | rfl | rfl | rfl := listed
  · exact .of_islandStep runs
  · exact .of_islandStep runs
  · exact .of_islandStep runs
  · exact .of_islandStep runs
  · exact .of_islandStep runs
  · exact .of_islandStep runs
  · exact .of_washStep runs
  · exact .of_washStep runs
  · exact .of_washStep runs
  · exact .of_washStep runs
  · exact .of_transitTimeout runs

theorem SiteStays.of_timer {c : Instr} {n : Nat} (listed : c ∈ [Instr.arrivalTimerExpiry n, .authorisationTimerExpiry n,
    .flowStallTimerExpiry n, .callTimerExpiry n, .stageTimerExpiry n, .pendingTimeout n])
    (runs : exec c s = .next t) : SiteStays s t := by
  simp only [List.mem_cons, List.not_mem_nil, or_false] at listed
  obtain rfl | rfl | rfl | rfl | rfl | rfl := listed
  · exact .of_islandExpiry runs
  · exact .of_islandExpiry runs
  · exact .of_islandExpiry runs
  · exact .of_washExpiry runs
  · exact .of_washExpiry runs
  · exact .of_pendingTimeout runs

end Stays

/-! ## Field rows without their frame -/

section FieldRows

variable {s : State}

theorem tagRead_idle (absent : ¬∃ g rest st, TagHead s g rest st) : exec .tagRead s = .next s := by
  refine fieldStep_unwanted fun f rest head => ?_
  cases row : classify s.site s.yard f with
  | tagRead role sign =>
    obtain ⟨st, tag⟩ := TagHead.of_classify head row
    exact absurd ⟨f, rest, st, tag⟩ absent
  | loopState => rfl
  | island n code => rfl
  | wash n code => rfl
  | other => rfl

theorem loopState_idle (absent : ¬∃ g rest st, LoopHead s g rest st) : exec .loopState s = .next s := by
  show execLoopState s = _
  unfold execLoopState
  refine fieldStep_unwanted fun f rest head => beq_eq_false_iff_ne.mpr fun row => ?_
  obtain ⟨st, loop⟩ := LoopHead.of_classify head row
  exact absent ⟨f, rest, st, loop⟩

theorem islandStep_idle {code : Nat} {g : IslandAct} (absent : ¬∃ f rest st n i, IslandHead s f rest st n code i) :
    islandStep code g s = .next s := by
  refine fieldStep_unwanted fun f rest head => ?_
  cases row : classify s.site s.yard f with
  | island n c =>
    refine beq_eq_false_iff_ne.mpr fun same => ?_
    obtain ⟨st, i, report⟩ := IslandHead.of_classify head row
    exact absent ⟨f, rest, st, n, i, same ▸ report⟩
  | tagRead role sign => rfl
  | loopState => rfl
  | wash n c => rfl
  | other => rfl

theorem washStep_idle {code : Nat} {g : WashAct} (absent : ¬∃ f rest st n l, WashHead s f rest st n code l) :
    washStep code g s = .next s := by
  refine fieldStep_unwanted fun f rest head => ?_
  cases row : classify s.site s.yard f with
  | wash n c =>
    refine beq_eq_false_iff_ne.mpr fun same => ?_
    obtain ⟨st, l, report⟩ := WashHead.of_classify head row
    exact absent ⟨f, rest, st, n, l, same ▸ report⟩
  | tagRead role sign => rfl
  | loopState => rfl
  | island n c => rfl
  | other => rfl

theorem unprocessed_empty (empty : s.rx.field.ingress = []) : exec .unprocessedFieldFrame s = .next s := by
  show execUnprocessedFieldFrame s = _
  unfold execUnprocessedFieldFrame
  exact fieldStep_empty empty

/-- A frame that a row takes is not forwarded as nobody's. -/
theorem unprocessed_idle {f : Frame} {rest : List Frame} (head : s.rx.field.ingress = f :: rest)
    (taken : isUnprocessedRow (classify s.site s.yard f) = false) : exec .unprocessedFieldFrame s = .next s := by
  show execUnprocessedFieldFrame s = _
  unfold execUnprocessedFieldFrame
  exact fieldStep_leave head taken

end FieldRows

/-! ## Timers before their expiry -/

section Timers

variable {s : State}

theorem elapsed_false {k : Site} {started length : Nat} (early : k.now < started + length) : ¬elapsed k started length = true :=
  mt (elapsed_iff ..).mp (Nat.not_le_of_lt early)

theorem officeSend_idle (empty : s.out.officeQ = []) : exec .officeEgressSend s = .next s := by
  have unsent : officeSend s.site s.out = s.out := by simp [officeSend, arbitrate, officeHas, empty]
  exact congrArg (fun o => Host.Outcome.next { s with out := o }) unsent

theorem fieldSend_idle (empty : s.out.fieldQ = []) : exec .fieldEgressSend s = .next s := by
  have unsent : fieldSend s.site s.yard.callList s.out = s.out := by rw [fieldSend, empty]
  exact congrArg (fun o => Host.Outcome.next { s with out := o }) unsent

theorem noticeHold_idle (early : ∀ n l, s.out.notices = n :: l → s.site.now < n.joined + setting s.site 22 * 100) :
    exec .noticeHoldExpiry s = .next s := by
  show execNoticeHoldExpiry s = _
  unfold execNoticeHoldExpiry
  split
  · rfl
  · next n l oldest => exact if_neg (elapsed_false (early n l oldest))

theorem debounce_idle {m : Nat} (early : ∀ x st t, tget s.site.mouths m = some x → x.candidate = some (st, t) →
    s.site.now < t + debounceTicks x.entry.debounce) : exec (.debounceExpiry m) s = .next s := by
  show execDebounceExpiry m s = _
  unfold execDebounceExpiry
  split
  · rfl
  · next x found =>
    split
    · rfl
    · next st t candidate => exact if_neg (elapsed_false (early x st t found candidate))

theorem stuck_idle {m : Nat} (early : ∀ x t, tget s.site.mouths m = some x → x.stuck = some t →
    s.site.now < t + setting s.site 7 * 100) : exec (.stuckTimerExpiry m) s = .next s := by
  show execStuckTimerExpiry m s = _
  unfold execStuckTimerExpiry
  split
  · rfl
  · next x found =>
    split
    · rfl
    · next t stuck => exact if_neg (elapsed_false (early x t found stuck))

theorem silence_idle {a : Nat} (early : ∀ c t, tget s.site.concentrators a = some c → c.timer = some t → s.site.now < t) :
    exec (.silenceTimerExpiry a) s = .next s := by
  show execSilenceTimerExpiry a s = _
  unfold execSilenceTimerExpiry
  split
  · rfl
  · next c found =>
    split
    · rfl
    · next t timer => exact if_neg (elapsed_false (early c t found timer))

theorem pending_idle {n : Nat} (early : ∀ l p rest, tget s.yard.lanes n = some l → l.pendings = p :: rest →
    s.site.now < p.joined + setting s.site 9 * 6000) : exec (.pendingTimeout n) s = .next s := by
  show execPendingTimeout n s = _
  unfold execPendingTimeout
  split
  · rfl
  · next l found =>
    refine if_neg ?_
    unfold pendingDue
    split
    · exact Bool.false_ne_true
    · next p rest oldest => exact elapsed_false (early l p rest found oldest)

theorem transit_idle (early : ∀ e rest, s.yard.departing = e :: rest → s.site.now < e.started + setting s.site 10 * 6000) :
    exec .transitTimeout s = .next s := by
  show execTransitTimeout s = _
  unfold execTransitTimeout
  split
  · rfl
  · next e rest oldest => exact if_neg (elapsed_false (early e rest oldest))

theorem islandExpiry_idle {st : IslandState} {n : Nat} {g : Site → Island → Yard → Yard}
    (early : ∀ i t, tget s.yard.islands n = some i → i.timer = some t → i.state = st → s.site.now < t) :
    islandExpiry st n g s = .next s := by
  unfold islandExpiry
  split
  · rfl
  · next i found =>
    split
    · rfl
    · next t timer => exact if_neg fun due => Nat.not_le_of_lt (early i t found timer due.1) due.2

theorem washExpiry_idle {st : WashState} {n : Nat} {g : Site → WashLane → Yard → Yard}
    (early : ∀ l t, tget s.yard.washLanes n = some l → l.timer = some t → l.state = st → s.site.now < t) :
    washExpiry st n g s = .next s := by
  unfold washExpiry
  split
  · rfl
  · next l found =>
    split
    · rfl
    · next t timer => exact if_neg fun due => Nat.not_le_of_lt (early l t found timer due.1) due.2

theorem holdover_idle (early : ∀ t, s.site.clock.state = .locked → s.site.clock.holdover = some t →
    s.site.now < t + setting s.site 20 * 100) : exec .holdoverTimerExpiry s = .next s := by
  refine if_neg fun due => ?_
  obtain ⟨t, timer, elapsed⟩ := (holdoverDue_iff _).mp due.2
  exact Nat.not_le_of_lt (early t due.1 timer) elapsed

theorem commitComplete_idle (expired : ∀ c, s.site.commit = some c → c.started + 400 ≤ s.site.now) :
    exec .commitComplete s = .next s := by
  show execCommitComplete s = _
  unfold execCommitComplete
  split
  · rfl
  · next c flies => exact if_pos ((elapsed_iff ..).mpr (expired c flies))

theorem commitTimeout_idle (early : ∀ c, s.site.commit = some c → s.site.now < c.started + 400) :
    exec .commitTimeout s = .next s := by
  show execCommitTimeout s = _
  unfold execCommitTimeout
  split
  · rfl
  · next c flies => exact if_neg (elapsed_false (early c flies))

end Timers

/-! ## Commands another row takes -/

section Another

variable {s : State} {f : Frame} {rest : List Frame} {kind : Byte} {p : List Byte}

/-- A row that does not want the command at the head changes nothing. -/
theorem CommandHead.idle (h : CommandHead s f rest kind p) {wants : Frame → Bool} {lengthOk : Nat → Bool} {handler : Handler}
    (unwanted : wants f = false) : officeStep wants lengthOk handler s = .next s := by
  refine officeStep_leave (.inr fun f' rest' head' _ => ?_)
  rw [h.head] at head'
  obtain ⟨rfl, rfl⟩ := List.cons.inj head'
  exact unwanted

theorem CommandHead.ofCode_other (h : CommandHead s f rest kind p) {own : Byte} {i len code last : Nat} (fits : p.length = len)
    (least : 1 ≤ u8 p i) (most : u8 p i ≤ last) (other : u8 p i ≠ code) : Machine.ofCode own i len code last f = false := by
  rw [Bool.eq_false_iff, ne_eq, ofCode_iff, h.payload]
  omega

theorem CommandHead.isQuery_other (h : CommandHead s f rest kind p) {variant : Nat} (least : 1 ≤ p.length)
    (most : p.length ≤ 4) (low : 1 ≤ u8 p 0) (high : u8 p 0 ≤ 8) (other : u8 p 0 ≠ variant) : isQuery variant f = false := by
  rw [Bool.eq_false_iff]
  simp only [isQuery, h.payload, ne_eq, Bool.and_eq_true, Bool.or_eq_true, beq_iff_eq, decide_eq_true_eq]
  omega

theorem CommandHead.badKind_idle (h : CommandHead s f rest kind p) (low : 0x80 ≤ kind.toNat) (high : kind.toNat ≤ 0x8D) :
    exec .badKindCommand s = .next s :=
  h.idle (by simp [isCommandKind, h.kind, low, high])

end Another

/-- Settles O59: the rows that only take a frame or work on the yard, and each row whose premise does not hold. -/
theorem reportsFrame : Obligations.ReportsFrame := by
  refine ⟨fun c s t listed runs => ?frame, fun s => ?rows, fun s => ?timers, fun s toPart_ => ?toField,
    fun s f rest kind p head => ?commands⟩
  case frame =>
    have stays : SiteStays s t := listed.elim (.of_report · runs) fun ⟨n, timer⟩ => .of_timer timer runs
    obtain ⟨l, o, y, rfl, taken⟩ := stays
    exact ⟨rfl, rfl, rfl, rfl, rfl, taken⟩
  case rows =>
    intro keeps tag loop island wash
    refine ⟨tagRead_idle, loopState_idle, fun c code row absent => ?_, fun c code row absent => ?_, fun taken => ?_⟩
    · simp only [List.mem_cons, Prod.mk.injEq, List.not_mem_nil, or_false] at row
      obtain ⟨rfl, rfl⟩ | ⟨rfl, rfl⟩ | ⟨rfl, rfl⟩ | ⟨rfl, rfl⟩ | ⟨rfl, rfl⟩ | ⟨rfl, rfl⟩ := row <;>
        exact islandStep_idle absent
    · simp only [List.mem_cons, Prod.mk.injEq, List.not_mem_nil, or_false] at row
      obtain ⟨rfl, rfl⟩ | ⟨rfl, rfl⟩ | ⟨rfl, rfl⟩ | ⟨rfl, rfl⟩ := row <;> exact washStep_idle absent
    · obtain empty | ⟨f, rest, st, h⟩ | ⟨f, rest, st, h⟩ | ⟨code, low, high, f, rest, st, n, i, h⟩ |
        ⟨code, low, high, f, rest, st, n, l, h⟩ := taken
      · exact unprocessed_empty empty
      · exact unprocessed_idle h.head (by rw [h.classify]; rfl)
      · exact unprocessed_idle h.head (by rw [h.classify]; rfl)
      · exact unprocessed_idle h.head (by rw [h.classify]; simp [isUnprocessedRow]; omega)
      · exact unprocessed_idle h.head (by rw [h.classify]; simp [isUnprocessedRow]; omega)
  case timers =>
    intro keeps k now
    refine ⟨fieldSend_idle, officeSend_idle, noticeHold_idle, fun m => debounce_idle, fun m => stuck_idle,
      fun a => silence_idle, fun n => pending_idle, transit_idle, fun n c state row early => ?_,
      fun n c state row early => ?_, holdover_idle, commitComplete_idle, commitTimeout_idle⟩
    · simp only [List.mem_cons, Prod.mk.injEq, List.not_mem_nil, or_false] at row
      obtain ⟨rfl, rfl⟩ | ⟨rfl, rfl⟩ | ⟨rfl, rfl⟩ := row <;> exact islandExpiry_idle early
    · simp only [List.mem_cons, Prod.mk.injEq, List.not_mem_nil, or_false] at row
      obtain ⟨rfl, rfl⟩ | ⟨rfl, rfl⟩ := row <;> exact washExpiry_idle early
  case toField =>
    show execOfficeFrameToField s = _
    unfold execOfficeFrameToField
    split
    · rfl
    · next f rest head => exact if_pos (beq_iff_eq.mpr (toPart_ f rest head))
  case commands =>
    intro keeps another
    refine ⟨head.badKind_idle, fun c code row _ fits least most other => ?_, fun c code row _ fits least most other => ?_,
      fun c code row _ fits least most other => ?_, fun c code row _ short long least most other => ?_⟩
    · simp only [List.mem_cons, Prod.mk.injEq, List.not_mem_nil, or_false] at row
      obtain ⟨rfl, rfl⟩ | ⟨rfl, rfl⟩ | ⟨rfl, rfl⟩ := row <;> exact head.idle (head.ofCode_other fits least most other)
    · simp only [List.mem_cons, Prod.mk.injEq, List.not_mem_nil, or_false] at row
      obtain ⟨rfl, rfl⟩ | ⟨rfl, rfl⟩ | ⟨rfl, rfl⟩ := row <;> exact head.idle (head.ofCode_other fits least most other)
    · simp only [List.mem_cons, Prod.mk.injEq, List.not_mem_nil, or_false] at row
      obtain ⟨rfl, rfl⟩ | ⟨rfl, rfl⟩ | ⟨rfl, rfl⟩ | ⟨rfl, rfl⟩ | ⟨rfl, rfl⟩ := row <;>
        exact head.idle (head.ofCode_other fits least most other)
    · simp only [List.mem_cons, Prod.mk.injEq, List.not_mem_nil, or_false] at row
      obtain ⟨rfl, rfl⟩ | ⟨rfl, rfl⟩ | ⟨rfl, rfl⟩ | ⟨rfl, rfl⟩ | ⟨rfl, rfl⟩ | ⟨rfl, rfl⟩ | ⟨rfl, rfl⟩ | ⟨rfl, rfl⟩ := row <;>
        exact head.idle (head.isQuery_other short long least most other)

end Sys2Proof.Machine
